-- ==== Sys2Proof/Word.lean ====
section
/-! DEFINITION. Word types of the package and their plainest arithmetic (R5, R6). -/

namespace Sys2Proof

/-- A scalar register (R51). -/
abbrev Word := BitVec 64
/-- A vector word (R54). -/
abbrev Word32 := BitVec 32
/-- One byte of memory (R5). -/
abbrev Byte := BitVec 8
/-- The 128 bytes of a cache line, byte k in bits 8k+7 to 8k (R99). -/
abbrev LineData := BitVec 1024
/-- A mask of lanes, bit l for lane l (R21). -/
abbrev LaneMask := BitVec 32
/-- A scalar register number (R179). -/
abbrev Reg := BitVec 5

/-- Registers kept sparsely: number and value, numbers rising, no entry equal to zero. -/
abbrev SMap (w : Nat) := List (Nat × BitVec w)
/-- Objects by number, numbers rising. -/
abbrev FMap (α : Type) := List (Nat × α)

/-- Bits hi down to lo of a word, as a number (R6). -/
def bitsOf {w : Nat} (x : BitVec w) (hi lo : Nat) : Nat := x.toNat / 2 ^ lo % 2 ^ (hi + 1 - lo)

/-- One bit of a word (R6). -/
def bitOf {w : Nat} (x : BitVec w) (i : Nat) : Bool := x.getLsbD i

end Sys2Proof
end

