-- ==== Sys2Proof/Syntax.lean ====
section
/-! DEFINITION. The instructions of the machine: one constructor of `Instr` for each row of the opcode table, and
the types of their operands.  Words of the three streams (R178 to R197) come first, then the steps of hardware units
and the inputs from outside, which the table lists as events. -/

namespace Sys2Proof

/-- Integer element types (R189, mod4 codes 0 to 7). -/
inductive ITy | i8 | i16 | i32 | i64 | n8 | n16 | n32 | n64
  deriving DecidableEq, Repr

/-- Floating element types of the lanes (R189, mod4 codes 8 to 10). -/
inductive FTy | f32 | f16 | bf16
  deriving DecidableEq, Repr

/-- Element types of the lanes (R189). -/
inductive ETy | int (t : ITy) | fp (t : FTy)
  deriving DecidableEq, Repr

/-- Rounding codes (R81); code 6 does not exist. -/
inductive Rnd | rne | rtz | rup | rdn | rna | sr | dyn
  deriving DecidableEq, Repr

/-- Formats of the scalar floating words (R182). -/
inductive SFmt | f32 | f16 | bf16 | f64
  deriving DecidableEq, Repr

/-- Scopes (R150), in the order of their codes 0 to 6. -/
inductive Scope | grp | blk | col | die | pkg | dom | sys
  deriving DecidableEq, Repr

/-- Semantics codes (R183): plain, acquire, release, both. -/
inductive Sem | plain | acq | rel | ar
  deriving DecidableEq, Repr

/-- Types of MEM words (R183). -/
inductive MemTy | i8 | i16 | i32 | i64 | n8 | n16 | n32
  deriving DecidableEq, Repr

/-- Types of `fcvt` (R182). -/
inductive CvtTy | f64 | f32 | f16 | bf16 | i32 | i64 | n32 | n64
  deriving DecidableEq, Repr

/-- Conditions of `fcmp` (R182). -/
inductive FCond | eq | ne | lt | le
  deriving DecidableEq, Repr

/-- Conditions of `vcmp` and `vfcmp` (R190). -/
inductive Cond | eq | ne | lt | le | gt | ge
  deriving DecidableEq, Repr

/-- Formats of a commutative range (R184, R292). -/
inductive CrTy | f32 | bf16 | i32
  deriving DecidableEq, Repr

/-- Header of a lane word (R186): the run boundary B, the predicate and its inversion.  The safe-point bit S, with
the mask word that follows (R195), is read by the fetch beside the instruction. -/
structure LaneHdr where
  boundary : Bool
  pred : BitVec 3
  neg : Bool
  deriving DecidableEq, Repr

/-- Operand of a lane word (R57). -/
inductive Operand
  | word (n : BitVec 8)
  | byte (n : BitVec 8) (k : BitVec 2)
  | half (n : BitVec 8) (k : BitVec 1)
  /-- The pair of words 2n and 2n + 1. -/
  | pair (n : BitVec 7)
  | tile (t : BitVec 4) (c : BitVec 5)
  | acc (a : BitVec 3) (c : BitVec 5)
  | queue (q : BitVec 3) (pk : BitVec 2)
  | opf (i : BitVec 3)
  | lr
  | imm (v : BitVec 10)
  deriving DecidableEq, Repr

/-- Where a compare writes (R249): a predicate (W = 0) or an element (W = 1). -/
inductive CmpDst | pred (p : BitVec 3) | elem (d : Operand)
  deriving DecidableEq, Repr

/-- Types of `vli` (R251). -/
inductive LiTy | i32 | n32 | f32
  deriving DecidableEq, Repr

/-- Variants of binary8 (R73): signed finite, signed with infinities, unsigned finite, unsigned with infinity. -/
inductive B8Var | sf | si | nf | ni
  deriving DecidableEq, Repr

/-- Element formats (R73). -/
inductive Fmt | f32 | f16 | bf16 | f64 | int (t : ITy) | b8 (v : B8Var) (p : BitVec 3)
  deriving DecidableEq, Repr

/-- Modes of `vshfl` (R261). -/
inductive ShMode | up | down | xor | idx
  deriving DecidableEq, Repr

/-- Operations of `vlred`, `vscan` and `vmred` (R263). -/
inductive RedOp | add | min | max | and | or | xor
  deriving DecidableEq, Repr

/-- Modes of `vvote` (R264). -/
inductive VoteMode | any | all | uni
  deriving DecidableEq, Repr

/-- Types of lane atomics (R284). -/
inductive AtTy | i32 | i64 | n32 | n64 | f32
  deriving DecidableEq, Repr

/-- Atomic operations (R183). -/
inductive AmoOp | swap | add | and | or | xor | minI | maxI | minN | maxN | fadd
  deriving DecidableEq, Repr

/-- Kinds of fence (R287). -/
inductive FenceKind | full | acq | rel
  deriving DecidableEq, Repr

/-- Half operations of the paired form (R192). -/
inductive PairOp
  | vadd | vsub | vand | vor | vxor | vandn | vshl | vshr | vsra | vminI | vminN | vmaxI | vmaxN | vmov
  | vcmpI | vcmpN | vfadd | vfsub | vfmin | vfmax | vfcmp
  | vmul | vmulhI | vmulhN | vmad | vfmul | vffma
  deriving DecidableEq, Repr

/-- One half of a paired word (R191). -/
structure HalfOp where
  op : PairOp
  /-- Rounding or condition (R192). -/
  mod2 : BitVec 2
  d : Operand
  a : Operand
  b : Operand
  deriving DecidableEq, Repr

/-- Who moves in a step: a host thread, the scalar stream of a group, one gang of a group (by its lowest slice), the
sequencer of a block. -/
inductive AgentId
  | host (col : Nat) (t : Bool)
  | group (g : Nat)
  | gang (g k : Nat)
  | seq (b : Nat)
  deriving DecidableEq, Repr

/-- A region of power gating (R485): a lane pipe, the special-function units, the matrix engine, or 64 KiB of register
banks (base sets 0 to 3, extended chunks 4 to 7, handler banks 8 and 9), operand files, accumulator rows or scratchpad
units of a core; or two ways of a column slice. -/
inductive PowerRegion
  | lanePipe (core p : Nat) | sfu (core : Nat) | matrix (core : Nat) | regBanks (core k : Nat) | opFiles (core : Nat)
  | accRows (core k : Nat) | spmUnits (core k : Nat) | sliceWays (col k : Nat)
  deriving DecidableEq, Repr

/-- What enters and leaves Winter as one: a bank of register storage, of operand files or of accumulator memory (R67), or the
array of another power region (R485). -/
inductive Bank
  | base (core slot : Nat) | chunk (core k : Nat) | opfile (core slot : Nat)
  | handler (core slot : Nat) (monitor : Bool) | accRows (core k : Nat) | array (p : PowerRegion)
  deriving DecidableEq, Repr

/-- A launch packet of a peer package (R419): its source, target, BARRIER bit, tag, whether a reserved bit is set,
and its 256-byte record. -/
structure LaunchPacket where
  src : BitVec 16
  column : BitVec 8
  queue : BitVec 8
  flags : BitVec 8
  resv : BitVec 24
  seq : Word
  record : List Byte
  deriving DecidableEq, Repr

/-- What a request of another package asks at the home (R472, R473). -/
inductive DomainAct
  | read (bytes : Nat)
  | write (bytes : Nat) (v : Word)
  | atomic (op : AmoOp) (w64 : Bool) (v : Word)
  | cas (w64 : Bool) (expected new : Word)
  | clean (persist : Bool)
  deriving DecidableEq, Repr

/-- A request that another package of the domain sends here (R472 to R474): its source, tag, address and act, and
whether it is a retry of a request sent before. -/
structure DomainReq where
  src : BitVec 16
  tag : Word
  va : Word
  act : DomainAct
  deriving DecidableEq, Repr

/-- An event of a CXL port's dynamic capacity, as the management core logs it (R461): the partition that is told, whether
capacity is offered or asked back, its device address and length, FLAGS, the device's region and its tag. -/
structure DcEvent where
  part : Nat
  port : Nat
  release : Bool
  base : Nat
  len : Nat
  shared : Bool
  persist : Bool
  region : BitVec 8
  tag : BitVec 128
  deriving DecidableEq, Repr

/-- What goes wrong at one access of a channel: nothing, an error that the code corrects or one that it does not (R454, R456), or
a request that the stack finds malformed (R449). -/
inductive EccFlaw | none | corrected | uncorrectable | malformed
  deriving DecidableEq, Repr

/-- A hardware error of the package's arrays and what it strikes (R68, R445): a single-bit error that SECDED corrects in a
unit of R446; a double-bit error in a clean copy, in pinned code, in a dirty line held under a sharer code or at its home,
or in a scratchpad line of a block; a parity error that passes when repeated; one that does not, in a unit's lanes; and a
double-bit accumulator error that a block's sequencer meets; a half of a line that a CXL device returns poisoned (R458); and
whether a CXL device reports that a flush of it fails (R464). -/
inductive SoftErr
  | corrected (unit col core : Nat) | cleanCopy (sharer line : Nat) | code (col core : Nat)
  | dirtyCopy (sharer line : Nat) | dirtyHome (line : Nat) | scratch (block off : Nat)
  | parityPassed (group : Nat) | parityFailed (group unit : Nat) (lanes : BitVec 32) | seqParity (block : Nat)
  | deviceHalf (line : Nat) | deviceFlush (port : Nat) (ok : Bool)
  deriving DecidableEq, Repr

/-- One sample of the sensors (R454, R488): each column's hottest one in degrees, the module's power in watts, and the stacks' own
in degrees. -/
structure PowerSample where
  temps : List Nat
  watts : Nat
  stackTemps : List Nat := []
  deriving DecidableEq, Repr

/-- What Autumn sets for one column (R496): its logical number, the setpoint in millivolts over nominal, DROOP_THR.MV
of each of its compute cores, BUDGET_CAP, and whether the monitors ask for more than 30 mV. -/
structure AutumnStep where
  col : Nat
  setpoint : Nat
  mv : List Nat
  cap : Nat
  beyond : Bool
  deriving DecidableEq, Repr

/-- A root capability that boot mints (R389, R499): its entry, TYPE, RIGHTS, OBJECT, LIMIT and HOLDER. -/
structure RootCap where
  index : Nat
  type : Nat
  rights : BitVec 16
  object : Word
  limit : Word
  holder : Word
  deriving DecidableEq, Repr

/-- A partition as firmware forms it (R478, R499): its logical columns, ASIDs, window and capacity registers, and root
capabilities. -/
structure BootPart where
  cols : List Nat
  asidLo : Nat
  asidCount : Nat
  twCfg : Word
  cxlCfg : Word
  roots : List RootCap
  deriving DecidableEq, Repr

/-- What boot finds after cold reset (R499): the ROM, the carrier's flash, the outcome of training and self-tests, the
fused values, and the configuration that firmware carries out. -/
structure BootImage where
  rom : List Byte
  /-- The ROM's own digest agrees. -/
  romOk : Bool
  /-- The firmware image, which ends with its signature (R500). -/
  image : List Byte
  /-- Digest of the key held in fuses. -/
  fusedDigest : List Byte
  rollback : Nat
  secret : List Byte
  config : List Byte
  /-- Links, stacks and ports trained; every live unit passing its self-test; the PCIe link up. -/
  trainingOk : Bool
  selfTestOk : Bool
  linkOk : Bool
  /-- Physical columns, compute cores and die links fused off. -/
  fusedCols : List Nat
  fusedCores : List Nat
  fusedLinks : List Nat
  parts : List BootPart
  /-- What firmware sets of every logical column: MON_VEC of its host core, BUDGET_CAP, HOST_CLK.CAP_MHZ; and of every logical
  compute core: MON_VEC and DROOP_THR.MV (R499). -/
  hostVec : List Word
  budgetCap : List Nat
  capMhz : List Nat
  coreVec : List Word
  droopMv : List Nat
  /-- Bits set in B0 and B1 of each pseudo-channel, from the stacks' retention profiles (R455). -/
  profile : List (Nat × List Nat × List Nat)
  order : Word
  serial : Word
  domain : Nat
  /-- CXL ports that are up, and those whose device keeps its contents. -/
  cxlUp : List Bool
  persistent : List Bool
  /-- Bytes that the boot configuration sets up in memory, by cell address. -/
  memory : List (Nat × Byte)
  deriving DecidableEq, Repr

/-- The instructions, in the order of the opcode table but for the words without operands. -/
inductive Instr
  -- Scalar words, INT family (R181).
  | add (d a b : Reg)
  | sub (d a b : Reg)
  | mul (d a b : Reg)
  | mulhI (d a b : Reg)
  | mulhN (d a b : Reg)
  | divI (d a b : Reg)
  | divN (d a b : Reg)
  | remI (d a b : Reg)
  | remN (d a b : Reg)
  | and (d a b : Reg)
  | or (d a b : Reg)
  | xor (d a b : Reg)
  | andn (d a b : Reg)
  | shl (d a b : Reg)
  | shr (d a b : Reg)
  | sra (d a b : Reg)
  | rol (d a b : Reg)
  | minI (d a b : Reg)
  | minN (d a b : Reg)
  | maxI (d a b : Reg)
  | maxN (d a b : Reg)
  | sltI (d a b : Reg)
  | sltN (d a b : Reg)
  | seq (d a b : Reg)
  | sel (d a b c : Reg)
  | clz (d a : Reg)
  | ctz (d a : Reg)
  | popc (d a : Reg)
  | bswap (d a : Reg)
  | bextI (d a b : Reg)
  | bextN (d a b : Reg)
  | bins (d a b : Reg)
  | lea (d a b : Reg) (s : BitVec 2)
  -- Immediate forms and constants (R180).
  | addImm (d a : Reg) (i : BitVec 16)
  | mulImm (d a : Reg) (i : BitVec 16)
  | andImm (d a : Reg) (i : BitVec 16)
  | orImm (d a : Reg) (i : BitVec 16)
  | xorImm (d a : Reg) (i : BitVec 16)
  | sltIImm (d a : Reg) (i : BitVec 16)
  | sltNImm (d a : Reg) (i : BitVec 16)
  | seqImm (d a : Reg) (i : BitVec 16)
  | shlImm (d a : Reg) (n : BitVec 6)
  | shrImm (d a : Reg) (n : BitVec 6)
  | sraImm (d a : Reg) (n : BitVec 6)
  | rolImm (d a : Reg) (n : BitVec 6)
  | li (d : Reg) (i : BitVec 16)
  | liIns (d : Reg) (k : BitVec 2) (i : BitVec 16)
  | pcrel (d : Reg) (o : BitVec 21)
  -- Control transfers (R180).
  | brEq (a b : Reg) (o : BitVec 12)
  | brNe (a b : Reg) (o : BitVec 12)
  | brLt (a b : Reg) (o : BitVec 12)
  | brGe (a b : Reg) (o : BitVec 12)
  | brLtN (a b : Reg) (o : BitVec 12)
  | brGeN (a b : Reg) (o : BitVec 12)
  | loop (a : Reg) (o : BitVec 12)
  | jmp (o : BitVec 26)
  | call (o : BitVec 26)
  | jr (d a : Reg) (i : BitVec 16)
  -- Plain loads and stores (R278).
  | ldI8 (d a : Reg) (i : BitVec 16)
  | ldI16 (d a : Reg) (i : BitVec 16)
  | ldI32 (d a : Reg) (i : BitVec 16)
  | ldI64 (d a : Reg) (i : BitVec 16)
  | ldN8 (d a : Reg) (i : BitVec 16)
  | ldN16 (d a : Reg) (i : BitVec 16)
  | ldN32 (d a : Reg) (i : BitVec 16)
  | st8 (d a : Reg) (i : BitVec 16)
  | st16 (d a : Reg) (i : BitVec 16)
  | st32 (d a : Reg) (i : BitVec 16)
  | st64 (d a : Reg) (i : BitVec 16)
  -- MEM and ATOM words (R183).
  | ldOrdered (d a : Reg) (sc : Scope) (acq : Bool) (t : MemTy)
  | stOrdered (a b : Reg) (sc : Scope) (rel : Bool) (t : MemTy)
  | ldw (d a : Reg) (sc : Scope) (acq : Bool) (t : MemTy)
  | pf (a : Reg)
  | cln (a : Reg)
  | clnPersist (a : Reg)
  | fence (sc : Scope)
  | fenceAcq (sc : Scope)
  | fenceRel (sc : Scope)
  | amoSwap (d a b : Reg) (sc : Scope) (sem : Sem) (w64 : Bool)
  | amoAdd (d a b : Reg) (sc : Scope) (sem : Sem) (w64 : Bool)
  | amoAnd (d a b : Reg) (sc : Scope) (sem : Sem) (w64 : Bool)
  | amoOr (d a b : Reg) (sc : Scope) (sem : Sem) (w64 : Bool)
  | amoXor (d a b : Reg) (sc : Scope) (sem : Sem) (w64 : Bool)
  | amoMinI (d a b : Reg) (sc : Scope) (sem : Sem) (w64 : Bool)
  | amoMaxI (d a b : Reg) (sc : Scope) (sem : Sem) (w64 : Bool)
  | amoMinN (d a b : Reg) (sc : Scope) (sem : Sem) (w64 : Bool)
  | amoMaxN (d a b : Reg) (sc : Scope) (sem : Sem) (w64 : Bool)
  | amoFadd (d a b : Reg) (sc : Scope) (sem : Sem) (w64 : Bool)
  | cas (d a b : Reg) (sc : Scope) (sem : Sem) (w64 : Bool)
  | cst (d a : Reg) (sc : Scope) (rel : Bool)
  -- Floating-point words (R182).
  | fadd (d a b : Reg) (r : Rnd) (f : SFmt)
  | fsub (d a b : Reg) (r : Rnd) (f : SFmt)
  | fmul (d a b : Reg) (r : Rnd) (f : SFmt)
  | fdiv (d a b : Reg) (r : Rnd) (f : SFmt)
  | fsqrt (d a : Reg) (r : Rnd) (f : SFmt)
  | fmin (d a b : Reg) (f : SFmt)
  | fmax (d a b : Reg) (f : SFmt)
  | fcmp (d a b : Reg) (f : SFmt) (k : FCond)
  | fcls (d a : Reg) (f : SFmt)
  | fma (d a b c : Reg) (r : Rnd) (f : SFmt)
  | fcvt (d a : Reg) (r : Rnd) (ovf : Bool) (t s : CvtTy)
  -- LANE, CSR and SYS words, `safe` (R184).
  | lxImm (a : Reg) (n : BitVec 6)
  | lxReg (d a : Reg)
  | lpoll (d : Reg)
  | csrr (d : Reg) (n : BitVec 12)
  | csrw (a : Reg) (n : BitVec 12)
  | csrs (d a : Reg) (n : BitVec 12)
  | svc (k : BitVec 12)
  | brk (k : BitVec 12)
  | tstamp (d : Reg)
  | cyc (d : Reg)
  | wkGet (d e : Reg)
  | safe (m : BitVec 25)
  -- SUBS and SPM words (R184).
  | subSubscription (d a b : Reg)
  | unsub (d a b : Reg)
  | subup (d a b : Reg)
  | crSet (a b : Reg)
  | crEnd (a : Reg)
  | radd (a b : Reg) (t : CrTy)
  | spmMap (d a b : Reg)
  | spmMapFill (d a b : Reg)
  | spmUnmap (a : Reg)
  -- BAR and MPX words (R184).
  | barInit (a : Reg) (n : BitVec 6)
  | barArr (n : BitVec 6)
  | barExp (a : Reg) (n : BitVec 6)
  | barWait (q : Bool) (n : BitVec 6)
  | barTry (d : Reg) (q : Bool) (n : BitVec 6)
  | monArm (d a : Reg)
  | portCfg (e : Bool)
  | xacq (n : BitVec 5)
  | xrel (n : BitVec 5)
  -- Engine and TID words (R184).
  | cp (d a b : Reg) (sc : Scope)
  | cpColl (d a b : Reg) (sc : Scope)
  | gth (d a b : Reg) (sc : Scope)
  | scat (d a b : Reg) (sc : Scope)
  | redcp (d a b : Reg) (sc : Scope)
  | mcast (d a b : Reg) (sc : Scope)
  | dcoll (d a b : Reg) (sc : Scope)
  | tidSet (a : Reg) (n : BitVec 6)
  | tidGet (d : Reg) (n : BitVec 6)
  | tidInv (n : BitVec 6)
  -- March words (R184).
  | xfer (a : Reg)
  | xcall (d a : Reg)
  | xret (a : Reg)
  | segWho (d a : Reg)
  -- Privileged words (R398).
  | tret (a : Reg)
  | ctxSave (d a : Reg)
  | ctxLoad (d a : Reg)
  | capMint (d a : Reg)
  | capDrop (d a : Reg)
  | tlbInv (d a : Reg)
  | hmtSet (d a : Reg)
  | segMap (d a : Reg)
  | actSet (d a : Reg)
  | evqSet (d a : Reg)
  -- Lane words, integer (R243).
  | vadd (h : LaneHdr) (t : ITy) (d a b : Operand)
  | vsub (h : LaneHdr) (t : ITy) (d a b : Operand)
  | vmul (h : LaneHdr) (t : ITy) (d a b : Operand)
  | vmulh (h : LaneHdr) (t : ITy) (d a b : Operand)
  | vmad (h : LaneHdr) (t : ITy) (d a b c : Operand)
  | vabsd (h : LaneHdr) (t : ITy) (d a b : Operand)
  | vmin (h : LaneHdr) (t : ITy) (d a b : Operand)
  | vmax (h : LaneHdr) (t : ITy) (d a b : Operand)
  | vadds (h : LaneHdr) (t : ITy) (d a b : Operand)
  | vsubs (h : LaneHdr) (t : ITy) (d a b : Operand)
  | vand (h : LaneHdr) (t : ITy) (d a b : Operand)
  | vor (h : LaneHdr) (t : ITy) (d a b : Operand)
  | vxor (h : LaneHdr) (t : ITy) (d a b : Operand)
  | vandn (h : LaneHdr) (t : ITy) (d a b : Operand)
  | vshl (h : LaneHdr) (t : ITy) (d a b : Operand)
  | vshr (h : LaneHdr) (t : ITy) (d a b : Operand)
  | vsra (h : LaneHdr) (t : ITy) (d a b : Operand)
  | vclz (h : LaneHdr) (t : ITy) (d a : Operand)
  | vctz (h : LaneHdr) (t : ITy) (d a : Operand)
  | vpopc (h : LaneHdr) (t : ITy) (d a : Operand)
  | vbrev (h : LaneHdr) (t : ITy) (d a : Operand)
  | vbext (h : LaneHdr) (t : ITy) (d a b : Operand)
  | vcmp (h : LaneHdr) (t : ITy) (k : Cond) (d : CmpDst) (a b : Operand)
  | vsel (h : LaneHdr) (t : ETy) (d a b : Operand) (p : BitVec 3) (n : Bool)
  | vmov (h : LaneHdr) (t : ETy) (d a : Operand)
  | vli (h : LaneHdr) (t : LiTy) (d : Operand) (k : Word32)
  | vext (h : LaneHdr) (t s : ITy) (d a : Operand)
  | vnrw (h : LaneHdr) (t s : ITy) (sat : Bool) (d a : Operand)
  -- Lane words, floating (R243).
  | vfadd (h : LaneHdr) (t : FTy) (r : Rnd) (d a b : Operand)
  | vfsub (h : LaneHdr) (t : FTy) (r : Rnd) (d a b : Operand)
  | vfmul (h : LaneHdr) (t : FTy) (r : Rnd) (d a b : Operand)
  | vffma (h : LaneHdr) (t : FTy) (r : Rnd) (d a b c : Operand)
  | vfmin (h : LaneHdr) (t : FTy) (d a b : Operand)
  | vfmax (h : LaneHdr) (t : FTy) (d a b : Operand)
  | vfcmp (h : LaneHdr) (t : FTy) (k : Cond) (d : CmpDst) (a b : Operand)
  | vfrcp (h : LaneHdr) (t : FTy) (d a : Operand)
  | vfrsq (h : LaneHdr) (t : FTy) (d a : Operand)
  | vfex2 (h : LaneHdr) (t : FTy) (d a : Operand)
  | vflg2 (h : LaneHdr) (t : FTy) (d a : Operand)
  | vfsin (h : LaneHdr) (t : FTy) (d a : Operand)
  | vfcos (h : LaneHdr) (t : FTy) (d a : Operand)
  | vftnh (h : LaneHdr) (t : FTy) (d a : Operand)
  | vfcvt (h : LaneHdr) (ovf : Bool) (r : Rnd) (s t : Fmt) (d a : Operand)
  | vfcls (h : LaneHdr) (t : FTy) (d a : Operand)
  | vfdot2 (h : LaneHdr) (bf : Bool) (r : Rnd) (d a b c : Operand)
  | vfdot4 (h : LaneHdr) (v : B8Var) (p : BitVec 3) (r : Rnd) (d a b c : Operand)
  | vfscl (h : LaneHdr) (t : FTy) (r : Rnd) (d a b : Operand)
  -- Lane words, cross-lane and predicates (R243).
  | vshfl (h : LaneHdr) (t : ETy) (m : ShMode) (d a b : Operand)
  | vbcast (h : LaneHdr) (t : ETy) (d a b : Operand)
  | vlred (h : LaneHdr) (t : ETy) (o : RedOp) (r : Rnd) (d a : Operand)
  | vscan (h : LaneHdr) (t : ETy) (o : RedOp) (r : Rnd) (d a : Operand)
  | vmred (h : LaneHdr) (t : ETy) (o : RedOp) (r : Rnd) (p : BitVec 3) (d a b : Operand)
  | vballot (h : LaneHdr) (w64 : Bool) (p : BitVec 3) (d : Operand)
  | vvote (h : LaneHdr) (m : VoteMode) (p q : BitVec 3)
  | vlid (h : LaneHdr) (d : Operand)
  | pand (h : LaneHdr) (pd pa pb : BitVec 3) (na nb : Bool)
  | por (h : LaneHdr) (pd pa pb : BitVec 3) (na nb : Bool)
  | pxor (h : LaneHdr) (pd pa pb : BitVec 3) (na nb : Bool)
  | pnot (h : LaneHdr) (pd pa : BitVec 3) (na : Bool)
  | pmov (h : LaneHdr) (pd pa : BitVec 3) (na : Bool)
  -- Lane control (R267 to R271).
  | lbr (p : BitVec 3) (n : Bool) (all : Bool) (o : BitVec 25)
  | ljmp (o : BitVec 25)
  | regang (k : BitVec 4)
  | lnop (h : LaneHdr)
  | vwSet (h : LaneHdr) (v : BitVec 5) (a : Operand)
  -- Lane memory and barrier words (R188).
  | vld (h : LaneHdr) (t : ETy) (sc : Scope) (acq : Bool) (o : BitVec 12) (d a : Operand)
  | vst (h : LaneHdr) (t : ETy) (sc : Scope) (rel : Bool) (o : BitVec 12) (a b : Operand)
  | vamo (h : LaneHdr) (t : AtTy) (op : AmoOp) (sc : Scope) (sem : Sem) (o : BitVec 12) (d a b : Operand)
  | vcas (h : LaneHdr) (t : AtTy) (sc : Scope) (sem : Sem) (o : BitVec 12) (d a b c : Operand)
  | vtld (h : LaneHdr) (v : BitVec 4) (k : BitVec 8) (n : BitVec 6)
  | vtst (h : LaneHdr) (v : BitVec 4) (k : BitVec 8) (n : BitVec 6)
  | laneFence (h : LaneHdr) (sc : Scope) (k : FenceKind)
  | laneRadd (h : LaneHdr) (t : CrTy) (a b : Operand)
  | laneBarArr (h : LaneHdr) (n : BitVec 6)
  | laneBarExp (h : LaneHdr) (n : BitVec 6) (b : Operand)
  | laneBarWait (h : LaneHdr) (n : BitVec 6) (q : Bool)
  | laneBarTry (h : LaneHdr) (n : BitVec 6) (q : Bool) (p : BitVec 3)
  -- The paired form (R191).
  | pairedWord (h : LaneHdr) (x y : HalfOp)
  -- Matrix words (R306).
  | mls (ta : BitVec 6) (mi : BitVec 4) (dk dn : BitVec 16)
  | mst (ta : BitVec 6) (mi : BitVec 4) (row count : BitVec 11) (acct : Bool)
  | mzr (row count : BitVec 11)
  | mdr (tb : BitVec 6) (mi : BitVec 4) (row count : BitVec 11) (r : Rnd) (ovf clr : Bool) (sh : BitVec 5)
  | mspn (n : BitVec 8) (lead : BitVec 2)
  | mbarr (b : BitVec 8)
  | mbwt (b : BitVec 8) (q : Bool)
  | mset (mi : BitVec 4) (hi : Bool) (v : BitVec 31)
  | madd (mi : BitVec 4) (hi : Bool) (v : BitVec 31)
  | mloop (mi : BitVec 4) (o : BitVec 32)
  | mjmp (o : BitVec 32)
  -- Steps and inputs that the table lists without an encoding: ports, register accesses, debugger.
  | portSend (v : Word)
  | portReceive (d : Reg)
  | fcsrWrite (v : Word)
  | segHotClear (n : BitVec 8)
  | colPwrFloorWrite (v : BitVec 3)
  | hostClkReqWrite (mhz : BitVec 16)
  | registerWrite (n : BitVec 12) (v : Word)
  | debuggerRead (g : Nat) (l : BitVec 5) (n : BitVec 8)
  | debuggerWrite (g : Nat) (l : BitVec 5) (n : BitVec 8) (v : Word32)
  | faultRecordRetry (n : Nat)
  | pageFaultReplay (a : AgentId)
  -- Issue arbitration and power of banks.
  | runForcedEnd (g k : Nat)
  | runSplit (g k : Nat)
  | runPromotion (g k : Nat)
  | xacqGrant (b : Nat)
  | winterEntry (b : Bank)
  | powerGate (p : PowerRegion)
  | spring (p : PowerRegion)
  -- The memory system.
  | storeDrain (a : AgentId)
  | writeAtHome (m : Nat)
  | writeAck (m : Nat)
  | fillReceive (m : Nat)
  | invalidationReceive (m : Nat)
  | updateReceive (m : Nat)
  | cacheEviction (hd line : Nat)
  | evictionNotice (m : Nat)
  | sliceEvictionPush (col line : Nat)
  | directoryEviction (line : Nat)
  | partialEviction (core line : Nat)
  | spmForward (m : Nat)
  | flitDelivery (m : Nat)
  | flitResend (m : Nat)
  -- Engines and spans.
  | enginePayloadLand (e : Nat)
  | engineCompletion (e : Nat)
  | engineFault (e : Nat) (cause : BitVec 8) (elem : Word32)
  | spannedStep (b : Nat)
  | mxBudgetWindow (core : Nat)
  -- Launch, placement, retirement, pre-emption, March.
  | launchPost (col q : Nat) (v : Word)
  | launchAccept (col q : Nat)
  | launchAgePromotion (col q : Nat)
  | blockPlace (col : Nat)
  | blockStart (b : Nat)
  | travellerBirth (r : Nat)
  | blockRetire (b : Nat)
  | regionRetire (r : Nat)
  | preemptStop (b : Nat)
  | preemptDeadlineMiss (b : Nat)
  | stubForward (n : Nat)
  | marchArrival (g : Nat)
  | marchAdmit (core : Nat)
  | freeCountBroadcast (core : Nat)
  -- Peers, domain, capacity.
  | peerLaunchPacket (p : LaunchPacket)
  | domainRequest (r : DomainReq)
  | remoteRetry (n : Nat)
  | backInvalidate (line : Nat)
  | dcCapacityEvent (e : DcEvent)
  | dcResponse (port : Nat)
  -- HBM channels and errors.
  | hbmRd (g pc tag : Nat) (flaw : EccFlaw)
  | hbmWr (g pc tag : Nat) (flaw : EccFlaw)
  | hbmWrm (g pc tag : Nat) (flaw : EccFlaw)
  | hbmRdata (g pc tag : Nat)
  | hbmWack (g pc tag : Nat)
  | refresh (g pc row : Nat)
  | patrolRead (g addr : Nat) (flaw : EccFlaw)
  | softError (e : SoftErr)
  | dieLinkError (m : BitVec 2)
  -- Power and health.
  | governorSample (s : PowerSample)
  | throttleChange (col : Nat)
  | droopAlarm (core mv : Nat)
  | droopStretchEnd (core : Nat)
  | droopHalvingEnd (core : Nat)
  | ageingRead (slow : List Nat)
  | autumn (plan : List AutumnStep)
  | autumnStep
  | feedChange (feed ok : Bool)
  | coldReset (i : BootImage)
  -- The Axjor message port.
  | hostFrameWrite (slot off : Nat) (d : List Byte)
  | doorbell (slot : Nat) (v : Word)
  | launchFrame
  | copyFrame
  | queryFrame
  | attestFrame
  | healthRead
  | blackBoxRead
  | blackBoxUnfreeze
  | hostThreadRestart
  | blackBoxFreezeAll
  | packageReset
  | homeResponse (a : AgentId)
  | capacityWithdrawal (port base len : Nat)
  -- The words without operands stand last: the compiler bounds the number of a constructor with operands that code builds.
  | lwait
  | nop
  | done
  | yieldGroup
  | monWait
  | idle
  | halt
  | lend
  | mswp
  | mend
  | mnop
  deriving DecidableEq, Repr

end Sys2Proof
end

