-- ==== Sys2Proof/WellFormed.lean ====
section
/-! DEFINITION. Well-formed instructions: the operands that the encodings of R178 to R198 admit. -/

namespace Sys2Proof

/-- Element width in bits (R189). -/
def ITy.width : ITy → Nat
  | .i8 | .n8 => 8
  | .i16 | .n16 => 16
  | .i32 | .n32 => 32
  | .i64 | .n64 => 64

/-- Whether values of the type are signed (R80). -/
def ITy.signed : ITy → Bool
  | .i8 | .i16 | .i32 | .i64 => true
  | .n8 | .n16 | .n32 | .n64 => false

/-- Element width in bits (R189). -/
def FTy.width : FTy → Nat
  | .f32 => 32
  | .f16 | .bf16 => 16

/-- Element width in bits (R189). -/
def ETy.width : ETy → Nat
  | .int t => t.width
  | .fp t => t.width

/-- Whether an operand may stand in a field of width w (R57, R64); destinations have further limits. -/
def Operand.fits (w : Nat) (dst : Bool) : Operand → Bool
  | .word _ => w == 32
  | .byte _ _ => w == 8
  | .half _ _ => w == 16
  | .pair _ => w == 64
  | .tile _ _ | .acc _ _ => true
  | .queue _ pk => !dst || pk == 0#2
  | .opf _ => w == 32
  | .lr | .imm _ => !dst

/-- An address operand: a plain even word pair (R190, R277). -/
def Operand.isPair : Operand → Bool
  | .pair _ => true
  | _ => false

/-- Header with a legal mask word (R195). -/
def maskOk (m : BitVec 96) : Bool := m.extractLsb' 0 16 == 0x5AFE#16 && m.extractLsb' 62 2 == 0#2

/-- The mask word of a safe point, if any, is legal. -/
def spOk (m : Option (BitVec 96)) : Bool := m.all maskOk

/-- Rounding codes of arithmetic: all but stochastic (R81). -/
def Rnd.arith : Rnd → Bool
  | .sr => false
  | _ => true

/-- Integer types of `fcvt` (R182). -/
def CvtTy.isInt : CvtTy → Bool
  | .i32 | .i64 | .n32 | .n64 => true
  | _ => false

/-- Formats that `vfcvt` accepts (R258). -/
def Fmt.cvtOk : Fmt → Bool
  | .f32 | .f16 | .bf16 => true
  | .f64 => false
  | .int t => t.width != 64
  | .b8 _ p => p != 0#3

/-- Element width in bits of a format (R73). -/
def Fmt.width : Fmt → Nat
  | .f32 => 32
  | .f16 | .bf16 => 16
  | .f64 => 64
  | .int t => t.width
  | .b8 _ _ => 8

/-- Whether a format is an integer format (R73). -/
def Fmt.isInt : Fmt → Bool
  | .int _ => true
  | _ => false

/-- Operation, type and rounding that a lane reduction accepts (R263). -/
def redOk (t : ETy) (o : RedOp) (r : Rnd) : Bool :=
  match t, o with
  | .fp _, .add => r.arith
  | .fp _, .min | .fp _, .max => r == .rne
  | .fp _, _ => false
  | .int _, _ => r == .rne

/-- Types of `vbext` (R243). -/
def ITy.wide (t : ITy) : Bool := decide (32 ≤ t.width)

/-- Width of a type of lane atomics (R284). -/
def AtTy.width : AtTy → Nat
  | .i64 | .n64 => 64
  | _ => 32

/-- Type and operation of `vamo` agree (R284). -/
def amoOk (t : AtTy) (o : AmoOp) : Bool := (t == .f32) == (o == .fadd)

/-- Element width of a commutative-range type (R293). -/
def CrTy.width : CrTy → Nat
  | .bf16 => 16
  | _ => 32

/-- Class M of a half operation (R192); the others are class A. -/
def PairOp.multiply : PairOp → Bool
  | .vmul | .vmulhI | .vmulhN | .vmad | .vfmul | .vffma => true
  | _ => false

/-- Half operations whose mod2 is a rounding or a condition (R192). -/
def PairOp.usesMod : PairOp → Bool
  | .vcmpI | .vcmpN | .vfcmp | .vfadd | .vfsub | .vfmul | .vffma => true
  | _ => false

/-- Half operations whose own destination is a source (R192). -/
def PairOp.accumulates : PairOp → Bool
  | .vmad | .vffma => true
  | _ => false

/-- Destination of a half (R191). -/
def halfDstOk : Operand → Bool
  | .word _ | .opf _ => true
  | _ => false

/-- Source of a half (R191). -/
def halfSrcOk : Operand → Bool
  | .word _ | .opf _ | .lr => true
  | _ => false

/-- One half is legal (R193, check 3); `vmov` reads no b, whose field is zero. -/
def halfOk (h : HalfOp) : Bool :=
  (h.op.usesMod || h.mod2 == 0#2) && halfDstOk h.d && halfSrcOk h.a &&
  (if h.op == .vmov then h.b == .word 0#8 else halfSrcOk h.b)

/-- Sources that a half reads (R192, R193). -/
def halfReads (h : HalfOp) : List Operand :=
  [h.a] ++ (if h.op == .vmov then [] else [h.b]) ++ (if h.op.accumulates then [h.d] else [])

/-- Bank of a vector word (R193, check 4). -/
def wordBank : Operand → Option Nat
  | .word n => some (n.toNat % 4)
  | _ => none

/-- Distinct banks that a list of operands lies in (R193, check 6). -/
def banksOf (os : List Operand) : List Nat := (os.filterMap wordBank).eraseDups

/-- The checks of R193 on two halves. -/
def pairOk (x y : HalfOp) : Bool :=
  !(x.op.multiply && y.op.multiply) && halfOk x && halfOk y &&
  x.d != y.d && (wordBank x.d == none || wordBank x.d != wordBank y.d) &&
  !(halfReads y).contains x.d && decide ((banksOf (halfReads x ++ halfReads y)).length ≤ 3)

/-- Two sources and a destination of one width. -/
def fits3 (w : Nat) (d a b : Operand) : Bool := d.fits w true && a.fits w false && b.fits w false

/-- A source and a destination of one width. -/
def fits2 (w : Nat) (d a : Operand) : Bool := d.fits w true && a.fits w false

/-- A compare's destination (R249). -/
def CmpDst.fits (w : Nat) : CmpDst → Bool
  | .pred _ => true
  | .elem d => d.fits w true

/-- COUNT of a matrix word lies from 1 to 1,024 (R306). -/
def countOk (n : BitVec 11) : Bool := decide (1 ≤ n.toNat) && decide (n.toNat ≤ 1024)

/-- Whether an instruction's operands are among those its encoding admits.  Operands of a type whose every value is
legal need no check, and the steps that have no encoding take every operand. -/
def Instr.wf : Instr → Bool
  | .lxImm _ n => n != 0#6
  | .fadd _ _ _ r _ | .fsub _ _ _ r _ | .fmul _ _ _ r _ | .fdiv _ _ _ r _ | .fsqrt _ _ r _ | .fma _ _ _ _ r _ => r.arith
  | .fcvt _ _ _ ovf t s => t != s && !(t.isInt && s.isInt) && !(t.isInt && ovf)
  | .vadd _ t d a b | .vsub _ t d a b | .vmul _ t d a b | .vmulh _ t d a b | .vabsd _ t d a b | .vmin _ t d a b
  | .vmax _ t d a b | .vadds _ t d a b | .vsubs _ t d a b | .vand _ t d a b | .vor _ t d a b | .vxor _ t d a b
  | .vandn _ t d a b | .vshl _ t d a b | .vshr _ t d a b | .vsra _ t d a b => fits3 t.width d a b
  | .vmad _ t d a b c => fits3 t.width d a b && c.fits t.width false
  | .vclz _ t d a | .vctz _ t d a | .vpopc _ t d a | .vbrev _ t d a => fits2 t.width d a
  | .vbext _ t d a b => t.wide && fits3 t.width d a b
  | .vcmp _ t _ d a b => d.fits t.width && a.fits t.width false && b.fits t.width false
  | .vsel _ t d a b _ _ => fits3 t.width d a b
  | .vmov _ t d a => fits2 t.width d a
  | .vli _ _ d _ => d.fits 32 true
  | .vext _ t s d a => decide (s.width < t.width) && d.fits t.width true && a.fits s.width false
  | .vnrw _ t s _ d a => decide (t.width < s.width) && d.fits t.width true && a.fits s.width false
  | .vfadd _ t r d a b | .vfsub _ t r d a b | .vfmul _ t r d a b | .vfscl _ t r d a b =>
      r.arith && fits3 t.width d a b
  | .vffma _ t r d a b c => r.arith && fits3 t.width d a b && c.fits t.width false
  | .vfmin _ t d a b | .vfmax _ t d a b => fits3 t.width d a b
  | .vfcmp _ t _ d a b => d.fits t.width && a.fits t.width false && b.fits t.width false
  | .vfrcp _ t d a | .vfrsq _ t d a | .vfex2 _ t d a | .vflg2 _ t d a | .vfsin _ t d a | .vfcos _ t d a | .vftnh _ t d a
  | .vfcls _ t d a => fits2 t.width d a
  | .vfcvt _ ovf _ s t d a => s.cvtOk && t.cvtOk && s != t && !(s.isInt && t.isInt) && !(ovf && t.isInt) &&
      d.fits t.width true && a.fits s.width false
  | .vfdot2 _ _ r d a b c => r.arith && fits3 32 d a b && c.fits 32 false
  | .vfdot4 _ _ p r d a b c => p != 0#3 && r.arith && fits3 32 d a b && c.fits 32 false
  | .vshfl _ t _ d a b | .vbcast _ t d a b => fits3 t.width d a b
  | .vlred _ t o r d a | .vscan _ t o r d a => redOk t o r && fits2 t.width d a
  | .vmred _ t o r _ d a b => redOk t o r && fits3 t.width d a b
  | .vballot _ w64 _ d => d.fits (if w64 then 64 else 32) true
  | .vlid _ d => d.fits 32 true
  | .vwSet _ _ a => a.fits 64 false
  | .vld _ t _ _ _ d a => d.fits t.width true && a.isPair
  | .vst _ t _ _ _ a b => a.isPair && b.fits t.width false
  | .vamo _ t op _ _ _ d a b => amoOk t op && d.fits t.width true && a.isPair && b.fits t.width false
  | .vcas _ t _ _ _ d a b c =>
      d.fits t.width true && a.isPair && b.fits t.width false && c.fits t.width false
  | .laneRadd _ t a b => a.isPair && b.fits t.width false
  | .laneBarExp _ _ b => b.fits 32 false
  | .pairedWord _ x y => pairOk x y
  | .mst _ _ _ n _ | .mzr _ n => countOk n
  | .mdr _ _ _ n r _ _ _ => countOk n && r.arith && r != .dyn
  | _ => true

end Sys2Proof
end

