-- ==== Sys2Proof/Decode.lean ====
section
/-! DEFINITION. Decoding of the three streams' words (R177 to R198), rejecting by name, and the encoder written from
the same tables. -/

namespace Sys2Proof

/-- Why bytes are no instruction: the trap of R198 that answers, or too few bytes. -/
inductive Reject | illegalInstr | illegalPair | badMask | illegalOperand | truncated
  deriving DecidableEq, Repr

/-- The three instruction streams (R177). -/
inductive Stream | scalar | lane | matrix
  deriving DecidableEq, Repr

/-- The fields of a single lane word (R187). -/
structure LaneFields where
  op : BitVec 12
  mod : BitVec 4
  d : BitVec 12
  a : BitVec 12
  b : BitVec 12
  c : BitVec 12
  imm : BitVec 25
  deriving DecidableEq, Repr

/-! ### Bytes (R5) -/

/-- Little-endian value of a list of bytes. -/
def leNat : List Byte → Nat
  | [] => 0
  | b :: bs => b.toNat + 256 * leNat bs

/-- The n little-endian bytes of a value. -/
def leBytes : Nat → Nat → List Byte
  | 0, _ => []
  | n + 1, x => BitVec.ofNat 8 x :: leBytes n (x / 256)

/-! ### Codes of the small fields -/
/-- Code of a scope (R150). -/
def Scope.bits : Scope → BitVec 3
  | .grp => 0#3
  | .blk => 1#3
  | .col => 2#3
  | .die => 3#3
  | .pkg => 4#3
  | .dom => 5#3
  | .sys => 6#3

/-- Inverse of the code of a scope (R150). -/
def Scope.ofBits (x : BitVec 3) : Option Scope :=
  match x.toNat with
  | 0 => some .grp
  | 1 => some .blk
  | 2 => some .col
  | 3 => some .die
  | 4 => some .pkg
  | 5 => some .dom
  | 6 => some .sys
  | _ => none

/-- Code of the semantics (R183). -/
def Sem.bits : Sem → BitVec 2
  | .plain => 0#2
  | .acq => 1#2
  | .rel => 2#2
  | .ar => 3#2

/-- Inverse of the code of the semantics (R183). -/
def Sem.ofBits (x : BitVec 2) : Option Sem :=
  match x.toNat with
  | 0 => some .plain
  | 1 => some .acq
  | 2 => some .rel
  | 3 => some .ar
  | _ => none

/-- Code of a MEM type (R183). -/
def MemTy.bits : MemTy → BitVec 3
  | .i8 => 0#3
  | .i16 => 1#3
  | .i32 => 2#3
  | .i64 => 3#3
  | .n8 => 4#3
  | .n16 => 5#3
  | .n32 => 6#3

/-- Inverse of the code of a MEM type (R183). -/
def MemTy.ofBits (x : BitVec 3) : Option MemTy :=
  match x.toNat with
  | 0 => some .i8
  | 1 => some .i16
  | 2 => some .i32
  | 3 => some .i64
  | 4 => some .n8
  | 5 => some .n16
  | 6 => some .n32
  | _ => none

/-- Code of a rounding (R81). -/
def Rnd.bits : Rnd → BitVec 3
  | .rne => 0#3
  | .rtz => 1#3
  | .rup => 2#3
  | .rdn => 3#3
  | .rna => 4#3
  | .sr => 5#3
  | .dyn => 7#3

/-- Inverse of the code of a rounding (R81). -/
def Rnd.ofBits (x : BitVec 3) : Option Rnd :=
  match x.toNat with
  | 0 => some .rne
  | 1 => some .rtz
  | 2 => some .rup
  | 3 => some .rdn
  | 4 => some .rna
  | 5 => some .sr
  | 7 => some .dyn
  | _ => none

/-- Code of a scalar format (R182). -/
def SFmt.bits : SFmt → BitVec 2
  | .f32 => 0#2
  | .f16 => 1#2
  | .bf16 => 2#2
  | .f64 => 3#2

/-- Inverse of the code of a scalar format (R182). -/
def SFmt.ofBits (x : BitVec 2) : Option SFmt :=
  match x.toNat with
  | 0 => some .f32
  | 1 => some .f16
  | 2 => some .bf16
  | 3 => some .f64
  | _ => none

/-- Code of an `fcmp` condition (R182). -/
def FCond.bits : FCond → BitVec 2
  | .eq => 0#2
  | .ne => 1#2
  | .lt => 2#2
  | .le => 3#2

/-- Inverse of the code of an `fcmp` condition (R182). -/
def FCond.ofBits (x : BitVec 2) : Option FCond :=
  match x.toNat with
  | 0 => some .eq
  | 1 => some .ne
  | 2 => some .lt
  | 3 => some .le
  | _ => none

/-- Code of an `fcvt` type (R182). -/
def CvtTy.bits : CvtTy → BitVec 3
  | .f64 => 0#3
  | .f32 => 1#3
  | .f16 => 2#3
  | .bf16 => 3#3
  | .i32 => 4#3
  | .i64 => 5#3
  | .n32 => 6#3
  | .n64 => 7#3

/-- Inverse of the code of an `fcvt` type (R182). -/
def CvtTy.ofBits (x : BitVec 3) : Option CvtTy :=
  match x.toNat with
  | 0 => some .f64
  | 1 => some .f32
  | 2 => some .f16
  | 3 => some .bf16
  | 4 => some .i32
  | 5 => some .i64
  | 6 => some .n32
  | 7 => some .n64
  | _ => none

/-- Code of a `radd` type (R184). -/
def CrTy.bits : CrTy → BitVec 8
  | .f32 => 0#8
  | .bf16 => 1#8
  | .i32 => 2#8

/-- Inverse of the code of a `radd` type (R184). -/
def CrTy.ofBits (x : BitVec 8) : Option CrTy :=
  match x.toNat with
  | 0 => some .f32
  | 1 => some .bf16
  | 2 => some .i32
  | _ => none

/-- Code of an atomic operation (R183). -/
def AmoOp.bits : AmoOp → BitVec 4
  | .swap => 0#4
  | .add => 1#4
  | .and => 2#4
  | .or => 3#4
  | .xor => 4#4
  | .minI => 5#4
  | .maxI => 6#4
  | .minN => 7#4
  | .maxN => 8#4
  | .fadd => 9#4

/-- Inverse of the code of an atomic operation (R183). -/
def AmoOp.ofBits (x : BitVec 4) : Option AmoOp :=
  match x.toNat with
  | 0 => some .swap
  | 1 => some .add
  | 2 => some .and
  | 3 => some .or
  | 4 => some .xor
  | 5 => some .minI
  | 6 => some .maxI
  | 7 => some .minN
  | 8 => some .maxN
  | 9 => some .fadd
  | _ => none

/-- Code of a lane condition (R190). -/
def Cond.bits : Cond → BitVec 4
  | .eq => 0#4
  | .ne => 1#4
  | .lt => 2#4
  | .le => 3#4
  | .gt => 4#4
  | .ge => 5#4

/-- Inverse of the code of a lane condition (R190). -/
def Cond.ofBits (x : BitVec 4) : Option Cond :=
  match x.toNat with
  | 0 => some .eq
  | 1 => some .ne
  | 2 => some .lt
  | 3 => some .le
  | 4 => some .gt
  | 5 => some .ge
  | _ => none

/-- Code of an integer type (R189). -/
def ITy.bits : ITy → BitVec 4
  | .i8 => 0#4
  | .i16 => 1#4
  | .i32 => 2#4
  | .i64 => 3#4
  | .n8 => 4#4
  | .n16 => 5#4
  | .n32 => 6#4
  | .n64 => 7#4

/-- Inverse of the code of an integer type (R189). -/
def ITy.ofBits (x : BitVec 4) : Option ITy :=
  match x.toNat with
  | 0 => some .i8
  | 1 => some .i16
  | 2 => some .i32
  | 3 => some .i64
  | 4 => some .n8
  | 5 => some .n16
  | 6 => some .n32
  | 7 => some .n64
  | _ => none

/-- Code of a floating type (R189). -/
def FTy.bits : FTy → BitVec 4
  | .f32 => 8#4
  | .f16 => 9#4
  | .bf16 => 10#4

/-- Inverse of the code of a floating type (R189). -/
def FTy.ofBits (x : BitVec 4) : Option FTy :=
  match x.toNat with
  | 8 => some .f32
  | 9 => some .f16
  | 10 => some .bf16
  | _ => none

/-- Code of a type of `vli` (R189, R251). -/
def LiTy.bits : LiTy → BitVec 4
  | .i32 => 2#4
  | .n32 => 6#4
  | .f32 => 8#4

/-- Inverse of the code of a type of `vli` (R189, R251). -/
def LiTy.ofBits (x : BitVec 4) : Option LiTy :=
  match x.toNat with
  | 2 => some .i32
  | 6 => some .n32
  | 8 => some .f32
  | _ => none

/-- Code of a type of lane atomics (R189, R284). -/
def AtTy.bits : AtTy → BitVec 4
  | .i32 => 2#4
  | .i64 => 3#4
  | .n32 => 6#4
  | .n64 => 7#4
  | .f32 => 8#4

/-- Inverse of the code of a type of lane atomics (R189, R284). -/
def AtTy.ofBits (x : BitVec 4) : Option AtTy :=
  match x.toNat with
  | 2 => some .i32
  | 3 => some .i64
  | 6 => some .n32
  | 7 => some .n64
  | 8 => some .f32
  | _ => none

/-- Code of a lane type (R189). -/
def ETy.bits : ETy → BitVec 4
  | .int t => t.bits
  | .fp t => t.bits

/-- Inverse of the code of a lane type (R189). -/
def ETy.ofBits (x : BitVec 4) : Option ETy :=
  match ITy.ofBits x, FTy.ofBits x with
  | some t, _ => some (.int t)
  | none, some t => some (.fp t)
  | none, none => none

/-- mod4 of a commutative-range type (R293). -/
def CrTy.mod : CrTy → BitVec 4
  | .f32 => 8#4
  | .bf16 => 10#4
  | .i32 => 2#4

/-- Inverse of `CrTy.mod`. -/
def CrTy.ofMod (x : BitVec 4) : Option CrTy :=
  match x.toNat with
  | 8 => some .f32
  | 10 => some .bf16
  | 2 => some .i32
  | _ => none

/-- Code of a shuffle mode (R261). -/
def ShMode.bits : ShMode → BitVec 2
  | .up => 0#2
  | .down => 1#2
  | .xor => 2#2
  | .idx => 3#2

/-- Inverse of the code of a shuffle mode (R261). -/
def ShMode.ofBits (x : BitVec 2) : Option ShMode :=
  match x.toNat with
  | 0 => some .up
  | 1 => some .down
  | 2 => some .xor
  | 3 => some .idx
  | _ => none

/-- Code of a reduction (R190). -/
def RedOp.bits : RedOp → BitVec 4
  | .add => 0#4
  | .min => 1#4
  | .max => 2#4
  | .and => 3#4
  | .or => 4#4
  | .xor => 5#4

/-- Inverse of the code of a reduction (R190). -/
def RedOp.ofBits (x : BitVec 4) : Option RedOp :=
  match x.toNat with
  | 0 => some .add
  | 1 => some .min
  | 2 => some .max
  | 3 => some .and
  | 4 => some .or
  | 5 => some .xor
  | _ => none

/-- Code of a vote mode (R264). -/
def VoteMode.bits : VoteMode → BitVec 2
  | .any => 0#2
  | .all => 1#2
  | .uni => 2#2

/-- Inverse of the code of a vote mode (R264). -/
def VoteMode.ofBits (x : BitVec 2) : Option VoteMode :=
  match x.toNat with
  | 0 => some .any
  | 1 => some .all
  | 2 => some .uni
  | _ => none

/-- Code of a kind of fence (R287). -/
def FenceKind.bits : FenceKind → BitVec 2
  | .full => 0#2
  | .acq => 1#2
  | .rel => 2#2

/-- Inverse of the code of a kind of fence (R287). -/
def FenceKind.ofBits (x : BitVec 2) : Option FenceKind :=
  match x.toNat with
  | 0 => some .full
  | 1 => some .acq
  | 2 => some .rel
  | _ => none

/-- Code of a binary8 variant (R73). -/
def B8Var.bits : B8Var → BitVec 2
  | .sf => 0#2
  | .si => 1#2
  | .nf => 2#2
  | .ni => 3#2

/-- Inverse of the code of a binary8 variant (R73). -/
def B8Var.ofBits (x : BitVec 2) : Option B8Var :=
  match x.toNat with
  | 0 => some .sf
  | 1 => some .si
  | 2 => some .nf
  | 3 => some .ni
  | _ => none

/-- Code of a half operation (R192). -/
def PairOp.bits : PairOp → BitVec 8
  | .vadd => 1#8
  | .vsub => 2#8
  | .vand => 3#8
  | .vor => 4#8
  | .vxor => 5#8
  | .vandn => 6#8
  | .vshl => 7#8
  | .vshr => 8#8
  | .vsra => 9#8
  | .vminI => 10#8
  | .vminN => 11#8
  | .vmaxI => 12#8
  | .vmaxN => 13#8
  | .vmov => 14#8
  | .vcmpI => 15#8
  | .vcmpN => 16#8
  | .vfadd => 17#8
  | .vfsub => 18#8
  | .vfmin => 19#8
  | .vfmax => 20#8
  | .vfcmp => 21#8
  | .vmul => 64#8
  | .vmulhI => 65#8
  | .vmulhN => 66#8
  | .vmad => 67#8
  | .vfmul => 68#8
  | .vffma => 69#8

/-- Inverse of the code of a half operation (R192). -/
def PairOp.ofBits (x : BitVec 8) : Option PairOp :=
  match x.toNat with
  | 1 => some .vadd
  | 2 => some .vsub
  | 3 => some .vand
  | 4 => some .vor
  | 5 => some .vxor
  | 6 => some .vandn
  | 7 => some .vshl
  | 8 => some .vshr
  | 9 => some .vsra
  | 10 => some .vminI
  | 11 => some .vminN
  | 12 => some .vmaxI
  | 13 => some .vmaxN
  | 14 => some .vmov
  | 15 => some .vcmpI
  | 16 => some .vcmpN
  | 17 => some .vfadd
  | 18 => some .vfsub
  | 19 => some .vfmin
  | 20 => some .vfmax
  | 21 => some .vfcmp
  | 64 => some .vmul
  | 65 => some .vmulhI
  | 66 => some .vmulhN
  | 67 => some .vmad
  | 68 => some .vfmul
  | 69 => some .vffma
  | _ => none

/-- Code of an element format (R73). -/
def Fmt.bits : Fmt → BitVec 8
  | .f32 => 0x01#8
  | .f16 => 0x02#8
  | .bf16 => 0x03#8
  | .f64 => 0x04#8
  | .int .i8 => 0x20#8
  | .int .i16 => 0x21#8
  | .int .i32 => 0x22#8
  | .int .i64 => 0x23#8
  | .int .n8 => 0x28#8
  | .int .n16 => 0x29#8
  | .int .n32 => 0x2A#8
  | .int .n64 => 0x2B#8
  | .b8 v p => 0b010#3 ++ v.bits ++ p

/-- Inverse of the code of an element format (R73). -/
def Fmt.ofBits (x : BitVec 8) : Option Fmt :=
  if x.extractLsb' 5 3 = 0b010#3 then
    if x.extractLsb' 0 3 = 0#3 then none else (B8Var.ofBits (x.extractLsb' 3 2)).map fun v => .b8 v (x.extractLsb' 0 3)
  else
    match x.toNat with
    | 0x01 => some .f32
    | 0x02 => some .f16
    | 0x03 => some .bf16
    | 0x04 => some .f64
    | 0x20 => some (.int .i8)
    | 0x21 => some (.int .i16)
    | 0x22 => some (.int .i32)
    | 0x23 => some (.int .i64)
    | 0x28 => some (.int .n8)
    | 0x29 => some (.int .n16)
    | 0x2A => some (.int .n32)
    | 0x2B => some (.int .n64)
    | _ => none

/-- One bit as a field. -/
def bit1 (b : Bool) : BitVec 1 := if b then 1#1 else 0#1

/-- A field of one bit. -/
def ofBit1 (x : BitVec 1) : Bool := x == 1#1

/-- An instruction whose unused bits x must be zero (R179, R187). -/
def zero {n : Nat} (x : BitVec n) (i : Instr) : Option Instr := if x = 0 then some i else none

/-! ### Layouts -/

/-- SR and SM words and their like: major, d5, a5, b5, func11 (R178). -/
def srWord (op : BitVec 6) (d a b : BitVec 5) (f : BitVec 11) : Word32 := op ++ d ++ a ++ b ++ f

/-- SI, SM and SX words: major, d5, a5, sixteen bits (R178). -/
def siWord (op : BitVec 6) (d a : BitVec 5) (i : BitVec 16) : Word32 := op ++ d ++ a ++ i

/-- SB words (R178). -/
def sbWord (op : BitVec 6) (c : BitVec 4) (a b : BitVec 5) (o : BitVec 12) : Word32 := op ++ c ++ a ++ b ++ o

/-- SJ words (R178). -/
def sjWord (op : BitVec 6) (o : BitVec 26) : Word32 := op ++ o

/-- The single form of a lane word (R186, R187). -/
def laneWord (safe : Bool) (h : LaneHdr) (f : LaneFields) : BitVec 96 :=
  bit1 safe ++ bit1 h.boundary ++ 0#1 ++ h.pred ++ bit1 h.neg ++ f.op ++ f.mod ++ f.d ++ f.a ++ f.b ++ f.c ++ f.imm

/-- One half of the paired form (R191). -/
def halfWord (op : BitVec 8) (m : BitVec 2) (d : BitVec 10) (a b : BitVec 12) : BitVec 44 := op ++ m ++ d ++ a ++ b

/-- The paired form of a lane word (R191). -/
def pairWord (safe : Bool) (h : LaneHdr) (x y : BitVec 44) : BitVec 96 :=
  bit1 safe ++ bit1 h.boundary ++ 1#1 ++ h.pred ++ bit1 h.neg ++ x ++ y ++ 0#1

/-- A matrix word (R197). -/
def matWord (op bn : BitVec 8) (ta tb : BitVec 6) (mi : BitVec 4) (imm : BitVec 32) : BitVec 64 :=
  op ++ bn ++ ta ++ tb ++ mi ++ imm

/-- Field of an operand (R57). -/
def Operand.bits : Operand → BitVec 12
  | .word n => 0b0000#4 ++ n
  | .byte n k => 0b00#2 ++ k ++ n
  | .half n k => 0b000#3 ++ k ++ n
  | .pair n => 0b0000#4 ++ n ++ 0#1
  | .tile t c => 0b01#2 ++ c ++ 0#1 ++ t
  | .acc a c => 0b01#2 ++ c ++ 0b10#2 ++ a
  | .queue q pk => 0b01#2 ++ 0#3 ++ pk ++ 0b11#2 ++ q
  | .opf i => 0b10#2 ++ 0#7 ++ i
  | .lr => 0xA00#12
  | .imm v => 0b11#2 ++ v

/-- A vector-word field, class 00, at an element width (R57). -/
def vecOperand (w : Nat) (x : BitVec 12) : Option Operand :=
  let n := x.extractLsb' 0 8
  let sel := x.extractLsb' 8 2
  if w = 8 then some (.byte n sel)
  else if w = 16 then (if x.extractLsb' 9 1 = 0#1 then some (.half n (x.extractLsb' 8 1)) else none)
  else if w = 32 then (if sel = 0#2 then some (.word n) else none)
  else if sel = 0#2 ∧ x.extractLsb' 0 1 = 0#1 then some (.pair (x.extractLsb' 1 7)) else none

/-- A view field, class 01 (R57). -/
def viewOperand (x : BitVec 12) : Option Operand :=
  if x.extractLsb' 4 1 = 0#1 then some (.tile (x.extractLsb' 0 4) (x.extractLsb' 5 5))
  else if x.extractLsb' 3 1 = 0#1 then some (.acc (x.extractLsb' 0 3) (x.extractLsb' 5 5))
  else if x.extractLsb' 7 3 = 0#3 then some (.queue (x.extractLsb' 0 3) (x.extractLsb' 5 2)) else none

/-- An operand-file or latch field, class 10 (R57). -/
def opfOperand (x : BitVec 12) : Option Operand :=
  if x = 0xA00#12 then some .lr
  else if x.extractLsb' 3 7 = 0#7 then some (.opf (x.extractLsb' 0 3)) else none

/-- An operand field at element width w (R57, R64). -/
def Operand.ofBits (w : Nat) (dst : Bool) (x : BitVec 12) : Option Operand :=
  let o := match (x.extractLsb' 10 2).toNat with
    | 0 => vecOperand w x
    | 1 => viewOperand x
    | 2 => opfOperand x
    | _ => some (.imm (x.extractLsb' 0 10))
  o.bind fun o => if o.fits w dst then some o else none

/-- An address operand (R190, R277). -/
def pairOperand (x : BitVec 12) : Option Operand :=
  if x.extractLsb' 8 4 = 0#4 ∧ x.extractLsb' 0 1 = 0#1 then some (.pair (x.extractLsb' 1 7)) else none

/-! ### Scalar words -/

/-- INT words (R181): operation, the low five bits and the registers. -/
def intForm (op : BitVec 6) (lo : BitVec 5) (d a b : Reg) : Option Instr :=
  match op.toNat with
  | 0x00 => zero lo (.add d a b)
  | 0x01 => zero lo (.sub d a b)
  | 0x02 => zero lo (.mul d a b)
  | 0x03 => zero lo (.mulhI d a b)
  | 0x04 => zero lo (.mulhN d a b)
  | 0x05 => zero lo (.divI d a b)
  | 0x06 => zero lo (.divN d a b)
  | 0x07 => zero lo (.remI d a b)
  | 0x08 => zero lo (.remN d a b)
  | 0x09 => zero lo (.and d a b)
  | 0x0A => zero lo (.or d a b)
  | 0x0B => zero lo (.xor d a b)
  | 0x0C => zero lo (.andn d a b)
  | 0x0D => zero lo (.shl d a b)
  | 0x0E => zero lo (.shr d a b)
  | 0x0F => zero lo (.sra d a b)
  | 0x10 => zero lo (.rol d a b)
  | 0x11 => zero lo (.minI d a b)
  | 0x12 => zero lo (.minN d a b)
  | 0x13 => zero lo (.maxI d a b)
  | 0x14 => zero lo (.maxN d a b)
  | 0x15 => zero lo (.sltI d a b)
  | 0x16 => zero lo (.sltN d a b)
  | 0x17 => zero lo (.seq d a b)
  | 0x18 => some (.sel d a b lo)
  | 0x19 => zero (b ++ lo) (.clz d a)
  | 0x1A => zero (b ++ lo) (.ctz d a)
  | 0x1B => zero (b ++ lo) (.popc d a)
  | 0x1C => zero (b ++ lo) (.bswap d a)
  | 0x1D => zero lo (.bextI d a b)
  | 0x1E => zero lo (.bextN d a b)
  | 0x1F => zero lo (.bins d a b)
  | 0x20 => zero (lo.extractLsb' 2 3) (.lea d a b (lo.extractLsb' 0 2))
  | _ => none

/-- SHIFT words (R180). -/
def shiftForm (i : BitVec 16) (d a : Reg) : Option Instr :=
  let n := i.extractLsb' 0 6
  if i.extractLsb' 8 8 = 0#8 then
    match (i.extractLsb' 6 2).toNat with
    | 0 => some (.shlImm d a n)
    | 1 => some (.shrImm d a n)
    | 2 => some (.sraImm d a n)
    | _ => some (.rolImm d a n)
  else none

/-- `li` and `li.ins` (R180). -/
def liForm (i : BitVec 16) (d a : Reg) : Option Instr :=
  if a = 0#5 then some (.li d i)
  else if a.extractLsb' 2 3 = 0b100#3 then some (.liIns d (a.extractLsb' 0 2) i) else none

/-- Conditional branches and `loop` (R180). -/
def brForm (c : BitVec 4) (a b : Reg) (o : BitVec 12) : Option Instr :=
  match c.toNat with
  | 0 => some (.brEq a b o)
  | 1 => some (.brNe a b o)
  | 2 => some (.brLt a b o)
  | 3 => some (.brGe a b o)
  | 4 => some (.brLtN a b o)
  | 5 => some (.brGeN a b o)
  | 6 => zero b (.loop a o)
  | _ => none

/-- MEM words (R183). -/
def memForm (f : BitVec 11) (d a b : Reg) : Option Instr :=
  let ty := MemTy.ofBits (f.extractLsb' 3 3)
  let sc := Scope.ofBits (f.extractLsb' 8 3)
  let sem := f.extractLsb' 6 2
  match (f.extractLsb' 0 3).toNat with
  | 0 => if b = 0#5 ∧ sem.extractLsb' 1 1 = 0#1 then
      sc.bind fun sc => ty.map fun t => .ldOrdered d a sc (ofBit1 (sem.extractLsb' 0 1)) t else none
  | 1 => if d = 0#5 ∧ sem.extractLsb' 0 1 = 0#1 then
      sc.bind fun sc => ty.map fun t => .stOrdered a b sc (ofBit1 (sem.extractLsb' 1 1)) t else none
  | 2 => if b = 0#5 ∧ sem.extractLsb' 1 1 = 0#1 then
      sc.bind fun sc => ty.map fun t => .ldw d a sc (ofBit1 (sem.extractLsb' 0 1)) t else none
  | 3 => zero (d ++ b ++ f.extractLsb' 3 8) (.pf a)
  | 4 => zero (d ++ b ++ f.extractLsb' 3 8) (.cln a)
  | 5 => zero (d ++ b ++ f.extractLsb' 3 8) (.clnPersist a)
  | 6 => if d ++ a ++ b ++ f.extractLsb' 3 3 = 0 then
      sc.bind fun sc => match sem.toNat with
        | 0 => some (.fence sc)
        | 1 => some (.fenceAcq sc)
        | 2 => some (.fenceRel sc)
        | _ => none
    else none
  | _ => none

/-- ATOM words (R183, R281). -/
def atomForm (f : BitVec 11) (d a b : Reg) : Option Instr :=
  let wide := ofBit1 (f.extractLsb' 4 1)
  (Scope.ofBits (f.extractLsb' 8 3)).bind fun sc =>
  (Sem.ofBits (f.extractLsb' 6 2)).bind fun sem =>
  if f.extractLsb' 5 1 = 0#1 then
    match (f.extractLsb' 0 4).toNat with
    | 0 => some (.amoSwap d a b sc sem wide)
    | 1 => some (.amoAdd d a b sc sem wide)
    | 2 => some (.amoAnd d a b sc sem wide)
    | 3 => some (.amoOr d a b sc sem wide)
    | 4 => some (.amoXor d a b sc sem wide)
    | 5 => some (.amoMinI d a b sc sem wide)
    | 6 => some (.amoMaxI d a b sc sem wide)
    | 7 => some (.amoMinN d a b sc sem wide)
    | 8 => some (.amoMaxN d a b sc sem wide)
    | 9 => some (.amoFadd d a b sc sem wide)
    | 10 => some (.cas d a b sc sem wide)
    | 11 => if b ++ f.extractLsb' 4 1 = 0 then
        match sem with
        | .plain => some (.cst d a sc false)
        | .rel => some (.cst d a sc true)
        | _ => none
      else none
    | _ => none
  else none

/-- A rounding code that arithmetic accepts (R81). -/
def arithRnd (x : BitVec 3) : Option Rnd := (Rnd.ofBits x).bind fun r => if r.arith then some r else none

/-- FP words (R182). -/
def fpForm (f : BitVec 11) (d a b : Reg) : Option Instr :=
  let r := f.extractLsb' 4 3
  let c := f.extractLsb' 0 2
  (SFmt.ofBits (f.extractLsb' 2 2)).bind fun t =>
  match (f.extractLsb' 7 4).toNat with
  | 0 => if c = 0#2 then (arithRnd r).map fun r => .fadd d a b r t else none
  | 1 => if c = 0#2 then (arithRnd r).map fun r => .fsub d a b r t else none
  | 2 => if c = 0#2 then (arithRnd r).map fun r => .fmul d a b r t else none
  | 3 => if c = 0#2 then (arithRnd r).map fun r => .fdiv d a b r t else none
  | 4 => if b ++ c = 0 then (arithRnd r).map fun r => .fsqrt d a r t else none
  | 5 => zero (r ++ c) (.fmin d a b t)
  | 6 => zero (r ++ c) (.fmax d a b t)
  | 7 => if r = 0#3 then (FCond.ofBits c).map fun k => .fcmp d a b t k else none
  | 8 => zero (b ++ r ++ c) (.fcls d a t)
  | _ => none

/-- fma words (R182). -/
def fmaForm (f : BitVec 11) (d a b : Reg) : Option Instr :=
  if f.extractLsb' 0 1 = 0#1 then
    (arithRnd (f.extractLsb' 3 3)).bind fun r => (SFmt.ofBits (f.extractLsb' 1 2)).map fun t =>
      .fma d a b (f.extractLsb' 6 5) r t
  else none

/-- fcvt words (R182). -/
def fcvtForm (f : BitVec 11) (d a b : Reg) : Option Instr :=
  if b ++ f.extractLsb' 0 1 = 0 then
    (Rnd.ofBits (f.extractLsb' 8 3)).bind fun r => (CvtTy.ofBits (f.extractLsb' 4 3)).bind fun t =>
    (CvtTy.ofBits (f.extractLsb' 1 3)).bind fun s =>
      if t ≠ s ∧ ¬(t.isInt ∧ s.isInt) ∧ ¬(t.isInt ∧ ofBit1 (f.extractLsb' 7 1)) then
        some (.fcvt d a r (ofBit1 (f.extractLsb' 7 1)) t s)
      else none
  else none

/-- LANE words (R184). -/
def lxForm (i : BitVec 16) (d a : Reg) : Option Instr :=
  match (i.extractLsb' 14 2).toNat with
  | 0 => if i.extractLsb' 7 7 = 0#7 then
      if i.extractLsb' 6 1 = 0#1 then (if d = 0#5 ∧ i.extractLsb' 0 6 ≠ 0#6 then some (.lxImm a (i.extractLsb' 0 6)) else none)
      else zero (i.extractLsb' 0 6) (.lxReg d a)
    else none
  | 1 => zero (d ++ a ++ i.extractLsb' 0 14) .lwait
  | 2 => zero (a ++ i.extractLsb' 0 14) (.lpoll d)
  | _ => none

/-- CSR words (R184). -/
def csrForm (i : BitVec 16) (d a : Reg) : Option Instr :=
  let n := i.extractLsb' 0 12
  match (i.extractLsb' 12 4).toNat with
  | 0 => zero a (.csrr d n)
  | 1 => zero d (.csrw a n)
  | 2 => some (.csrs d a n)
  | _ => none

/-- SYS words (R184). -/
def sysForm (i : BitVec 16) (d a : Reg) : Option Instr :=
  let k := i.extractLsb' 0 12
  match (i.extractLsb' 12 4).toNat with
  | 0 => zero (d ++ a ++ k) .nop
  | 1 => zero (d ++ a ++ k) .done
  | 2 => zero (d ++ a) (.svc k)
  | 3 => zero (d ++ a) (.brk k)
  | 4 => zero (a ++ k) (.tstamp d)
  | 5 => zero (a ++ k) (.cyc d)
  | 6 => zero (d ++ a ++ k) .yieldGroup
  | 7 => zero k (.wkGet d a)
  | _ => none

/-- SUBS words (R184). -/
def subsForm (f : BitVec 11) (d a b : Reg) : Option Instr :=
  let t := f.extractLsb' 0 8
  match (f.extractLsb' 8 3).toNat with
  | 0 => zero t (.subSubscription d a b)
  | 1 => zero t (.unsub d a b)
  | 2 => zero t (.subup d a b)
  | 3 => zero (d ++ t) (.crSet a b)
  | 4 => zero (d ++ b ++ t) (.crEnd a)
  | 5 => if d = 0#5 then (CrTy.ofBits t).map fun t => .radd a b t else none
  | _ => none

/-- SPM words (R184). -/
def spmForm (f : BitVec 11) (d a b : Reg) : Option Instr :=
  let t := f.extractLsb' 0 8
  match (f.extractLsb' 8 3).toNat with
  | 0 => zero t (.spmMap d a b)
  | 1 => zero t (.spmMapFill d a b)
  | 2 => zero (d ++ b ++ t) (.spmUnmap a)
  | _ => none

/-- BAR words (R184). -/
def barForm (i : BitVec 16) (d a : Reg) : Option Instr :=
  let n := i.extractLsb' 0 6
  let q := i.extractLsb' 6 1
  if i.extractLsb' 7 5 = 0#5 then
    match (i.extractLsb' 12 4).toNat with
    | 0 => zero (d ++ q) (.barInit a n)
    | 1 => zero (d ++ a ++ q) (.barArr n)
    | 2 => zero (d ++ q) (.barExp a n)
    | 3 => zero (d ++ a) (.barWait (ofBit1 q) n)
    | 4 => zero a (.barTry d (ofBit1 q) n)
    | _ => none
  else none

/-- MPX words (R184). -/
def mpxForm (i : BitVec 16) (d a : Reg) : Option Instr :=
  let n := i.extractLsb' 0 5
  if i.extractLsb' 5 7 = 0#7 then
    match (i.extractLsb' 12 4).toNat with
    | 0 => zero n (.monArm d a)
    | 1 => zero (d ++ a ++ n) .monWait
    | 2 => zero (d ++ a ++ n.extractLsb' 1 4) (.portCfg (ofBit1 (n.extractLsb' 0 1)))
    | 3 => zero (d ++ a) (.xacq n)
    | 4 => zero (d ++ a) (.xrel n)
    | _ => none
  else none

/-- ENG words (R184). -/
def engForm (f : BitVec 11) (d a b : Reg) : Option Instr :=
  if f.extractLsb' 0 4 = 0#4 then
    (Scope.ofBits (f.extractLsb' 8 3)).bind fun sc =>
    match (f.extractLsb' 4 4).toNat with
    | 0 => some (.cp d a b sc)
    | 1 => some (.cpColl d a b sc)
    | 2 => some (.gth d a b sc)
    | 3 => some (.scat d a b sc)
    | 4 => some (.redcp d a b sc)
    | 5 => some (.mcast d a b sc)
    | 6 => some (.dcoll d a b sc)
    | _ => none
  else none

/-- TID words (R184). -/
def tidForm (i : BitVec 16) (d a : Reg) : Option Instr :=
  let n := i.extractLsb' 0 6
  if i.extractLsb' 6 6 = 0#6 then
    match (i.extractLsb' 12 4).toNat with
    | 0 => zero d (.tidSet a n)
    | 1 => zero a (.tidGet d n)
    | 2 => zero (d ++ a) (.tidInv n)
    | _ => none
  else none

/-- MARCH words (R184). -/
def marchForm (i : BitVec 16) (d a : Reg) : Option Instr :=
  if i.extractLsb' 0 12 = 0#12 then
    match (i.extractLsb' 12 4).toNat with
    | 0 => zero d (.xfer a)
    | 1 => some (.xcall d a)
    | 2 => zero d (.xret a)
    | 3 => some (.segWho d a)
    | _ => none
  else none

/-- PRIV words (R398). -/
def privForm (i : BitVec 16) (d a : Reg) : Option Instr :=
  if i.extractLsb' 0 12 = 0#12 then
    match (i.extractLsb' 12 4).toNat with
    | 0 => zero d (.tret a)
    | 1 => some (.ctxSave d a)
    | 2 => some (.ctxLoad d a)
    | 3 => some (.capMint d a)
    | 4 => some (.capDrop d a)
    | 5 => some (.tlbInv d a)
    | 6 => some (.hmtSet d a)
    | 7 => some (.segMap d a)
    | 8 => some (.actSet d a)
    | 9 => some (.evqSet d a)
    | 10 => zero (d ++ a) .idle
    | 11 => zero (d ++ a) .halt
    | _ => none
  else none

/-- A scalar word by its major opcode (R180). -/
def scalarForm (w : Word32) : Option Instr :=
  let d := w.extractLsb' 21 5
  let a := w.extractLsb' 16 5
  let b := w.extractLsb' 11 5
  let f := w.extractLsb' 0 11
  let i := w.extractLsb' 0 16
  match (w.extractLsb' 26 6).toNat with
  | 0x01 => intForm (w.extractLsb' 5 6) (w.extractLsb' 0 5) d a b
  | 0x02 => some (.addImm d a i)
  | 0x03 => some (.mulImm d a i)
  | 0x04 => some (.andImm d a i)
  | 0x05 => some (.orImm d a i)
  | 0x06 => some (.xorImm d a i)
  | 0x07 => some (.sltIImm d a i)
  | 0x08 => some (.sltNImm d a i)
  | 0x09 => some (.seqImm d a i)
  | 0x0A => shiftForm i d a
  | 0x0B => liForm i d a
  | 0x0C => some (.pcrel d (w.extractLsb' 0 21))
  | 0x0D => brForm (w.extractLsb' 22 4) (w.extractLsb' 17 5) (w.extractLsb' 12 5) (w.extractLsb' 0 12)
  | 0x0E => some (.jmp (w.extractLsb' 0 26))
  | 0x0F => some (.call (w.extractLsb' 0 26))
  | 0x10 => some (.jr d a i)
  | 0x11 => some (.ldI8 d a i)
  | 0x12 => some (.ldI16 d a i)
  | 0x13 => some (.ldI32 d a i)
  | 0x14 => some (.ldI64 d a i)
  | 0x15 => some (.ldN8 d a i)
  | 0x16 => some (.ldN16 d a i)
  | 0x17 => some (.ldN32 d a i)
  | 0x18 => some (.st8 d a i)
  | 0x19 => some (.st16 d a i)
  | 0x1A => some (.st32 d a i)
  | 0x1B => some (.st64 d a i)
  | 0x1C => memForm f d a b
  | 0x1D => atomForm f d a b
  | 0x1E => fpForm f d a b
  | 0x1F => fmaForm f d a b
  | 0x20 => lxForm i d a
  | 0x21 => csrForm i d a
  | 0x22 => sysForm i d a
  | 0x23 => zero (w.extractLsb' 25 1) (.safe (w.extractLsb' 0 25))
  | 0x24 => subsForm f d a b
  | 0x25 => spmForm f d a b
  | 0x26 => barForm i d a
  | 0x27 => mpxForm i d a
  | 0x28 => engForm f d a b
  | 0x29 => tidForm i d a
  | 0x2A => marchForm i d a
  | 0x2B => privForm i d a
  | 0x2C => fcvtForm f d a b
  | _ => none

/-- Decode one scalar word (R180, check 2 of R198). -/
def decodeScalar (w : Word32) : Except Reject Instr :=
  match scalarForm w with
  | some i => .ok i
  | none => .error .illegalInstr

/-- The word of a scalar instruction (R178 to R184, R398). -/
def encodeScalar : Instr → Option Word32
  | .add d a b => some (srWord 1#6 d a b (0#6 ++ 0#5))
  | .sub d a b => some (srWord 1#6 d a b (1#6 ++ 0#5))
  | .mul d a b => some (srWord 1#6 d a b (2#6 ++ 0#5))
  | .mulhI d a b => some (srWord 1#6 d a b (3#6 ++ 0#5))
  | .mulhN d a b => some (srWord 1#6 d a b (4#6 ++ 0#5))
  | .divI d a b => some (srWord 1#6 d a b (5#6 ++ 0#5))
  | .divN d a b => some (srWord 1#6 d a b (6#6 ++ 0#5))
  | .remI d a b => some (srWord 1#6 d a b (7#6 ++ 0#5))
  | .remN d a b => some (srWord 1#6 d a b (8#6 ++ 0#5))
  | .and d a b => some (srWord 1#6 d a b (9#6 ++ 0#5))
  | .or d a b => some (srWord 1#6 d a b (10#6 ++ 0#5))
  | .xor d a b => some (srWord 1#6 d a b (11#6 ++ 0#5))
  | .andn d a b => some (srWord 1#6 d a b (12#6 ++ 0#5))
  | .shl d a b => some (srWord 1#6 d a b (13#6 ++ 0#5))
  | .shr d a b => some (srWord 1#6 d a b (14#6 ++ 0#5))
  | .sra d a b => some (srWord 1#6 d a b (15#6 ++ 0#5))
  | .rol d a b => some (srWord 1#6 d a b (16#6 ++ 0#5))
  | .minI d a b => some (srWord 1#6 d a b (17#6 ++ 0#5))
  | .minN d a b => some (srWord 1#6 d a b (18#6 ++ 0#5))
  | .maxI d a b => some (srWord 1#6 d a b (19#6 ++ 0#5))
  | .maxN d a b => some (srWord 1#6 d a b (20#6 ++ 0#5))
  | .sltI d a b => some (srWord 1#6 d a b (21#6 ++ 0#5))
  | .sltN d a b => some (srWord 1#6 d a b (22#6 ++ 0#5))
  | .seq d a b => some (srWord 1#6 d a b (23#6 ++ 0#5))
  | .sel d a b c => some (srWord 1#6 d a b (0x18#6 ++ c))
  | .clz d a => some (srWord 1#6 d a 0#5 (0x19#6 ++ 0#5))
  | .ctz d a => some (srWord 1#6 d a 0#5 (0x1A#6 ++ 0#5))
  | .popc d a => some (srWord 1#6 d a 0#5 (0x1B#6 ++ 0#5))
  | .bswap d a => some (srWord 1#6 d a 0#5 (0x1C#6 ++ 0#5))
  | .bextI d a b => some (srWord 1#6 d a b (0x1D#6 ++ 0#5))
  | .bextN d a b => some (srWord 1#6 d a b (0x1E#6 ++ 0#5))
  | .bins d a b => some (srWord 1#6 d a b (0x1F#6 ++ 0#5))
  | .lea d a b s => some (srWord 1#6 d a b (0x20#6 ++ 0#3 ++ s))
  | .addImm d a i => some (siWord 2#6 d a i)
  | .mulImm d a i => some (siWord 3#6 d a i)
  | .andImm d a i => some (siWord 4#6 d a i)
  | .orImm d a i => some (siWord 5#6 d a i)
  | .xorImm d a i => some (siWord 6#6 d a i)
  | .sltIImm d a i => some (siWord 7#6 d a i)
  | .sltNImm d a i => some (siWord 8#6 d a i)
  | .seqImm d a i => some (siWord 9#6 d a i)
  | .shlImm d a n => some (siWord 0x0A#6 d a (0#8 ++ 0#2 ++ n))
  | .shrImm d a n => some (siWord 0x0A#6 d a (0#8 ++ 1#2 ++ n))
  | .sraImm d a n => some (siWord 0x0A#6 d a (0#8 ++ 2#2 ++ n))
  | .rolImm d a n => some (siWord 0x0A#6 d a (0#8 ++ 3#2 ++ n))
  | .li d i => some (siWord 0x0B#6 d 0#5 i)
  | .liIns d k i => some (siWord 0x0B#6 d (0b100#3 ++ k) i)
  | .pcrel d o => some (0x0C#6 ++ d ++ o)
  | .brEq a b o => some (sbWord 0x0D#6 0#4 a b o)
  | .brNe a b o => some (sbWord 0x0D#6 1#4 a b o)
  | .brLt a b o => some (sbWord 0x0D#6 2#4 a b o)
  | .brGe a b o => some (sbWord 0x0D#6 3#4 a b o)
  | .brLtN a b o => some (sbWord 0x0D#6 4#4 a b o)
  | .brGeN a b o => some (sbWord 0x0D#6 5#4 a b o)
  | .loop a o => some (sbWord 0x0D#6 6#4 a 0#5 o)
  | .jmp o => some (sjWord 0x0E#6 o)
  | .call o => some (sjWord 0x0F#6 o)
  | .jr d a i => some (siWord 0x10#6 d a i)
  | .ldI8 d a i => some (siWord 0x11#6 d a i)
  | .ldI16 d a i => some (siWord 0x12#6 d a i)
  | .ldI32 d a i => some (siWord 0x13#6 d a i)
  | .ldI64 d a i => some (siWord 0x14#6 d a i)
  | .ldN8 d a i => some (siWord 0x15#6 d a i)
  | .ldN16 d a i => some (siWord 0x16#6 d a i)
  | .ldN32 d a i => some (siWord 0x17#6 d a i)
  | .st8 d a i => some (siWord 0x18#6 d a i)
  | .st16 d a i => some (siWord 0x19#6 d a i)
  | .st32 d a i => some (siWord 0x1A#6 d a i)
  | .st64 d a i => some (siWord 0x1B#6 d a i)
  | .ldOrdered d a sc q t => some (srWord 0x1C#6 d a 0#5 (sc.bits ++ (0#1 ++ bit1 q) ++ t.bits ++ 0#3))
  | .stOrdered a b sc q t => some (srWord 0x1C#6 0#5 a b (sc.bits ++ (bit1 q ++ 0#1) ++ t.bits ++ 1#3))
  | .ldw d a sc q t => some (srWord 0x1C#6 d a 0#5 (sc.bits ++ (0#1 ++ bit1 q) ++ t.bits ++ 2#3))
  | .pf a => some (srWord 0x1C#6 0#5 a 0#5 3#11)
  | .cln a => some (srWord 0x1C#6 0#5 a 0#5 4#11)
  | .clnPersist a => some (srWord 0x1C#6 0#5 a 0#5 5#11)
  | .fence sc => some (srWord 0x1C#6 0#5 0#5 0#5 (sc.bits ++ 0#2 ++ 0#3 ++ 6#3))
  | .fenceAcq sc => some (srWord 0x1C#6 0#5 0#5 0#5 (sc.bits ++ 1#2 ++ 0#3 ++ 6#3))
  | .fenceRel sc => some (srWord 0x1C#6 0#5 0#5 0#5 (sc.bits ++ 2#2 ++ 0#3 ++ 6#3))
  | .amoSwap d a b sc sem x => some (srWord 0x1D#6 d a b (sc.bits ++ sem.bits ++ (0#1 ++ bit1 x) ++ 0#4))
  | .amoAdd d a b sc sem x => some (srWord 0x1D#6 d a b (sc.bits ++ sem.bits ++ (0#1 ++ bit1 x) ++ 1#4))
  | .amoAnd d a b sc sem x => some (srWord 0x1D#6 d a b (sc.bits ++ sem.bits ++ (0#1 ++ bit1 x) ++ 2#4))
  | .amoOr d a b sc sem x => some (srWord 0x1D#6 d a b (sc.bits ++ sem.bits ++ (0#1 ++ bit1 x) ++ 3#4))
  | .amoXor d a b sc sem x => some (srWord 0x1D#6 d a b (sc.bits ++ sem.bits ++ (0#1 ++ bit1 x) ++ 4#4))
  | .amoMinI d a b sc sem x => some (srWord 0x1D#6 d a b (sc.bits ++ sem.bits ++ (0#1 ++ bit1 x) ++ 5#4))
  | .amoMaxI d a b sc sem x => some (srWord 0x1D#6 d a b (sc.bits ++ sem.bits ++ (0#1 ++ bit1 x) ++ 6#4))
  | .amoMinN d a b sc sem x => some (srWord 0x1D#6 d a b (sc.bits ++ sem.bits ++ (0#1 ++ bit1 x) ++ 7#4))
  | .amoMaxN d a b sc sem x => some (srWord 0x1D#6 d a b (sc.bits ++ sem.bits ++ (0#1 ++ bit1 x) ++ 8#4))
  | .amoFadd d a b sc sem x => some (srWord 0x1D#6 d a b (sc.bits ++ sem.bits ++ (0#1 ++ bit1 x) ++ 9#4))
  | .cas d a b sc sem x => some (srWord 0x1D#6 d a b (sc.bits ++ sem.bits ++ (0#1 ++ bit1 x) ++ 10#4))
  | .cst d a sc q => some (srWord 0x1D#6 d a 0#5 (sc.bits ++ (bit1 q ++ 0#1) ++ 0#2 ++ 11#4))
  | .fadd d a b r t => some (srWord 0x1E#6 d a b (0#4 ++ r.bits ++ t.bits ++ 0#2))
  | .fsub d a b r t => some (srWord 0x1E#6 d a b (1#4 ++ r.bits ++ t.bits ++ 0#2))
  | .fmul d a b r t => some (srWord 0x1E#6 d a b (2#4 ++ r.bits ++ t.bits ++ 0#2))
  | .fdiv d a b r t => some (srWord 0x1E#6 d a b (3#4 ++ r.bits ++ t.bits ++ 0#2))
  | .fsqrt d a r t => some (srWord 0x1E#6 d a 0#5 (4#4 ++ r.bits ++ t.bits ++ 0#2))
  | .fmin d a b t => some (srWord 0x1E#6 d a b (5#4 ++ 0#3 ++ t.bits ++ 0#2))
  | .fmax d a b t => some (srWord 0x1E#6 d a b (6#4 ++ 0#3 ++ t.bits ++ 0#2))
  | .fcmp d a b t k => some (srWord 0x1E#6 d a b (7#4 ++ 0#3 ++ t.bits ++ k.bits))
  | .fcls d a t => some (srWord 0x1E#6 d a 0#5 (8#4 ++ 0#3 ++ t.bits ++ 0#2))
  | .fma d a b c r t => some (srWord 0x1F#6 d a b (c ++ r.bits ++ t.bits ++ 0#1))
  | .fcvt d a r o t s => some (srWord 0x2C#6 d a 0#5 (r.bits ++ bit1 o ++ t.bits ++ s.bits ++ 0#1))
  | .lxImm a n => some (siWord 0x20#6 0#5 a (0#2 ++ 0#7 ++ 0#1 ++ n))
  | .lxReg d a => some (siWord 0x20#6 d a (0#2 ++ 0#7 ++ 1#1 ++ 0#6))
  | .lwait => some (siWord 0x20#6 0#5 0#5 0x4000#16)
  | .lpoll d => some (siWord 0x20#6 d 0#5 0x8000#16)
  | .csrr d n => some (siWord 0x21#6 d 0#5 (0#4 ++ n))
  | .csrw a n => some (siWord 0x21#6 0#5 a (1#4 ++ n))
  | .csrs d a n => some (siWord 0x21#6 d a (2#4 ++ n))
  | .nop => some (siWord 0x22#6 0#5 0#5 0x0000#16)
  | .done => some (siWord 0x22#6 0#5 0#5 0x1000#16)
  | .svc k => some (siWord 0x22#6 0#5 0#5 (2#4 ++ k))
  | .brk k => some (siWord 0x22#6 0#5 0#5 (3#4 ++ k))
  | .tstamp d => some (siWord 0x22#6 d 0#5 0x4000#16)
  | .cyc d => some (siWord 0x22#6 d 0#5 0x5000#16)
  | .yieldGroup => some (siWord 0x22#6 0#5 0#5 0x6000#16)
  | .wkGet d e => some (siWord 0x22#6 d e 0x7000#16)
  | .safe m => some (0x23#6 ++ 0#1 ++ m)
  | .subSubscription d a b => some (srWord 0x24#6 d a b (0#3 ++ 0#8))
  | .unsub d a b => some (srWord 0x24#6 d a b (1#3 ++ 0#8))
  | .subup d a b => some (srWord 0x24#6 d a b (2#3 ++ 0#8))
  | .crSet a b => some (srWord 0x24#6 0#5 a b (3#3 ++ 0#8))
  | .crEnd a => some (srWord 0x24#6 0#5 a 0#5 (4#3 ++ 0#8))
  | .radd a b t => some (srWord 0x24#6 0#5 a b (5#3 ++ t.bits))
  | .spmMap d a b => some (srWord 0x25#6 d a b (0#3 ++ 0#8))
  | .spmMapFill d a b => some (srWord 0x25#6 d a b (1#3 ++ 0#8))
  | .spmUnmap a => some (srWord 0x25#6 0#5 a 0#5 (2#3 ++ 0#8))
  | .barInit a n => some (siWord 0x26#6 0#5 a (0#4 ++ 0#5 ++ 0#1 ++ n))
  | .barArr n => some (siWord 0x26#6 0#5 0#5 (1#4 ++ 0#5 ++ 0#1 ++ n))
  | .barExp a n => some (siWord 0x26#6 0#5 a (2#4 ++ 0#5 ++ 0#1 ++ n))
  | .barWait q n => some (siWord 0x26#6 0#5 0#5 (3#4 ++ 0#5 ++ bit1 q ++ n))
  | .barTry d q n => some (siWord 0x26#6 d 0#5 (4#4 ++ 0#5 ++ bit1 q ++ n))
  | .monArm d a => some (siWord 0x27#6 d a (0#4 ++ 0#7 ++ 0#5))
  | .monWait => some (siWord 0x27#6 0#5 0#5 (1#4 ++ 0#7 ++ 0#5))
  | .portCfg e => some (siWord 0x27#6 0#5 0#5 (2#4 ++ 0#7 ++ (0#4 ++ bit1 e)))
  | .xacq n => some (siWord 0x27#6 0#5 0#5 (3#4 ++ 0#7 ++ n))
  | .xrel n => some (siWord 0x27#6 0#5 0#5 (4#4 ++ 0#7 ++ n))
  | .cp d a b sc => some (srWord 0x28#6 d a b (sc.bits ++ 0#4 ++ 0#4))
  | .cpColl d a b sc => some (srWord 0x28#6 d a b (sc.bits ++ 1#4 ++ 0#4))
  | .gth d a b sc => some (srWord 0x28#6 d a b (sc.bits ++ 2#4 ++ 0#4))
  | .scat d a b sc => some (srWord 0x28#6 d a b (sc.bits ++ 3#4 ++ 0#4))
  | .redcp d a b sc => some (srWord 0x28#6 d a b (sc.bits ++ 4#4 ++ 0#4))
  | .mcast d a b sc => some (srWord 0x28#6 d a b (sc.bits ++ 5#4 ++ 0#4))
  | .dcoll d a b sc => some (srWord 0x28#6 d a b (sc.bits ++ 6#4 ++ 0#4))
  | .tidSet a n => some (siWord 0x29#6 0#5 a (0#4 ++ 0#6 ++ n))
  | .tidGet d n => some (siWord 0x29#6 d 0#5 (1#4 ++ 0#6 ++ n))
  | .tidInv n => some (siWord 0x29#6 0#5 0#5 (2#4 ++ 0#6 ++ n))
  | .xfer a => some (siWord 0x2A#6 0#5 a 0x0000#16)
  | .xcall d a => some (siWord 0x2A#6 d a 0x1000#16)
  | .xret a => some (siWord 0x2A#6 0#5 a 0x2000#16)
  | .segWho d a => some (siWord 0x2A#6 d a 0x3000#16)
  | .tret a => some (siWord 0x2B#6 0#5 a 0x0000#16)
  | .ctxSave d a => some (siWord 0x2B#6 d a 0x1000#16)
  | .ctxLoad d a => some (siWord 0x2B#6 d a 0x2000#16)
  | .capMint d a => some (siWord 0x2B#6 d a 0x3000#16)
  | .capDrop d a => some (siWord 0x2B#6 d a 0x4000#16)
  | .tlbInv d a => some (siWord 0x2B#6 d a 0x5000#16)
  | .hmtSet d a => some (siWord 0x2B#6 d a 0x6000#16)
  | .segMap d a => some (siWord 0x2B#6 d a 0x7000#16)
  | .actSet d a => some (siWord 0x2B#6 d a 0x8000#16)
  | .evqSet d a => some (siWord 0x2B#6 d a 0x9000#16)
  | .idle => some (siWord 0x2B#6 0#5 0#5 0xA000#16)
  | .halt => some (siWord 0x2B#6 0#5 0#5 0xB000#16)
  | _ => none

/-! ### Lane words -/

/-- A source field (R57). -/
def opS (w : Nat) (x : BitVec 12) : Option Operand := Operand.ofBits w false x

/-- A destination field (R57). -/
def opD (w : Nat) (x : BitVec 12) : Option Operand := Operand.ofBits w true x

/-- Two sources and a destination of one width. -/
def form3 (w : Nat) (k : Operand → Operand → Operand → Instr) (f : LaneFields) : Option Instr :=
  (opS w f.a).bind fun a => (opS w f.b).bind fun b => (opD w f.d).map fun d => k d a b

/-- Three sources and a destination of one width. -/
def form4 (w : Nat) (k : Operand → Operand → Operand → Operand → Instr) (f : LaneFields) : Option Instr :=
  (opS w f.a).bind fun a => (opS w f.b).bind fun b => (opS w f.c).bind fun c => (opD w f.d).map fun d => k d a b c

/-- A source and a destination, of their own widths. -/
def form2 (ws wd : Nat) (k : Operand → Operand → Instr) (f : LaneFields) : Option Instr :=
  (opS ws f.a).bind fun a => (opD wd f.d).map fun d => k d a

/-- Integer words with two sources and no imm25 (R190). -/
def intForm3 (k : ITy → Operand → Operand → Operand → Instr) (f : LaneFields) : Option (Option Instr) :=
  if f.c = 0#12 ∧ f.imm = 0#25 then (ITy.ofBits f.mod).map fun t => form3 t.width (k t) f else none

/-- Integer words with one source and no imm25 (R190). -/
def intForm2 (k : ITy → Operand → Operand → Instr) (f : LaneFields) : Option (Option Instr) :=
  if f.b = 0#12 ∧ f.c = 0#12 ∧ f.imm = 0#25 then (ITy.ofBits f.mod).map fun t => form2 t.width t.width (k t) f else none

/-- Floating words with two sources and a rounding code (R190). -/
def fpForm3r (k : FTy → Rnd → Operand → Operand → Operand → Instr) (f : LaneFields) : Option (Option Instr) :=
  if f.c = 0#12 ∧ f.imm.extractLsb' 3 22 = 0#22 then
    (FTy.ofBits f.mod).bind fun t => (arithRnd (f.imm.extractLsb' 0 3)).map fun r => form3 t.width (k t r) f
  else none

/-- Floating words with two sources and no rounding (R190). -/
def fpForm3 (k : FTy → Operand → Operand → Operand → Instr) (f : LaneFields) : Option (Option Instr) :=
  if f.c = 0#12 ∧ f.imm = 0#25 then (FTy.ofBits f.mod).map fun t => form3 t.width (k t) f else none

/-- Floating words with one source and no rounding (R190). -/
def fpForm2 (k : FTy → Operand → Operand → Instr) (f : LaneFields) : Option (Option Instr) :=
  if f.b = 0#12 ∧ f.c = 0#12 ∧ f.imm = 0#25 then (FTy.ofBits f.mod).map fun t => form2 t.width t.width (k t) f else none

/-- Words of any element type with two sources, and k's own part of imm25 already taken (R190). -/
def elemForm3 (k : ETy → Operand → Operand → Operand → Instr) (rest : Bool) (f : LaneFields) : Option (Option Instr) :=
  if f.c = 0#12 ∧ rest then (ETy.ofBits f.mod).map fun t => form3 t.width (k t) f else none

/-- Compare words (R249). -/
def cmpForm (w : Nat) (k : Cond → CmpDst → Operand → Operand → Instr) (f : LaneFields) : Option (Option Instr) :=
  if f.c = 0#12 ∧ f.imm.extractLsb' 8 17 = 0#17 then
    (Cond.ofBits (f.imm.extractLsb' 3 4)).bind fun c =>
      if f.imm.extractLsb' 7 1 = 0#1 then
        if f.d = 0#12 then
          some ((opS w f.a).bind fun a => (opS w f.b).map fun b => k c (.pred (f.imm.extractLsb' 0 3)) a b)
        else none
      else if f.imm.extractLsb' 0 3 = 0#3 then
        some ((opS w f.a).bind fun a => (opS w f.b).bind fun b => (opD w f.d).map fun d => k c (.elem d) a b)
      else none
  else none

/-- Every operand field is zero (R190). -/
def noOps (f : LaneFields) : Bool := f.d == 0#12 && f.a == 0#12 && f.b == 0#12 && f.c == 0#12

/-- Integer lane words, op12 rows 0x00 and 0x01 (R188). -/
def laneInt (h : LaneHdr) (f : LaneFields) : Option (Option Instr) :=
  match f.op.toNat with
  | 0x001 => intForm3 (.vadd h) f
  | 0x002 => intForm3 (.vsub h) f
  | 0x003 => intForm3 (.vmul h) f
  | 0x004 => intForm3 (.vmulh h) f
  | 0x005 => if f.imm = 0#25 then (ITy.ofBits f.mod).map fun t => form4 t.width (.vmad h t) f else none
  | 0x006 => intForm3 (.vabsd h) f
  | 0x007 => intForm3 (.vmin h) f
  | 0x008 => intForm3 (.vmax h) f
  | 0x009 => intForm3 (.vadds h) f
  | 0x00A => intForm3 (.vsubs h) f
  | 0x00B => intForm3 (.vand h) f
  | 0x00C => intForm3 (.vor h) f
  | 0x00D => intForm3 (.vxor h) f
  | 0x00E => intForm3 (.vandn h) f
  | 0x00F => intForm3 (.vshl h) f
  | 0x010 => intForm3 (.vshr h) f
  | 0x011 => intForm3 (.vsra h) f
  | 0x012 => intForm2 (.vclz h) f
  | 0x013 => intForm2 (.vctz h) f
  | 0x014 => intForm2 (.vpopc h) f
  | 0x015 => intForm2 (.vbrev h) f
  | 0x016 => if f.c = 0#12 ∧ f.imm = 0#25 then
      (ITy.ofBits f.mod).bind fun t => if t.wide then some (form3 t.width (.vbext h t) f) else none
    else none
  | 0x017 => (ITy.ofBits f.mod).bind fun t => cmpForm t.width (.vcmp h t) f
  | 0x018 => elemForm3 (fun t d a b => .vsel h t d a b (f.imm.extractLsb' 0 3) (ofBit1 (f.imm.extractLsb' 3 1)))
      (f.imm.extractLsb' 4 21 == 0#21) f
  | 0x019 => if f.b = 0#12 ∧ f.c = 0#12 ∧ f.imm = 0#25 then
      (ETy.ofBits f.mod).map fun t => form2 t.width t.width (.vmov h t) f else none
  | 0x01A => if f.a = 0#12 ∧ f.b = 0#12 ∧ f.c.extractLsb' 7 5 = 0#5 then
      (LiTy.ofBits f.mod).map fun t => (opD 32 f.d).map fun d => .vli h t d (f.c.extractLsb' 0 7 ++ f.imm) else none
  | 0x01B => if f.b = 0#12 ∧ f.c = 0#12 ∧ f.imm.extractLsb' 4 21 = 0#21 then
      (ITy.ofBits f.mod).bind fun t => (ITy.ofBits (f.imm.extractLsb' 0 4)).bind fun s =>
        if s.width < t.width then some (form2 s.width t.width (.vext h t s) f) else none
    else none
  | 0x01C => if f.b = 0#12 ∧ f.c = 0#12 ∧ f.imm.extractLsb' 5 20 = 0#20 then
      (ITy.ofBits f.mod).bind fun t => (ITy.ofBits (f.imm.extractLsb' 0 4)).bind fun s =>
        if t.width < s.width then some (form2 s.width t.width (.vnrw h t s (ofBit1 (f.imm.extractLsb' 4 1))) f) else none
    else none
  | _ => none

/-- Floating lane words, op12 rows 0x10 and 0x11 (R188). -/
def laneFp (h : LaneHdr) (f : LaneFields) : Option (Option Instr) :=
  match f.op.toNat with
  | 0x101 => fpForm3r (.vfadd h) f
  | 0x102 => fpForm3r (.vfsub h) f
  | 0x103 => fpForm3r (.vfmul h) f
  | 0x104 => if f.imm.extractLsb' 3 22 = 0#22 then
      (FTy.ofBits f.mod).bind fun t => (arithRnd (f.imm.extractLsb' 0 3)).map fun r => form4 t.width (.vffma h t r) f
    else none
  | 0x105 => fpForm3 (.vfmin h) f
  | 0x106 => fpForm3 (.vfmax h) f
  | 0x107 => (FTy.ofBits f.mod).bind fun t => cmpForm t.width (.vfcmp h t) f
  | 0x108 => fpForm2 (.vfrcp h) f
  | 0x109 => fpForm2 (.vfrsq h) f
  | 0x10A => fpForm2 (.vfex2 h) f
  | 0x10B => fpForm2 (.vflg2 h) f
  | 0x10C => fpForm2 (.vfsin h) f
  | 0x10D => fpForm2 (.vfcos h) f
  | 0x10E => fpForm2 (.vftnh h) f
  | 0x10F => if f.mod = 0#4 ∧ f.b = 0#12 ∧ f.c = 0#12 ∧ f.imm.extractLsb' 20 5 = 0#5 then
      (Rnd.ofBits (f.imm.extractLsb' 16 3)).bind fun r => (Fmt.ofBits (f.imm.extractLsb' 8 8)).bind fun s =>
      (Fmt.ofBits (f.imm.extractLsb' 0 8)).bind fun t =>
        let ovf := ofBit1 (f.imm.extractLsb' 19 1)
        if s.cvtOk && t.cvtOk && s != t && !(s.isInt && t.isInt) && !(ovf && t.isInt) then
          some (form2 s.width t.width (.vfcvt h ovf r s t) f) else none
    else none
  | 0x110 => fpForm2 (.vfcls h) f
  | 0x111 => if f.mod = 8#4 ∧ f.imm.extractLsb' 19 6 = 0#6 ∧ f.imm.extractLsb' 0 8 = 0#8 then
      (arithRnd (f.imm.extractLsb' 16 3)).bind fun r =>
        match (f.imm.extractLsb' 8 8).toNat with
        | 0x02 => some (form4 32 (.vfdot2 h false r) f)
        | 0x03 => some (form4 32 (.vfdot2 h true r) f)
        | _ => none
    else none
  | 0x112 => if f.mod = 8#4 ∧ f.imm.extractLsb' 19 6 = 0#6 ∧ f.imm.extractLsb' 0 8 = 0#8 then
      (arithRnd (f.imm.extractLsb' 16 3)).bind fun r =>
        match Fmt.ofBits (f.imm.extractLsb' 8 8) with
        | some (.b8 v p) => some (form4 32 (.vfdot4 h v p r) f)
        | _ => none
    else none
  | 0x113 => fpForm3r (.vfscl h) f
  | _ => none

/-- A reduction's operation and rounding (R263). -/
def redFields (f : LaneFields) : Option (ETy × RedOp × Rnd) :=
  (ETy.ofBits f.mod).bind fun t => (RedOp.ofBits (f.imm.extractLsb' 0 4)).bind fun o =>
  (Rnd.ofBits (f.imm.extractLsb' 4 3)).bind fun r => if redOk t o r then some (t, o, r) else none

/-- Cross-lane words and predicate words, op12 rows 0x20 and 0x30 (R188). -/
def laneCross (h : LaneHdr) (f : LaneFields) : Option (Option Instr) :=
  let pd := f.imm.extractLsb' 0 3
  let pa := f.imm.extractLsb' 3 3
  let pb := f.imm.extractLsb' 6 3
  let na := ofBit1 (f.imm.extractLsb' 9 1)
  let nb := ofBit1 (f.imm.extractLsb' 10 1)
  let bin := f.mod == 0#4 && noOps f && f.imm.extractLsb' 11 14 == 0#14
  let un := bin && f.imm.extractLsb' 10 1 == 0#1 && f.imm.extractLsb' 6 3 == 0#3
  match f.op.toNat with
  | 0x201 => (ShMode.ofBits (f.imm.extractLsb' 0 2)).bind fun m =>
      elemForm3 (fun t d a b => .vshfl h t m d a b) (f.imm.extractLsb' 2 23 == 0#23) f
  | 0x202 => elemForm3 (.vbcast h) (f.imm == 0#25) f
  | 0x203 => if f.b = 0#12 ∧ f.c = 0#12 ∧ f.imm.extractLsb' 7 18 = 0#18 then
      (redFields f).map fun (t, o, r) => form2 t.width t.width (.vlred h t o r) f else none
  | 0x204 => if f.b = 0#12 ∧ f.c = 0#12 ∧ f.imm.extractLsb' 7 18 = 0#18 then
      (redFields f).map fun (t, o, r) => form2 t.width t.width (.vscan h t o r) f else none
  | 0x205 => if f.c = 0#12 ∧ f.imm.extractLsb' 10 15 = 0#15 then
      (redFields f).map fun (t, o, r) => form3 t.width (.vmred h t o r (f.imm.extractLsb' 7 3)) f else none
  | 0x206 => if f.a = 0#12 ∧ f.b = 0#12 ∧ f.c = 0#12 ∧ f.imm.extractLsb' 3 22 = 0#22 then
      match f.mod.toNat with
      | 6 => some ((opD 32 f.d).map fun d => .vballot h false pd d)
      | 7 => some ((opD 64 f.d).map fun d => .vballot h true pd d)
      | _ => none
    else none
  | 0x207 => if f.mod == 0#4 && noOps f && f.imm.extractLsb' 8 17 == 0#17 then
      (VoteMode.ofBits (f.imm.extractLsb' 3 2)).map fun m => some (.vvote h m pd (f.imm.extractLsb' 5 3)) else none
  | 0x208 => if f.mod = 0#4 ∧ f.a = 0#12 ∧ f.b = 0#12 ∧ f.c = 0#12 ∧ f.imm = 0#25 then
      some ((opD 32 f.d).map fun d => .vlid h d) else none
  | 0x301 => if bin then some (some (.pand h pd pa pb na nb)) else none
  | 0x302 => if bin then some (some (.por h pd pa pb na nb)) else none
  | 0x303 => if bin then some (some (.pxor h pd pa pb na nb)) else none
  | 0x304 => if un then some (some (.pnot h pd pa na)) else none
  | 0x305 => if un then some (some (.pmov h pd pa na)) else none
  | _ => none

/-- Lane control and `vw.set`, op12 row 0x40 (R188, R194). -/
def laneControl (h : LaneHdr) (f : LaneFields) : Option (Option Instr) :=
  let plain := f.mod == 0#4 && noOps f && h.boundary && h.pred == 0#3 && !h.neg
  match f.op.toNat with
  | 0x401 => if h.boundary && noOps f && f.mod.extractLsb' 1 3 == 0#3 then
      some (some (.lbr h.pred h.neg (ofBit1 (f.mod.extractLsb' 0 1)) f.imm)) else none
  | 0x402 => if plain then some (some (.ljmp f.imm)) else none
  | 0x403 => if plain && f.imm.extractLsb' 4 21 == 0#21 then some (some (.regang (f.imm.extractLsb' 0 4))) else none
  | 0x404 => if plain && f.imm == 0#25 then some (some .lend) else none
  | 0x405 => if f.mod == 0#4 && noOps f && f.imm == 0#25 then some (some (.lnop h)) else none
  | 0x406 => if f.mod = 0#4 ∧ f.d = 0#12 ∧ f.b = 0#12 ∧ f.c = 0#12 ∧ f.imm.extractLsb' 5 20 = 0#20 then
      some ((opS 64 f.a).map fun a => .vwSet h (f.imm.extractLsb' 0 5) a) else none
  | _ => none

/-- A tile view with column offset 0 (R288). -/
def tileField (x : BitVec 12) : Option (BitVec 4) := if x.extractLsb' 4 8 = 0b01000000#8 then some (x.extractLsb' 0 4) else none

/-- A plain word with SEL 00 (R288). -/
def wordField (x : BitVec 12) : Option (BitVec 8) := if x.extractLsb' 8 4 = 0#4 then some (x.extractLsb' 0 8) else none

/-- Lane memory words, op12 row 0x50 (R279, R284, R288). -/
def laneMem (h : LaneHdr) (f : LaneFields) : Option (Option Instr) :=
  let sc := Scope.ofBits (f.imm.extractLsb' 22 3)
  let sem := f.imm.extractLsb' 20 2
  let off := f.imm.extractLsb' 0 12
  match f.op.toNat with
  | 0x501 => if f.b = 0#12 ∧ f.c = 0#12 ∧ f.imm.extractLsb' 12 8 = 0#8 ∧ sem.extractLsb' 1 1 = 0#1 then
      (ETy.ofBits f.mod).bind fun t => sc.map fun sc => (pairOperand f.a).bind fun a => (opD t.width f.d).map fun d =>
        .vld h t sc (ofBit1 (sem.extractLsb' 0 1)) off d a
    else none
  | 0x502 => if f.d = 0#12 ∧ f.c = 0#12 ∧ f.imm.extractLsb' 12 8 = 0#8 ∧ sem.extractLsb' 0 1 = 0#1 then
      (ETy.ofBits f.mod).bind fun t => sc.map fun sc => (pairOperand f.a).bind fun a => (opS t.width f.b).map fun b =>
        .vst h t sc (ofBit1 (sem.extractLsb' 1 1)) off a b
    else none
  | 0x503 => if f.c = 0#12 ∧ f.imm.extractLsb' 12 4 = 0#4 then
      (AtTy.ofBits f.mod).bind fun t => (AmoOp.ofBits (f.imm.extractLsb' 16 4)).bind fun op =>
      if amoOk t op then
        sc.bind fun sc => (Sem.ofBits sem).map fun sem => (pairOperand f.a).bind fun a => (opS t.width f.b).bind fun b =>
          (opD t.width f.d).map fun d => .vamo h t op sc sem off d a b
      else none
    else none
  | 0x504 => if f.imm.extractLsb' 12 8 = 0#8 then
      (AtTy.ofBits f.mod).bind fun t => sc.bind fun sc => (Sem.ofBits sem).map fun sem =>
        (pairOperand f.a).bind fun a => (opS t.width f.b).bind fun b => (opS t.width f.c).bind fun c =>
          (opD t.width f.d).map fun d => .vcas h t sc sem off d a b c
    else none
  | 0x505 => if f.mod = 0#4 ∧ f.b = 0#12 ∧ f.c = 0#12 ∧ f.imm.extractLsb' 6 19 = 0#19 then
      some ((tileField f.d).bind fun v => (wordField f.a).map fun k => .vtld h v k (f.imm.extractLsb' 0 6)) else none
  | 0x506 => if f.mod = 0#4 ∧ f.d = 0#12 ∧ f.c = 0#12 ∧ f.imm.extractLsb' 6 19 = 0#19 then
      some ((tileField f.b).bind fun v => (wordField f.a).map fun k => .vtst h v k (f.imm.extractLsb' 0 6)) else none
  | _ => none

/-- Lane fences, contributions and barriers, op12 row 0x60 (R190). -/
def laneSync (h : LaneHdr) (f : LaneFields) : Option (Option Instr) :=
  let n := f.imm.extractLsb' 0 6
  let q := ofBit1 (f.imm.extractLsb' 6 1)
  match f.op.toNat with
  | 0x601 => if f.mod == 0#4 && noOps f && f.imm.extractLsb' 0 20 == 0#20 then
      (Scope.ofBits (f.imm.extractLsb' 22 3)).bind fun sc => (FenceKind.ofBits (f.imm.extractLsb' 20 2)).map fun k =>
        some (.laneFence h sc k) else none
  | 0x602 => if f.d = 0#12 ∧ f.c = 0#12 ∧ f.imm = 0#25 then
      (CrTy.ofMod f.mod).map fun t => (pairOperand f.a).bind fun a => (opS t.width f.b).map fun b => .laneRadd h t a b
    else none
  | 0x603 => if f.mod == 0#4 && noOps f && f.imm.extractLsb' 6 19 == 0#19 then some (some (.laneBarArr h n)) else none
  | 0x604 => if f.mod = 0#4 ∧ f.d = 0#12 ∧ f.a = 0#12 ∧ f.c = 0#12 ∧ f.imm.extractLsb' 6 19 = 0#19 then
      some ((opS 32 f.b).map fun b => .laneBarExp h n b) else none
  | 0x605 => if f.mod == 0#4 && noOps f && f.imm.extractLsb' 7 18 == 0#18 then some (some (.laneBarWait h n q)) else none
  | 0x606 => if f.mod == 0#4 && noOps f && f.imm.extractLsb' 10 15 == 0#15 then
      some (some (.laneBarTry h n q (f.imm.extractLsb' 7 3))) else none
  | _ => none

/-- A single lane word by its op12 row: none for check 2 of R198, some none for check 5. -/
def laneForm (h : LaneHdr) (f : LaneFields) : Option (Option Instr) :=
  match (f.op.extractLsb' 4 8).toNat with
  | 0x00 | 0x01 => laneInt h f
  | 0x10 | 0x11 => laneFp h f
  | 0x20 | 0x30 => laneCross h f
  | 0x40 => laneControl h f
  | 0x50 => laneMem h f
  | 0x60 => laneSync h f
  | _ => none

/-- The fields of a single lane word (R187). -/
def laneFields (w : BitVec 96) : LaneFields :=
  { op := w.extractLsb' 77 12, mod := w.extractLsb' 73 4, d := w.extractLsb' 61 12, a := w.extractLsb' 49 12
    b := w.extractLsb' 37 12, c := w.extractLsb' 25 12, imm := w.extractLsb' 0 25 }

/-- The header of a lane word (R186). -/
def laneHdr (w : BitVec 96) : LaneHdr :=
  { boundary := ofBit1 (w.extractLsb' 94 1), pred := w.extractLsb' 90 3, neg := ofBit1 (w.extractLsb' 89 1) }

/-- Destination of a half (R191). -/
def halfDst (x : BitVec 10) : Option Operand :=
  if x.extractLsb' 8 2 = 0b00#2 then some (.word (x.extractLsb' 0 8))
  else if x.extractLsb' 3 7 = 0b1000000#7 then some (.opf (x.extractLsb' 0 3)) else none

/-- Field of a half's destination (R191). -/
def halfDstBits : Operand → BitVec 10
  | .word n => 0b00#2 ++ n
  | .opf i => 0b1000000#7 ++ i
  | _ => 0#10

/-- Source of a half (R191). -/
def halfSrc (x : BitVec 12) : Option Operand :=
  if x.extractLsb' 8 4 = 0#4 then some (.word (x.extractLsb' 0 8))
  else if x.extractLsb' 10 2 = 0b10#2 then opfOperand x else none

/-- One half of a paired word (R191). -/
def halfForm (x : BitVec 44) : Option HalfOp :=
  (PairOp.ofBits (x.extractLsb' 36 8)).bind fun op => (halfDst (x.extractLsb' 24 10)).bind fun d =>
  (halfSrc (x.extractLsb' 12 12)).bind fun a => (halfSrc (x.extractLsb' 0 12)).map fun b =>
    { op := op, mod2 := x.extractLsb' 34 2, d := d, a := a, b := b }

/-- The two halves of a paired word, if they pass R193. -/
def pairForm (w : BitVec 96) : Option (HalfOp × HalfOp) :=
  if w.extractLsb' 0 1 = 0#1 then
    (halfForm (w.extractLsb' 45 44)).bind fun x => (halfForm (w.extractLsb' 1 44)).bind fun y =>
      if pairOk x y then some (x, y) else none
  else none

/-- Decode one lane word; m is the word that follows it, its mask word when S is set.  The checks are made in the
order of R198: opcode and fixed fields or pair rules, the mask word, the operand fields.  The answer gives the mask
word of a safe-point word and the instruction. -/
def decodeLane (w m : BitVec 96) : Except Reject (Option (BitVec 96) × Instr) :=
  let h := laneHdr w
  let sp := if w.extractLsb' 95 1 = 1#1 then some m else none
  if w.extractLsb' 93 1 = 1#1 then
    match pairForm w with
    | none => .error .illegalPair
    | some (x, y) => if spOk sp then .ok (sp, .pairedWord h x y) else .error .badMask
  else
    match laneForm h (laneFields w) with
    | none => .error .illegalInstr
    | some o =>
      if spOk sp then
        match o with
        | some i => .ok (sp, i)
        | none => .error .illegalOperand
      else .error .badMask

/-- A header and fields from their parts. -/
def lf (h : LaneHdr) (op : BitVec 12) (mod : BitVec 4) (d a b c : BitVec 12) (imm : BitVec 25) : Option (LaneHdr × LaneFields) :=
  some (h, { op := op, mod := mod, d := d, a := a, b := b, c := c, imm := imm })

/-- A rounding code in imm25 [2:0]. -/
def rndImm (r : Rnd) : BitVec 25 := 0#22 ++ r.bits

/-- imm25 of a compare (R249). -/
def cmpImm (k : Cond) : CmpDst → BitVec 25
  | .pred p => 0#17 ++ 0#1 ++ k.bits ++ p
  | .elem _ => 0#17 ++ 1#1 ++ k.bits ++ 0#3

/-- dst field of a compare (R249). -/
def cmpDstBits : CmpDst → BitVec 12
  | .pred _ => 0#12
  | .elem d => d.bits

/-- Header of a control word (R194, R244). -/
def ctlHdr : LaneHdr := { boundary := true, pred := 0#3, neg := false }

/-- imm25 of a lane memory word (R190). -/
def memImm (sc : Scope) (sem : BitVec 2) (op : BitVec 4) (o : BitVec 12) : BitVec 25 := sc.bits ++ sem ++ op ++ 0#4 ++ o

/-- Header and fields of a single lane word (R187 to R190, R243). -/
def laneEncode : Instr → Option (LaneHdr × LaneFields)
  | .vadd h t d a b => lf h 0x001#12 t.bits d.bits a.bits b.bits 0#12 0#25
  | .vsub h t d a b => lf h 0x002#12 t.bits d.bits a.bits b.bits 0#12 0#25
  | .vmul h t d a b => lf h 0x003#12 t.bits d.bits a.bits b.bits 0#12 0#25
  | .vmulh h t d a b => lf h 0x004#12 t.bits d.bits a.bits b.bits 0#12 0#25
  | .vmad h t d a b c => lf h 0x005#12 t.bits d.bits a.bits b.bits c.bits 0#25
  | .vabsd h t d a b => lf h 0x006#12 t.bits d.bits a.bits b.bits 0#12 0#25
  | .vmin h t d a b => lf h 0x007#12 t.bits d.bits a.bits b.bits 0#12 0#25
  | .vmax h t d a b => lf h 0x008#12 t.bits d.bits a.bits b.bits 0#12 0#25
  | .vadds h t d a b => lf h 0x009#12 t.bits d.bits a.bits b.bits 0#12 0#25
  | .vsubs h t d a b => lf h 0x00A#12 t.bits d.bits a.bits b.bits 0#12 0#25
  | .vand h t d a b => lf h 0x00B#12 t.bits d.bits a.bits b.bits 0#12 0#25
  | .vor h t d a b => lf h 0x00C#12 t.bits d.bits a.bits b.bits 0#12 0#25
  | .vxor h t d a b => lf h 0x00D#12 t.bits d.bits a.bits b.bits 0#12 0#25
  | .vandn h t d a b => lf h 0x00E#12 t.bits d.bits a.bits b.bits 0#12 0#25
  | .vshl h t d a b => lf h 0x00F#12 t.bits d.bits a.bits b.bits 0#12 0#25
  | .vshr h t d a b => lf h 0x010#12 t.bits d.bits a.bits b.bits 0#12 0#25
  | .vsra h t d a b => lf h 0x011#12 t.bits d.bits a.bits b.bits 0#12 0#25
  | .vclz h t d a => lf h 0x012#12 t.bits d.bits a.bits 0#12 0#12 0#25
  | .vctz h t d a => lf h 0x013#12 t.bits d.bits a.bits 0#12 0#12 0#25
  | .vpopc h t d a => lf h 0x014#12 t.bits d.bits a.bits 0#12 0#12 0#25
  | .vbrev h t d a => lf h 0x015#12 t.bits d.bits a.bits 0#12 0#12 0#25
  | .vbext h t d a b => lf h 0x016#12 t.bits d.bits a.bits b.bits 0#12 0#25
  | .vcmp h t k d a b => lf h 0x017#12 t.bits (cmpDstBits d) a.bits b.bits 0#12 (cmpImm k d)
  | .vsel h t d a b p n => lf h 0x018#12 t.bits d.bits a.bits b.bits 0#12 (0#21 ++ bit1 n ++ p)
  | .vmov h t d a => lf h 0x019#12 t.bits d.bits a.bits 0#12 0#12 0#25
  | .vli h t d k => lf h 0x01A#12 t.bits d.bits 0#12 0#12 (0#5 ++ k.extractLsb' 25 7) (k.extractLsb' 0 25)
  | .vext h t s d a => lf h 0x01B#12 t.bits d.bits a.bits 0#12 0#12 (0#21 ++ s.bits)
  | .vnrw h t s q d a => lf h 0x01C#12 t.bits d.bits a.bits 0#12 0#12 (0#20 ++ bit1 q ++ s.bits)
  | .vfadd h t r d a b => lf h 0x101#12 t.bits d.bits a.bits b.bits 0#12 (rndImm r)
  | .vfsub h t r d a b => lf h 0x102#12 t.bits d.bits a.bits b.bits 0#12 (rndImm r)
  | .vfmul h t r d a b => lf h 0x103#12 t.bits d.bits a.bits b.bits 0#12 (rndImm r)
  | .vffma h t r d a b c => lf h 0x104#12 t.bits d.bits a.bits b.bits c.bits (rndImm r)
  | .vfmin h t d a b => lf h 0x105#12 t.bits d.bits a.bits b.bits 0#12 0#25
  | .vfmax h t d a b => lf h 0x106#12 t.bits d.bits a.bits b.bits 0#12 0#25
  | .vfcmp h t k d a b => lf h 0x107#12 t.bits (cmpDstBits d) a.bits b.bits 0#12 (cmpImm k d)
  | .vfrcp h t d a => lf h 0x108#12 t.bits d.bits a.bits 0#12 0#12 0#25
  | .vfrsq h t d a => lf h 0x109#12 t.bits d.bits a.bits 0#12 0#12 0#25
  | .vfex2 h t d a => lf h 0x10A#12 t.bits d.bits a.bits 0#12 0#12 0#25
  | .vflg2 h t d a => lf h 0x10B#12 t.bits d.bits a.bits 0#12 0#12 0#25
  | .vfsin h t d a => lf h 0x10C#12 t.bits d.bits a.bits 0#12 0#12 0#25
  | .vfcos h t d a => lf h 0x10D#12 t.bits d.bits a.bits 0#12 0#12 0#25
  | .vftnh h t d a => lf h 0x10E#12 t.bits d.bits a.bits 0#12 0#12 0#25
  | .vfcvt h ovf r s t d a => lf h 0x10F#12 0#4 d.bits a.bits 0#12 0#12 (0#5 ++ bit1 ovf ++ r.bits ++ s.bits ++ t.bits)
  | .vfcls h t d a => lf h 0x110#12 t.bits d.bits a.bits 0#12 0#12 0#25
  | .vfdot2 h bf r d a b c => lf h 0x111#12 8#4 d.bits a.bits b.bits c.bits (0#6 ++ r.bits ++ (if bf then 3#8 else 2#8) ++ 0#8)
  | .vfdot4 h v p r d a b c => lf h 0x112#12 8#4 d.bits a.bits b.bits c.bits (0#6 ++ r.bits ++ (Fmt.b8 v p).bits ++ 0#8)
  | .vfscl h t r d a b => lf h 0x113#12 t.bits d.bits a.bits b.bits 0#12 (rndImm r)
  | .vshfl h t m d a b => lf h 0x201#12 t.bits d.bits a.bits b.bits 0#12 (0#23 ++ m.bits)
  | .vbcast h t d a b => lf h 0x202#12 t.bits d.bits a.bits b.bits 0#12 0#25
  | .vlred h t o r d a => lf h 0x203#12 t.bits d.bits a.bits 0#12 0#12 (0#18 ++ r.bits ++ o.bits)
  | .vscan h t o r d a => lf h 0x204#12 t.bits d.bits a.bits 0#12 0#12 (0#18 ++ r.bits ++ o.bits)
  | .vmred h t o r p d a b => lf h 0x205#12 t.bits d.bits a.bits b.bits 0#12 (0#15 ++ p ++ r.bits ++ o.bits)
  | .vballot h x p d => lf h 0x206#12 (if x then 7#4 else 6#4) d.bits 0#12 0#12 0#12 (0#22 ++ p)
  | .vvote h m p q => lf h 0x207#12 0#4 0#12 0#12 0#12 0#12 (0#17 ++ q ++ m.bits ++ p)
  | .vlid h d => lf h 0x208#12 0#4 d.bits 0#12 0#12 0#12 0#25
  | .pand h pd pa pb na nb => lf h 0x301#12 0#4 0#12 0#12 0#12 0#12 (0#14 ++ bit1 nb ++ bit1 na ++ pb ++ pa ++ pd)
  | .por h pd pa pb na nb => lf h 0x302#12 0#4 0#12 0#12 0#12 0#12 (0#14 ++ bit1 nb ++ bit1 na ++ pb ++ pa ++ pd)
  | .pxor h pd pa pb na nb => lf h 0x303#12 0#4 0#12 0#12 0#12 0#12 (0#14 ++ bit1 nb ++ bit1 na ++ pb ++ pa ++ pd)
  | .pnot h pd pa na => lf h 0x304#12 0#4 0#12 0#12 0#12 0#12 (0#14 ++ 0#1 ++ bit1 na ++ 0#3 ++ pa ++ pd)
  | .pmov h pd pa na => lf h 0x305#12 0#4 0#12 0#12 0#12 0#12 (0#14 ++ 0#1 ++ bit1 na ++ 0#3 ++ pa ++ pd)
  | .lbr p n x o => lf { ctlHdr with pred := p, neg := n } 0x401#12 (0#3 ++ bit1 x) 0#12 0#12 0#12 0#12 o
  | .ljmp o => lf ctlHdr 0x402#12 0#4 0#12 0#12 0#12 0#12 o
  | .regang k => lf ctlHdr 0x403#12 0#4 0#12 0#12 0#12 0#12 (0#21 ++ k)
  | .lend => lf ctlHdr 0x404#12 0#4 0#12 0#12 0#12 0#12 0#25
  | .lnop h => lf h 0x405#12 0#4 0#12 0#12 0#12 0#12 0#25
  | .vwSet h v a => lf h 0x406#12 0#4 0#12 a.bits 0#12 0#12 (0#20 ++ v)
  | .vld h t sc q o d a => lf h 0x501#12 t.bits d.bits a.bits 0#12 0#12 (memImm sc (0#1 ++ bit1 q) 0#4 o)
  | .vst h t sc q o a b => lf h 0x502#12 t.bits 0#12 a.bits b.bits 0#12 (memImm sc (bit1 q ++ 0#1) 0#4 o)
  | .vamo h t op sc sem o d a b => lf h 0x503#12 t.bits d.bits a.bits b.bits 0#12 (memImm sc sem.bits op.bits o)
  | .vcas h t sc sem o d a b c => lf h 0x504#12 t.bits d.bits a.bits b.bits c.bits (memImm sc sem.bits 0#4 o)
  | .vtld h v k n => lf h 0x505#12 0#4 (0b01000000#8 ++ v) (0#4 ++ k) 0#12 0#12 (0#19 ++ n)
  | .vtst h v k n => lf h 0x506#12 0#4 0#12 (0#4 ++ k) (0b01000000#8 ++ v) 0#12 (0#19 ++ n)
  | .laneFence h sc k => lf h 0x601#12 0#4 0#12 0#12 0#12 0#12 (sc.bits ++ k.bits ++ 0#20)
  | .laneRadd h t a b => lf h 0x602#12 t.mod 0#12 a.bits b.bits 0#12 0#25
  | .laneBarArr h n => lf h 0x603#12 0#4 0#12 0#12 0#12 0#12 (0#19 ++ n)
  | .laneBarExp h n b => lf h 0x604#12 0#4 0#12 0#12 b.bits 0#12 (0#19 ++ n)
  | .laneBarWait h n q => lf h 0x605#12 0#4 0#12 0#12 0#12 0#12 (0#18 ++ bit1 q ++ n)
  | .laneBarTry h n q p => lf h 0x606#12 0#4 0#12 0#12 0#12 0#12 (0#15 ++ p ++ bit1 q ++ n)
  | _ => none

/-- Encoding of one half (R191). -/
def halfEncode (x : HalfOp) : BitVec 44 := halfWord x.op.bits x.mod2 (halfDstBits x.d) x.a.bits x.b.bits

/-- The word of a lane instruction, as a safe-point word or not (R186). -/
def encodeLane (safe : Bool) (i : Instr) : Option (BitVec 96) :=
  match i with
  | .pairedWord h x y => some (pairWord safe h (halfEncode x) (halfEncode y))
  | i => (laneEncode i).map fun (h, f) => laneWord safe h f

/-! ### Matrix words -/

/-- A matrix word by its op (R197, R306). -/
def matrixForm (w : BitVec 64) : Option Instr :=
  let bn := w.extractLsb' 48 8
  let ta := w.extractLsb' 42 6
  let tb := w.extractLsb' 36 6
  let mi := w.extractLsb' 32 4
  let imm := w.extractLsb' 0 32
  let row := w.extractLsb' 0 11
  let count := w.extractLsb' 11 11
  match (w.extractLsb' 56 8).toNat with
  | 0x01 => zero (bn ++ tb) (.mls ta mi (w.extractLsb' 0 16) (w.extractLsb' 16 16))
  | 0x02 => zero (w.extractLsb' 0 56) .mswp
  | 0x03 => if bn ++ tb ++ w.extractLsb' 23 9 = 0 ∧ countOk count then
      some (.mst ta mi row count (ofBit1 (w.extractLsb' 22 1))) else none
  | 0x04 => if w.extractLsb' 22 34 = 0#34 ∧ countOk count then some (.mzr row count) else none
  | 0x05 => if bn ++ ta = 0 ∧ countOk count then
      (Rnd.ofBits (w.extractLsb' 22 3)).bind fun r =>
        if r.arith && r != .dyn then
          some (.mdr tb mi row count r (ofBit1 (w.extractLsb' 25 1)) (ofBit1 (w.extractLsb' 26 1)) (w.extractLsb' 27 5))
        else none
    else none
  | 0x06 => zero (w.extractLsb' 2 46) (.mspn bn (w.extractLsb' 0 2))
  | 0x07 => zero (w.extractLsb' 0 48) (.mbarr bn)
  | 0x08 => zero (w.extractLsb' 1 47) (.mbwt bn (ofBit1 (w.extractLsb' 0 1)))
  | 0x09 => zero (w.extractLsb' 36 20) (.mset mi (ofBit1 (w.extractLsb' 31 1)) (w.extractLsb' 0 31))
  | 0x0A => zero (w.extractLsb' 36 20) (.madd mi (ofBit1 (w.extractLsb' 31 1)) (w.extractLsb' 0 31))
  | 0x0B => zero (w.extractLsb' 36 20) (.mloop mi imm)
  | 0x0C => zero (w.extractLsb' 32 24) (.mjmp imm)
  | 0x0D => zero (w.extractLsb' 0 56) .mend
  | 0x0E => zero (w.extractLsb' 0 56) .mnop
  | _ => none

/-- Decode one matrix word (R197). -/
def decodeMatrix (w : BitVec 64) : Except Reject Instr :=
  match matrixForm w with
  | some i => .ok i
  | none => .error .illegalInstr

/-- The word of a matrix instruction (R197, R306). -/
def encodeMatrix : Instr → Option (BitVec 64)
  | .mls ta mi dk dn => some (matWord 1#8 0#8 ta 0#6 mi (dn ++ dk))
  | .mswp => some (matWord 2#8 0#8 0#6 0#6 0#4 0#32)
  | .mst ta mi row n acct => some (matWord 3#8 0#8 ta 0#6 mi (0#9 ++ bit1 acct ++ n ++ row))
  | .mzr row n => some (matWord 4#8 0#8 0#6 0#6 0#4 (0#10 ++ n ++ row))
  | .mdr tb mi row n r ovf clr sh => some (matWord 5#8 0#8 0#6 tb mi (sh ++ bit1 clr ++ bit1 ovf ++ r.bits ++ n ++ row))
  | .mspn s lead => some (matWord 6#8 s 0#6 0#6 0#4 (0#30 ++ lead))
  | .mbarr b => some (matWord 7#8 b 0#6 0#6 0#4 0#32)
  | .mbwt b q => some (matWord 8#8 b 0#6 0#6 0#4 (0#31 ++ bit1 q))
  | .mset mi hi v => some (matWord 9#8 0#8 0#6 0#6 mi (bit1 hi ++ v))
  | .madd mi hi v => some (matWord 10#8 0#8 0#6 0#6 mi (bit1 hi ++ v))
  | .mloop mi o => some (matWord 11#8 0#8 0#6 0#6 mi o)
  | .mjmp o => some (matWord 12#8 0#8 0#6 0#6 0#4 o)
  | .mend => some (matWord 13#8 0#8 0#6 0#6 0#4 0#32)
  | .mnop => some (matWord 14#8 0#8 0#6 0#6 0#4 0#32)
  | _ => none

/-! ### Bytes of code (R177) -/

/-- Decode the first instruction of a list of bytes of one stream: the mask word of a safe-point word, the
instruction, and the bytes that follow. -/
def decode (st : Stream) (bs : List Byte) : Except Reject (Option (BitVec 96) × Instr × List Byte) :=
  match st with
  | .scalar =>
    if bs.length < 4 then .error .truncated
    else (decodeScalar (BitVec.ofNat 32 (leNat (bs.take 4)))).map fun i => (none, i, bs.drop 4)
  | .matrix =>
    if bs.length < 8 then .error .truncated
    else (decodeMatrix (BitVec.ofNat 64 (leNat (bs.take 8)))).map fun i => (none, i, bs.drop 8)
  | .lane =>
    let w := BitVec.ofNat 96 (leNat (bs.take 12))
    let n := if w.getLsbD 95 then 24 else 12
    if bs.length < n then .error .truncated
    else (decodeLane w (BitVec.ofNat 96 (leNat ((bs.drop 12).take 12)))).map fun (m, i) => (m, i, bs.drop n)

/-- The bytes of an instruction, with the mask word that makes a lane word a safe point, and its stream; none for a
step that has no encoding. -/
def encode (mask : Option (BitVec 96)) (i : Instr) : Option (Stream × List Byte) :=
  match encodeScalar i, encodeLane mask.isSome i, encodeMatrix i with
  | some w, _, _ => some (.scalar, leBytes 4 w.toNat)
  | none, some w, _ => some (.lane, leBytes 12 w.toNat ++ (mask.map fun m => leBytes 12 m.toNat).getD [])
  | none, none, some w => some (.matrix, leBytes 8 w.toNat)
  | none, none, none => none

/-- The instruction that the decoder reads from a word of the opcode table. -/
def decodeTableWord (nbits w : Nat) : Option Instr :=
  let st := if nbits ≤ 32 then Stream.scalar else if nbits ≤ 64 then Stream.matrix else Stream.lane
  match decode st (leBytes 24 w) with
  | .ok (_, i, _) => some i
  | .error _ => none

end Sys2Proof
end

