-- ==== Sys2Proof/Config.lean ====
section
/-! DEFINITION. What one implementation fixes (R20) and the free values that the specification leaves open. -/

namespace Sys2Proof.Config

/-! ### Constants of Myryn (R20, R70) -/

/-- GANG_WIDTH, lanes of a group (R21). -/
abbrev gangWidth : Nat := 32
/-- SLICE_LANES (R20). -/
abbrev sliceLanes : Nat := 4
/-- GANG_MAX, slices of a group (R20). -/
abbrev gangMax : Nat := 8
/-- GROUPS_PER_CORE (R20). -/
abbrev groupsPerCore : Nat := 64
/-- BLOCKS_PER_CORE (R20). -/
abbrev blocksPerCore : Nat := 16
/-- GROUPS_PER_BLOCK (R20). -/
abbrev groupsPerBlock : Nat := 16
/-- EXT_POOL, chunks of a core (R20). -/
abbrev extPool : Nat := 128
/-- SPM_MAX (R70). -/
abbrev spmMax : Nat := 1835008
/-- BARRIERS of a core (R20). -/
abbrev barriers : Nat := 64
/-- TIDS of a core (R20). -/
abbrev tids : Nat := 64
/-- ISSUE_RECORDS of a core (R20). -/
abbrev issueRecords : Nat := 256
/-- Issue records of a host thread (R13). -/
abbrev hostRecords : Nat := 16
/-- RUN_MAX (R20). -/
abbrev runMax : Nat := 24
/-- MX_K8 (R15). -/
abbrev mxK8 : Nat := 192
/-- MX_K16 (R15). -/
abbrev mxK16 : Nat := 96
/-- MX_N (R15). -/
abbrev mxN : Nat := 256
/-- ACC_ROWS (R20). -/
abbrev accRows : Nat := 2048
/-- ISTORE: bytes of code that a core pins. -/
abbrev istore : Nat := 524288
/-- ARRIVAL_SLOTS (R20). -/
abbrev arrivalSlots : Nat := 32
/-- Entries of a partition's capability store (R389). -/
abbrev capEntries : Nat := 4096
/-- Forwarding stubs of a core (R392). -/
abbrev stubs : Nat := 64
/-- Outstanding counts' limits (R301): store-buffer entries. -/
abbrev storeBufferMax : Nat := 16
/-- Limit of UNACK (R301). -/
abbrev unackMax : Nat := 1023
/-- Loads awaiting a value (R301). -/
abbrev loadsMax : Nat := 48
/-- Atomics and commits awaiting a result (R301). -/
abbrev atomicsMax : Nat := 16
/-- Watches of a group (R301). -/
abbrev watchesMax : Nat := 4
/-- Prefetches in flight (R301). -/
abbrev prefetchMax : Nat := 8
/-- Entries of a slice's page-permission cache (R434). -/
abbrev permEntries : Nat := 4096
/-- Units of 32 bits that the L1 instruction cache of a host core holds: 64 KiB (R13). -/
abbrev hostCodeUnits : Nat := 16384
/-- Units of 32 bits that the instruction store of a compute core holds: ISTORE, 512 KiB (R14, R20). -/
abbrev coreCodeUnits : Nat := 131072
/-- Send credits (R301). -/
abbrev creditsMax : Nat := 8

/-! ### Free values: constants without a body, so that nothing can lean on a value of them -/

/-- Offset, in units in the last place, of the result of special function `fn` on operand bits `x` (R88). -/
opaque sfuOffset : (fn x : Nat) → Nat
/-- A fresh value for the n-th place where the specification leaves a value open. -/
opaque fresh : (n : Nat) → Word
/-- A fresh choice among alternatives for the n-th place where the specification leaves a choice open. -/
opaque choice : (n : Nat) → Nat
/-- Bank or set that holds a line, as machine-check records name it (R446). -/
opaque setIndex : (line : Nat) → Nat
/-- UNIT of a record about none of the listed units (R446, R497). -/
opaque noUnit : Nat
/-- ECC syndrome of the n-th machine-check record (R446). -/
opaque syndrome : (n : Nat) → Word
/-- MEAS[k] of a part that has not been booted since `State.reset` (R500). -/
opaque measure : (k : Nat) → List Byte
/-- Device secret of such a part (R500). -/
opaque fusedSecret : List Byte
/-- Public key in a firmware image without its signature, whose layout the specification leaves open (R500). -/
opaque imageKey : (image : List Byte) → List Byte
/-- Security version in a firmware image without its signature (R500). -/
opaque imageVersion : (image : List Byte) → Nat
/-- SM3 digest of a list of bytes (R500): the specification names the standard and does not restate it. -/
opaque sm3 : List Byte → List Byte
/-- Whether an SM2 signature over a digest verifies under a key (R500). -/
opaque sm2Verify : (key digest signature : List Byte) → Bool
/-- SM2 signature over a digest with a secret (R501). -/
opaque sm2Sign : (secret digest : List Byte) → List Byte
/-- Layout of the health reply: for each logical column LEVEL, TEMP and FLOOR; the 128 CHN_STAT values; the feeds; the step of
boot that failed; the columns whose monitors ask for too much (R496, R502). -/
opaque healthReply : (columns : List (Nat × Nat × Nat)) → (chn : List Nat) → (feeds : List Bool) → (bootFail : Nat) → (beyond : List Nat) →
  List Byte
/-- Layout of the black-box reply: the records of 32 bytes, oldest first, and the frozen flag (R502). -/
opaque boxReply : (records : List Nat) → (frozen : Bool) → List Byte
/-- Identity public key of a secret (R500). -/
opaque sm2Public : (secret : List Byte) → List Byte

end Sys2Proof.Config
end

