-- ==== Sys2Proof/Machine/Number.lean ====
section
/-! DEFINITION. Number formats and exact arithmetic (R73 to R97): a value is read exactly, computed exactly, and
rounded once. -/

namespace Sys2Proof.Machine

/-- The five exception flags NV, DZ, OF, UF, NX, in bits 4 to 0 (R71). -/
abbrev FFlags := BitVec 5

/-- Invalid. -/
abbrev flagNV : FFlags := 16#5
/-- Division by zero. -/
abbrev flagDZ : FFlags := 8#5
/-- Overflow. -/
abbrev flagOF : FFlags := 4#5
/-- Underflow. -/
abbrev flagUF : FFlags := 2#5
/-- Inexact. -/
abbrev flagNX : FFlags := 1#5

/-- A flag set when a condition holds. -/
def flagIf (c : Bool) (f : FFlags) : FFlags := if c then f else 0#5

/-- An exact floating value: a NaN, an infinity, or (-1)^neg × m × 2^e, zeros keeping their sign (R74). -/
inductive FV | nan (signalling : Bool) | inf (neg : Bool) | fin (neg : Bool) (m : Nat) (e : Int)
  deriving DecidableEq, Repr

/-- A rounding mode in force (R81); the stochastic one carries the generator's word (R82). -/
inductive RM | rne | rtz | rup | rdn | rna | sr (r : Nat)
  deriving DecidableEq, Repr

/-- Parameters of a format (R74 to R77): significand bits, bias, width, whether it has a sign, the canonical NaN, the
magnitude bits of infinity if it has one, the magnitude bits of the largest finite value, and whether it follows
IEEE 754 in its NaNs and zeros. -/
structure FpDesc where
  prec : Nat
  bias : Nat
  width : Nat
  signed : Bool
  nan : Nat
  inf : Option Nat
  maxMag : Nat
  ieee : Bool
  deriving DecidableEq, Repr

/-- binary32 (R74). -/
def descF32 : FpDesc := ⟨24, 127, 32, true, 0x7FC00000, some 0x7F800000, 0x7F7FFFFF, true⟩
/-- binary16 (R74). -/
def descF16 : FpDesc := ⟨11, 15, 16, true, 0x7E00, some 0x7C00, 0x7BFF, true⟩
/-- BF16 (R74). -/
def descBf16 : FpDesc := ⟨8, 127, 16, true, 0x7FC0, some 0x7F80, 0x7F7F, true⟩
/-- binary64 (R74). -/
def descF64 : FpDesc := ⟨53, 1023, 64, true, 0x7FF8000000000000, some 0x7FF0000000000000, 0x7FEFFFFFFFFFFFFF, true⟩

/-- binary8pP in its four variants (R75, R76). -/
def descB8 (v : B8Var) (p : Nat) : FpDesc :=
  match v with
  | .sf => ⟨p, 2 ^ (7 - p), 8, true, 0x80, none, 0x7F, false⟩
  | .si => ⟨p, 2 ^ (7 - p), 8, true, 0x80, some 0x7F, 0x7E, false⟩
  | .nf => ⟨p, 2 ^ (8 - p), 8, false, 0xFF, none, 0xFE, false⟩
  | .ni => ⟨p, 2 ^ (8 - p), 8, false, 0xFF, some 0xFE, 0xFD, false⟩

/-- Parameters of a lane floating type. -/
def descFTy : FTy → FpDesc
  | .f32 => descF32
  | .f16 => descF16
  | .bf16 => descBf16

/-- Parameters of a scalar floating format (R182). -/
def descSFmt : SFmt → FpDesc
  | .f32 => descF32
  | .f16 => descF16
  | .bf16 => descBf16
  | .f64 => descF64

/-- Parameters of a floating format code; none for an integer format (R73). -/
def descFmt : Fmt → Option FpDesc
  | .f32 => some descF32
  | .f16 => some descF16
  | .bf16 => some descBf16
  | .f64 => some descF64
  | .int _ => none
  | .b8 v p => some (descB8 v p.toNat)

/-- Magnitude bits that carry no sign. -/
def magBits (d : FpDesc) (x : Nat) : Nat := if d.signed then x % 2 ^ (d.width - 1) else x % 2 ^ d.width

/-- The sign bit of an encoding. -/
def signBit (d : FpDesc) (neg : Bool) : Nat := if neg && d.signed then 2 ^ (d.width - 1) else 0

/-- Significand and exponent of finite magnitude bits (R74, R75). -/
def magValue (d : FpDesc) (mag : Nat) : Nat × Int :=
  let e := mag / 2 ^ (d.prec - 1)
  let t := mag % 2 ^ (d.prec - 1)
  let q : Int := 1 - (d.bias : Int) - ((d.prec - 1 : Nat) : Int)
  if e = 0 then (t, q) else (2 ^ (d.prec - 1) + t, q + (e : Int) - 1)

/-- The value of an encoding (R74 to R76). -/
def fvOf (d : FpDesc) (x : Nat) : FV :=
  let neg := d.signed && decide (x / 2 ^ (d.width - 1) % 2 = 1)
  let mag := magBits d x
  if !d.ieee && x % 2 ^ d.width == d.nan then .nan false
  else if d.inf == some mag then .inf neg
  else if d.ieee && decide (mag > d.maxMag) then .nan (decide (mag / 2 ^ (d.prec - 2) % 2 = 0))
  else let v := magValue d mag; .fin neg v.1 v.2

/-- m / 2^sh rounded to a natural number, and whether bits were lost (R81, R82). -/
def roundShift (rm : RM) (neg : Bool) (m sh : Nat) : Nat × Bool :=
  let a := m / 2 ^ sh
  let r := m % 2 ^ sh
  let up := match rm with
    | .rne => decide (2 * r > 2 ^ sh) || (decide (2 * r = 2 ^ sh) && decide (a % 2 = 1))
    | .rtz => false
    | .rup => decide (r > 0) && !neg
    | .rdn => decide (r > 0) && neg
    | .rna => decide (2 * r ≥ 2 ^ sh)
    | .sr g => decide (65536 * r / 2 ^ sh + g ≥ 65536)
  (if up then a + 1 else a, decide (r ≠ 0))

/-- Magnitude bits of m × 2^e rounded into a format as if it had no largest value, whether the result is inexact, and
whether it is tiny after rounding (R81, R83). -/
def roundMag (d : FpDesc) (rm : RM) (neg : Bool) (m : Nat) (e : Int) : Nat × Bool × Bool :=
  if m = 0 then (0, false, false)
  else
    let k : Int := (Nat.log2 m : Int) + e
    let emin : Int := 1 - (d.bias : Int)
    let p1 : Int := ((d.prec - 1 : Nat) : Int)
    let at_ (q : Int) : Nat × Bool :=
      if q ≤ e then (m * 2 ^ (e - q).toNat, false) else roundShift rm neg m (q - e).toNat
    let q := (if k < emin then emin else k) - p1
    let r := at_ q
    let tiny := decide (k < emin) && !(decide (k = emin - 1) && decide ((at_ (k - p1)).1 = 2 ^ d.prec))
    ((q + p1 + (d.bias : Int) - 1).toNat * 2 ^ (d.prec - 1) + r.1, r.2, tiny)

/-- Modes that round an overflow toward the largest finite value (IEEE 754). -/
def RM.towardFinite (neg : Bool) : RM → Bool
  | .rtz => true
  | .rup => neg
  | .rdn => !neg
  | _ => false

/-- Result of an arithmetic operation whose exact value is (-1)^neg × m × 2^e, m > 0, in an IEEE format (R81, R83). -/
def fpFinish (d : FpDesc) (rm : RM) (neg : Bool) (m : Nat) (e : Int) : Nat × FFlags :=
  let r := roundMag d rm neg m e
  if r.1 > d.maxMag then
    (signBit d neg + (if rm.towardFinite neg then d.maxMag else d.inf.getD d.maxMag), flagOF ||| flagNX)
  else (signBit d neg + r.1, flagIf r.2.1 flagNX ||| flagIf (r.2.1 && r.2.2) flagUF)

/-- Conversion of a value into a floating format (R84, R85); a negative source of an unsigned target meets the row of negatives alone,
however large it is (DESIGN CHOICE, log 130). -/
def fpConvert (d : FpDesc) (rm : RM) (ovf : Bool) (v : FV) : Nat × FFlags :=
  match v with
  | .nan s => (d.nan, flagIf s flagNV)
  | .inf neg =>
    if neg && !d.signed then (if ovf then d.nan else 0, flagNV)
    else match d.inf with
      | some i => (signBit d neg + i, 0#5)
      | none => if ovf then (d.nan, flagNV) else (signBit d neg + d.maxMag, 0#5)
  | .fin neg m e =>
    let r := roundMag d rm neg m e
    let fl := flagIf r.2.1 flagNX ||| flagIf (r.2.1 && r.2.2) flagUF
    if r.1 = 0 then ((if d.ieee then signBit d neg else 0), fl)
    else if neg && !d.signed then (if ovf then (d.nan, flagNV) else (0, flagNX))
    else if r.1 > d.maxMag then
      (if ovf && !rm.towardFinite neg then
        match d.inf with
        | some i => signBit d neg + i
        | none => d.nan
      else signBit d neg + d.maxMag, flagOF ||| flagNX)
    else (signBit d neg + r.1, fl)

/-- Range of an integer type (R80). -/
def ITy.min (t : ITy) : Int := if t.signed then -(2 ^ (t.width - 1) : Int) else 0
/-- Largest value of an integer type (R80). -/
def ITy.max (t : ITy) : Int := if t.signed then 2 ^ (t.width - 1) - 1 else 2 ^ t.width - 1

/-- Clamp to the range of an integer type. -/
def clampTo (t : ITy) (x : Int) : Int := if x < ITy.min t then ITy.min t else if ITy.max t < x then ITy.max t else x

/-- A value read from the low bits of a word by its type (R80). -/
def intOf (t : ITy) (x : Nat) : Int :=
  let u := x % 2 ^ t.width
  if t.signed && decide (2 ^ (t.width - 1) ≤ u) then (u : Int) - 2 ^ t.width else u

/-- The bits of an integer at a width, wrapped. -/
def wrapBits (w : Nat) (x : Int) : Nat := (x % (2 ^ w : Int)).toNat

/-- Conversion of a floating value to an integer type (R86). -/
def fpToInt (t : ITy) (rm : RM) (v : FV) : Nat × FFlags :=
  match v with
  | .nan _ => (0, flagNV)
  | .inf neg => (wrapBits t.width (if neg then ITy.min t else ITy.max t), flagNV)
  | .fin neg m e =>
    let r := if 0 ≤ e then (m * 2 ^ e.toNat, false) else roundShift rm neg m (-e).toNat
    let x : Int := if neg then -(r.1 : Int) else r.1
    if x < ITy.min t ∨ ITy.max t < x then (wrapBits t.width (clampTo t x), flagNV)
    else (wrapBits t.width x, flagIf r.2 flagNX)

/-- An integer as an exact value. -/
def fvInt (x : Int) : FV := .fin (decide (x < 0)) x.natAbs 0

/-! ### Arithmetic on exact values (R87) -/

/-- Whether a value is a signalling NaN. -/
def FV.isSignalling : FV → Bool
  | .nan s => s
  | _ => false

/-- Whether a value is a NaN. -/
def FV.isNan : FV → Bool
  | .nan _ => true
  | _ => false

/-- Whether a value is a zero. -/
def FV.isZero : FV → Bool
  | .fin _ m _ => m == 0
  | _ => false

/-- Sign of a value that is no NaN. -/
def FV.neg : FV → Bool
  | .nan _ => false
  | .inf n => n
  | .fin n _ _ => n

/-- A value with its sign inverted. -/
def FV.opp : FV → FV
  | .nan s => .nan s
  | .inf n => .inf (!n)
  | .fin n m e => .fin (!n) m e

/-- Exact product of two values that are no NaNs; none for 0 × ∞. -/
def fvMul : FV → FV → Option FV
  | .fin a m e, .fin b n f => some (.fin (a != b) (m * n) (e + f))
  | .inf a, .inf b => some (.inf (a != b))
  | .inf a, .fin b n _ => if n = 0 then none else some (.inf (a != b))
  | .fin a m _, .inf b => if m = 0 then none else some (.inf (a != b))
  | _, _ => none

/-- The signed integer m × 2^(e - q) of a finite value, q being at most its exponent. -/
def fvInteger (q : Int) : FV → Int
  | .fin n m e => (if n then -1 else 1) * (m : Int) * 2 ^ (e - q).toNat
  | _ => 0

/-- Exponent of a finite value; of others, a given one. -/
def fvExp (dflt : Int) : FV → Int
  | .fin _ _ e => e
  | _ => dflt

/-- Least exponent of a list of finite values. -/
def minExp (vs : List FV) : Int := vs.foldl (fun a v => if fvExp a v < a then fvExp a v else a) 0

/-- Exact sum of finite values: sum and exponent. -/
def sumFinite (vs : List FV) : Int × Int :=
  let q := minExp vs
  (vs.foldl (fun a v => a + fvInteger q v) 0, q)

/-- Rounded sum of values that are no NaNs, of which no two infinities are of opposite sign (R87). -/
def fpSumTerms (d : FpDesc) (rm : RM) (vs : List FV) : Nat × FFlags :=
  match vs.find? (fun v => match v with | .inf _ => true | _ => false) with
  | some v => (signBit d v.neg + d.inf.getD d.maxMag, 0#5)
  | none =>
    let s := sumFinite vs
    if s.1 = 0 then
      let zeroNeg := if vs.all (fun v => v.isZero) && vs.all (fun v => v.neg == (vs.head?.map FV.neg).getD false)
        then (vs.head?.map FV.neg).getD false else rm == .rdn
      (signBit d zeroNeg, 0#5)
    else fpFinish d rm (decide (s.1 < 0)) s.1.natAbs s.2

/-- Sum of exact products and an addend, rounded once (R87, R95, R253, R260). -/
def fpDot (d : FpDesc) (rm : RM) (ps : List (FV × FV)) (c : FV) : Nat × FFlags :=
  let anyNan := c.isNan || ps.any fun p => p.1.isNan || p.2.isNan
  let signalling := c.isSignalling || ps.any fun p => p.1.isSignalling || p.2.isSignalling
  let good := ps.filter fun p => !p.1.isNan && !p.2.isNan
  let invalid := good.any fun p => (fvMul p.1 p.2).isNone
  let terms := good.filterMap (fun p => fvMul p.1 p.2) ++ (if c.isNan then [] else [c])
  let infs := terms.filter fun v => match v with | .inf _ => true | _ => false
  let opposite := infs.any FV.neg && infs.any (fun v => !v.neg)
  let nv := flagIf (signalling || invalid || opposite) flagNV
  if anyNan || invalid || opposite then (d.nan, nv) else fpSumTerms d rm terms

/-- Value of 1. -/
def fvOne : FV := .fin false 1 0

/-- Addition (R87). -/
def fpAdd (d : FpDesc) (rm : RM) (x y : Nat) : Nat × FFlags := fpDot d rm [(fvOf d x, fvOne)] (fvOf d y)

/-- Subtraction (R87). -/
def fpSub (d : FpDesc) (rm : RM) (x y : Nat) : Nat × FFlags := fpDot d rm [(fvOf d x, fvOne)] (fvOf d y).opp

/-- Fused multiply and add, rounded once (R87). -/
def fpFma (d : FpDesc) (rm : RM) (x y z : Nat) : Nat × FFlags := fpDot d rm [(fvOf d x, fvOf d y)] (fvOf d z)

/-- Result of a product or quotient known exactly up to a sticky last bit. -/
def fpFinite (d : FpDesc) (rm : RM) (neg : Bool) (m : Nat) (e : Int) : Nat × FFlags :=
  if m = 0 then (signBit d neg, 0#5) else fpFinish d rm neg m e

/-- Multiplication (R87). -/
def fpMul (d : FpDesc) (rm : RM) (x y : Nat) : Nat × FFlags :=
  let a := fvOf d x
  let b := fvOf d y
  if a.isNan || b.isNan then (d.nan, flagIf (a.isSignalling || b.isSignalling) flagNV)
  else match fvMul a b with
    | none => (d.nan, flagNV)
    | some (.fin n m e) => fpFinite d rm n m e
    | some v => (signBit d v.neg + d.inf.getD 0, 0#5)

/-- Quotient of two naturals with at least p + 4 significant bits, its last bit sticky, and its exponent. -/
def ratio (p a b : Nat) : Nat × Int :=
  let k := p + 4 + Nat.log2 b
  let n := a * 2 ^ k
  (2 * (n / b) + (if n % b = 0 then 0 else 1), -((k : Int) + 1))

/-- Division (R87). -/
def fpDiv (d : FpDesc) (rm : RM) (x y : Nat) : Nat × FFlags :=
  let a := fvOf d x
  let b := fvOf d y
  let neg := a.neg != b.neg
  if a.isNan || b.isNan then (d.nan, flagIf (a.isSignalling || b.isSignalling) flagNV)
  else match a, b with
    | .inf _, .inf _ => (d.nan, flagNV)
    | .inf _, _ => (signBit d neg + d.inf.getD 0, 0#5)
    | _, .inf _ => (signBit d neg, 0#5)
    | .fin _ m e, .fin _ n f =>
      if n = 0 then (if m = 0 then (d.nan, flagNV) else (signBit d neg + d.inf.getD 0, flagDZ))
      else if m = 0 then (signBit d neg, 0#5)
      else let q := ratio d.prec m n; fpFinish d rm neg q.1 (e - f + q.2)
    | _, _ => (d.nan, 0#5)

/-- Bits i - 1 to 0 of a square root, below the bits already found in r. -/
def isqrtFrom (n : Nat) : Nat → Nat → Nat
  | 0, r => r
  | i + 1, r => let t := r + 2 ^ i; isqrtFrom n i (if t * t ≤ n then t else r)

/-- Integer square root. -/
def isqrt (n : Nat) : Nat := isqrtFrom n (Nat.log2 n / 2 + 1) 0

/-- Square root of m × 2^e to at least p + 3 bits with a sticky last bit, and its exponent. -/
def rootOf (p m : Nat) (e : Int) : Nat × Int :=
  let odd := e % 2 ≠ 0
  let m1 := if odd then 2 * m else m
  let e1 := if odd then e - 1 else e
  let k := p + 4
  let n := m1 * 2 ^ (2 * k)
  let r := isqrt n
  (2 * r + (if r * r = n then 0 else 1), e1 / 2 - (k : Int) - 1)

/-- Square root (R87). -/
def fpSqrt (d : FpDesc) (rm : RM) (x : Nat) : Nat × FFlags :=
  match fvOf d x with
  | .nan s => (d.nan, flagIf s flagNV)
  | .inf neg => if neg then (d.nan, flagNV) else (d.inf.getD 0, 0#5)
  | .fin neg m e =>
    if m = 0 then (signBit d neg, 0#5)
    else if neg then (d.nan, flagNV)
    else let r := rootOf d.prec m e; fpFinish d rm false r.1 r.2

/-- Order of two values that are no NaNs. -/
def fvLt : FV → FV → Bool
  | .inf a, .inf b => a && !b
  | .inf a, _ => a
  | _, .inf b => !b
  | a, b => let q := minExp [a, b]; decide (fvInteger q a < fvInteger q b)

/-- Equality of two values that are no NaNs; zeros are equal. -/
def fvEq (a b : FV) : Bool := !fvLt a b && !fvLt b a

/-- Comparison under a condition (R87, R254). -/
def fpCompare (k : Cond) (a b : FV) : Bool × FFlags :=
  let un := a.isNan || b.isNan
  let sg := a.isSignalling || b.isSignalling
  match k with
  | .eq => (!un && fvEq a b, flagIf sg flagNV)
  | .ne => (un || !fvEq a b, flagIf sg flagNV)
  | .lt => (!un && fvLt a b, flagIf un flagNV)
  | .le => (!un && !fvLt b a, flagIf un flagNV)
  | .gt => (!un && fvLt b a, flagIf un flagNV)
  | .ge => (!un && !fvLt a b, flagIf un flagNV)

/-- Smaller or larger of two encodings (R87): -0 lies below +0, and one NaN yields the other operand. -/
def fpMinMax (d : FpDesc) (big : Bool) (x y : Nat) : Nat × FFlags :=
  let a := fvOf d x
  let b := fvOf d y
  let fl := flagIf (a.isSignalling || b.isSignalling) flagNV
  if a.isNan && b.isNan then (d.nan, fl)
  else if a.isNan then (y, fl)
  else if b.isNan then (x, fl)
  else
    let below := fvLt a b || (fvEq a b && a.neg && !b.neg)
    (if below == big then y else x, fl)

/-- Classification mask (R227): bit 0 -∞, 1 negative normal, 2 negative subnormal, 3 -0, 4 +0, 5 positive subnormal,
6 positive normal, 7 +∞, 8 signalling NaN, 9 quiet NaN. -/
def fpClass (d : FpDesc) (x : Nat) : Nat :=
  match fvOf d x with
  | .nan s => if s then 2 ^ 8 else 2 ^ 9
  | .inf n => if n then 2 ^ 0 else 2 ^ 7
  | .fin n m _ =>
    if m = 0 then (if n then 2 ^ 3 else 2 ^ 4)
    else if m < 2 ^ (d.prec - 1) then (if n then 2 ^ 2 else 2 ^ 5)
    else (if n then 2 ^ 1 else 2 ^ 6)

/-- A × 2^(s - 127), rounded once; s = 255 gives the canonical NaN without a flag (R257). -/
def fpScale (d : FpDesc) (rm : RM) (x s : Nat) : Nat × FFlags :=
  if s = 255 then (d.nan, 0#5)
  else match fvOf d x with
    | .nan g => (d.nan, flagIf g flagNV)
    | .inf n => (signBit d n + d.inf.getD 0, 0#5)
    | .fin n m e => fpFinite d rm n m (e + (s : Int) - 127)

/-! ### The stochastic generator (R82) -/

/-- One step of a stochastic generator (R82). -/
def srStep (g : BitVec 16) : BitVec 16 :=
  let b := (g.getLsbD 15) != ((g.getLsbD 13) != ((g.getLsbD 12) != (g.getLsbD 10)))
  (g <<< 1) ||| (if b then 1#16 else 0#16)

/-- The rounding mode of a code: 7 reads FCSR.RM; stochastic uses the stepped generator (R71, R81, R82). -/
def modeOf (r : Rnd) (fcsr : Word) (gen : BitVec 16) : RM :=
  match r with
  | .rne => .rne
  | .rtz => .rtz
  | .rup => .rup
  | .rdn => .rdn
  | .rna => .rna
  | .sr => .sr (srStep gen).toNat
  | .dyn =>
    match (fcsr.extractLsb' 0 3).toNat with
    | 1 => .rtz
    | 2 => .rup
    | 3 => .rdn
    | 4 => .rna
    | _ => .rne

/-! ### Special functions (R88, R255)

A result lies within its bound of the true value when it is the true value rounded down in magnitude, plus a free
number of units in the last place that the bound admits. -/

/-- Fixed-point ones: 2^400. -/
def fxOne : Nat := 2 ^ 400
/-- ln 2 × 2^400. -/
def fxLn2 : Nat :=
  0xb17217f7d1cf79abc9e3b39803f2f6af40f343267298b62d8a0d175b8baafa2be7b876206debac98559552fb4afa1b10ed2e
/-- π / 2 × 2^400. -/
def fxHalfPi : Nat :=
  0x1921fb54442d18469898cc51701b839a252049c1114cf98e804177d4c76273644a29410f31c6809bbdf2a33679a7486366056
/-- 2 / π × 2^560. -/
def fxTwoOverPi : Nat :=
  0xa2f9836e4e441529fc2757d1f534ddc0db6295993c439041fe5163abdebbc561b7246e3a424dd2e006492eea09d1921cfe1deb1cb129a73ee88235f52ebb4484e99c7026b45f
/-- log2 e × 2^400. -/
def fxLog2e : Nat :=
  0x171547652b82fe1777d0ffda0d23a7d11d6aef551bad2b4b1164a2cd9a342648fbc3887eeaa2ed9ac49b25eeb82d7c167d522

/-- Product in fixed point. -/
def fxMul (a b : Nat) : Nat := a * b / fxOne

/-- The terms x^n / n! from n on, with term t at hand: sum over the next i terms. -/
def fxExpTerms (x : Nat) : Nat → Nat → Nat → Nat
  | 0, _, _ => 0
  | i + 1, n, t => t + fxExpTerms x i (n + 1) (fxMul t x / (n + 1))

/-- 2^f for a fraction f in fixed point. -/
def fxExp2 (f : Nat) : Nat := fxExpTerms (fxMul f fxLn2) 90 0 fxOne

/-- Alternating terms of sine and cosine: t at power n, next power n + 2. -/
def fxTrigTerms (x2 : Nat) : Nat → Nat → Nat → Int
  | 0, _, _ => 0
  | i + 1, n, t => (t : Int) - fxTrigTerms x2 i (n + 2) (fxMul t x2 / ((n + 1) * (n + 2)))

/-- Sine of a fixed-point angle between 0 and π/2. -/
def fxSin (x : Nat) : Nat := (fxTrigTerms (fxMul x x) 60 1 x).toNat
/-- Cosine of a fixed-point angle between 0 and π/2. -/
def fxCos (x : Nat) : Nat := (fxTrigTerms (fxMul x x) 60 0 fxOne).toNat

/-- Binary digits of log2 of a fixed-point number between 1 and 2. -/
def fxLog2Digits : Nat → Nat → Nat → Nat
  | 0, _, acc => acc
  | i + 1, y, acc =>
    let y2 := fxMul y y
    if 2 * fxOne ≤ y2 then fxLog2Digits i (y2 / 2) (2 * acc + 1) else fxLog2Digits i y2 (2 * acc)

/-- A magnitude m × 2^e in fixed point. -/
def toFx (m : Nat) (e : Int) : Nat :=
  if 0 ≤ e + 400 then m * 2 ^ (e + 400).toNat else m / 2 ^ (-(e + 400)).toNat

/-- Quadrant and remainder, in fixed point, of a magnitude m × 2^e divided by π/2. -/
def reduceHalfPi (m : Nat) (e : Int) : Nat × Nat :=
  let n := m * fxTwoOverPi
  let sh := e - 160
  let t := if 0 ≤ sh then n * 2 ^ sh.toNat else n / 2 ^ (-sh).toNat
  (t / fxOne % 4, fxMul (t % fxOne) fxHalfPi)

/-- The special functions. -/
inductive Sfu | rcp | rsq | ex2 | lg2 | sin | cos | tnh
  deriving DecidableEq, Repr

/-- Number of a special function, for its free values. -/
def Sfu.code : Sfu → Nat
  | .rcp => 0
  | .rsq => 1
  | .ex2 => 2
  | .lg2 => 3
  | .sin => 4
  | .cos => 5
  | .tnh => 6

/-- Fixed-point value whose magnitude is small, as sign, significand and exponent with a sticky bit. -/
def fxValue (neg : Bool) (x : Nat) : Bool × Nat × Int := (neg, 2 * x + 1, -401)

/-- A magnitude just below m × 2^e. -/
def justBelow (neg : Bool) (m : Nat) (e : Int) : Bool × Nat × Int := (neg, m * 2 ^ 60 - 1, e - 60)

/-- True value of a special function at a finite operand, to more bits than the format needs: an exact result, or a
sign, significand and exponent whose last bit is sticky. -/
def sfuTrue (fn : Sfu) (neg : Bool) (m : Nat) (e : Int) : Bool × Nat × Int :=
  let k : Int := (Nat.log2 m : Int) + e
  match fn with
  | .rcp => let q := ratio 30 1 m; (neg, q.1, q.2 - e)
  | .rsq =>
    -- 1 / sqrt(m 2^e) = sqrt(2^-e / m)
    let odd := e % 2 ≠ 0
    let m1 := if odd then 2 * m else m
    let e1 := if odd then e - 1 else e
    let s := 2 * (40 + Nat.log2 m1)
    let n := 2 ^ (2 * s) / m1
    let r := isqrt n
    (false, 2 * r + (if r * r * m1 = 2 ^ (2 * s) then 0 else 1), -(s : Int) - e1 / 2 - 1)
  | .ex2 =>
    if 12 < k then (false, 1, if neg then -(2 ^ 12) else 2 ^ 12)
    else
      let x := toFx m e
      if neg then
        let i := x / fxOne
        let f := x % fxOne
        if f = 0 then (false, 1, -(i : Int)) else (false, 2 * fxExp2 (fxOne - f) + 1, -401 - (i : Int) - 1)
      else
        let i := x / fxOne
        let f := x % fxOne
        if f = 0 ∧ 0 ≤ e + 400 then (false, 1, i) else (false, 2 * fxExp2 f + 1, -401 + (i : Int))
  | .lg2 =>
    let y := toFx m (-(Nat.log2 m : Int))
    if y = fxOne then (decide (k < 0), k.natAbs, 0)
    else
      let f := fxLog2Digits 120 y 0
      let v : Int := k * 2 ^ 121 + 2 * f + 1
      (decide (v < 0), v.natAbs, -121)
  | .sin =>
    if k < -12 then justBelow neg m e
    else
      let r := reduceHalfPi m e
      match r.1 with
      | 0 => fxValue neg (fxSin r.2)
      | 1 => fxValue neg (fxCos r.2)
      | 2 => fxValue (!neg) (fxSin r.2)
      | _ => fxValue (!neg) (fxCos r.2)
  | .cos =>
    if k < -12 then justBelow false 1 0
    else
      let r := reduceHalfPi m e
      match r.1 with
      | 0 => fxValue false (fxCos r.2)
      | 1 => fxValue true (fxSin r.2)
      | 2 => fxValue true (fxCos r.2)
      | _ => fxValue false (fxSin r.2)
  | .tnh =>
    if k < -12 then justBelow neg m e
    else if 5 < k then justBelow neg 1 0
    else
      -- (t - 1) / (t + 1) with t = e^2x = 2^(2x log2 e)
      let p := fxMul (2 * toFx m e) fxLog2e
      let t := fxExp2 (p % fxOne) * 2 ^ (p / fxOne)
      let q := ratio 60 (t - fxOne) (t + fxOne)
      (neg, 2 * q.1 + 1, q.2 - 1)

/-- Units in the last place that the bound of a function admits above the value rounded down: the least and how
many (R88). -/
def sfuSpan (fn : Sfu) (exact : Bool) : Int × Nat :=
  match fn, exact with
  | .rcp, false | .rsq, false => (0, 2)
  | .rcp, true | .rsq, true => (-1, 3)
  | _, false => (-1, 4)
  | _, true => (-2, 5)

/-- Cases that R88 gives exactly: 2^n of an integer, and log2 of a power of two. -/
def sfuFixed (fn : Sfu) (m : Nat) (e : Int) : Bool :=
  match fn with
  | .ex2 => decide (0 ≤ e) || decide (m % 2 ^ (-e).toNat = 0)
  | .lg2 => decide (m = 2 ^ Nat.log2 m)
  | _ => false

/-- Result of magnitude bits counted as if the format had no largest value: beyond it lies infinity. -/
def sfuBits (d : FpDesc) (neg : Bool) (mag : Nat) : Nat := signBit d neg + min mag (d.maxMag + 1)

/-- A special function in binary32 (R88).
DEDUCED (log 8): the bounds hold beyond the largest finite value too, where units in the last place are counted on as those
of a format without one, and every magnitude past it is infinity. -/
def sfu32 (fn : Sfu) (x : Nat) : Nat × FFlags :=
  let d := descF32
  let inf := 0x7F800000
  match fvOf d x with
  | .nan s => (d.nan, flagIf s flagNV)
  | .inf neg =>
    match fn with
    | .rcp => (signBit d neg, 0#5)
    | .rsq => if neg then (d.nan, flagNV) else (0, 0#5)
    | .ex2 => (if neg then 0 else inf, 0#5)
    | .lg2 => if neg then (d.nan, flagNV) else (inf, 0#5)
    | .sin | .cos => (d.nan, flagNV)
    | .tnh => (signBit d neg + 0x3F800000, 0#5)
  | .fin neg m e =>
    if m = 0 then
      match fn with
      | .rcp | .rsq => (signBit d neg + inf, flagDZ)
      | .ex2 | .cos => (0x3F800000, 0#5)
      | .lg2 => (signBit d true + inf, flagDZ)
      | .sin | .tnh => (signBit d neg, 0#5)
    else if neg && (fn == .rsq || fn == .lg2) then (d.nan, flagNV)
    else
      let v := sfuTrue fn neg m e
      let r := roundMag d .rtz v.1 v.2.1 v.2.2
      if sfuFixed fn m e && !r.2.1 && decide (r.1 ≤ d.maxMag) then ((if r.1 = 0 then 0 else signBit d v.1 + r.1), 0#5)
      else
        let sp := sfuSpan fn (!r.2.1)
        let off : Int := sp.1 + ((Config.sfuOffset fn.code x % sp.2 : Nat) : Int)
        let mag : Int := (r.1 : Int) + off
        (if mag < 0 then sfuBits d (!v.1) mag.natAbs else sfuBits d v.1 mag.toNat, 0#5)

/-- A special function in a lane type: narrow types compute as binary32 and round to nearest even (R255). -/
def sfuOf (t : FTy) (fn : Sfu) (x : Nat) : Nat × FFlags :=
  match t with
  | .f32 => sfu32 fn x
  | .f16 | .bf16 =>
    let d := descFTy t
    match fvOf d x with
    | .nan s => (d.nan, flagIf s flagNV)
    | v =>
      let r := sfu32 fn (fpConvert descF32 .rne false v).1
      ((fpConvert d .rne true (fvOf descF32 r.1)).1, r.2)

/-! ### Conversions between element formats (R84 to R86, R258, R259) -/

/-- Value of the bits of an element of a format. -/
def fmtValue (f : Fmt) (x : Nat) : FV :=
  match f, descFmt f with
  | .int t, _ => fvInt (intOf t x)
  | _, some d => fvOf d (x % 2 ^ d.width)
  | _, none => .nan false

/-- Bits of a value converted into a format. -/
def fmtConvert (f : Fmt) (rm : RM) (ovf : Bool) (v : FV) : Nat × FFlags :=
  match f, descFmt f with
  | .int t, _ => fpToInt t rm v
  | _, some d => fpConvert d rm ovf v
  | _, none => (0, 0#5)

/-- Whether `vfcvt` converts between two formats (R258). -/
def convertOk (a b : Fmt) : Bool := a.cvtOk && b.cvtOk && a != b && !(a.isInt && b.isInt)

end Sys2Proof.Machine
end

