-- ==== Sys2Proof/Machine/State.lean ====
section
/-! DEFINITION. The state of a Myryn package as plain data: every register and every piece of hidden state that the
specification names, the messages in flight, and the inputs still to come. -/

namespace Sys2Proof.Machine

/-- Who issued an operation, or who waits for an acknowledgement; `push` is a push of a column-private dirty line, which its
column and the agent it counts against wait for; `join` is a commit, whose lines' acknowledgements are awaited together. -/
inductive Who | host (c : Nat) (t : Bool) | grp (g : Nat) | seq (b : Nat) | eng (r : Nat) | launch (c : Nat) | stub (n g : Nat)
  | push (id : Nat) | join (pend : Nat) | nobody
  deriving DecidableEq, Repr

/-! ### Threads: what a host hardware thread and a group's scalar stream have in common -/

/-- Why an agent is parked (R436). -/
structure Park where
  /-- STATE of the pending-fault entry: 1 translation missing, 2 poisoned line, 3 restored store. -/
  state : Nat
  asid : Nat
  lanes : LaneMask
  va : Word
  /-- KIND: 0 read, 1 write, 2 atomic, 3 fetch. -/
  kind : Nat
  /-- A `tlb.inv` that covers the entry has woken the agent, which has yet to replay (R437). -/
  woken : Bool
  deriving DecidableEq, Repr

/-- Whether an agent's stream may issue (R39, R388, R395, R401). -/
inductive Run
  | running
  /-- A page fault is pending (R47, R436). -/
  | parked (p : Park)
  /-- Pre-empted or being migrated (R43). -/
  | stopped
  /-- Retired `done` (R49). -/
  | done
  /-- `halt` (R401). -/
  | halted
  /-- Double fault (R388). -/
  | dead (cause : BitVec 8) (pc : Word)
  /-- A fault of rule 3 of R393 awaits its disposal. -/
  | faulted (cause : BitVec 8)
  deriving DecidableEq, Repr

/-- The record of a trap (R45, R70). -/
structure TrapRec where
  cause : BitVec 8
  lanes : LaneMask
  spc : Word
  /-- TRAP_IREC; 0xFFFF for none. -/
  irec : BitVec 16
  /-- TRAP_ELEM. -/
  elem : Word
  deriving DecidableEq, Repr

/-- A trap as raised: cause, lanes, issue record (0xFFFF for none), first failing element, and the address of a
PAGE_FAULT. -/
structure TrapInfo where
  cause : BitVec 8
  lanes : LaneMask
  irec : BitVec 16
  elem : Word
  va : Nat
  deriving DecidableEq, Repr

/-- An issue of a lane word that some lanes have completed (R47, R63, R65, R435): the lanes that issue again, the view registers
that their queue accesses use, the lanes whose `lr` is set, and `lr` before the first issue. -/
structure Reissue where
  lanes : LaneMask
  views : SMap 64
  latched : LaneMask := 0#32
  lr : SMap 64 := []
  deriving DecidableEq, Repr

/-- A gang (R23): its slices, its lane program counter, where it waits, its run, and the mask word of the safe-point
word it retired last. -/
structure Gang where
  slices : BitVec 8
  pc : Nat
  /-- Waiting at `regang k` (R33); the program counter stays at that word. -/
  wait : Option (BitVec 4)
  /-- Words issued in the current run (R35). -/
  runLen : Nat
  /-- The ready run is promoted (R36). -/
  promoted : Bool
  /-- Words that its pipe has issued for others while the run was ready (R36). -/
  lost : Nat := 0
  /-- Mask word of the most recently retired word, when that was a safe-point word (R42). -/
  safe : Option (BitVec 96)
  /-- Mask word of the word being issued, when it is a safe-point word (R195). -/
  mask : Option (BitVec 96)
  /-- Lanes of the word at the program counter that have yet to issue again (R47, R435). -/
  again : Option Reissue
  /-- Its word, issued in part, traps when it issues again, and waits for the words of other gangs issued in part (R45). -/
  traps : Bool := false
  deriving DecidableEq, Repr

/-- A tensor identifier (R91, R92): its record and the reason of its last validation (none: never set). -/
structure Tid where
  raw : BitVec 1024
  reason : Option Nat
  deriving DecidableEq, Repr

/-- A lane task (R29): its active count, its gangs, and the mask words of the slices that have ended (R344). -/
structure Task where
  n : Nat
  gangs : List Gang
  /-- Union of the mask words of the `lend` words retired so far. -/
  endMask : BitVec 96
  /-- Every `lend` so far was a safe-point word. -/
  endSafe : Bool
  /-- The block's tensor identifiers as the task's `lx` found them (R330). -/
  tids : FMap Tid
  deriving DecidableEq, Repr

/-- A bank of handler registers (R387): x24 to x27, v248 to v255 (by 8 × lane + word), p6 and p7. -/
structure HBank where
  x : SMap 64
  v : SMap 32
  p6 : LaneMask
  p7 : LaneMask
  deriving DecidableEq, Repr

/-- An active handler (R386, R387): its level, its trap record (none after reset), and what it keeps aside of the
interrupted level. -/
structure Frame where
  monitor : Bool
  trap : Option TrapRec
  task : Option Task
  lr : SMap 64
  deriving DecidableEq, Repr

/-- An entry of a store buffer (R160, R397): an aligned group of eight bytes. -/
structure SbEntry where
  va : Nat
  asid : Nat
  data : Word
  mask : BitVec 8
  /-- A release at this scope, performed at its home at `.die` or wider. -/
  rel : Option Scope
  /-- It has passed the check of its line's write permission (R434); one restored has yet to pass it again (R443). -/
  checked : Bool := true
  deriving DecidableEq, Repr

/-- A group's or thread's monitor (R116): the line, or a scratchpad line, and whether it has been triggered or
lost. -/
structure Monitor where
  line : Nat
  fired : Bool
  deriving DecidableEq, Repr

/-- A watch (R121): its line, and whether a write of another agent has reached the line's home since. -/
structure Watch where
  line : Nat
  broken : Bool
  deriving DecidableEq, Repr

/-- A stream of scalar words with its registers. -/
structure Thread where
  /-- x1 to x31 (R51); x24 to x27 are the group's own. -/
  x : SMap 64
  pc : Word
  fcsr : Word
  /-- Scalar stochastic generator (R82). -/
  gen : BitVec 16
  /-- Active handlers, the innermost first (R386). -/
  frames : List Frame
  kbank : HBank
  mbank : HBank
  /-- MON_SCRATCH (R392). -/
  scratch : Word
  run : Run
  /-- A trap that waits for the load of its kernel vector (R391, R393). -/
  pending : Option TrapInfo := none
  /-- The stream whose word has parked, until its replay completes (R47, R437). -/
  replays : Option AgentId := none
  /-- Store buffer, oldest first (R160). -/
  sb : List SbEntry
  /-- UNACK (R169). -/
  unack : Nat
  /-- Loads awaiting a value (R301). -/
  loads : Nat
  /-- Atomics and commits awaiting a result (R301). -/
  atomics : Nat
  /-- Prefetches in flight (R301). -/
  prefetches : Nat
  /-- Status of a context save that ended while the thread waited for it (R399, R402). -/
  saveResult : Option Nat
  watches : List Watch
  monitor : Option Monitor
  /-- The release in progress has placed its marker and made its pushes (R162). -/
  marker : Bool
  /-- Pushes of the column, ahead of the marker, whose acknowledgements the release awaits. -/
  await : List Nat
  /-- The releases made by `fence.rel` and full fences so far, one for each scope, with the lines stored to since (R171). -/
  fences : List (Scope × List Nat)
  /-- The last timestamp read (R237). -/
  lastTs : Nat
  /-- off26 of the `safe` word retired just before (R42, R340). -/
  prevSafe : Option (BitVec 25)
  deriving DecidableEq, Repr

/-- A host hardware thread (R13). -/
structure HostThread where
  th : Thread
  /-- CUR_RCB (R392). -/
  curRcb : Word
  /-- PREEMPT_NS (R424). -/
  preemptNs : Word
  deriving DecidableEq, Repr

/-- A flit (R52, R117): payload and header. -/
structure Flit where
  payload : Word
  header : Word
  deriving DecidableEq, Repr

/-- Where a group is (R39, R346, R347). -/
inductive Place
  | resident
  /-- Its image travels to a holder core for a segment; a departed group keeps its old slot until the image has landed or
  been parked, and one at birth has none (core 0xFFFF). -/
  | travelling (core seg : Nat)
  /-- Its image is held in parking record k under sequence number s. -/
  | parkedRecord (k s : Nat)
  /-- Its image met an exhausted parking area (R349). -/
  | stuck (seg : Nat)
  deriving DecidableEq, Repr

/-- A group (R23, R51 to R72). -/
structure Group where
  th : Thread
  /-- Vector words, by 256 × lane + word (R54). -/
  v : SMap 32
  /-- Operand file, by 8 × lane + entry (R64). -/
  opf : SMap 32
  /-- Predicates p1 to p7 as masks of lanes (R53). -/
  p : SMap 32
  /-- Last-result latch by lane (R65). -/
  lr : SMap 64
  /-- Lane stochastic generators by lane (R82). -/
  gens : SMap 16
  /-- View registers in the numbering of R57. -/
  views : SMap 64
  /-- EXT_HELD (R55). -/
  ext : Nat
  task : Option Task
  /-- REG_STATUS (R72). -/
  regStatus : Word
  portEn : Bool
  portDst : Word
  portSrc : Word
  drop : Bool
  /-- Free send credits (R119). -/
  credits : Nat
  /-- Receive buffer, oldest first (R120). -/
  rx : List Flit
  block : Nat
  region : Nat
  /-- Slot of its core (R34). -/
  slot : Nat
  /-- Scalar words that its pipe has issued for others while its own was ready (R36, R37). -/
  lost : Nat := 0
  core : Nat
  blockId : Nat
  groupId : Nat
  place : Place
  /-- Current segment of a traveller (R337). -/
  seg : Option Nat
  /-- OWE (R341). -/
  owe : BitVec 64
  /-- Departure mask (R344). -/
  depMask : BitVec 96
  /-- DEP_COL and PUSHED of the image (R397). -/
  depCol : Nat
  pushed : Bool
  /-- Pushes of a cross-column move whose acknowledgements the group awaits before it issues (R170). -/
  moves : List Nat
  deriving DecidableEq, Repr

/-! ### Blocks, sequencers, regions -/

/-- A weight plane (R303): elements as FP32 bits by 256 × k + n, scales by 256 × block + n (127 where absent); and the k origin
of the `mls` that loaded it, which R305 has the passes check. -/
structure Plane where
  valid : Bool
  /-- Class: 0 F8, 1 I8, 2 F16 (R304). -/
  cls : BitVec 2
  /-- Size of the scale blocks; 0 for weights without scales (R305). -/
  bs : Nat
  org : Nat
  w : SMap 32
  sw : FMap (BitVec 8)
  deriving DecidableEq, Repr

/-- A spanned `mst` as issued: its fields (R319). -/
structure SpanReq where
  ta : BitVec 6
  mi : BitVec 4
  row : Nat
  count : Nat
  acct : Bool
  deriving DecidableEq, Repr

/-- A matrix sequencer (R303). -/
structure Seq where
  mpc : Word
  m : SMap 64
  active : Plane
  shadow : Plane
  span : Nat
  lead : Nat
  /-- At `mend`. -/
  ended : Bool
  /-- Rows of the `mst` or `mdr` at MPC that are done (R320). -/
  rows : Nat
  /-- Waiting in a spanned step (R319). -/
  spanned : Option SpanReq
  /-- The block's tensor identifiers as the last completed `mbwt`, or the start, found them (R330). -/
  tids : FMap Tid
  /-- A pass of the word at MPC is held by the budget, and has been counted in MX_STALLS (R320). -/
  held : Bool
  run : Run
  /-- Its word parked, and the replay has yet to complete (R437). -/
  replays : Bool := false
  deriving DecidableEq, Repr

/-- Life of a block (R27, R43, R49). -/
inductive BlockRun | placed | running | stopping | stopped | retired
  deriving DecidableEq, Repr

/-- A request to stop a block (R402, R424): who asked, the capability it passed (R399), when it arrived, its deadline, and the
area. -/
structure StopReq where
  who : Who
  part : Nat
  cap : Nat
  at_ : Nat
  ns : Nat
  area : Word
  bytes : Word
  deriving DecidableEq, Repr

/-- A block, or a holder block of a March region (R23, R333). -/
structure Block where
  region : Nat
  blockId : Nat
  core : Nat
  /-- Block slot of its core (R436). -/
  slot : Nat
  groups : List Nat
  chunks : Nat
  spmBytes : Nat
  barCount : Nat
  tidCount : Nat
  accCount : Nat
  /-- Barrier words (R110). -/
  bars : SMap 64
  tids : FMap Tid
  /-- Scratchpad bytes; one not listed is zero. -/
  spm : FMap Byte
  /-- Accumulator elements by 256 × row + column; one not listed is zero. -/
  acc : FMap Word32
  /-- The physical rows and scratchpad lines of its core that it occupies, and the bytes of code that its core pins for it (R27,
  R336). -/
  rows : List Nat := []
  lines : List Nat := []
  code : Nat := 0
  seq : Seq
  /-- Distributor: index of the next unit's first iteration (R41). -/
  cursor : Nat
  /-- Waiting `xacq` requests, oldest first: group and count (R40). -/
  xq : List (Nat × Nat)
  run : BlockRun
  stop : Option StopReq
  /-- Pushes of a column whose acknowledgements the block awaits before it starts, or before its streams issue (R170, R411). -/
  moves : List Nat
  /-- Segment of a holder block (R333). -/
  seg : Option Nat
  /-- Removed by `seg.map` (R336). -/
  removed : Bool
  discarded : Bool
  deriving DecidableEq, Repr

/-- A commutative range (R122): the region control block of the region that declared it, its ASID, start, length in bytes,
operation 0 add, 1 min, 2 max, element format, and the partials by core × 2^57 + address. -/
structure CRange where
  rcb : Nat
  asid : Nat
  start : Nat
  len : Nat
  op : Nat
  fmt : CrTy
  partials : FMap Word32
  deriving DecidableEq, Repr

/-- A homing descriptor (R100). -/
structure HomeDesc where
  base : Nat
  granules : Nat
  mode : Nat
  column : Nat
  deriving DecidableEq, Repr

/-- A segment of a March region (R335). -/
structure Segment where
  scalarLo : Nat
  scalarHi : Nat
  matrixLo : Nat
  matrixHi : Nat
  laneLo : Nat
  laneHi : Nat
  holders : List Nat
  entryOnly : Bool
  chunks : Nat
  spmBytes : Nat
  barCount : Nat
  tidCount : Nat
  accCount : Nat
  entry : Nat
  matrixEntry : Nat
  tidTable : Nat
  deriving DecidableEq, Repr

/-- March state of a region (R335, R336, R347): its map, the held records (segment, sequence number, and whether the
image is written) by record, and the code that each holder has pinned, by 2^57 × core + byte address. -/
structure March where
  map : Nat
  parkBase : Nat
  parkCount : Nat
  segs : List Segment
  held : FMap (Nat × Nat × Bool)
  /-- Travellers born so far (R334). -/
  born : Nat
  pinned : FMap Word32
  /-- Free arrival slots of each holder core as last broadcast (R345). -/
  known : FMap Nat
  deriving DecidableEq, Repr

/-- A region (R25, R50, R391). -/
structure Region where
  rcb : Word
  part : Nat
  asid : Nat
  /-- Launching column and queue. -/
  col : Nat
  queue : Nat
  /-- The snapshot of its record (R25). -/
  record : BitVec 2048
  prio : Nat
  /-- When its post reached the head of its queue, and the queue's priority then (R408, R413). -/
  headAt : Nat
  qprio : Nat
  /-- An all-or-nothing launch that did not fit at once, and waits for claims (R417). -/
  waiting : Bool
  /-- Its control block and that block's ancestors; the limits of those that have one, by control block (R391, R415). -/
  chain : List Nat
  limits : List (Nat × Nat)
  /-- Effective VEC_TABLE, NOTIFY and COLUMNS, as read at launch (R391). -/
  vecTable : Nat
  notify : Nat
  columns : BitVec 32
  /-- Effective homing map (R100). -/
  homing : List HomeDesc
  /-- Blocks placed so far, in ascending BLOCK_ID. -/
  placed : Nat
  /-- Blocks or travellers retired. -/
  retired : Nat
  march : Option March
  /-- Distributor cursors of a March region by BLOCK_ID (R334). -/
  cursors : FMap Nat
  discarded : Bool
  /-- Its release at retirement has placed its markers, and the pushes that it awaits (R50, R162). -/
  marker : Bool
  await : List Nat
  /-- The completion stamp has been written (R50). -/
  finished : Bool
  deriving DecidableEq, Repr

/-! ### Cores, columns, partitions -/

/-- A scratchpad mapping (R107). -/
structure MapEnt where
  base : Nat
  len : Nat
  off : Nat
  block : Nat
  asid : Nat
  deriving DecidableEq, Repr

/-- A forwarding stub (R350): its core, the groups it forwards to with the acknowledgements that have yet to pass it for
each, the issue records it covers, and the completion reports that it keeps for groups that cannot take them. -/
structure Stub where
  core : Nat
  left : FMap Nat
  recs : List Nat
  kept : Nat
  deriving DecidableEq, Repr

/-- 32 bits of code that an instruction cache holds (R14, R177): the agent that fetched them, or for the cache that the threads of a
host core share nobody; address space, address. -/
structure CodeUnit where
  who : Option AgentId
  asid : Nat
  va : Nat
  word : Word32
  deriving DecidableEq, Repr

/-- A compute core (R14). -/
structure Core where
  /-- Physical index (R11). -/
  phys : Nat
  col : Nat
  monVec : Word
  droopThr : Word
  /-- DROOP_STAT.ALARMS, and the stretched and halved cycles left (R492). -/
  alarms : Nat
  stretch : Nat
  halve : Nat
  runForced : Nat
  mxStalls : Nat
  winterWakes : Nat
  /-- Core cycles (R238). -/
  cyc : Nat
  /-- Passes issued in the current window (R320). -/
  passes : Nat
  maps : FMap MapEnt
  /-- SEG_HOT by segment (R354). -/
  segHot : FMap Word
  /-- Banks in Winter (R67) and gated regions (R485). -/
  winter : List Bank
  gated : List PowerRegion
  /-- What earlier uses of the arrays left, by physical byte and by 256 × physical row + column; an element not listed is zero
  (R27). -/
  sram : FMap Byte := []
  accs : FMap Word32 := []
  /-- Gated regions that work waits for (R486). -/
  springs : List PowerRegion := []
  /-- Its scalar, lane and matrix instruction caches, the youngest unit first (R14, R177). -/
  icaches : List CodeUnit := []
  deriving DecidableEq, Repr

/-- A post in a launch queue: its POST word, and the record of a peer packet (R406, R420). -/
structure Post where
  post : Word
  packet : Option (BitVec 2048)
  barrier : Bool
  badPacket : Bool
  /-- The release that its store is, the fences that it follows with the lines stored to since, and the column of the agent that
  stored it (R171). -/
  rel : Option Scope
  fences : List (Scope × List Nat)
  launcher : Nat
  /-- When it reached the head (R413), LQ_CFG then (R408), and the record that the launch engine has read (R409, R412). -/
  headAt : Nat
  cfg : Option Word
  record : Option (BitVec 2048) := none
  deriving DecidableEq, Repr

/-- A launch queue (R406, R407). -/
structure LaunchQueue where
  fifo : List Post
  /-- Posts held at the slice while the FIFO is full. -/
  heldPosts : List (Post × Who)
  post : Word
  accepted : Word
  refused : Word
  lastReason : Nat
  /-- LQ_CFG (R408). -/
  cfg : Word
  /-- Regions accepted from this queue and not yet retired, in order. -/
  regions : List Nat
  deriving DecidableEq, Repr

/-- A black-box record (R497). -/
structure BoxRec where
  time : Nat
  kind : Nat
  unit : Nat
  core : Nat
  seq : Nat
  data0 : Word
  data1 : Word
  deriving DecidableEq, Repr

/-- An entry of the page-permission cache (R434). -/
structure Perm where
  asid : Nat
  unit : Nat
  w : Bool
  deriving DecidableEq, Repr

/-- A column (R13). -/
structure Column where
  phys : Nat
  part : Nat
  cores : List Nat
  /-- Monitor entry of the host core (R392). -/
  monVec : Word
  /-- Throttle state: LEVEL, TEMP, samples at or below 92 °C, BUDGET_CAP, FLOOR and the reserved bits (R488, R489). -/
  level : Nat
  temp : Nat
  cool : Nat
  budgetCap : Nat
  floor : BitVec 8
  /-- Level changes decided and not yet in effect, oldest first: new level and cause (R490). -/
  changes : List (Nat × Nat)
  /-- Clock cycles of the host core (R238). -/
  hostCyc : Nat
  /-- Samples in a row above 2,400 W (R488). -/
  hotSamples : Nat
  /-- HOST_CLK: CAP_MHZ and REQ_MHZ (R505). -/
  capMhz : Nat
  reqMhz : BitVec 16
  /-- Voltage setpoint over nominal, in millivolts (R496). -/
  setpoint : Nat
  queues : FMap LaunchQueue
  /-- The queue served last (R413). -/
  served : Nat
  /-- A launch record's missing translation parks the engine (R409): the queue, and the pending fault. -/
  launchPark : Option (Nat × Park)
  /-- Installed event queue header, and whether a record was dropped before (R404). -/
  evq : Word
  evqDropped : Bool
  /-- Black box: records oldest first, count, frozen (R497, R498). -/
  box : List BoxRec
  boxCount : Nat
  frozen : Bool
  /-- Lines held column-private dirty, oldest first (R160). -/
  fifo : List Nat
  perms : List Perm
  /-- Way groups of the slice that are Gated (R485). -/
  gatedWays : List Nat
  /-- The L1 instruction cache of the host core, which its threads share (R13). -/
  icache : List CodeUnit := []
  deriving DecidableEq, Repr

/-- An entry of a capability store (R389). -/
structure Cap where
  valid : Bool
  gen : BitVec 20
  type : Nat
  rights : BitVec 16
  object : Word
  limit : Word
  holder : Word
  origin : Nat
  deriving DecidableEq, Repr

/-- A partition (R478). -/
structure Partition where
  cols : List Nat
  asidLo : Nat
  asidCount : Nat
  twCfg : Word
  cxlCfg : Word
  domRcb : Word
  caps : FMap Cap
  /-- Machine-check records written (R446), and capacity-log records (R461). -/
  mcaSeq : Nat
  dcSeq : Nat
  /-- Registers that no rule assigns are not stored; this holds the recent machine checks for merging:
  kind, unit, index, sequence number, time, count. -/
  mcaRecent : List (Nat × Nat × Nat × Nat × Nat × Nat)
  deriving DecidableEq, Repr

/-! ### Engine operations -/

/-- Kinds of engine operation (R321). -/
inductive EngOp | cp | cpColl | gth | scat | redcp | mcast | dcoll
  deriving DecidableEq, Repr

/-- Life of an issue record (R48). -/
inductive EngRun
  | running
  /-- Waiting for a translation (R436). -/
  | parked (p : Park)
  /-- Fault held: cause, first failing element, and the address of a PAGE_FAULT. -/
  | held (cause : BitVec 8) (elem : Word32) (va : Nat)
  /-- Delivered as a trap, released by `tret`. -/
  | delivered
  /-- Reported to the fault domain, or to a machine check, until its disposal (R49, R329, R395). -/
  | reported
  | complete
  deriving DecidableEq, Repr

/-- A group's part of a collective copy (R325): its group, program counter, descriptor, stamp value, identifiers. -/
structure EngPart where
  group : Nat
  pc : Word
  desc : BitVec 4096
  stamp : Word
  src : Tid
  dst : Tid
  deriving DecidableEq, Repr

/-- An issue record (R48, R321): the issuer, its program counter, the descriptor and tensor identifiers as read at
issue, the stamp, and how far the operation is. -/
structure IRec where
  op : EngOp
  who : Who
  /-- Region, block and core of the issuer at issue; the core also names the record's home. -/
  region : Nat
  block : Nat
  core : Nat
  asid : Nat
  /-- The issuer's partition and the region control block of its region at issue. -/
  part : Nat
  rcb : Nat
  pc : Word
  /-- Issued at monitor level. -/
  monitor : Bool
  desc : BitVec 4096
  stamp : Word
  scope : Scope
  src : Tid
  dst : Tid
  idx : Tid
  /-- Destination lines landed so far. -/
  done : Nat
  /-- RANK of a domain collective's group and its packages by rank, as read at issue (R328); none otherwise. -/
  rank : Nat
  peers : List Nat
  /-- Parts of a collective copy (R325), in order of issue. -/
  parts : List EngPart
  /-- Groups of a collective copy that have taken its fault. -/
  told : List Nat
  /-- Blocks that receive a multicast, fixed at its first write (R327). -/
  targets : List Nat
  /-- The first write has been made, so bytes have been added to ABAR (R112). -/
  begun : Bool
  /-- Completion bitmap of a reducing copy (R175). -/
  bitmap : BitVec 2048
  /-- Acknowledgements awaited (R169). -/
  unack : Nat
  /-- The release that makes the stamp visible has placed its marker, and the pushes it awaits (R162, R164). -/
  marker : Bool
  await : List Nat
  /-- Its group has departed, or its block has been stopped, since the issue (R351). -/
  departed : Bool
  /-- Its arrival has been made (R324). -/
  arrived : Bool
  /-- Its stamp has been sent to another package, whose answer is awaited (R324, R472). -/
  stamped : Bool
  run : EngRun
  deriving DecidableEq, Repr

/-! ### The memory system -/

/-- A directory entry (R135). -/
structure DirEnt where
  sharer : Nat
  update : Bool
  sat : Bool
  fmt : BitVec 8
  scale : BitVec 8
  deriving DecidableEq, Repr

/-- A line at its home (R99, R135): its value, the bytes its backing memory lacks, its permission, poison with the
bytes written since, and its directory state. -/
structure HomeLine where
  data : LineData
  /-- Its home column, and whether a CXL port backs it (R101). -/
  col : Nat
  cxl : Bool
  dirty : BitVec 128
  w : Bool
  poison : Option (BitVec 128)
  src : BitVec 8
  coarse : Bool
  cols : BitVec 32
  ents : List DirEnt
  /-- Exclusive holder (R143). -/
  excl : Option Nat
  /-- Some of the dirty bytes came by a push of a part of the line (R453). -/
  part : Bool := false
  /-- The home has sent the data to its backing memory and no longer holds it (R452). -/
  away : Bool := false
  deriving DecidableEq, Repr

/-- A copy of a line in a cache: its encodings packed by element, its format and scale, its permission, and the bytes
an exclusive holder has written (R127, R143). -/
structure Copy where
  data : LineData
  fmt : BitVec 8
  src : BitVec 8
  scale : BitVec 8
  w : Bool
  excl : Bool
  dirty : BitVec 128
  /-- The one agent that stored the dirty bytes, or nobody where several have. -/
  by_ : Who
  deriving DecidableEq, Repr

/-- Bytes that a slice holds column-private dirty (R160). -/
structure Priv where
  data : LineData
  mask : BitVec 128
  /-- The one agent that stored these bytes, or nobody where several have. -/
  by_ : Who
  deriving DecidableEq, Repr

/-- What a message in flight does when it is delivered. -/
inductive MsgKind
  /-- A write travelling to its home: line, bytes, mask, writing cache, the agent that wrote them, who
  awaits the acknowledgement. -/
  | write (line : Nat) (data : LineData) (mask : BitVec 128) (from_ : Nat) (by_ who : Who)
  /-- An acknowledgement for an agent. -/
  | ack (who : Who)
  /-- The home's response to an access of an agent performed there (R301). -/
  | resp (who : Who)
  /-- A fill for a cache, and whose prefetch it ends. -/
  | fill (sharer line : Nat) (copy : Copy) (who : Who)
  /-- An invalidation, and the write that waits for it. -/
  | inval (sharer line : Nat) (pend : Nat)
  /-- An update of a narrow copy, and the write that waits for it. -/
  | update (sharer line : Nat) (data : LineData) (pend : Nat)
  /-- An eviction notice (R137). -/
  | notice (sharer line : Nat)
  /-- A store forwarded to a scratchpad (R108): core, mapping, line, bytes. -/
  | spmWrite (line : Nat) (data : LineData) (mask : BitVec 128) (who : Who)
  /-- A flit to a group (R120): sender, target block and group of the region, and whether it has been refused. -/
  | flit (from_ region block group : Nat) (f : Flit) (refused : Bool)
  /-- A store to another package (R472): request number. -/
  | remote (n : Nat)
  /-- A line that a channel has read for a prefetch: line, cache, agent (R285, R450). -/
  | rdata (line sharer : Nat) (who : Who)
  deriving DecidableEq, Repr

/-- A message in flight. -/
structure Msg where
  id : Nat
  kind : MsgKind
  deriving DecidableEq, Repr

/-- A push on its way to its home or not yet acknowledged (R161, R169): the column that made it, the column of the home, the
agent whose UNACK counts it. -/
structure PushRec where
  col : Nat
  home : Nat
  who : Who
  /-- The home has acknowledged it, and a forwarding stub has yet to pass the acknowledgement on (R350). -/
  acked : Bool
  deriving DecidableEq, Repr

/-- A write performed at its home whose acknowledgement waits (R137). -/
structure PendWrite where
  left : Nat
  who : Who
  /-- The write is that of an atomic or commit, whose response waits. -/
  resp : Bool
  /-- Coarse line to be made precise when the last invalidation is acknowledged (R136). -/
  coarse : Option Nat
  deriving DecidableEq, Repr

/-- An entry of a port's extent table (R460): first local address, length, device address, SHARED and PERSIST. -/
structure Extent where
  base : Nat
  len : Nat
  dev : Nat
  shared : Bool
  persist : Bool
  deriving DecidableEq, Repr

/-- A translation cached by a target (R432, R460): target, ASID tag, first address, page size, permission, local base, and
for a CXL port the extent. -/
structure TlbEnt where
  target : Nat
  asid : Nat
  base : Nat
  size : Nat
  w : Bool
  lbase : Nat
  ext : Option Extent := none
  deriving DecidableEq, Repr

/-- A record of a writable name (R438): target, local unit, ASID and unit address. -/
structure AliasRec where
  target : Nat
  lunit : Nat
  asid : Nat
  unit : Nat
  deriving DecidableEq, Repr

/-- A request packet at a channel (R449): 1 RD, 2 WR, 3 WRM, its local line address, data, mask; and whether it has
been performed, with the status and data of its response. -/
structure ChanReq where
  op : Nat
  addr : Nat
  data : LineData
  mask : BitVec 128
  line : Nat
  /-- Prefetch that a read serves: sharer and agent. -/
  fillFor : Option (Nat × Who)
  performed : Option (Nat × LineData)
  /-- Order in which the controller received it (R451). -/
  order : Nat
  deriving DecidableEq, Repr

/-- A pseudo-channel (R450, R455): requests by tag, requests that wait, and the two refresh filters as the bits
set. -/
structure Chan where
  tags : FMap ChanReq
  waiting : List ChanReq
  b0 : List Nat
  b1 : List Nat
  deriving DecidableEq, Repr

/-- CHN_STAT of a channel group (R457). -/
structure ChanStat where
  demoted : Nat
  corrected : Nat
  uncorr : Nat
  hot : Bool
  deriving DecidableEq, Repr

/-- What another package answers: a value, a refusal, or that the tag is stale (R174, R472). -/
inductive RemoteAnswer | value (v : Nat) | refused | stale
  deriving DecidableEq, Repr

/-- A request to another package (R472, R473): target, whether a write or an atomic, the value written, bytes, attempts, who waits, and
the column whose slice sent it. -/
structure RemoteReq where
  va : Nat
  write : Bool
  atomic : Bool
  data : Word
  bytes : Nat
  attempts : Nat
  port : Nat
  tag : Nat
  who : Who
  col : Nat := 0
  /-- The response, once it has arrived. -/
  answer : Option RemoteAnswer
  deriving DecidableEq, Repr

/-- What the package answers to a request of another package: the request's source and sequence (R174, R472). -/
structure Reply where
  source : Nat
  seq : Nat
  answer : RemoteAnswer
  deriving DecidableEq, Repr

/-- A fault record that waits for its fault area (R395): partition, header address, the record. -/
structure WaitRec where
  part : Nat
  hdr : Nat
  data : BitVec 512
  deriving DecidableEq, Repr

/-- An entry of a home's replay cache (R174): the home column, the source, the sequence, the result. -/
structure Replay where
  home : Nat
  source : Nat
  seq : Nat
  result : Word
  deriving DecidableEq, Repr

/-- Where a store is (R143, R160): performed at its line's home, in the order of its location; in a cache that holds its line dirty; on
the way to its home in a message. -/
inductive StorePlace | home | cache (sharer : Nat) | msg (id : Nat)
  deriving DecidableEq, Repr

/-- A store to a line of a persistent device that has not been made durable, or that stands after one that has not (R173): cell, line,
bytes, mask, agent, place; whether a `cln.persist` of its agent has placed it in the persistence domain, and whether a flush has made
it durable since. -/
structure LooseStore where
  cell : Nat
  line : Nat
  data : LineData
  mask : BitVec 128
  by_ : Who
  place : StorePlace
  placed : Bool
  durable : Bool
  deriving DecidableEq, Repr

/-- A CXL port (R458 to R464): link and device state; capacity records that await an answer, in SEQ order, by partition,
SEQ, KIND, device address and length with the persistence of what is offered; and capacity withdrawn. -/
structure CxlPort where
  linkUp : Bool
  persistent : Bool
  flushOk : Bool
  /-- Stores to its persistent capacity that a power loss may leave out, those at their homes in the order of their locations; and what
  the cells that they write held before (R173, R464). -/
  stores : List LooseStore
  bases : List (Nat × LineData)
  /-- Global Persistent Flushes completed. -/
  flushes : Nat
  pending : List (Nat × Nat × Nat × Nat × Nat × Bool)
  withdrawn : List (Nat × Nat)
  deriving DecidableEq, Repr

/-- The message port (R475): bytes of the slots, slots the package owns, doorbells in order. -/
structure Link where
  bytes : FMap Byte
  owned : List Nat
  bells : List Nat
  deriving DecidableEq, Repr

/-- Facts of the package that boot fixes, and its management core (R480, R484, R499 to R502). -/
structure Package where
  /-- The part's fuses are known: since its first boot; before that, the next boot image names them (R2, R4). -/
  fused : Bool
  /-- Physical columns, compute cores and die links that are fused off, for the life of the part (R2, R4, R482). -/
  fusedCols : List Nat
  fusedCores : List Nat
  fusedLinks : List Nat
  feeds : List Bool
  bootFail : Nat
  linkUp : Bool
  /-- Every column is stopped by an error of a die link (R469), or not yet released by boot (R499). -/
  halted : Bool
  /-- MEAS[0] to MEAS[3], identity key, security version, device secret (R500). -/
  meas : List (List Byte)
  identity : List Byte
  version : Nat
  secret : List Byte
  order : Word
  domain : Nat
  serial : Word
  /-- Beyond 30 mV: columns reported in the health reply (R496). -/
  beyond : List Nat
  /-- Powered hours since the last re-plan, whether a re-plan is due, and what is still to be carried out of one (R496). -/
  hours : Nat
  due : Bool
  autumn : List AutumnStep
  deriving DecidableEq, Repr

/-- What moves in one step: an agent, an event of the opcode table, the passing of time, core cycles. -/
inductive Turn
  | agent (a : AgentId)
  | event (i : Instr)
  | pass (ns : Nat)
  | cycles (core n : Nat)
  deriving DecidableEq, Repr

/-- The state of the machine. -/
structure State where
  /-- Timestamp counter (R18). -/
  ns : Nat
  hosts : FMap HostThread
  groups : FMap Group
  blocks : FMap Block
  regions : FMap Region
  cores : FMap Core
  cols : FMap Column
  parts : FMap Partition
  /-- Issue records: 256 × core + index; from 16,384 on, 16 × (2 × column + thread) + index of host threads. -/
  irecs : FMap IRec
  /-- Physical memory, by channel group × 2^32 + local address; by 2^64 × (port + 1) + device address behind a CXL port. -/
  mem : List Host.Cell
  /-- Lines poisoned in the stacks (R448), by cell address of their first byte. -/
  memPoison : FMap (BitVec 128)
  /-- Memory of the external host (R477). -/
  hostMem : FMap Byte
  home : FMap HomeLine
  /-- Homing maps that `hmt.set` has put in force, by partition and RCB address (`homingKey`; R100, R404). -/
  homings : FMap (List HomeDesc)
  /-- Active commutative ranges (R122). -/
  ranges : List CRange
  /-- Copies by 1,024 × line + sharer code. -/
  copies : FMap Copy
  /-- Column-private dirty lines by 32 × line + column. -/
  priv : FMap Priv
  /-- Messages in flight, oldest first. -/
  net : List Msg
  pendw : FMap PendWrite
  /-- Pushes that have yet to be acknowledged (R161, R162). -/
  pushes : FMap PushRec
  tlb : List TlbEnt
  aliases : List AliasRec
  /-- Pseudo-channels by 32 × group + number. -/
  chans : FMap Chan
  chanStat : FMap ChanStat
  chanOrder : Nat
  /-- Access-control table (R420). -/
  act : FMap (BitVec 256)
  remote : FMap RemoteReq
  /-- The last response to a request of another package. -/
  reply : Option Reply
  /-- Fault records that wait for their fault areas (R395). -/
  faultWait : FMap WaitRec
  /-- Forwarding stubs (R350). -/
  stubs : FMap Stub
  replays : List Replay
  /-- What the last debugger read gave (R56). -/
  debugValue : Word32
  /-- Sequence numbers of the tags, by source (R174). -/
  tagSeq : FMap Nat
  cxl : FMap CxlPort
  link : Link
  pkg : Package
  /-- The agent whose words `exec` runs. -/
  cur : AgentId
  /-- Who moves next. -/
  sched : List Turn
  /-- Free values used so far. -/
  freeCtr : Nat
  /-- Next number for a group, block, region or message. -/
  nextId : Nat
  deriving DecidableEq, Repr

/-- Why a step stops with a fault. -/
inductive Fault
  /-- A word of one stream is executed for an agent that has no such stream, or an agent that does not exist; raised
  by `exec` in states that no run reaches.  Safe. -/
  | wrongStream
  deriving DecidableEq, Repr

/-- Why a step is refused. -/
inductive Refusal
  /-- The instruction has no meaning yet.  Safe. -/
  | notModelled (mnemonic : String)
  /-- No agent can move and no event is scheduled: the machine waits for its environment; raised by `step`.  Safe. -/
  | quiet
  deriving DecidableEq, Repr

/-! ### Reset -/

/-- A cleared handler bank (R387). -/
def HBank.clear : HBank := { x := [], v := [], p6 := 0#32, p7 := 0#32 }

/-- A thread with every register zero, running at an address with no handler active. -/
def Thread.fresh (pc : Word) (gen : BitVec 16) : Thread :=
  { x := [], pc := pc, fcsr := 0#64, gen := gen, frames := [], kbank := .clear, mbank := .clear, scratch := 0#64
    run := .running, sb := [], unack := 0, loads := 0, atomics := 0, prefetches := 0, saveResult := none, watches := [], monitor := none
    marker := false, await := [], fences := [], lastTs := 0, prevSafe := none }

/-- A host hardware thread after reset: at monitor level in a handler without a trap record, at MON_VEC (R386, R499); its
stochastic generator holds the seed that R82 gives the scalar stream of group 0 (DESIGN CHOICE, log 88). -/
def HostThread.reset : HostThread :=
  { th := { Thread.fresh 0#64 0xAC61#16 with frames := [{ monitor := true, trap := none, task := none, lr := [] }] }
    curRcb := 0#64, preemptNs := 100000#64 }

/-- A compute core after reset. -/
def Core.reset (phys col : Nat) : Core :=
  { phys := phys, col := col, monVec := 0#64, droopThr := 45#64, alarms := 0, stretch := 0, halve := 0, runForced := 0
    mxStalls := 0, winterWakes := 0, cyc := 0, passes := 0, maps := [], segHot := [], winter := []
    gated := [] }

/-- A launch queue after reset (R407, R408). -/
def LaunchQueue.reset : LaunchQueue :=
  { fifo := [], heldPosts := [], post := 0#64, accepted := 0#64, refused := 0#64, lastReason := 0, cfg := 0#64
    regions := [] }

/-- A column after reset. -/
def Column.reset (phys part : Nat) (cores : List Nat) : Column :=
  { phys := phys, part := part, cores := cores, monVec := 0#64, level := 0, temp := 0, cool := 0, budgetCap := 128
    floor := 0#8, changes := [], hostCyc := 0, hotSamples := 0, capMhz := 3200, reqMhz := 0#16, setpoint := 0
    queues := (List.range 8).map fun q => (q, .reset)
    served := 7, launchPark := none, evq := 0#64, evqDropped := false, box := [], boxCount := 0, frozen := false
    fifo := [], perms := [], gatedWays := [] }

/-- A partition after reset, before firmware configures it. -/
def Partition.reset (cols : List Nat) (asidLo asidCount : Nat) : Partition :=
  { cols := cols, asidLo := asidLo, asidCount := asidCount, twCfg := 0#64, cxlCfg := 0#64, domRcb := 0#64, caps := []
    mcaSeq := 0, dcSeq := 0, mcaRecent := [] }

/-- The package after reset: every unit of a VMY-64P live, one partition, every register at its reset value, the host
threads released at monitor level, memory empty, nothing in flight. -/
def State.reset : State :=
  { ns := 0
    hosts := (List.range 64).map fun k => (k, .reset)
    groups := [], blocks := [], regions := []
    cores := (List.range 64).map fun k => (k, .reset k (k / 2))
    cols := (List.range 32).map fun c => (c, .reset c 0 [2 * c, 2 * c + 1])
    parts := [(0, .reset (List.range 32) 0 256)]
    irecs := [], mem := [], memPoison := [], hostMem := [], home := [], homings := [], ranges := [], copies := [], priv := [], net := [], pendw := [], pushes := []
    tlb := [], aliases := [], chans := [], chanStat := [], chanOrder := 0, act := [], remote := [], reply := none, faultWait := [], stubs := [], replays := []
    debugValue := 0#32, tagSeq := []
    cxl := [(0, { linkUp := true, persistent := false, flushOk := true, stores := [], bases := [], flushes := 0, pending := [], withdrawn := [] }),
            (1, { linkUp := true, persistent := false, flushOk := true, stores := [], bases := [], flushes := 0, pending := [], withdrawn := [] })]
    link := { bytes := [], owned := [], bells := [] }
    pkg := { fused := false, fusedCols := [], fusedCores := [], fusedLinks := [], feeds := [true, true], bootFail := 0, linkUp := true, halted := false, meas := [], identity := [], version := 0, secret := []
             order := 0x503436_2D594D56#64, domain := 0xFFFF, serial := 0#64
             beyond := [], hours := 0, due := false, autumn := [] }
    cur := .host 0 false, sched := [], freeCtr := 0, nextId := 0 }

end Sys2Proof.Machine
end

