-- ==== Sys2Proof/Machine/Maps.lean ====
section
/-! DEFINITION. Sparse maps in canonical form, and the byte and bit-field helpers that the operations share. -/

namespace Sys2Proof.Machine

/-! ### Registers kept sparsely -/

/-- Value of key k; an unlisted key is zero. -/
def sget {w : Nat} (m : SMap w) (k : Nat) : BitVec w :=
  match m with
  | [] => 0#w
  | (j, v) :: t => if j = k then v else sget t k

/-- Insert a pair before the first larger key. -/
def sins {α : Type} (m : List (Nat × α)) (k : Nat) (v : α) : List (Nat × α) :=
  match m with
  | [] => [(k, v)]
  | (j, u) :: t => if k < j then (k, v) :: (j, u) :: t else (j, u) :: sins t k v

/-- Remove a key. -/
def mdel {α : Type} (m : List (Nat × α)) (k : Nat) : List (Nat × α) := m.filter fun p => p.1 != k

/-- Set key k; zero removes it. -/
def sset {w : Nat} (m : SMap w) (k : Nat) (v : BitVec w) : SMap w :=
  if v = 0#w then mdel m k else sins (mdel m k) k v

/-- Object at key k. -/
def ffind {α : Type} (m : FMap α) (k : Nat) : Option α :=
  match m with
  | [] => none
  | (j, v) :: t => if j = k then some v else ffind t k

/-- Set the object at key k. -/
def fset {α : Type} (m : FMap α) (k : Nat) (v : α) : FMap α := sins (mdel m k) k v

/-- Remove the object at key k. -/
def fdel {α : Type} (m : FMap α) (k : Nat) : FMap α := mdel m k

/-- Apply a function to the object at key k, if there is one. -/
def fmod {α : Type} (m : FMap α) (k : Nat) (f : α → α) : FMap α :=
  match ffind m k with
  | some v => fset m k (f v)
  | none => m

/-- Values of a map, by rising key. -/
def fvals {α : Type} (m : FMap α) : List α := m.map Prod.snd

/-! ### Bit fields and bytes (R5, R6) -/

/-- Sign extension to 64 bits. -/
def sext64 {w : Nat} (x : BitVec w) : Word := x.signExtend 64

/-- Zero extension to 64 bits. -/
def zext64 {w : Nat} (x : BitVec w) : Word := x.zeroExtend 64

/-- Truth as a 64-bit 0 or 1. -/
def word01 (b : Bool) : Word := if b then 1#64 else 0#64

/-- A 64-bit word of a natural number. -/
def wordOf (n : Nat) : Word := BitVec.ofNat 64 n

/-- Replace bits [lo + len - 1 : lo] of a word. -/
def setBits {w : Nat} (x : BitVec w) (lo len v : Nat) : BitVec w :=
  let m : BitVec w := BitVec.ofNat w ((2 ^ len - 1) * 2 ^ lo)
  (x &&& ~~~m) ||| (BitVec.ofNat w (v % 2 ^ len * 2 ^ lo))

/-- Set or clear one bit. -/
def setBit {w : Nat} (x : BitVec w) (i : Nat) (b : Bool) : BitVec w := setBits x i 1 (if b then 1 else 0)

/-- Byte k of a line or word. -/
def byteAt {w : Nat} (x : BitVec w) (k : Nat) : Byte := x.extractLsb' (8 * k) 8

/-- The n bytes of x from byte k on, little-endian. -/
def bytesFrom {w : Nat} (x : BitVec w) (k n : Nat) : List Byte := (List.range n).map fun i => byteAt x (k + i)

/-- A mask of n bits from bit k on. -/
def maskRange (w k n : Nat) : BitVec w := BitVec.ofNat w ((2 ^ n - 1) * 2 ^ k)

/-- Bits of a byte mask spread over the bytes they name. -/
def spread (n : Nat) (m : BitVec 128) : LineData :=
  match n with
  | 0 => 0#1024
  | k + 1 => spread k m ||| (if m.getLsbD k then BitVec.ofNat 1024 (255 * 2 ^ (8 * k)) else 0#1024)

/-- Bytes of `new` where the mask is set, of `old` elsewhere. -/
def mergeLine (old new : LineData) (m : BitVec 128) : LineData :=
  let s := spread 128 m
  (old &&& ~~~s) ||| (new &&& s)

/-- Number of lanes or bits set. -/
def popCount {w : Nat} (x : BitVec w) : Nat := ((List.range w).filter fun i => x.getLsbD i).length

/-- Indices of the bits set, rising. -/
def bitsSet {w : Nat} (x : BitVec w) : List Nat := (List.range w).filter fun i => x.getLsbD i

/-- Round up to a multiple. -/
def roundUp (n k : Nat) : Nat := (n + k - 1) / k * k

/-- Saturating 32-bit count (R70). -/
def satInc32 (n : Nat) : Nat := if n + 1 < 2 ^ 32 then n + 1 else 2 ^ 32 - 1

end Sys2Proof.Machine
end

