-- ==== Sys2Proof/Machine/Topo.lean ====
section
/-! DEFINITION. Places: address windows, homes, targets, physical memory, page tables and translation (R99 to R105,
R426 to R444). -/

namespace Sys2Proof.Machine

/-! ### Physical memory -/

/-- The canonical form of a memory: addresses strictly rising, and no entry equal to what an unlisted address reads
as, which is zero. -/
def Memory.wf (m : List Host.Cell) : Bool :=
  match m with
  | [] => true
  | [c] => c.2 != 0#8
  | c :: d :: t => c.2 != 0#8 && decide (c.1 < d.1) && Memory.wf (d :: t)

/-- One byte of physical memory. -/
def Memory.read (m : List Host.Cell) (a : Nat) : Byte := sget m a

/-- Write one byte of physical memory. -/
def Memory.write (m : List Host.Cell) (a : Nat) (b : Byte) : List Host.Cell := sset m a b

/-- Little-endian value of n bytes. -/
def Memory.readNat (m : List Host.Cell) (a : Nat) : Nat → Nat
  | 0 => 0
  | n + 1 => (Memory.read m a).toNat + 256 * Memory.readNat m (a + 1) n

/-- A line of physical memory. -/
def Memory.readLine (m : List Host.Cell) (a : Nat) : LineData := BitVec.ofNat 1024 (Memory.readNat m a 128)

/-- Write the bytes of a line that a mask names; k bytes are still to come. -/
def Memory.writeMasked (m : List Host.Cell) (a : Nat) (d : LineData) (k : BitVec 128) : Nat → List Host.Cell
  | 0 => m
  | i + 1 =>
    let m' := Memory.writeMasked m a d k i
    if k.getLsbD i then Memory.write m' (a + i) (byteAt d i) else m'

/-- Write a line under a byte mask. -/
def Memory.writeLine (m : List Host.Cell) (a : Nat) (d : LineData) (k : BitVec 128) : List Host.Cell :=
  Memory.writeMasked m a d k 128

/-! ### Windows of the address space -/

/-- Base of the local window (R105). -/
def localBase : Nat := 0x1FFFFFF00000000
/-- Base of the launch window (R405). -/
def launchBase : Nat := 0x1FFFFFE00000000
/-- Base of the window of launch-record snapshots: DESIGN CHOICE, log 17. -/
def snapBase : Nat := 0x1FFFFFD00000000
/-- Base of the table window (R429). -/
def tableBase : Nat := 0x1FFFFFC00000000

/-- What a virtual address names. -/
inductive AddrKind
  | bad
  | loc (off : Nat)
  | launch (off : Nat)
  | snap (off : Nat)
  | table (off : Nat)
  | domain (pkg part off : Nat)
  | plain
  deriving DecidableEq, Repr

/-- What a virtual address names (R105, R275, R405, R429, R471). -/
def addrKind (va : Nat) : AddrKind :=
  if 2 ^ 57 ≤ va then .bad
  else if localBase ≤ va then .loc (va - localBase)
  else if launchBase ≤ va then .launch (va - launchBase)
  else if snapBase ≤ va then .snap (va - snapBase)
  else if tableBase ≤ va then .table (va - tableBase)
  else if 2 ^ 56 ≤ va ∧ va / 2 ^ 46 % 2 ^ 10 < 768 then
    .domain (va / 2 ^ 46 % 2 ^ 10) (va / 2 ^ 43 % 8) (va % 2 ^ 43)
  else .plain

/-- Key of a line: its ASID tag and VA[56:7] (R99). -/
def lineKey (tag va : Nat) : Nat := tag * 2 ^ 50 + va / 128 % 2 ^ 50

/-- Address of the first byte of a line. -/
def lineVa (key : Nat) : Nat := key % 2 ^ 50 * 128

/-- ASID tag of a line. -/
def lineTag (key : Nat) : Nat := key / 2 ^ 50

/-! ### Blocks and cores -/

/-- Apply a function to a block. -/
def modBlock (s : State) (b : Nat) (f : Block → Block) : State := { s with blocks := fmod s.blocks b f }

/-- Apply a function to a core. -/
def modCore (s : State) (c : Nat) (f : Core → Core) : State := { s with cores := fmod s.cores c f }

/-! ### Homes -/

/-- The homing descriptor that covers an address (R100). -/
def homeDesc (hm : List HomeDesc) (va : Nat) : Option HomeDesc :=
  hm.find? fun d => decide (d.base ≤ va) && decide (va < d.base + d.granules * 2 ^ 21)

/-- Home column of an address of a partition (R101, R479), and whether a CXL port backs it. -/
def homeOf (p : Partition) (hm : List HomeDesc) (va : Nat) : Nat × Bool :=
  let spread := p.cols.getD (va / 128 % 2 ^ 50 % p.cols.length) 0
  match homeDesc hm va with
  | some d => if d.mode = 1 then (d.column, false) else (spread, d.mode == 2)
  | none => (spread, false)

/-- XOR of the consecutive n-bit fields of VA[56:12] (R427); i fields are left. -/
def foldFields (x n : Nat) : Nat → Nat
  | 0 => 0
  | i + 1 => Nat.xor (x % 2 ^ n) (foldFields (x / 2 ^ n) n i)

/-- Target of an address among 2^n (R427). -/
def foldVa (va n : Nat) : Nat := foldFields (va % 2 ^ 57 / 2 ^ 12) n 45

/-- Address bits of the targets: 128 channel groups or two CXL ports (R426). -/
def targetBits (cxl : Bool) : Nat := if cxl then 1 else 7

/-- Local address in its target (R428). -/
def localAddr (lbase size va n : Nat) : Nat := lbase + va % size / 2 ^ (12 + n) * 2 ^ 12 + va % 2 ^ 12

/-- Cell of a local address of a channel group. -/
def hbmCell (g loc : Nat) : Nat := g * 2 ^ 32 + loc % 2 ^ 32

/-- Cell of a device address of a CXL port. -/
def cxlCell (port dev : Nat) : Nat := 2 ^ 64 * (port + 1) + dev

/-- TW_LOG2 (R430). -/
def twLog2 (p : Partition) : Nat := (p.twCfg.extractLsb' 0 8).toNat

/-- Cell of a table-window offset: a fixed mapping over the channel groups (R429), partition k at local base
k × 32 MiB (DESIGN CHOICE, log 18). -/
def tableCell (part : Nat) (p : Partition) (off : Nat) : Nat :=
  let va := tableBase + off
  hbmCell (foldVa va 7) (localAddr (part * 2 ^ 25) (2 ^ twLog2 p) va 7)

/-- Tag of table-window lines of a partition: no ASID (R429). -/
def tableTag (part : Nat) : Nat := 256 + part

/-- A partition. -/
def partOf (s : State) (k : Nat) : Partition := (ffind s.parts k).getD (.reset [] 0 0)

/-- Value of a table-window line at its home. -/
def tableLine (s : State) (part off : Nat) : LineData :=
  match ffind s.home (lineKey (tableTag part) (tableBase + off)) with
  | some h => h.data
  | none => Memory.readLine s.mem (tableCell part (partOf s part) (off / 128 * 128))

/-- An aligned 8-byte word of the table window, as its home holds it. -/
def tableWord (s : State) (part off : Nat) : Word := (tableLine s part off).extractLsb' (8 * (off % 128)) 64

/-! ### Page tables -/

/-- Size of a page in bytes by its code (R431). -/
def pageSize (code : Nat) : Nat :=
  [2 ^ 12, 2 ^ 14, 2 ^ 16, 2 ^ 18, 2 ^ 20, 2 ^ 21, 2 ^ 22, 2 ^ 24, 2 ^ 26, 2 ^ 28, 2 ^ 30, 2 ^ 32].getD code 0

/-- Page sizes that may be a leaf at a level (R432). -/
def leafOk (level code : Nat) : Bool :=
  match level with
  | 2 => code == 10 || code == 11
  | 1 => decide (5 ≤ code) && decide (code ≤ 9)
  | 0 => decide (code ≤ 4)
  | _ => false

/-- Outcome of a walk: a page with size, local base and permission; absent; malformed (R433, R435). -/
inductive Walk | page (size lbase : Nat) (w : Bool) | absent | malformed
  deriving DecidableEq, Repr

/-- A page entry's checks (R433). -/
def pageEntry (e : Word) (level : Nat) (cxl : Bool) : Walk :=
  let code := (e.extractLsb' 8 4).toNat
  let size := pageSize code
  let lbase := (e.extractLsb' 12 40).toNat * 2 ^ 12
  let f := max (2 ^ 12) (size / 2 ^ targetBits cxl)
  if leafOk level code && decide (lbase % f = 0) && (cxl || decide (lbase + f ≤ 2 ^ 32)) then
    .page size lbase (e.getLsbD 3)
  else .malformed

/-- Walk from a table at a window offset, at level l (R432). -/
def walkFrom (s : State) (part va : Nat) (cxl : Bool) : Nat → Nat → Walk
  | l, tbl =>
    let off := tbl + 8 * (va / 2 ^ (12 + 9 * l) % 512)
    let e := tableWord s part off
    if e.extractLsb' 52 12 ≠ 0#12 ∨ e.extractLsb' 4 4 ≠ 0#4 then .malformed
    else match (e.extractLsb' 0 3).toNat with
      | 0 => .absent
      | 1 => match l with
        | 0 => .malformed
        | k + 1 => walkFrom s part va cxl k ((e.extractLsb' 12 40).toNat * 2 ^ 12)
      | 2 => pageEntry e l cxl
      | _ => .malformed

/-- Walk of (ASID, VA) from the directory (R430, R432). -/
def walk (s : State) (part asid va : Nat) (cxl : Bool) : Walk :=
  let e := tableWord s part (8 * asid)
  if e.extractLsb' 52 12 ≠ 0#12 ∨ e.extractLsb' 4 4 ≠ 0#4 then .malformed
  else match (e.extractLsb' 0 3).toNat with
    | 0 => .absent
    | 1 => walkFrom s part va cxl 4 ((e.extractLsb' 12 40).toNat * 2 ^ 12)
    | _ => .malformed

/-- Entry i of a port's extent table, where it is valid (R460). -/
def extentEntry (s : State) (part port i : Nat) : Option Extent :=
  let o := ((partOf s part).cxlCfg.extractLsb' 32 16).toNat * 65536 + 2048 * port + 32 * i
  let fl := tableWord s part (o + 24)
  if fl.getLsbD 0 then
    some { base := (tableWord s part o).toNat, len := (tableWord s part (o + 8)).toNat, dev := (tableWord s part (o + 16)).toNat
           shared := fl.getLsbD 1, persist := fl.getLsbD 2 }
  else none

/-- Whether an extent covers a local address. -/
def Extent.covers (x : Extent) (loc : Nat) : Bool := decide (x.base ≤ loc) && decide (loc < x.base + x.len)

/-- The extent of a port that covers a local address; none where no valid entry or several cover it (R460). -/
def extentOf (s : State) (part port loc : Nat) : Option Extent :=
  match ((List.range 64).filterMap (extentEntry s part port)).filter (·.covers loc) with
  | [x] => some x
  | _ => none

/-- Why an access to a line is not performed (R435). -/
inductive Deny | absent | poisoned | malformed | prot | conflict
  deriving DecidableEq, Repr

/-- Number of the target of an address: a channel group, or from 128 on a CXL port. -/
def targetOf (va : Nat) (cxl : Bool) : Nat := foldVa va (targetBits cxl) + (if cxl then 128 else 0)

/-- A line's local address under a cached translation. -/
def TlbEnt.loc (e : TlbEnt) (va : Nat) (cxl : Bool) : Nat := localAddr e.lbase e.size va (targetBits cxl)

/-- The translation of a line's address that its target has cached, with the extent behind it at a port (R432, R460). -/
def tlbHit (s : State) (asid va : Nat) (cxl : Bool) : Option TlbEnt :=
  s.tlb.find? fun e => e.target == targetOf va cxl && e.asid == asid && decide (e.base ≤ va) && decide (va < e.base + e.size) &&
    (!cxl || e.ext.any (·.covers (e.loc va cxl)))

/-- The translation of a line's address that its target uses: one it has cached, or a walk, which ends at a port by finding the
extent (R432, R460). -/
def targetEntry (s : State) (part asid va : Nat) (cxl : Bool) : Except Deny TlbEnt :=
  match tlbHit s asid va cxl with
  | some e => .ok e
  | none =>
    match walk s part asid va cxl with
    | .absent => .error .absent
    | .malformed => .error .malformed
    | .page size lbase w =>
      let e : TlbEnt := { target := targetOf va cxl, asid := asid, base := va / size * size, size := size, w := w, lbase := lbase }
      if cxl then
        match extentOf s part (foldVa va 1) (e.loc va cxl) with
        | some x => .ok { e with ext := some x }
        | none => .error .malformed
      else .ok e

/-- Cell of a line under a translation. -/
def TlbEnt.cell (e : TlbEnt) (va : Nat) (cxl : Bool) : Nat :=
  match e.ext with
  | some x => cxlCell (foldVa va 1) (x.dev + (e.loc va cxl - x.base))
  | none => hbmCell (foldVa va 7) (e.loc va cxl)

/-- Translation at the channel (R428, R435, R438): the cell of the line's first byte and its permission; the target
caches what it walked and records a writable name. -/
def translate (s : State) (part asid va : Nat) (cxl : Bool) : Except Deny (State × Nat × Bool) :=
  let v := va / 128 * 128
  match targetEntry s part asid v cxl with
  | .error d => .error d
  | .ok e =>
    let unit := va / 4096
    let lunit := e.loc v cxl / 4096
    let known := s.aliases.filter fun a => a.target == e.target && a.lunit == lunit
    if e.w && known.any fun a => a.asid != asid || a.unit != unit then .error .conflict
    else
      let s := if e.w && known.isEmpty then
        { s with aliases := { target := e.target, lunit := lunit, asid := asid, unit := unit } :: s.aliases } else s
      let s := if s.tlb.contains e then s else { s with tlb := e :: s.tlb }
      .ok (s, e.cell v cxl, e.w)

/-- The extent behind a line of the capacity tier (R460). -/
def lineExtent (s : State) (part key : Nat) (cxl : Bool) : Option Extent :=
  match if cxl then targetEntry s part (lineTag key) (lineVa key) true else .error .absent with
  | .ok e => e.ext
  | .error _ => none

/-- The cell that a line's home uses: tables by their fixed mapping, other lines by translation. -/
def lineCell (s : State) (part key : Nat) (cxl : Bool) : Except Deny (State × Nat × Bool) :=
  if 256 ≤ lineTag key then .ok (s, tableCell part (partOf s part) (lineVa key - tableBase), true)
  else translate s part (lineTag key) (lineVa key) cxl

end Sys2Proof.Machine
end

