-- ==== Sys2Proof/Machine/Cache.lean ====
section
/-! DEFINITION. Lines at their homes: channels, directory, narrow copies, the comparison of each write, and messages
(R99 to R102, R122 to R148, R160 to R162, R447 to R453). -/

namespace Sys2Proof.Machine

/-- An address space as its lines are named: partition, tag (an ASID, or the table window's), homing map. -/
structure Space where
  part : Nat
  tag : Nat
  homing : List HomeDesc
  deriving DecidableEq, Repr

/-- Where an agent accesses memory from: its space, column, core, cache (sharer code, R135), name, region, block, and
whether it is at monitor level. -/
structure Env where
  sp : Space
  col : Nat
  core : Option Nat
  cache : Nat
  who : Who
  region : Option Nat
  block : Option Nat
  monitor : Bool
  deriving DecidableEq, Repr

/-- Key of the line of an address in a space. -/
def Space.key (sp : Space) (va : Nat) : Nat := lineKey sp.tag va

/-- Key of a copy. -/
def copyKey (line sharer : Nat) : Nat := 1024 * line + sharer

/-- Key of a column-private dirty line. -/
def privKey (line col : Nat) : Nat := 32 * line + col

/-! ### Channels (R447 to R453) -/

/-- Channel group of a cell. -/
def cellGroup (cell : Nat) : Nat := cell / 2 ^ 32

/-- Pseudo-channel of a local address (R447). -/
def pcOf (loc : Nat) : Nat := loc / 128 % 32

/-- Key of the pseudo-channel of a cell. -/
def chanKey (cell : Nat) : Nat := 32 * cellGroup cell + pcOf (cell % 2 ^ 32)

/-- Whether a cell lies in the stacks. -/
def inStack (cell : Nat) : Bool := decide (cell < 2 ^ 39)

/-- An idle pseudo-channel. -/
def Chan.idle : Chan := { tags := [], waiting := [], b0 := [], b1 := [] }

/-- A pseudo-channel. -/
def chanAt (s : State) (k : Nat) : Chan := (ffind s.chans k).getD .idle

/-- Lowest free tag (R450). -/
def freeTag (c : Chan) : Option Nat := (List.range 8).find? fun t => (ffind c.tags t).isNone

/-- A request reaches the port of a pseudo-channel (R450). -/
def sendChan (s : State) (k : Nat) (r : ChanReq) : State :=
  let c := chanAt s k
  match if c.waiting.isEmpty then freeTag c else none with
  | some t => { s with chans := fset s.chans k { c with tags := fset c.tags t { r with order := s.chanOrder } }
                       chanOrder := s.chanOrder + 1 }
  | none => { s with chans := fset s.chans k { c with waiting := c.waiting ++ [r] } }

/-- Step a counter of a channel group (R457). -/
def bumpChan (s : State) (g : Nat) (f : ChanStat → ChanStat) : State :=
  { s with chanStat := fset s.chanStat g (f ((ffind s.chanStat g).getD { demoted := 0, corrected := 0, uncorr := 0, hot := false })) }

/-- Saturating 16-bit count (R457). -/
def satInc16 (n : Nat) : Nat := if n + 1 < 2 ^ 16 then n + 1 else 2 ^ 16 - 1

/-- Bytes reach a line's cell: they count towards the end of its poison (R445, R448). -/
def writeCell (s : State) (cell : Nat) (d : LineData) (m : BitVec 128) : State :=
  { s with
    mem := Memory.writeLine s.mem cell d m
    memPoison := match ffind s.memPoison cell with
      | none => s.memPoison
      | some w => if w ||| m = BitVec.allOnes 128 then fdel s.memPoison cell else fset s.memPoison cell (w ||| m) }

/-- A line's cell is poisoned (R445, R448). -/
def poisonCell (s : State) (cell : Nat) : State := { s with memPoison := fset s.memPoison cell 0#128 }

/-- Effect of a request at the controller on a line's cell, and its response; a malformed one has none (R448, R449, R453). -/
def performReq (s : State) (cell : Nat) (r : ChanReq) (flaw : EccFlaw) : State × Nat × LineData :=
  if flaw = .malformed then (s, 3, 0#1024)
  else if r.op = 1 then
    let s := if flaw = .uncorrectable then poisonCell s cell else s
    (s, (if (ffind s.memPoison cell).isSome then 2 else if flaw = .corrected then 1 else 0), Memory.readLine s.mem cell)
  else
    let s := writeCell s cell r.data (if r.op = 2 then BitVec.allOnes 128 else r.mask)
    if r.op ≠ 2 ∧ flaw = .uncorrectable then (poisonCell s cell, 2, 0#1024) else (s, 0, 0#1024)

/-- Insert a request before the first one received later. -/
def insertReq (l : List (Nat × ChanReq)) (x : Nat × ChanReq) : List (Nat × ChanReq) :=
  match l with
  | [] => [x]
  | y :: t => if x.2.order < y.2.order then x :: y :: t else y :: insertReq t x

/-- Requests of a channel in the order in which the controller received them. -/
def byOrder (l : List (Nat × ChanReq)) : List (Nat × ChanReq) := l.foldl insertReq []

/-- A tag is free again: the request that waits longest leaves with the lowest free tag (R450). -/
def releaseTag (s : State) (k tag : Nat) : State :=
  let c := chanAt s k
  let c := { c with tags := fdel c.tags tag }
  match c.waiting, freeTag c with
  | r :: rest, some t =>
    { s with chans := fset s.chans k { c with tags := fset c.tags t { r with order := s.chanOrder }, waiting := rest }
             chanOrder := s.chanOrder + 1 }
  | _, _ => { s with chans := fset s.chans k c }

/-- A message leaves. -/
def send (s : State) (k : MsgKind) : State :=
  { s with net := s.net ++ [{ id := s.nextId, kind := k }], nextId := s.nextId + 1 }

/-- A request is performed, if it has not been, and answered; the data of a read for a prefetch is on its way to the home. -/
def finishReq (s : State) (k tag : Nat) : State :=
  match ffind (chanAt s k).tags tag with
  | none => s
  | some r =>
    let s := if r.performed.isSome then s else (performReq s (2 ^ 32 * (k / 32) + r.addr) r .none).1
    let s := releaseTag s k tag
    match r.fillFor with
    | none => s
    | some (sharer, who) => send s (.rdata r.line sharer who)

/-- While a test holds of a channel, its request that is picked is finished; the rest of the channel moves up. -/
def finishWhile (k : Nat) (busy : Chan → Bool) (pick : Chan → Option Nat) : Nat → State → State
  | 0, s => s
  | n + 1, s =>
    let c := chanAt s k
    if busy c then
      match pick c with
      | some t => finishWhile k busy pick n (finishReq s k t)
      | none => s
    else s

/-- The request of a channel that its controller received first, among those that pass a test. -/
def oldestTag (c : Chan) (f : ChanReq → Bool) : Option Nat := ((byOrder (c.tags.filter fun x => f x.2)).head?).map Prod.fst

/-- Bound of the requests that a channel holds. -/
def Chan.size (c : Chan) : Nat := c.tags.length + c.waiting.length

/-- Every earlier request of a line has been answered: a read sent now finds what they wrote, and a write finds no other one
outstanding (R451, R452). -/
def settleCell (s : State) (cell : Nat) : State :=
  if inStack cell then
    let mine (r : ChanReq) : Bool := r.addr == cell % 2 ^ 32
    finishWhile (chanKey cell) (fun c => c.tags.any (fun x => mine x.2) || c.waiting.any mine)
      (fun c => (oldestTag c mine) <|> oldestTag c fun _ => true) (chanAt s (chanKey cell)).size s
  else s

/-- A read of a line that the home lacks takes a tag of its channel, behind whatever waits there, and its response is back in the
same step (R450). -/
def claimTag (s : State) (cell : Nat) : State :=
  if inStack cell then
    finishWhile (chanKey cell) (fun c => !c.waiting.isEmpty || (freeTag c).isNone) (fun c => oldestTag c fun _ => true)
      (chanAt s (chanKey cell)).size s
  else s

/-- A write-back of a line's dirty bytes: to its channel, once an earlier one of the line has been acknowledged, the whole line or,
where bytes were pushed in part, those bytes (R452, R453); or a write at its CXL device (R458). -/
def sendWriteBack (s : State) (cell line : Nat) (h : HomeLine) : State :=
  if h.dirty = 0#128 then s
  else if inStack cell then
    let masked := h.part && h.dirty != BitVec.allOnes 128
    sendChan (settleCell s cell) (chanKey cell)
      { op := if masked then 3 else 2, addr := cell % 2 ^ 32, data := h.data, mask := if masked then h.dirty else BitVec.allOnes 128
        line := line, fillFor := none, performed := none, order := 0 }
  else writeCell s cell h.data h.dirty

/-! ### Homes -/

/-- Whether a byte of a line at a port has been withdrawn by its device (R462). -/
def withdrawnCell (s : State) (cell : Nat) : Bool :=
  let dev := cell % 2 ^ 64
  !inStack cell && (((ffind s.cxl (cell / 2 ^ 64 - 1)).map (·.withdrawn)).getD []).any fun p =>
    decide (p.1 < dev + 128) && decide (dev < p.1 + p.2)

/-- A home without a line, as a fill of it starts: its column, its backing. -/
def HomeLine.empty (col : Nat) (cxl : Bool) : HomeLine :=
  { data := 0#1024, col := col, cxl := cxl, dirty := 0#128, w := false, poison := none, src := 0#8, coarse := false, cols := 0#32, ents := []
    excl := none, away := true }

/-- What the home of a line knows of it: what it holds, or its column and backing alone (R101). -/
def homeState (s : State) (sp : Space) (key : Nat) : HomeLine :=
  (ffind s.home key).getD
    (let x := homeOf (partOf s sp.part) (if 256 ≤ lineTag key then [] else sp.homing) (lineVa key)
     .empty x.1 x.2)

/-- Space of a line for operations that name the line alone: the homing of a region that uses the ASID, one that lives before one
that has ended; it decides nothing of a line whose home is named. -/
def spaceOfLine (s : State) (line : Nat) : Space :=
  let tag := lineTag line
  if 256 ≤ tag then { part := tag - 256, tag := tag, homing := [] }
  else
    { part := ((s.parts.find? fun p => decide (p.2.asidLo ≤ tag) && decide (tag < p.2.asidLo + p.2.asidCount)).map Prod.fst).getD 0
      tag := tag
      homing := (((s.regions.find? fun r => r.2.asid == tag && !r.2.finished) <|> s.regions.find? fun r => r.2.asid == tag).map
        fun r => r.2.homing).getD [] }

/-! ### Stores that are not durable (R173) -/

/-- The cell of a CXL device that backs a line. -/
def deviceCell (s : State) (line : Nat) : Option Nat :=
  let sp := spaceOfLine s line
  match if (homeState s sp line).cxl then lineCell s sp.part line true else .error .absent with
  | .ok (_, c, _) => if inStack c then none else some c
  | .error _ => none

/-- A port keeps a store that its persistent device has yet to make durable, with what its cell held before the first of them. -/
def CxlPort.note (p : CxlPort) (old : LineData) (x : LooseStore) : CxlPort :=
  if p.persistent then
    { p with bases := if p.bases.any fun b => b.1 == x.cell then p.bases else (x.cell, old) :: p.bases, stores := p.stores ++ [x] }
  else p

/-- A store to a line takes place: one to persistent capacity is not durable (R173). -/
def noteStore (s : State) (line : Nat) (d : LineData) (m : BitVec 128) (by_ : Who) (pl : StorePlace) : State :=
  if m != 0#128 && s.cxl.any fun p => p.2.persistent then
    match deviceCell s line with
    | none => s
    | some c =>
      let x : LooseStore :=
        { cell := c, line := line, data := d, mask := m, by_ := by_, place := pl, placed := false, durable := false }
      { s with cxl := fmod s.cxl (c / 2 ^ 64 - 1) fun p => p.note (Memory.readLine s.mem c) x }
  else s

/-- The stores to a line at one place reach another; those that reach the home are the last ones of their location so far. -/
def CxlPort.move (p : CxlPort) (line : Nat) (from_ to_ : StorePlace) : CxlPort :=
  let mine (x : LooseStore) : Bool := x.line == line && x.place == from_
  { p with stores := p.stores.filter (fun x => !mine x) ++ (p.stores.filter mine).map fun x => { x with place := to_ } }

/-- Stores to a line move from one place to another (R161, R173). -/
def moveStores (s : State) (line : Nat) (from_ to_ : StorePlace) : State :=
  { s with cxl := s.cxl.map fun p => (p.1, p.2.move line from_ to_) }

/-- A write reaches a line's home: a store of its own, or the stores that a place has held till now. -/
def storeHome (s : State) (line : Nat) (d : LineData) (m : BitVec 128) (by_ : Who) : Option StorePlace → State
  | none => noteStore s line d m by_ .home
  | some pl => moveStores s line pl .home

/-- A line's home is named while bytes of it are on their way there. -/
def nameHome (s : State) (sp : Space) (key : Nat) : State :=
  if (ffind s.home key).isSome then s else { s with home := fset s.home key (homeState s sp key) }

/-- Half of a launch-record snapshot, a read-only page (R25, R286). -/
def snapLine (s : State) (o : Nat) : Option LineData :=
  (ffind s.regions (o / 256)).map fun r => BitVec.ofNat 1024 (r.record.toNat / 2 ^ (8 * (o % 256 / 128 * 128)))

/-- The line at its home, fetched from its backing memory when the home lacks it (R101, R428, R435, R450). -/
def installHome (s : State) (sp : Space) (key : Nat) : Except Deny (State × HomeLine) :=
  let h := homeState s sp key
  let put (s : State) (d : LineData) (w : Bool) (poison : Option (BitVec 128)) : State × HomeLine :=
    let h := { h with data := d, w := w, poison := poison, away := false }
    ({ s with home := fset s.home key h }, h)
  if (ffind s.home key).isSome && !h.away then .ok (s, h)
  else match addrKind (lineVa key) with
    | .snap o =>
      match snapLine s o with
      | some d => .ok (put s d false none)
      | none => .error .absent
    | _ =>
      match lineCell s sp.part key h.cxl with
      | .error d => .error d
      | .ok (s, cell, w) =>
        let s := claimTag (settleCell s cell) cell
        .ok (put s (Memory.readLine s.mem cell) w (if withdrawnCell s cell then some 0#128 else ffind s.memPoison cell))

/-- Replace a line's home state. -/
def setHome (s : State) (key : Nat) (h : HomeLine) : State := { s with home := fset s.home key h }

/-- Write a home's dirty bytes back to its backing memory, which then alone holds the line (R286, R441, R452); the poison of the
line goes along (R445). -/
def writeBack (s : State) (part key : Nat) : State :=
  match ffind s.home key with
  | none => s
  | some h =>
    match lineCell s part key h.cxl with
    | .error _ => s
    | .ok (s, cell, _) =>
      let s := setHome (sendWriteBack s cell key h) key { h with dirty := 0#128, part := false, away := h.away || h.dirty != 0#128 }
      match h.poison with
      | some w => let s := settleCell s cell; { s with memPoison := fset s.memPoison cell w }
      | none => s

/-! ### Formats of copies (R127 to R133) -/

/-- Parameters of a floating format code (R73). -/
def descCode (c : BitVec 8) : Option FpDesc := (Fmt.ofBits c).bind descFmt

/-- Width in bits of a format code. -/
def codeWidth (c : BitVec 8) : Nat := ((Fmt.ofBits c).map Fmt.width).getD 32

/-- Pairs of R128. -/
def subPairOk (src fmt : BitVec 8) : Bool :=
  (src == 1#8 && (fmt == 1#8 || fmt == 2#8 || fmt == 3#8 || (codeWidth fmt == 8 && (descCode fmt).isSome))) ||
  ((src == 2#8 || src == 3#8) && (fmt == src || (codeWidth fmt == 8 && (descCode fmt).isSome)))

/-- A value times a power of two. -/
def FV.scale (k : Int) : FV → FV
  | .fin n m e => .fin n m (e + k)
  | v => v

/-- Element i of a line in elements of w bits. -/
def elemAt (d : LineData) (w i : Nat) : Nat := d.toNat / 2 ^ (w * i) % 2 ^ w

/-- A line from its elements, element 0 first. -/
def packElems (w : Nat) (l : List Nat) : LineData := BitVec.ofNat 1024 (l.foldr (fun x acc => x % 2 ^ w + 2 ^ w * acc) 0)

/-- narrow(e, x) of R132. -/
def narrowElem (src fmt scale : BitVec 8) (sat : Bool) (x : Nat) : Nat :=
  match descCode src, descCode fmt with
  | some a, some b => (fpConvert b .rne (!sat) ((fvOf a x).scale (127 - (scale.toNat : Int)))).1
  | _, _ => x

/-- widen(e, n) of R133. -/
def widenElem (src fmt scale : BitVec 8) (n : Nat) : Nat :=
  match descCode src, descCode fmt with
  | some a, some b => (fpConvert a .rne true ((fvOf b n).scale ((scale.toNat : Int) - 127))).1
  | _, _ => n

/-- A line in a subscriber's format (R132). -/
def narrowLine (src fmt scale : BitVec 8) (sat : Bool) (d : LineData) : LineData :=
  let w := codeWidth src
  packElems (codeWidth fmt) ((List.range (1024 / w)).map fun i => narrowElem src fmt scale sat (elemAt d w i))

/-- What a copy's holder reads of it (R133). -/
def Copy.view (c : Copy) : LineData :=
  if c.fmt = 0#8 then c.data
  else
    let w := codeWidth c.src
    packElems w ((List.range (1024 / w)).map fun i => widenElem c.src c.fmt c.scale (elemAt c.data (codeWidth c.fmt) i))

/-- Whether m × 2^e is at most f × 2^k. -/
def fitsScaled (f : Nat × Int) (m : Nat) (e k : Int) : Bool :=
  let g := f.2 + k
  if g ≤ e then decide (m * 2 ^ (e - g).toNat ≤ f.1) else decide (m ≤ f.1 * 2 ^ (g - e).toNat)

/-- Larger of two magnitudes. -/
def maxMagnitude (a b : Nat × Int) : Nat × Int :=
  if fvLt (.fin false a.1 a.2) (.fin false b.1 b.2) then b else a

/-- The scale at which a list of magnitudes fits under the largest finite magnitude f (R131, R312). -/
def scaleFor (f : Nat × Int) (mags : List (Nat × Int)) : BitVec 8 :=
  let m := mags.foldl maxMagnitude (0, 0)
  if m.1 = 0 then 127#8
  else
    let k : Int := (Nat.log2 m.1 : Int) + m.2 - ((Nat.log2 f.1 : Int) + f.2)
    let k := if fitsScaled f m.1 m.2 (k - 1) then k - 1 else if fitsScaled f m.1 m.2 k then k else k + 1
    BitVec.ofNat 8 (if k + 127 < 0 then 0 else if 254 < k + 127 then 254 else (k + 127).toNat)

/-- Magnitudes of the finite values of a list. -/
def finiteMags (l : List FV) : List (Nat × Int) :=
  l.filterMap fun v => match v with
    | .fin _ m e => some (m, e)
    | _ => none

/-- The subscription scale of a line (R131). -/
def subScale (src fmt : BitVec 8) (d : LineData) : BitVec 8 :=
  match descCode src, descCode fmt with
  | some a, some b =>
    if codeWidth fmt ≠ 8 then 127#8
    else
      let w := codeWidth src
      scaleFor (magValue b b.maxMag) (finiteMags ((List.range (1024 / w)).map fun i => fvOf a (elemAt d w i)))
  | _, _ => 127#8

/-- Out of range for a format (R139). -/
def outOfRange (d : FpDesc) : FV → Bool
  | .nan _ => false
  | .inf neg => (neg && !d.signed) || d.inf.isNone
  | .fin neg m e =>
    let r := (roundMag d .rne neg m e).1
    r != 0 && ((neg && !d.signed) || decide (r > d.maxMag))

/-! ### Sharers -/

/-- Column of a sharer code (R135). -/
def sharerCol (s : State) (c : Nat) : Nat := if c < 256 then ((ffind s.cores c).map (·.col)).getD 0 else c % 256

/-- Whether a sharer code names a column slice (R135). -/
def isSlice (sharer : Nat) : Bool := decide (512 ≤ sharer) && decide (sharer < 768)

/-- Every cache of a column: its L1s, fused L1, slice and host core (R136). -/
def colCaches (s : State) (col : Nat) : List Nat :=
  ((ffind s.cols col).map (·.cores)).getD [] ++ [256 + col, 512 + col, 768 + col]

/-- L1s and host-core caches of a column (R145). -/
def colL1s (s : State) (col : Nat) : List Nat :=
  ((ffind s.cols col).map (·.cores)).getD [] ++ [256 + col, 768 + col]

/-- Apply a function to the thread of whoever awaits an acknowledgement. -/
def modWho (s : State) (w : Who) (f : Thread → Thread) : State :=
  match w with
  | .host c t =>
    { s with hosts := fmod s.hosts (2 * c + (if t then 1 else 0)) fun h => { h with th := f h.th } }
  | .grp g => { s with groups := fmod s.groups g fun p => { p with th := f p.th } }
  | _ => s

/-- Whether an agent is a given one. -/
def Who.isAgent (w : Who) (host : Bool) (k : Nat) : Bool :=
  match w with
  | .host c t => host && k == 2 * c + (if t then 1 else 0)
  | .grp g => !host && k == g
  | _ => false

/-- Apply a function to every thread. -/
def modThreads (s : State) (f : Bool → Nat → Thread → Thread) : State :=
  { s with hosts := s.hosts.map fun p => (p.1, { p.2 with th := f true p.1 p.2.th })
           groups := s.groups.map fun p => (p.1, { p.2 with th := f false p.1 p.2.th }) }

/-- Trigger the monitors on a line (R116). -/
def Thread.trigger (th : Thread) (line : Nat) : Thread :=
  { th with monitor := th.monitor.map fun m => if m.line = line then { m with fired := true } else m }

/-- Trigger the monitors on a line whose agents use a cache (R116). -/
def triggerIn (s : State) (line cache : Nat) : State :=
  { s with
    hosts := s.hosts.map fun p => if 768 + p.1 / 2 = cache then (p.1, { p.2 with th := p.2.th.trigger line }) else p
    groups := s.groups.map fun p =>
      if p.2.core = cache ∨ 256 + ((ffind s.cores p.2.core).map (·.col)).getD 0 = cache then
        (p.1, { p.2 with th := p.2.th.trigger line }) else p }

/-- A cache loses its copy of a line (R116, R137). -/
def dropCopy (s : State) (line sharer : Nat) : State :=
  match ffind s.copies (copyKey line sharer) with
  | none => s
  | some _ => triggerIn { s with copies := fdel s.copies (copyKey line sharer) } line sharer

/-- Drop a list of caches' copies of a line. -/
def dropCopies (s : State) (line : Nat) (l : List Nat) : State := l.foldl (fun s c => dropCopy s line c) s

/-- Remove a sharer's entry of a line. -/
def HomeLine.free (h : HomeLine) (sharer : Nat) : HomeLine :=
  let ents := h.ents.filter fun e => e.sharer != sharer
  { h with ents := ents
           src := if h.coarse || ents.any (fun e => e.fmt != 0#8) then h.src else 0#8
           excl := if h.excl == some sharer then none else h.excl }

/-- Record a holder (R135, R136): the ninth makes the line coarse. -/
def HomeLine.record (s : State) (h : HomeLine) (e : DirEnt) (src : BitVec 8) : HomeLine :=
  let h := h.free e.sharer
  let bit (c : Nat) : BitVec 32 := maskRange 32 (sharerCol s c) 1
  let src := if e.fmt = 0#8 then h.src else src
  if h.coarse then { h with cols := h.cols ||| bit e.sharer, src := src }
  else if h.ents.length < 8 then { h with ents := h.ents ++ [e], src := src }
  else { h with coarse := true, ents := [], src := src
                cols := h.ents.foldl (fun m x => m ||| bit x.sharer) (h.cols ||| bit e.sharer) }

/-- The entry of an ordinary fill (R135). -/
def fullEntry (sharer : Nat) : DirEnt := { sharer := sharer, update := false, sat := false, fmt := 0#8, scale := 127#8 }

/-! ### Writes at a home (R136 to R140) -/

/-- Elements of width w that contain a byte of a mask. -/
def touchedElems (w : Nat) (m : BitVec 128) : List Nat :=
  (List.range (1024 / w)).filter fun i => m &&& maskRange 128 (w / 8 * i) (w / 8) != 0#128

/-- What a write does to an entry: nothing, an update, or an invalidation. -/
inductive Disturb | none | update | invalidate
  deriving DecidableEq, Repr

/-- The comparison of R138 for one entry. -/
def disturb (e : DirEnt) (src : BitVec 8) (old new : LineData) (m : BitVec 128) : Disturb :=
  if e.fmt = 0#8 then (if mergeLine old new m = old then .none else if e.update then .update else .invalidate)
  else
    let w := codeWidth src
    let el := touchedElems w m
    let oor := match descCode src, descCode e.fmt with
      | some a, some b => el.any fun i => outOfRange b ((fvOf a (elemAt new w i)).scale (127 - (e.scale.toNat : Int)))
      | _, _ => false
    let changed := el.any fun i =>
      narrowElem src e.fmt e.scale e.sat (elemAt old w i) != narrowElem src e.fmt e.scale e.sat (elemAt new w i)
    if oor || (changed && !e.update) then .invalidate else if changed then .update else .none

/-- Acknowledge a write: to whoever waits, as an acknowledgement or as an atomic's response; a line of a commit counts towards
the commit's response. -/
def sendAck (s : State) (who : Who) (resp : Bool) : State :=
  match who with
  | .nobody => s
  | .join j =>
    match ffind s.pendw j with
    | none => s
    | some p =>
      if 1 < p.left then { s with pendw := fset s.pendw j { p with left := p.left - 1 } }
      else send { s with pendw := fdel s.pendw j } (if p.resp then .resp p.who else .ack p.who)
  | w => send s (if resp then .resp w else .ack w)

/-- Take a message out of flight. -/
def takeMsg (s : State) (id : Nat) : State := { s with net := s.net.filter fun m => m.id != id }

/-! ### Acknowledgements (R137, R169, R324) -/

/-- One more store or push to be acknowledged to a thread (R169), or write to an engine operation (R324). -/
def addUnack (s : State) (w : Who) : State :=
  match w with
  | .eng k => { s with irecs := fmod s.irecs k fun r => { r with unack := r.unack + 1 } }
  | _ => modWho s w fun th => { th with unack := th.unack + 1 }

/-- An acknowledgement reaches the agent that counts it. -/
def countAck (s : State) (w : Who) : State :=
  match w with
  | .eng k => { s with irecs := fmod s.irecs k fun r => { r with unack := r.unack - 1 } }
  | _ => modWho s w fun th => { th with unack := th.unack - 1 }

/-- An acknowledgement reaches whoever counts it (R169, R324); that of a push ends the push too, and for a group that has moved
on it is left to its forwarding stub (R350). -/
def ackTo (s : State) (w : Who) : State :=
  match w with
  | .push id =>
    match ffind s.pushes id with
    | none => s
    | some p =>
      match p.who with
      | .stub _ _ => send { s with pushes := fset s.pushes id { p with acked := true } } (.ack (.push id))
      | who => countAck { s with pushes := fdel s.pushes id } who
  | _ => countAck s w

/-- Whether a push has been acknowledged to its column. -/
def pushDone (s : State) (id : Nat) : Bool := (ffind s.pushes id).all (·.acked)

/-- One acknowledgement of an invalidation or update reaches the home (R136, R137). -/
def ackPend (s : State) (pend : Nat) : State :=
  match ffind s.pendw pend with
  | none => s
  | some p =>
    if 1 < p.left then { s with pendw := fset s.pendw pend { p with left := p.left - 1 } }
    else
      let s := { s with pendw := fdel s.pendw pend }
      let s := match p.coarse with
        | none => s
        | some key => { s with home := fmod s.home key fun h => { h with coarse := false, cols := 0#32, ents := [], src := 0#8 } }
      sendAck s p.who p.resp

/-! ### Messages from a home to a cache (R137) -/

/-- Sharer and line of a message from a home to a cache. -/
def MsgKind.dest : MsgKind → Option (Nat × Nat)
  | .fill c l _ _ => some (c, l)
  | .inval c l _ => some (c, l)
  | .update c l _ _ => some (c, l)
  | _ => none

/-- Whether a message is the first in flight of its home, cache and line (R137). -/
def isFirst (s : State) (m : Msg) : Bool :=
  match m.kind.dest with
  | none => true
  | some d => ((s.net.find? fun x => x.kind.dest == some d).map (·.id)) == some m.id

/-- Bytes held column-private dirty by a column's slice. -/
def privAt (s : State) (line col : Nat) : Option Priv := ffind s.priv (privKey line col)

/-- A cache applies a fill (R137); one of a line that its column's slice holds column-private dirty is not kept (R145). -/
def applyFill (s : State) (sharer line : Nat) (c : Copy) (who : Who) : State :=
  let keep := isSlice sharer || (privAt s line (sharerCol s sharer)).isNone
  modWho (if keep then { s with copies := fset s.copies (copyKey line sharer) c } else s) who fun th =>
    { th with prefetches := th.prefetches - 1 }

/-- A cache that holds no dirty bytes of its own applies an invalidation and acknowledges it (R137). -/
def applyInval (s : State) (sharer line pend : Nat) : State := ackPend (dropCopy s line sharer) pend

/-- A cache that holds no dirty bytes of its own applies an update of its copy and acknowledges it (R137). -/
def applyUpdate (s : State) (sharer line : Nat) (d : LineData) (pend : Nat) : State :=
  let s := { s with copies := fmod s.copies (copyKey line sharer) fun c => { c with data := d } }
  ackPend (triggerIn s line sharer) pend

/-- Deliver a message from a home to a cache other than a slice that holds the line dirty. -/
def deliverClean (s : State) (m : Msg) : State :=
  match m.kind with
  | .fill c l cp who => applyFill (takeMsg s m.id) c l cp who
  | .inval c l p => applyInval (takeMsg s m.id) c l p
  | .update c l d p => applyUpdate (takeMsg s m.id) c l d p
  | _ => s

/-- Deliver, in order, the messages in flight about a line to an L1 or a host core's caches. -/
def settleL1 (s : State) (line sharer : Nat) : State :=
  (s.net.filter fun m => m.kind.dest == some (sharer, line)).foldl deliverClean s

/-! ### Monitors and watches (R116, R121) -/

/-- Who a write wakes: no monitor, those outside a column, or every one (R116). -/
inductive Wake | none | outside (col : Nat) | all
  deriving DecidableEq, Repr

/-- Column of an agent's caches. -/
def agentCol (s : State) (host : Bool) (k : Nat) : Nat :=
  if host then k / 2 else ((ffind s.groups k).bind fun g => (ffind s.cores g.core).map (·.col)).getD 0

/-- A write reaches a line's home: monitors trigger, and other agents' watches break (R116, R121). -/
def wakeLine (s : State) (line : Nat) (by_ : Who) (w : Wake) : State :=
  modThreads s fun host k th =>
    let wakes : Bool := match w with
      | .none => false
      | .outside c => agentCol s host k != c
      | .all => true
    let th := if wakes then th.trigger line else th
    if by_.isAgent host k then th
    else { th with watches := th.watches.map fun w => if w.line = line then { w with broken := true } else w }

/-! ### Scratchpads and the lines mapped onto them (R27, R105, R107, R108) -/

/-- Little-endian number of a list of bytes. -/
def natOfBytes (l : List Byte) : Nat := l.foldr (fun b acc => b.toNat + 256 * acc) 0

/-- A scratchpad byte. -/
def spmByte (b : Block) (o : Nat) : Byte := (ffind b.spm o).getD 0#8

/-- Key of a scratchpad line for monitors (R298). -/
def spmLine (blk o : Nat) : Nat := lineKey (512 + blk) (localBase + o)

/-- The global lines that a block's mappings give a scratchpad line (R107). -/
def mappedNames (s : State) (b o : Nat) : List Nat :=
  s.cores.flatMap fun c => c.2.maps.filterMap fun m =>
    if m.2.block = b ∧ m.2.off ≤ o ∧ o < m.2.off + m.2.len then some (lineKey m.2.asid (m.2.base + (o - m.2.off))) else none

/-- A scratchpad line has been written: the monitors on it, and those and the watches on the global lines mapped onto
it, see the write (R108, R116, R298). -/
def spmTouched (s : State) (b o : Nat) (by_ : Who) : State :=
  let s := modThreads s fun _ _ th => th.trigger (spmLine b o)
  (mappedNames s b (o / 128 * 128)).foldl (fun s k => wakeLine s k by_ .all) s

/-- Bytes written of a scratchpad line count towards the end of the poison of the lines mapped onto it (R445). -/
def healMapped (s : State) (b o : Nat) (m : BitVec 128) : State :=
  (mappedNames s b (o / 128 * 128)).foldl
    (fun s k => { s with home := fmod s.home k fun h =>
        { h with poison := h.poison.bind fun w => if w ||| m = BitVec.allOnes 128 then none else some (w ||| m) } }) s

/-- Bytes written of a scratchpad line are stores to the lines mapped onto it (R108, R173). -/
def noteMapped (s : State) (b o : Nat) (d : LineData) (m : BitVec 128) (by_ : Who) : State :=
  (mappedNames s b (o / 128 * 128)).foldl (fun s k => noteStore s k d m by_ .home) s

/-- An access wakes an array that is no storage of R67, which WINTER_WAKES does not count (R392, R485). -/
def wakeArray (s : State) (core : Nat) (p : PowerRegion) : State :=
  if (ffind s.cores core).any fun c => c.winter.contains (.array p) then
    modCore s core fun c => { c with winter := c.winter.filter (· != .array p) }
  else s

/-- An access to n bytes of a block's scratchpad wakes the units that they lie in (R485). -/
def wakeSpm (s : State) (b o n : Nat) : State :=
  match ffind s.blocks b with
  | none => s
  | some x => ((x.lines.drop (o / 128)).take ((o % 128 + n + 127) / 128)).foldl (fun s l => wakeArray s x.core (.spmUnits x.core (l / 512))) s

/-- The mapping that holds an address: core, entry, mapping. -/
def mappedAt (s : State) (asid va : Nat) : Option (Nat × Nat × MapEnt) :=
  s.cores.findSome? fun c =>
    (c.2.maps.find? fun m => m.2.asid == asid && decide (m.2.base ≤ va) && decide (va < m.2.base + m.2.len)).map
      fun m => (c.1, m.1, m.2)

/-- A mapped line as its scratchpad holds it. -/
def mappedLine (s : State) (m : MapEnt) (va : Nat) : LineData :=
  match ffind s.blocks m.block with
  | some b => BitVec.ofNat 1024 (natOfBytes ((List.range 128).map fun i => spmByte b (m.off + (va / 128 * 128 - m.base) + i)))
  | none => 0#1024

/-- Write the bytes of a scratchpad line that a mask names. -/
def spmLineWrite (s : State) (b o : Nat) (d : LineData) (k : BitVec 128) (by_ : Who) : State :=
  let s := modBlock (wakeSpm s b o 128) b fun x => { x with spm := (bitsSet k).foldl (fun mp i => fset mp (o + i) (byteAt d i)) x.spm }
  spmTouched (noteMapped (healMapped s b o k) b o d k by_) b o by_

/-- Whether a mapped line is poisoned at its home (R445). -/
def mappedPoison (s : State) (key : Nat) : Bool := (ffind s.home key).any fun h => h.poison.isSome

/-- Write the bytes of a mapped line that a mask names. -/
def mappedWrite (s : State) (m : MapEnt) (va : Nat) (d : LineData) (k : BitVec 128) (by_ : Who) : State :=
  spmLineWrite s m.block (m.off + (va / 128 * 128 - m.base)) d k by_

/-- The forwarded stores in flight of a mapped line reach its scratchpad, oldest first (R108). -/
def landForwards (s : State) (line : Nat) : State :=
  s.net.foldl (fun s m => match m.kind with
    | .spmWrite l d k who =>
      if l = line then
        match mappedAt s (lineTag line) (lineVa line) with
        | some (_, _, mp) => sendAck (mappedWrite (takeMsg s m.id) mp (lineVa line) d k who) who false
        | none => s
      else s
    | _ => s) s

/-- Whether the owner of a mapping is stopped, so that forwarded accesses wait (R109). -/
def mapStopped (s : State) (m : MapEnt) : Bool := ((ffind s.blocks m.block).map fun b => b.run == .stopped).getD false

/-! ### The order of messages (R137, R465, R467) -/

/-- Home column of a line. -/
def homeCol (s : State) (sp : Space) (key : Nat) : Nat :=
  match ffind s.home key with
  | some h => h.col
  | none => (homeOf (partOf s sp.part) (if 256 ≤ sp.tag then [] else sp.homing) (lineVa key)).1

/-- Home column of a line that is named alone. -/
def lineHome (s : State) (line : Nat) : Nat := homeCol s (spaceOfLine s line) line

/-- Kind, source column and destination column of a message whose order R467 fixes: a write on its way to a home, and what a home
sends to a cache, its data and its invalidations being of two classes. -/
def MsgKind.route (s : State) : MsgKind → Option (Nat × Nat × Nat)
  | .write l _ _ f _ _ => some (0, sharerCol s f, lineHome s l)
  | .fill c l _ _ | .update c l _ _ => some (1, lineHome s l, sharerCol s c)
  | .inval c l _ => some (2, lineHome s l, sharerCol s c)
  | _ => none

/-- Whether a write has reached its home and waits there: its line is mapped by a Stopped block (R109). -/
def waitsAtHome (s : State) : MsgKind → Bool
  | .write l _ _ _ _ _ => (mappedAt s (lineTag l) (lineVa l)).any fun x => mapStopped s x.2.2
  | _ => false

/-- Whether no message of the same class and the same stops that is still on its way was sent before a message (R467). -/
def inOrder (s : State) (m : Msg) : Bool :=
  match m.kind.route s with
  | none => true
  | some r => (s.net.takeWhile fun x => x.id != m.id).all fun x => x.kind.route s != some r || waitsAtHome s x.kind

/-! ### One write at its home (R138) -/

/-- Messages of the precise entries of a line for one write: entries left, messages in order. -/
def disturbAll (src : BitVec 8) (old new : LineData) (m : BitVec 128) (key pend : Nat) (writer : Option Nat) :
    List DirEnt → List DirEnt × List MsgKind
  | [] => ([], [])
  | e :: t =>
    let r := disturbAll src old new m key pend writer t
    if writer == some e.sharer && e.fmt == 0#8 then (e :: r.1, r.2)
    else match disturb e src old new m with
      | .none => (e :: r.1, r.2)
      | .update => (e :: r.1, .update e.sharer key (if e.fmt = 0#8 then new else narrowLine src e.fmt e.scale e.sat new) pend :: r.2)
      | .invalidate => (r.1, .inval e.sharer key pend :: r.2)

/-- Invalidations of a write to a coarse line: every copy in every marked column, those on their way included (R136). -/
def coarseInvals (s : State) (h : HomeLine) (key pend : Nat) : List MsgKind :=
  (bitsSet h.cols).flatMap fun c => (colCaches s c).filterMap fun x =>
    if (ffind s.copies (copyKey key x)).isSome || s.net.any fun m => m.kind.dest == some (x, key) then some (.inval x key pend) else none

/-- The writing cache's own full-precision copy takes the write, in the cache or still on its way to it (R138). -/
def mergeOwn (s : State) (key c : Nat) (d : LineData) (m : BitVec 128) : State :=
  let full := (ffind s.copies (copyKey key c)).all fun x => x.fmt == 0#8
  { s with
    copies := fmod s.copies (copyKey key c) fun x => if x.fmt = 0#8 then { x with data := mergeLine x.data d m } else x
    net := s.net.map fun x => match x.kind with
      | .fill c' l cp w => if c' = c ∧ l = key ∧ cp.fmt = 0#8 then { x with kind := .fill c' l { cp with data := mergeLine cp.data d m } w } else x
      | .update c' l u p => if c' = c ∧ l = key ∧ full then { x with kind := .update c' l (mergeLine u d m) p } else x
      | _ => x }

/-- Own caches of a writer that apply at once what its write makes the home send them, so that its accesses to the line keep
their order: the writing cache, or for a slice the L1s and host-core caches of its column. -/
def settleOwn (s : State) (line : Nat) : Option Nat → State
  | none => s
  | some c => if isSlice c then (colL1s s (c - 512)).foldl (fun s x => settleL1 s line x) s else settleL1 s line c

/-- One write of a line's coherence order at its home (R138): bytes of `d` where the mask is set, a store of its own or those that
another place has held.  An update by its own agent
wakes monitors (R116); a push or a write-back wakes those that the store did not. -/
def writeHome (s : State) (key : Nat) (h : HomeLine) (d : LineData) (m : BitVec 128) (writer : Option Nat) (by_ who : Who)
    (resp : Bool) (wake : Wake := .all) (from_ : Option StorePlace := none) : State :=
  let s := storeHome s key d m by_ from_
  let new := mergeLine h.data d m
  let pend := s.nextId
  let msgs : List DirEnt × List MsgKind :=
    if h.coarse then ([], coarseInvals s h key pend) else disturbAll h.src h.data new m key pend writer h.ents
  let poison := match h.poison with
    | none => none
    | some w => if w ||| m = BitVec.allOnes 128 then none else some (w ||| m)
  let coarse := h.coarse && !msgs.2.isEmpty
  let h' : HomeLine :=
    { h with data := new, dirty := h.dirty ||| m, part := h.part || ((writer.any isSlice) && m != BitVec.allOnes 128), away := false, poison := poison, ents := msgs.1, coarse := coarse
             cols := if coarse then h.cols else 0#32
             src := if coarse || msgs.1.any fun e => e.fmt != 0#8 then h.src else 0#8 }
  let s := setHome { s with nextId := s.nextId + 1 } key h'
  let s := match writer with
    | none => s
    | some c => mergeOwn s key c d m
  let s := wakeLine s key by_ wake
  let s := msgs.2.foldl send s
  let s :=
    if msgs.2.isEmpty then sendAck s who resp
    else
      let p : PendWrite := { left := msgs.2.length, who := who, resp := resp, coarse := if h.coarse then some key else none }
      { s with pendw := fset s.pendw pend p }
  settleOwn s key writer

/-- The exclusive holder of a line writes it back at another agent's request, as one write of the agents that stored into it
(R143); no monitor waits for it (R116). -/
def recallExcl (s : State) (key : Nat) (except_ : Option Nat) : State :=
  match ffind s.home key with
  | none => s
  | some h =>
    match h.excl with
    | none => s
    | some c =>
      if except_ == some c then s
      else match ffind s.copies (copyKey key c) with
        | none => setHome s key { h with excl := none }
        | some cp =>
          let s := { s with copies := fset s.copies (copyKey key c) { cp with excl := false, dirty := 0#128, by_ := .nobody } }
          if cp.dirty = 0#128 then setHome s key { h with excl := none }
          else writeHome s key { h with excl := none } cp.data cp.dirty (some c) cp.by_ .nobody false .none (some (.cache c))

/-! ### Commutative ranges (R97, R122, R123) -/

/-- Format of a range's elements. -/
def crDesc : CrTy → Option FpDesc
  | .f32 => some descF32
  | .bf16 => some descBf16
  | .i32 => none

/-- One step of a range's operation (R97, R122). -/
def crFold (t : CrTy) (op : Nat) (a b : Nat) : Nat :=
  match crDesc t with
  | some d => if op = 0 then (fpAdd d .rne a b).1 else (fpMinMax d (op == 2) a b).1
  | none =>
    if op = 0 then (a + b) % 2 ^ 32
    else
      let x := intOf .i32 a
      let y := intOf .i32 b
      wrapBits 32 (if op = 1 then (if y < x then y else x) else (if x < y then y else x))

/-- Identity of a range's operation (R122). -/
def crIdentity (t : CrTy) (op : Nat) : Nat :=
  match t, op with
  | _, 0 => 0
  | .f32, 1 => 0x7F800000
  | .f32, _ => 0xFF800000
  | .bf16, 1 => 0x7F80
  | .bf16, _ => 0xFF80
  | .i32, 1 => 0x7FFFFFFF
  | .i32, _ => 0x80000000

/-- Key of a partial: core and address. -/
def partialKey (core va : Nat) : Nat := core * 2 ^ 57 + va

/-- The commutative range of an ASID that holds an address. -/
def rangeAt (s : State) (asid va : Nat) : Option CRange :=
  s.ranges.find? fun c => c.asid == asid && decide (c.start ≤ va) && decide (va < c.start + c.len)

/-- Format code of a range (R292). -/
def crCode : CrTy → BitVec 8
  | .f32 => 1#8
  | .bf16 => 3#8
  | .i32 => 0x22#8

/-- Partials of a line of a range, in ascending core and address. -/
def linePartials (c : CRange) (va : Nat) : List (Nat × Word32) :=
  c.partials.filter fun p => p.1 % 2 ^ 57 / 128 == va / 128

/-- The line after folding a list of partials into it, and the mask of the bytes written. -/
def foldPartials (t : CrTy) (op : Nat) (d : LineData) : List (Nat × Word32) → LineData × BitVec 128
  | [] => (d, 0#128)
  | (k, v) :: rest =>
    let w := t.width
    let i := k % 128 / (w / 8)
    let x := crFold t op (elemAt d w i) (v.toNat % 2 ^ w)
    let r := foldPartials t op (setBits d (w * i) w x) rest
    (r.1, r.2 ||| maskRange 128 (w / 8 * i) (w / 8))

/-- Replace an active range. -/
def setRange (s : State) (c : CRange) : State :=
  { s with ranges := s.ranges.map fun x => if x.asid = c.asid ∧ x.start = c.start then c else x }

/-- Combine a line of a commutative range at its home (R123); with a core, only that core's partial. -/
def combineLine (s : State) (sp : Space) (key : Nat) (core : Option Nat) : State :=
  match rangeAt s sp.tag (lineVa key) with
  | none => s
  | some c =>
    let ps := (linePartials c (lineVa key)).filter fun p => core.all fun k => p.1 / 2 ^ 57 == k
    if ps.isEmpty then s
    else match installHome (recallExcl s key none) sp key with
      | .error _ => s
      | .ok (s, h) =>
        let f := foldPartials c.fmt c.op h.data ps
        let s := setRange s { c with partials := c.partials.filter fun p => !ps.contains p }
        writeHome s key h f.1 f.2 none .nobody .nobody false

/-- A line as an access performed at its home finds it: written back by its exclusive holder, combined (R123, R143,
R276). -/
def reachHome (s : State) (sp : Space) (key : Nat) (except_ : Option Nat) : Except Deny (State × HomeLine) :=
  match installHome s sp key with
  | .error d => .error d
  | .ok (s, _) => installHome (combineLine (recallExcl s key except_) sp key none) sp key

/-- A read performed at the home: a poisoned line is not read (R435, R445). -/
def readHome (s : State) (sp : Space) (key : Nat) : Except Deny (State × HomeLine) :=
  match reachHome s sp key none with
  | .error d => .error d
  | .ok (s, h) => if h.poison.isSome then .error .poisoned else .ok (s, h)

/-- A write performed at the home, or in the scratchpad that the line is mapped onto (R108); a line that can no longer be reached
drops it. -/
def performWrite (s : State) (sp : Space) (key : Nat) (d : LineData) (m : BitVec 128) (writer : Option Nat) (by_ who : Who)
    (resp : Bool) (wake : Wake := .all) (from_ : Option StorePlace := none) : State :=
  match mappedAt s (lineTag key) (lineVa key) with
  | some (_, _, mp) =>
    let t := mappedWrite (landForwards s key) mp (lineVa key) d m by_
    sendAck (match from_ with
      | none => t
      | some pl => { t with cxl := (moveStores (landForwards s key) key pl .home).cxl }) who resp
  | none =>
    match reachHome s sp key writer with
    | .error _ => sendAck s who resp
    | .ok (s, h) => writeHome s key h d m writer by_ who resp wake from_

/-! ### Column-private dirty lines (R160, R161) -/

/-- The agents of a column whose slice made a write have seen it already: a push wakes the others (R116). -/
def pushWake (from_ : Nat) : Wake := if isSlice from_ then .outside (from_ - 512) else .all

/-- A write message takes effect at its home, or in the scratchpad that the line is mapped onto (R108, R138). -/
def landWrite (s : State) (id line : Nat) (d : LineData) (m : BitVec 128) (from_ : Nat) (by_ who : Who) : State :=
  performWrite s (spaceOfLine s line) line d m (some from_) by_ who false (pushWake from_) (some (.msg id))

/-- Whether a message is a write of a line by a column. -/
def ownWrite (s : State) (line col : Nat) (m : Msg) : Bool :=
  match m.kind with
  | .write l _ _ f _ _ => l == line && sharerCol s f == col
  | _ => false

/-- The writes of a column in flight reach a line's home before what the column does next with the line, so that its
agents' accesses to one location keep their order; those that it sent to that home before them come first (R467). -/
def landOwn (s : State) (sp : Space) (line col : Nat) : State :=
  let l := (s.net.reverse.dropWhile fun m => !ownWrite s line col m).reverse
  let route := some (0, col, homeCol s { sp with tag := lineTag line } line)
  (l.filter fun m => m.kind.route s == route && !waitsAtHome s m.kind).foldl (fun s m => match m.kind with
    | .write l d k from_ by_ who => landWrite (takeMsg s m.id) m.id l d k from_ by_ who
    | _ => s) s

/-- Take a line out of a slice's column-private dirty lines. -/
def dropPriv (s : State) (line col : Nat) : State :=
  { s with priv := fdel s.priv (privKey line col)
           cols := fmod s.cols col fun c => { c with fifo := c.fifo.filter (· != line) } }

/-- A push of a line by a column begins, counted in an agent's UNACK: its number. -/
def beginPush (s : State) (sp : Space) (line col : Nat) (who : Who) : State × Nat :=
  let id := s.nextId
  (addUnack { s with pushes := fset s.pushes id { col := col, home := homeCol s sp line, who := who, acked := false }, nextId := id + 1 } who, id)

/-- The acknowledgement of a push made in this step is back at once, if it is already on its way. -/
def endPush (s : State) (id : Nat) : State :=
  match s.net.find? fun m => m.kind == .ack (.push id) with
  | some m => ackTo (takeMsg s m.id) (.push id)
  | none => s

/-- A push performed at the home in the same step (R161), counted in an agent's UNACK while it is not acknowledged. -/
def pushNow (s : State) (sp : Space) (line col : Nat) (who : Who) : State :=
  let s := landOwn s sp line col
  match privAt s line col with
  | none => s
  | some p =>
    let sp := { sp with tag := lineTag line }
    let b := beginPush (dropPriv s line col) sp line col who
    endPush (performWrite b.1 sp line p.data p.mask (some (512 + col)) p.by_ (.push b.2) false (.outside col)
      (some (.cache (512 + col)))) b.2

/-- A push as a message, counted in an agent's UNACK (R161, R162). -/
def pushMsg (s : State) (line col : Nat) (who : Who) : State :=
  match privAt s line col with
  | none => s
  | some p =>
    let b := beginPush (dropPriv s line col) (spaceOfLine s line) line col who
    send (moveStores b.1 line (.cache (512 + col)) (.msg b.1.nextId)) (.write line p.data p.mask (512 + col) p.by_ (.push b.2))

/-! ### Delivery of messages (R137) -/

/-- Whether a slice holds a line column-private dirty. -/
def sliceHolds (s : State) (c line : Nat) : Bool := isSlice c && (privAt s line (c - 512)).isSome

/-- A slice gives up its copy of a line, and pushes the bytes that it holds column-private dirty first (R161). -/
def pushOut (s : State) (c line : Nat) : State :=
  if sliceHolds s c line then pushNow s (spaceOfLine s line) line (c - 512) .nobody else s

/-- Deliver a message from a home to a cache; a slice that an invalidation or an update reaches pushes its own dirty bytes and then
discards the line (R161). -/
def deliverToCache (s : State) (m : Msg) : State :=
  match m.kind with
  | .inval c line _ => deliverClean (pushOut s c line) m
  | .update c line _ p =>
    if sliceHolds s c line then
      let t := pushOut s c line
      applyInval (if (ffind t.copies (copyKey line c)).isSome then send (takeMsg t m.id) (.notice c line) else takeMsg t m.id) c line p
    else deliverClean s m
  | _ => deliverClean s m

/-- The oldest message on the way of another one: itself, or one that R467 lets go first. -/
def routeHead (s : State) (m : Msg) : Msg := (s.net.find? fun x => x.kind.route s == m.kind.route s).getD m

/-- Deliver, in order, what is in flight from homes to caches and meets a condition, until nothing is left; each delivery to
a slice may send more. -/
def settleWhile (f : MsgKind → Bool) : Nat → State → State
  | 0, s => s
  | n + 1, s =>
    match s.net.find? fun m => f m.kind with
    | some m => settleWhile f n (deliverToCache s (routeHead s m))
    | none => s

/-- Bound of the deliveries that follow from what is in flight now: each push they make sends at most nine messages a
column. -/
def settleBound (s : State) : Nat := (s.net.length + 1) * 200 * (s.cols.length + 1)

/-- Deliver, in order, the messages in flight to a cache about a line: a fill that follows them is applied after
them (R137). -/
def settleCache (s : State) (sharer line : Nat) : State := settleWhile (fun m => m.dest == some (sharer, line)) (settleBound s) s

/-- Deliver every message in flight about a line. -/
def settleLine (s : State) (line : Nat) : State := settleWhile (fun m => (m.dest.map Prod.snd) == some line) (settleBound s) s

/-- Deliver every message in flight to a cache. -/
def settleAt (s : State) (sharer : Nat) : State := settleWhile (fun m => (m.dest.map Prod.fst) == some sharer) (settleBound s) s

/-- Deliver every message in flight about a line whose coarse state is being made precise, so that no copy is recorded
before its home is precise again (R136). -/
def settleCoarse (s : State) (line : Nat) : State :=
  if s.pendw.any fun p => p.2.coarse == some line then settleLine s line else s

/-! ### Fills, upgrades, evictions -/

/-- Set of a slice's 8,192 that a line lies in (R13). -/
def sliceSet (line : Nat) : Nat := Config.setIndex line % 8192

/-- A line at its home as a fill, a prefetch or a subscription for a cache is served: read there once every copy has followed the
writes before, so that no reader passes a value on to one that still holds an older one (R123, R136, R137, R143, R156, R167). -/
def serveHome (s : State) (sp : Space) (key : Nat) : Except Deny (State × HomeLine) :=
  match readHome (settleLine s key) sp key with
  | .error d => .error d
  | .ok (s, _) => installHome (settleLine s key) sp key

/-- A full-precision copy of a home line. -/
def HomeLine.fullCopy (h : HomeLine) : Copy :=
  { data := h.data, fmt := 0#8, src := 0#8, scale := 127#8, w := h.w, excl := false, dirty := 0#128, by_ := .nobody }

/-- Fill a cache with a line at full precision (R135, R276). -/
def fillFull (s : State) (sp : Space) (key sharer : Nat) : Except Deny (State × LineData) :=
  match serveHome s sp key with
  | .error d => .error d
  | .ok (s, h) =>
    let s := { s with copies := fset s.copies (copyKey key sharer) h.fullCopy }
    .ok (setHome s key (h.record s (fullEntry sharer) 0#8), h.data)

/-- Caches that hold a line. -/
def holdersOf (s : State) (key : Nat) : List Nat := (s.copies.filter fun p => p.1 / 1024 == key).map fun p => p.1 % 1024

/-- Slices that hold a copy of a line push what they hold of it column-private dirty before they give it up (R161). -/
def pushHolders (s : State) (key : Nat) (l : List Nat) : State := l.foldl (fun s c => pushOut s c key) s

/-- The monitors on a line of agents that do not use a cache are lost (R116). -/
def loseMonitors (s : State) (key sharer : Nat) : State :=
  modThreads s fun host k th =>
    let uses := if host then 768 + k / 2 == sharer else (ffind s.groups k).any fun g =>
      g.core == sharer || 256 + ((ffind s.cores g.core).map (·.col)).getD 0 == sharer
    if uses then th else th.trigger key

/-- The copies of every cache but one are invalidated without comparison, and that one becomes the exclusive holder
with the full line (R143); the slice of its own column counts as a holder of the bytes that it holds column-private dirty, which
are older than the store that asks for the upgrade (R161; DEDUCED, log 125).  No other cache holds the line now, so that monitors
of agents elsewhere are lost (R116). -/
def upgrade (s : State) (sp : Space) (key sharer : Nat) : State :=
  let s := settleLine s key
  let s := settleLine (pushHolders s key ((512 + sharerCol s sharer) :: holdersOf s key)) key
  match reachHome s sp key (some sharer) with
  | .error _ => s
  | .ok (s, _) =>
    match installHome (settleLine s key) sp key with
    | .error _ => s
    | .ok (s, h) =>
      let s := loseMonitors (dropCopies s key ((holdersOf s key).filter (· != sharer))) key sharer
      let s := { s with copies := fset s.copies (copyKey key sharer) { h.fullCopy with excl := true } }
      setHome s key { h with ents := [fullEntry sharer], coarse := false, cols := 0#32, src := 0#8, excl := some sharer }

/-- A cache gives up a copy: a dirty exclusive copy is written back, and the notice leaves (R137, R143). -/
def evictCopy (s : State) (sharer line : Nat) : State :=
  match ffind s.copies (copyKey line sharer) with
  | none => s
  | some c =>
    let s := if c.excl then recallExcl s line none else s
    send (dropCopy s line sharer) (.notice sharer line)

/-- Whether bytes of a line, or a read of it, are on their way to its home. -/
def lineAwaited (s : State) (line : Nat) : Bool :=
  (s.priv.any fun p => p.1 / 32 == line) || s.net.any fun m => match m.kind with
    | .write l _ _ _ _ _ | .rdata l _ _ => l == line
    | _ => false

/-- The home gives up a line's directory state: every copy is invalidated, every dirty byte written back
(R137, R452). -/
def evictHome (s : State) (line : Nat) : State :=
  let sp := spaceOfLine s line
  let s := settleLine (recallExcl s line none) line
  let s := settleLine (pushHolders s line (holdersOf s line)) line
  let s := writeBack (dropCopies s line (holdersOf s line)) sp.part line
  match ffind s.home line with
  | some h => { s with home := if lineAwaited s line then fset s.home line (.empty h.col h.cxl) else fdel s.home line }
  | none => s

/-- One prefetch fewer in flight for an agent (R301). -/
def endPrefetch (s : State) (who : Who) : State := modWho s who fun th => { th with prefetches := th.prefetches - 1 }

/-- The data of a read that serves a prefetch: the line is installed at its home, and a fill leaves for the cache; a line
that cannot be read is dropped (R285), and so is one that has been mapped onto a scratchpad since, which no cache holds (R147). -/
def servePrefetch (s : State) (line sharer : Nat) (who : Who) : State :=
  if (mappedAt s (lineTag line) (lineVa line)).isSome then endPrefetch s who
  else match serveHome s (spaceOfLine s line) line with
  | .error _ => endPrefetch s who
  | .ok (s, h) => send (setHome s line (h.record s (fullEntry sharer) 0#8)) (.fill sharer line h.fullCopy who)

end Sys2Proof.Machine
end

