-- ==== Sys2Proof/Machine/Records.lean ====
section
/-! DEFINITION. What the hardware itself reads and writes in memory: region control blocks, event queues, machine
checks, the black box (R124 to R126, R391, R436, R446, R497). -/

namespace Sys2Proof.Machine

/-- Lines that n bytes from an address lie in. -/
def lineCount (va n : Nat) : Nat := (va % 128 + n + 127) / 128

/-- The pieces of an n-byte value written at an address: line address, data, mask. -/
def lineParts (va n v : Nat) : List (Nat × LineData × BitVec 128) :=
  let x := v % 2 ^ (8 * n) * 2 ^ (8 * (va % 128))
  let m := (2 ^ n - 1) * 2 ^ (va % 128)
  (List.range (lineCount va n)).map fun k =>
    (va / 128 * 128 + 128 * k, BitVec.ofNat 1024 (x / 2 ^ (1024 * k)), BitVec.ofNat 128 (m / 2 ^ (128 * k)))

/-- Space of the hardware's own structures of a partition: its first ASID (DESIGN CHOICE, log 19), and no homing map, so
that lines interleave over the stacks (DESIGN CHOICE, log 132). -/
def hwSpace (s : State) (part : Nat) : Space := { part := part, tag := (partOf s part).asidLo, homing := [] }

/-- Space of a partition's table window (R429). -/
def tableSpace (part : Nat) : Space := { part := part, tag := tableTag part, homing := [] }

/-- Value of a line at its home, as an acquire of the hardware reads it. -/
def hwLine (s : State) (sp : Space) (va : Nat) : Option LineData :=
  match readHome s sp (sp.key va) with
  | .ok (_, h) => some h.data
  | .error _ => none

/-- Value of k whole lines from a line address, little-endian. -/
def hwLines (s : State) (sp : Space) (va : Nat) : Nat → Option Nat
  | 0 => some 0
  | k + 1 =>
    match hwLines s sp va k, hwLine s sp (va + 128 * k) with
    | some x, some d => some (x + d.toNat * 2 ^ (1024 * k))
    | _, _ => none

/-- Little-endian value of n bytes read by the hardware at their homes; none where a line cannot be read. -/
def hwNat (s : State) (sp : Space) (va n : Nat) : Option Nat :=
  (hwLines s sp (va / 128 * 128) (lineCount va n)).map fun x => x / 2 ^ (8 * (va % 128)) % 2 ^ (8 * n)

/-- Write n bytes at their homes as a release at `.pkg` (R160). -/
def hwWrite (s : State) (sp : Space) (va n v : Nat) (by_ : Who) : State :=
  (lineParts va n v).foldl
    (fun s p => performWrite s sp (sp.key p.1) p.2.1 p.2.2 none by_ .nobody false) s

/-- Write n bytes that a later write publishes: their own invalidations and updates are acknowledged before it (R125, R162). -/
def hwOrdered (s : State) (sp : Space) (va n v : Nat) : State :=
  (lineParts va n v).foldl (fun s p => settleLine s (sp.key p.1)) (hwWrite s sp va n v .nobody)

/-! ### Region control blocks (R391, R395) -/

/-- A field of an RCB. -/
def rcbField (s : State) (part rcb off n : Nat) : Nat := (hwNat s (hwSpace s part) (rcb + off) n).getD 0

/-- An RCB and its ancestors, up to 15 of them (R391). -/
def rcbChain (s : State) (part rcb : Nat) : Nat → List Nat
  | 0 => []
  | k + 1 => if rcb = 0 then [] else rcb :: rcbChain s part (rcbField s part rcb 0 8) k

/-- Effective value of an inherited field: the first non-zero one, or 0 for the default (R391). -/
def rcbEffective (s : State) (part rcb off n : Nat) : Nat :=
  (((rcbChain s part rcb 16).map fun r => rcbField s part r off n).find? (· != 0)).getD 0

/-- The node from which a pair of fields is inherited (R391). -/
def rcbSource (s : State) (part rcb off n : Nat) : Nat :=
  ((rcbChain s part rcb 16).find? fun r => rcbField s part r off n != 0).getD 0

/-- Effective ASID (R391, R439). -/
def rcbAsid (s : State) (part rcb : Nat) : Nat :=
  match rcbEffective s part rcb 0x2A 2 with
  | 0 => (partOf s part).asidLo
  | n + 1 => n

/-- The fault domain of a region (R395): the nearest node with FD set; a root always is one. -/
def faultDomain (s : State) (part rcb : Nat) : Nat :=
  let c := rcbChain s part rcb 16
  (c.find? fun r => rcbField s part r 0x1B 1 % 2 == 1 || rcbField s part r 0 8 == 0).getD (c.getLastD 0)

/-- Name of the homing map of a partition's control block (R100, R391). -/
def homingKey (part rcb : Nat) : Nat := part * 2 ^ 64 + rcb

/-- Homing map in force for an RCB (R100, R391): the nearest one that `hmt.set` has put in force. -/
def rcbHoming (s : State) (part rcb : Nat) : List HomeDesc :=
  ((rcbChain s part rcb 16).findSome? fun r => ffind s.homings (homingKey part r)).getD []

/-! ### Queues (R124 to R126) -/

/-- A queue header as read: PROD, CONS, BASE, SIZE_LOG2, FLAGS. -/
structure QueueHdr where
  prod : Nat
  cons : Nat
  base : Nat
  log2 : Nat
  flags : Nat
  deriving DecidableEq, Repr

/-- Read a queue header. -/
def readHdr (s : State) (sp : Space) (hdr : Nat) : Option QueueHdr :=
  (hwNat s sp hdr 26).map fun x =>
    { prod := x % 2 ^ 64, cons := x / 2 ^ 64 % 2 ^ 64, base := x / 2 ^ 128 % 2 ^ 64, log2 := x / 2 ^ 192 % 256
      flags := x / 2 ^ 200 % 256 }

/-- Whether a header is usable (R125). -/
def QueueHdr.ok (q : QueueHdr) (align : Nat) : Bool :=
  decide (4 ≤ q.log2) && decide (q.log2 ≤ 16) && decide (q.base % align = 0) && decide (q.flags / 2 = 0)

/-- Whether a queue is full (R125). -/
def QueueHdr.full (q : QueueHdr) : Bool := decide ((q.prod + 2 ^ 64 - q.cons) % 2 ^ 64 = 2 ^ q.log2)

/-- Append a 32-byte record to a queue, or drop it with OVF (R125): PROD follows as a release at `.pkg`.  A header whose line
cannot be read, for want of a translation or for poison, loses the record without OVF (DESIGN CHOICE, log 97); an array line that cannot be reached loses
the record's bytes, and PROD still advances (DESIGN CHOICE, log 131). -/
def queueAppend (s : State) (sp : Space) (hdr rcd : Nat) : State :=
  match readHdr s sp hdr with
  | none => s
  | some q =>
    if !q.ok 32 || q.full then hwWrite s sp (hdr + 0x19) 1 (q.flags / 2 * 2 + 1) .nobody
    else
      let s := hwOrdered s sp (q.base + 32 * (q.prod % 2 ^ q.log2)) 32 rcd
      hwWrite s sp hdr 8 (q.prod + 1) .nobody

/-- A record of R126. -/
def eventRecord (ty col time body : Nat) : Nat := ty + col * 2 ^ 16 + time * 2 ^ 64 + body * 2 ^ 128

/-- Append an event to a column's queue (R125, R404). -/
def appendEvent (s : State) (col ty body : Nat) : State :=
  match ffind s.cols col with
  | none => s
  | some c =>
    if c.evq = 0#64 then { s with cols := fset s.cols col { c with evqDropped := true } }
    else queueAppend s (hwSpace s c.part) c.evq.toNat (eventRecord ty col s.ns body)

/-! ### The black box and machine checks (R446, R497, R498) -/

/-- Append a black-box record of a column. -/
def blackBox (s : State) (col kind unit core : Nat) (d0 d1 : Word) : State :=
  { s with cols := fmod s.cols col fun c =>
      if c.frozen then c
      else
        let r : BoxRec := { time := s.ns, kind := kind, unit := unit, core := core, seq := c.boxCount % 2 ^ 32, data0 := d0, data1 := d1 }
        let l := c.box ++ [r]
        { c with box := l.drop (l.length - 256), boxCount := c.boxCount + 1 } }

/-- A record of a kind whose DATA the specification does not give: free values. -/
def blackBoxFree (s : State) (col kind core : Nat) : State :=
  blackBox { s with freeCtr := s.freeCtr + 2 } col kind (Config.noUnit % 256) core (Config.fresh s.freeCtr) (Config.fresh (s.freeCtr + 1))

/-- Freeze a column's black box (R498). -/
def freezeBox (s : State) (col : Nat) : State :=
  let s := blackBoxFree s col 11 0xFF
  { s with cols := fmod s.cols col fun c => { c with frozen := true } }

/-- What a machine-check record says (R446). -/
structure Mca where
  kind : Nat
  unit : Nat
  /-- Logical column of the unit; none for a unit outside any column. -/
  col : Option Nat
  /-- Quadrant of a unit outside any column, 4 × die + quadrant. -/
  quad : Nat
  /-- Physical core index, 0xFF for none. -/
  core : Nat
  index : Nat
  asid : Nat
  va : Nat
  info : Word
  deriving DecidableEq, Repr

/-- Offset of a machine-check record in the table window (R446). -/
def mcaOff (p : Partition) (seq : Nat) : Nat :=
  (p.twCfg.extractLsb' 16 16).toNat * 65536 + 64 * (seq % 2 ^ (p.twCfg.extractLsb' 8 8).toNat)

/-- Whether firmware has configured a partition's table window (R430). -/
def twReady (p : Partition) : Bool := decide (24 ≤ twLog2 p) && decide (twLog2 p ≤ 32)

/-- Lowest live logical column of a quadrant (R446). -/
def quadColumn (s : State) (quad : Nat) : Nat := ((s.cols.find? fun c => c.2.phys / 4 == quad).map Prod.fst).getD 0

/-- Column whose queue is told of a record. -/
def Mca.queue (s : State) (m : Mca) : Nat := m.col.getD (quadColumn s m.quad)

/-- A record's 64 bytes. -/
def mcaBytes (s : State) (m : Mca) (seq : Nat) : Nat :=
  let phys := (m.col.bind fun c => ffind s.cols c).map (·.phys)
  let pos (f : Nat → Nat) : Nat := (phys.map f).getD 0xFF
  let die := if m.col.isSome then pos (· / 16) else m.quad / 4
  let quad := if m.col.isSome then pos (· / 4 % 4) else m.quad % 4
  seq + s.ns * 2 ^ 64 + m.kind * 2 ^ 128 + m.unit * 2 ^ 136 + die * 2 ^ 144 + quad * 2 ^ 152
    + pos (· % 4) * 2 ^ 160 + m.core * 2 ^ 168 + m.index % 2 ^ 16 * 2 ^ 176 + m.asid * 2 ^ 192 + 2 ^ 208
    + m.va * 2 ^ 256 + m.info.toNat * 2 ^ 320

/-- Write a machine-check record, or merge it into a recent one with the same KIND, UNIT and INDEX that no later record has
overwritten; the record's address (R446). -/
def machineCheck (s : State) (part : Nat) (m : Mca) : State × Nat :=
  let p := partOf s part
  let put (s : State) (off n v : Nat) : State :=
    if twReady p then hwOrdered s (tableSpace part) (tableBase + off) n v else s
  let kept (seq : Nat) : Bool := decide (p.mcaSeq < seq + 2 ^ (p.twCfg.extractLsb' 8 8).toNat)
  match p.mcaRecent.find? fun r => r.1 == m.kind && r.2.1 == m.unit && r.2.2.1 == m.index && kept r.2.2.2.1 &&
      decide (s.ns ≤ r.2.2.2.2.1 + 1000000) with
  | some (_, _, _, seq, _, n) =>
    let n' := satInc16 n
    let s := { s with parts := fset s.parts part { p with
      mcaRecent := p.mcaRecent.map fun r => if r.2.2.2.1 = seq then (m.kind, m.unit, m.index, seq, s.ns, n') else r } }
    let s := put s (mcaOff p seq + 8) 8 s.ns
    (put s (mcaOff p seq + 0x1A) 2 n', tableBase + mcaOff p seq)
  | none =>
    let seq := p.mcaSeq + 1
    let s := { s with parts := fset s.parts part { p with
      mcaSeq := seq, mcaRecent := (m.kind, m.unit, m.index, seq, s.ns, 1) :: p.mcaRecent } }
    let s := put s (mcaOff p seq) 64 (mcaBytes s m seq)
    let s := blackBox s (m.queue s) 3 m.unit m.core (wordOf seq) 0#64
    (appendEvent s (m.queue s) 0x0005 (tableBase + mcaOff p seq), tableBase + mcaOff p seq)

/-- INDEX of a channel: 32 × (g mod 16) + pseudo-channel (R456). -/
def chanIndex (cell : Nat) : Nat := 32 * (cellGroup cell % 16) + pcOf (cell % 2 ^ 32)

/-- The machine check of a poisoned line (R435, R445): in the stacks, at its home slice, or beyond a CXL port. -/
def poisonCheck (s : State) (sp : Space) (va : Nat) : State × Nat :=
  let key := sp.key va
  let h := ffind s.home key
  let cxl := (h.map (·.cxl)).getD false
  let col := (h.map (·.col)).getD (homeOf (partOf s sp.part) sp.homing va).1
  let cell := match lineCell s sp.part key cxl with
    | .ok (_, c, _) => some c
    | .error _ => none
  let stack := !cxl && cell.any fun c => (ffind s.memPoison c).isSome
  machineCheck s sp.part
    { kind := if cxl || stack then 7 else 3, unit := if cxl then 10 else if stack then 9 else 2
      col := if cxl || stack then none else some col
      quad := if cxl then 4 * foldVa va 1 + 3 else cellGroup (cell.getD 0) / 16, core := 0xFF
      index := if cxl then foldVa va 1 else if stack then chanIndex (cell.getD 0) else Config.setIndex key
      asid := sp.tag % 2 ^ 16, va := va, info := Config.syndrome s.freeCtr }

end Sys2Proof.Machine
end

