-- ==== Sys2Proof/Machine/Agents.lean ====
section
/-! DEFINITION. Cause codes, how an issue ends, and agents: their threads, where they access memory from, and their names
(R149, R386, R390, R394, R436, R439). -/

namespace Sys2Proof.Machine

/-! ### Cause codes (R394) -/

abbrev cIllegalInstr : BitVec 8 := 0x01#8
abbrev cIllegalPair : BitVec 8 := 0x02#8
abbrev cIllegalOperand : BitVec 8 := 0x03#8
abbrev cBadMask : BitVec 8 := 0x04#8
abbrev cBadTarget : BitVec 8 := 0x05#8
abbrev cPrivInstr : BitVec 8 := 0x06#8
abbrev cIllegalCsr : BitVec 8 := 0x07#8
abbrev cPrivCsr : BitVec 8 := 0x08#8
abbrev cBadCount : BitVec 8 := 0x09#8
abbrev cUnallocWord : BitVec 8 := 0x10#8
abbrev cBadView : BitVec 8 := 0x11#8
abbrev cViewType : BitVec 8 := 0x12#8
abbrev cViewRange : BitVec 8 := 0x13#8
abbrev cQueueUnderflow : BitVec 8 := 0x14#8
abbrev cQueueOverflow : BitVec 8 := 0x15#8
abbrev cQueueParted : BitVec 8 := 0x16#8
abbrev cRegangMismatch : BitVec 8 := 0x17#8
abbrev cXlaneParted : BitVec 8 := 0x18#8
abbrev cPortMisuse : BitVec 8 := 0x19#8
abbrev cPortNotarget : BitVec 8 := 0x1A#8
abbrev cRegParity : BitVec 8 := 0x1B#8
abbrev cBadAddress : BitVec 8 := 0x20#8
abbrev cMisaligned : BitVec 8 := 0x21#8
abbrev cProtWrite : BitVec 8 := 0x22#8
abbrev cPageFault : BitVec 8 := 0x23#8
abbrev cAliasConflict : BitVec 8 := 0x24#8
abbrev cAtomicStale : BitVec 8 := 0x25#8
abbrev cCstList : BitVec 8 := 0x26#8
abbrev cSpmRange : BitVec 8 := 0x27#8
abbrev cSpmMapConflict : BitVec 8 := 0x28#8
abbrev cBarWrite : BitVec 8 := 0x29#8
abbrev cBarRange : BitVec 8 := 0x2A#8
abbrev cBarCount : BitVec 8 := 0x2B#8
abbrev cBarOverarrive : BitVec 8 := 0x2C#8
abbrev cSubFormat : BitVec 8 := 0x2D#8
abbrev cCrBad : BitVec 8 := 0x2E#8
abbrev cCrConflict : BitVec 8 := 0x2F#8
abbrev cCrMiss : BitVec 8 := 0x30#8
abbrev cBadTid : BitVec 8 := 0x38#8
abbrev cTidReadonly : BitVec 8 := 0x39#8
abbrev cMxFormat : BitVec 8 := 0x3A#8
abbrev cMxAlign : BitVec 8 := 0x3B#8
abbrev cMxNoplane : BitVec 8 := 0x3C#8
abbrev cMxAcc : BitVec 8 := 0x3D#8
abbrev cMxSpan : BitVec 8 := 0x3E#8
abbrev cEngDesc : BitVec 8 := 0x3F#8
abbrev cEngRange : BitVec 8 := 0x40#8
abbrev cMcastPart : BitVec 8 := 0x41#8
abbrev cDcollMismatch : BitVec 8 := 0x42#8
abbrev cEngFault : BitVec 8 := 0x43#8
abbrev cSegLeave : BitVec 8 := 0x48#8
abbrev cSegMiss : BitVec 8 := 0x49#8
abbrev cSegEntry : BitVec 8 := 0x4A#8
abbrev cDepartSafe : BitVec 8 := 0x4B#8
abbrev cDepartExt : BitVec 8 := 0x4C#8
abbrev cDepartBar : BitVec 8 := 0x4D#8
abbrev cDepartPort : BitVec 8 := 0x4E#8
abbrev cDepartEng : BitVec 8 := 0x4F#8
abbrev cParkFull : BitVec 8 := 0x50#8
abbrev cSvc : BitVec 8 := 0x58#8
abbrev cBrk : BitVec 8 := 0x59#8
abbrev cHostDone : BitVec 8 := 0x5A#8

/-- Routes of R394. -/
inductive Route | kernel | monitor | domain
  deriving DecidableEq, Repr

/-- The route of a cause (R394). -/
def routeOf (c : BitVec 8) : Route :=
  if c = cRegParity ∨ c = cAliasConflict ∨ c = cDepartSafe ∨ c = cBrk then .monitor
  else if c = cPageFault ∨ c = cParkFull ∨ (cMxFormat ≤ c ∧ c ≤ cMxSpan) then .domain
  else .kernel

/-! ### How an issue ends -/

/-- How the issue of a word ends when it does not complete: a trap or a park, with what the word keeps, or a stall. -/
inductive Exit
  | trap (t : TrapInfo) (kept : Option State)
  | park (p : Park) (kept : Option State)
  | stall (s : State)
  deriving DecidableEq, Repr

/-- A trap of a cause with a mask of lanes. -/
def TrapInfo.of (c : BitVec 8) (lanes : LaneMask) : TrapInfo := { cause := c, lanes := lanes, irec := 0xFFFF#16, elem := 0xFFFFFFFF#64, va := 0 }

/-- A scalar trap without effect. -/
def trapOf (c : BitVec 8) : Exit := .trap (.of c 0#32) none

/-- Raise a scalar trap unless a condition holds. -/
def need (b : Bool) (c : BitVec 8) : Except Exit Unit := if b then .ok () else .error (trapOf c)

/-! ### Agents -/

/-- Key of a host hardware thread. -/
def hostKey (c : Nat) (t : Bool) : Nat := 2 * c + (if t then 1 else 0)

/-- The thread of an agent; a gang's is its group's. -/
def threadOf (s : State) : AgentId → Option Thread
  | .host c t => (ffind s.hosts (hostKey c t)).map (·.th)
  | .group g => (ffind s.groups g).map (·.th)
  | .gang g _ => (ffind s.groups g).map (·.th)
  | .seq _ => none

/-- Apply a function to an agent's thread. -/
def modThread (s : State) (a : AgentId) (f : Thread → Thread) : State :=
  match a with
  | .host c t => { s with hosts := fmod s.hosts (hostKey c t) fun h => { h with th := f h.th } }
  | .group g => { s with groups := fmod s.groups g fun p => { p with th := f p.th } }
  | .gang g _ => { s with groups := fmod s.groups g fun p => { p with th := f p.th } }
  | .seq _ => s

/-- The current agent's thread. -/
def curThread (s : State) : Thread := (threadOf s s.cur).getD (.fresh 0#64 0#16)

/-- Apply a function to the current agent's thread. -/
def modCur (s : State) (f : Thread → Thread) : State := modThread s s.cur f

/-- The group an agent belongs to. -/
def groupOf : AgentId → Option Nat
  | .group g => some g
  | .gang g _ => some g
  | _ => none

/-- Whether a group in this place occupies a slot of its core (R347). -/
def Place.inSlot : Place → Bool
  | .parkedRecord _ _ => false
  | _ => true

/-- The current group. -/
def curGroup (s : State) : Option Group := (groupOf s.cur).bind fun g => ffind s.groups g

/-- Apply a function to a group. -/
def modGroup (s : State) (g : Nat) (f : Group → Group) : State := { s with groups := fmod s.groups g f }

/-- Apply a function to the current group. -/
def modCurGroup (s : State) (f : Group → Group) : State :=
  match groupOf s.cur with
  | some g => modGroup s g f
  | none => s

/-- Whether an agent is a host hardware thread. -/
def isHost : AgentId → Bool
  | .host _ _ => true
  | _ => false

/-- Column of a core. -/
def coreCol (s : State) (c : Nat) : Nat := ((ffind s.cores c).map (·.col)).getD 0

/-- Whether the L1s of a column are fused for a region (R106). -/
def fusedCol (s : State) (r col : Nat) : Bool :=
  match ffind s.regions r, ffind s.cols col with
  | some g, some c =>
    g.record.getLsbD 35 && c.cores.length == 2 &&
      s.blocks.all fun b => !(c.cores.contains b.2.core) || b.2.run == .retired || b.2.run == .stopped || b.2.region == r
  | _, _ => false

/-- The L1 that a block of a region uses on a core (R106, R135). -/
def l1Of (s : State) (r core : Nat) : Nat :=
  let col := coreCol s core
  if fusedCol s r col then 256 + col else core

/-- Whether monitor level is active (R386). -/
def Thread.atMonitor (th : Thread) : Bool := (th.frames.head?.map (·.monitor)).getD false

/-- Whether a handler is active (R386). -/
def Thread.inHandler (th : Thread) : Bool := !th.frames.isEmpty

/-- Space of a region's accesses. -/
def regionSpace (s : State) (r : Nat) : Space :=
  match ffind s.regions r with
  | some g => { part := g.part, tag := g.asid, homing := g.homing }
  | none => { part := 0, tag := 0, homing := [] }

/-- Where an agent accesses memory from (R149, R439). -/
def envOf (s : State) (a : AgentId) : Env :=
  match a with
  | .host c t =>
    let part := ((ffind s.cols c).map (·.part)).getD 0
    let rcb := ((ffind s.hosts (hostKey c t)).map (·.curRcb.toNat)).getD 0
    { sp := { part := part, tag := rcbAsid s part rcb, homing := rcbHoming s part rcb }
      col := c, core := none, cache := 768 + c, who := .host c t, region := none, block := none
      monitor := ((threadOf s a).map (·.atMonitor)).getD false }
  | .seq b =>
    let core := ((ffind s.blocks b).map (·.core)).getD 0
    let r := ((ffind s.blocks b).map (·.region)).getD 0
    { sp := regionSpace s r, col := coreCol s core, core := some core, cache := l1Of s r core, who := .seq b
      region := some r, block := some b, monitor := false }
  | .group g | .gang g _ =>
    let core := ((ffind s.groups g).map (·.core)).getD 0
    let r := ((ffind s.groups g).map (·.region)).getD 0
    { sp := regionSpace s r, col := coreCol s core, core := some core, cache := l1Of s r core, who := .grp g
      region := some r, block := (ffind s.groups g).map (·.block)
      monitor := ((threadOf s a).map (·.atMonitor)).getD false }

/-- RCB of an agent's current region (R390). -/
def rcbOf (s : State) (a : AgentId) : Nat :=
  match a with
  | .host c t => ((ffind s.hosts (hostKey c t)).map (·.curRcb.toNat)).getD 0
  | .seq b => ((((ffind s.blocks b).map (·.region)).bind fun r => ffind s.regions r).map (·.rcb.toNat)).getD 0
  | .group g | .gang g _ => ((((ffind s.groups g).map (·.region)).bind fun r => ffind s.regions r).map (·.rcb.toNat)).getD 0

/-- Number of the pending-fault slot of an agent: A and S of R436. -/
def pftSlot (s : State) : AgentId → Nat × Nat
  | .host c t => (64 + c, if t then 1 else 0)
  | .seq b => (((ffind s.blocks b).map (·.core)).getD 0, 64 + ((ffind s.blocks b).map (·.slot)).getD 0)
  | .group g | .gang g _ => (((ffind s.groups g).map (·.core)).getD 0, ((ffind s.groups g).map (·.slot)).getD 0)

end Sys2Proof.Machine
end

