-- ==== Sys2Proof/Machine/Access.lean ====
section
/-! DEFINITION. Memory accesses of agents: scratchpad, loads, the store buffer and its drain, release steps, and
operations performed at the home (R105 to R108, R143, R145, R160 to R163, R275, R276, R283, R405, R434, R472). -/

namespace Sys2Proof.Machine

/-- Why an access does not complete: a denial at an address of an ASID tag, a trap, or a wait. -/
inductive Miss
  | deny (d : Deny) (tag va : Nat)
  | trap (c : BitVec 8)
  | wait (s : State)
  deriving DecidableEq, Repr

/-- The end of a scalar access of a kind that did not complete (R435). -/
def Miss.exit (kind : Nat) (lanes : LaneMask) : Miss → Exit
  | .trap c => .trap (.of c lanes) none
  | .wait s => .stall s
  | .deny .absent tag va => .park { state := 1, asid := tag, lanes := lanes, va := wordOf va, kind := kind, woken := false } none
  | .deny .poisoned tag va => .park { state := 2, asid := tag, lanes := lanes, va := wordOf va, kind := kind, woken := false } none
  | .deny .prot _ _ => .trap (.of cProtWrite lanes) none
  | .deny .conflict _ _ => .trap (.of cAliasConflict lanes) none
  | .deny .malformed _ va => .trap { (TrapInfo.of cPageFault lanes) with va := va } none

/-- A denial of a space's line as a miss. -/
def denied {α : Type} (sp : Space) (va : Nat) (r : Except Deny α) : Except Miss α :=
  match r with
  | .ok x => .ok x
  | .error d => .error (.deny d sp.tag va)

/-- A miss of an access at an address: the faulting address is the first byte of the access in the denied line, and of a
malformed entry the access's own (R433, R436). -/
def Miss.seenFrom (va : Nat) : Miss → Miss
  | .deny .malformed tag _ => .deny .malformed tag va
  | .deny d tag v => .deny d tag (max va v)
  | m => m

/-- The result of an access at an address. -/
def accessAt {α : Type} (va : Nat) (r : Except Miss α) : Except Miss α :=
  match r with
  | .ok x => .ok x
  | .error m => .error (m.seenFrom va)

/-- A scalar access as part of a word's body. -/
def lift {α : Type} (kind : Nat) (r : Except Miss α) : Except Exit α :=
  match r with
  | .ok x => .ok x
  | .error m => .error (m.exit kind 0#32)

/-! ### Scratchpad and barrier words (R27, R105, R110) -/

/-- An accumulator element by 256 × row + column (R60). -/
def accWord (b : Block) (i : Nat) : Word32 := (ffind b.acc i).getD 0#32

/-- A byte of the local window: scratchpad, then barrier words (R105). -/
def localByte (b : Block) (o : Nat) : Byte :=
  if o < b.spmBytes then spmByte b o else byteAt (sget b.bars ((o - b.spmBytes) / 8)) ((o - b.spmBytes) % 8)

/-- Value of n bytes of the local window. -/
def localNat (b : Block) (o n : Nat) : Nat := natOfBytes ((List.range n).map fun i => localByte b (o + i))

/-- Set n scratchpad bytes of a block. -/
def Block.putBytes (b : Block) (o v : Nat) : Nat → Block
  | 0 => b
  | n + 1 =>
    let b := b.putBytes o v n
    { b with spm := fset b.spm (o + n) (BitVec.ofNat 8 (v / 2 ^ (8 * n))) }

/-- Write n bytes of a block's scratchpad. -/
def spmWrite (s : State) (b o n v : Nat) (by_ : Who) : State :=
  let s := modBlock (wakeSpm s b o n) b fun x => x.putBytes o v n
  (lineParts o n v).foldl (fun s p => spmTouched (noteMapped (healMapped s b p.1 p.2.2) b p.1 p.2.1 p.2.2 by_) b p.1 by_) s

/-- A local-window access of n bytes at an offset: the block, or SPM_RANGE (R105). -/
def localBlock (s : State) (e : Env) (o n : Nat) : Except Miss (Nat × Block) :=
  match e.block with
  | none => .error (.trap cSpmRange)
  | some b =>
    match ffind s.blocks b with
    | none => .error (.trap cSpmRange)
    | some blk => if o + n ≤ blk.spmBytes + 8 * blk.barCount then .ok (b, blk) else .error (.trap cSpmRange)

/-! ### Launch window and snapshots (R25, R405, R407) -/

/-- Column and queue of an offset of the launch window. -/
def launchSlot (off : Nat) : Nat × Nat := (off / 0x400, off % 0x400 / 0x80)

/-- The column of a launch-window line, which must be of the agent's partition (R405). -/
def launchCol (s : State) (e : Env) (off : Nat) : Except Miss Column :=
  match ffind s.cols (launchSlot off).1 with
  | some c => if c.part = e.sp.part then .ok c else .error (.trap cBadAddress)
  | none => .error (.trap cBadAddress)

/-- The launch-signal line of a queue as a load reads it (R407). -/
def launchLine (q : LaunchQueue) (headWait : Bool) : Nat :=
  q.post.toNat + q.accepted.toNat * 2 ^ 64 + q.refused.toNat * 2 ^ 128 + q.lastReason * 2 ^ 192
    + min q.fifo.length 16 * 2 ^ 200 + (if headWait then 2 ^ 208 else 0)

/-- Whether a queue's head launch is accepted but not wholly placed (R407). -/
def headWaits (s : State) (q : LaunchQueue) : Bool :=
  q.regions.any fun r => (ffind s.regions r).any fun g => decide (g.placed < bitsOf g.record 351 320)

/-- Bytes of the launch window from an offset on, each of a line that exists (R405). -/
def launchNat (s : State) (e : Env) (off : Nat) : Nat → Except Miss Nat
  | 0 => .ok 0
  | n + 1 =>
    match launchNat s e off n, launchCol s e (off + n) with
    | .ok x, .ok c =>
      let q := (ffind c.queues (launchSlot (off + n)).2).getD .reset
      .ok (x + launchLine q (headWaits s q) / 2 ^ (8 * ((off + n) % 128)) % 2 ^ 8 * 2 ^ (8 * n))
    | .error m, _ => .error m
    | _, .error m => .error m

/-! ### Domain addresses (R471, R472) -/

/-- Space of a partition's domain region; none where DOM_RCB is 0 or there is no such partition (R472). -/
def domainSpace (s : State) (k : Nat) : Option Space :=
  match ffind s.parts k with
  | none => none
  | some p =>
    if p.domRcb = 0#64 then none
    else some { part := k, tag := rcbAsid s k p.domRcb.toNat, homing := rcbHoming s k p.domRcb.toNat }

/-- Offset of the packet address in partition 0 of a package (R474). -/
def packetOffset : Nat := 0x7FFFFFFF000

/-- Whether n bytes at an offset of a partition's domain region reach the packet address, where a launch packet alone may be
written (R474; DEDUCED, log 122). -/
def meetsPacket (k off n : Nat) : Bool := k == 0 && decide (off < packetOffset + 272) && decide (packetOffset < off + n)

/-- Space of n bytes at an offset of a partition's domain region; none where an access to them is refused (R472, R474). -/
def domainAt (s : State) (k off n : Nat) : Option Space := if meetsPacket k off n then none else domainSpace s k

/-- An agent's request to another package with this address, if it has one. -/
def remoteOf (s : State) (who : Who) (va : Nat) (write : Bool) : Option (Nat × RemoteReq) :=
  s.remote.find? fun r => r.2.who == who && r.2.va == va && r.2.write == write

/-- The port of the n-th attempt to reach a package (R470, R473). -/
def remotePort (s : State) (pkg attempt : Nat) : Nat :=
  let live := (List.range 18).filter fun i => !s.pkg.fusedLinks.contains (4 + i)
  live.getD ((pkg + attempt) % live.length) 0

/-- Context number of an agent (R174): host threads, then groups, sequencers and the launch engines, an engine operation under its
issuer's (DESIGN CHOICE, log 108). -/
def contextOf (s : State) (w : Who) : Nat :=
  let own : Who → Nat
    | .host c t => 2 * c + if t then 1 else 0
    | .grp g => 64 + 2 * g
    | .seq b => 65 + 2 * b
    | _ => 2 ^ 47
  match w with
  | .eng k => (ffind s.irecs k).elim (2 ^ 47) fun r => own r.who
  | w => own w

/-- Source of the tags of an agent of a package: domain number and context number (R174). -/
def tagSource (domain context : Nat) : Nat := domain * 2 ^ 48 + context

/-- The tag of a new request of an agent (R174): its source and sequence. -/
def newTag (s : State) (w : Who) : State × Nat × Nat :=
  let k := tagSource s.pkg.domain (contextOf s w)
  let q := (ffind s.tagSeq k).getD 0
  ({ s with tagSeq := fset s.tagSeq k ((q + 1) % 2 ^ 16) }, k, q)

/-- How far a sequence lies behind the newest, both counted modulo m (R174). -/
def seqBehind (m newest seq : Nat) : Nat := (newest + m - seq) % m

/-- The newest sequence of a list, counted modulo m: of two, the one that the other lies behind by less than half (R174). -/
def newestSeq (m : Nat) : List Nat → Option Nat
  | [] => none
  | q :: t =>
    match newestSeq m t with
    | none => some q
    | some n => some (if seqBehind m n q < m / 2 then n else q)

/-- Entries of a source that a home's replay cache holds. -/
def replaysOf (s : State) (home source : Nat) : List Replay := s.replays.filter fun r => r.home == home && r.source == source

/-- A home caches the result of a tagged request: its window is the 256 sequences up to the newest seen of each source (R174). -/
def keepReplay (s : State) (home source seq m newest : Nat) (v : Word) : State :=
  let own := (replaysOf s home source).filter fun r => decide (seqBehind m newest r.seq ≤ 255)
  { s with replays := { home := home, source := source, seq := seq, result := v } :: own ++
      s.replays.filter fun r => !(r.home == home && r.source == source) }

/-- A request of an agent of the package performed at a home carries a tag, and its result is cached there (R174). -/
def tagged (s : State) (home : Nat) (w : Who) (v : Nat) : State :=
  let t := newTag s w
  keepReplay t.1 home t.2.1 t.2.2 (2 ^ 16) t.2.2 (wordOf v)

/-- Send a request to another package (R472, R473): a write or an atomic carries a tag. -/
def sendRemote (s : State) (who : Who) (col va : Nat) (write atomic : Bool) (v : Word) (n : Nat) : State :=
  let id := s.nextId
  let t := if write || atomic then newTag s who else (s, 0, 0)
  let r : RemoteReq :=
    { va := va, write := write, atomic := atomic, data := v, bytes := n, attempts := 1, port := remotePort s (va / 2 ^ 46 % 2 ^ 10) 0
      tag := t.2.2, who := who, col := col, answer := none }
  send { t.1 with remote := fset s.remote id r, nextId := id + 1 } (.remote id)

/-- The value of a request to another package, or the wait for it, or PAGE_FAULT where it is refused (R472). -/
def remoteValue (s : State) (who : Who) (col va n : Nat) (atomic : Bool) : Except Miss (State × Nat) :=
  match remoteOf s who va false with
  | some (id, r) =>
    match r.answer with
    | none => .error (.wait s)
    | some .refused => .error (.deny .malformed 0 va)
    | some .stale => .error (.trap cAtomicStale)
    | some (.value x) => .ok ({ s with remote := fdel s.remote id }, x % 2 ^ (8 * n))
  | none =>
    let th := (threadOf s s.cur).getD (.fresh 0#64 0#16)
    if atomic then
      .error (.wait (if th.atomics < Config.atomicsMax then
        sendRemote (modWho s who fun th => { th with atomics := th.atomics + 1 }) who col va false true 0#64 n else s))
    else
      .error (.wait (if th.loads < Config.loadsMax then
        sendRemote (modWho s who fun th => { th with loads := th.loads + 1 }) who col va false false 0#64 n else s))

/-! ### Loads (R276, R278) -/

/-- What is in flight to an agent's own caches about a line reaches them: its L1 and its column's slice. -/
def settleMine (s : State) (e : Env) (key : Nat) : State := settleCache (settleCache s e.cache key) (512 + e.col) key

/-- A full-precision load of a line of a commutative range reaches the home, where the partials are combined (R123,
R168), and what earlier combines sent to the agent's caches comes before it. -/
def combineFirst (s : State) (e : Env) (sp : Space) (key : Nat) : State :=
  match rangeAt s sp.tag (lineVa key) with
  | none => s
  | some c =>
    let narrow := (ffind s.copies (copyKey key e.cache)).any fun x => x.fmt != 0#8
    settleMine (if narrow || (linePartials c (lineVa key)).isEmpty then s else combineLine s sp key none) e key

/-- A line as its scratchpad holds it, for an agent of a given block (R108, R109, R445). -/
def forwardedLine (s : State) (e : Env) (sp : Space) (key : Nat) (m : MapEnt) : Except Miss (State × LineData) :=
  if mapStopped s m && e.block != some m.block then .error (.wait s)
  else
    let s := landForwards s key
    if mappedPoison s key then .error (.deny .poisoned sp.tag (lineVa key))
    else .ok (wakeSpm s m.block (m.off + (lineVa key / 128 * 128 - m.base)) 128, mappedLine s m (lineVa key))

/-- A line as a column slice gives it: its copy or the home's value, under the bytes it holds column-private dirty (R145,
R160). -/
def sliceLine (s : State) (e : Env) (sp : Space) (key : Nat) : Except Miss (State × LineData) :=
  let s := settleCache s (512 + e.col) key
  let base : Except Miss (State × LineData) :=
    match ffind s.copies (copyKey key (512 + e.col)) with
    | some c => .ok (s, c.view)
    | none => (denied sp (lineVa key) (readHome s sp key)).map fun r => (r.1, r.2.data)
  match privAt s key e.col with
  | some p => base.map fun r => (r.1, mergeLine r.2 p.data p.mask)
  | none => base

/-- A line as an agent's caches give it, its own store buffer apart (R133, R145, R276): its L1 unless the slice holds the line
column-private dirty, then the slice, then a fill from the home; what is in flight to the caches comes before what they
fetch or give beyond the L1, so that an agent's reads of a line follow its coherence order (R156). -/
def viewLine (s : State) (e : Env) (sp : Space) (key : Nat) : Except Miss (State × LineData) :=
  let va := lineVa key
  let s := combineFirst (landOwn s sp key e.col) e sp key
  match mappedAt s sp.tag va with
  | some (_, _, m) => forwardedLine s e sp key m
  | none =>
    if (privAt s key e.col).isSome then sliceLine s e sp key
    else match ffind s.copies (copyKey key e.cache) with
      | some c => .ok (s, c.view)
      | none =>
        let s := settleMine s e key
        match ffind s.copies (copyKey key e.cache) with
        | some c => .ok (s, c.view)
        | none =>
          if (ffind s.copies (copyKey key (512 + e.col))).isSome then sliceLine s e sp key
          else denied sp va (fillFull s sp key e.cache)

/-- k lines from a line address as an agent's caches give them. -/
def viewLines (s : State) (e : Env) (sp : Space) (va : Nat) : Nat → Except Miss (State × Nat)
  | 0 => .ok (s, 0)
  | k + 1 =>
    match viewLines s e sp va k with
    | .error m => .error m
    | .ok (s, x) => (viewLine s e sp (sp.key (va + 128 * k))).map fun r => (r.1, x + r.2.toNat * 2 ^ (1024 * k))

/-- A byte with the store buffer's bytes over it, the youngest last (R160). -/
def overlayByte (sb : List SbEntry) (tag a : Nat) (b : Byte) : Byte :=
  sb.foldl (fun b x => if x.asid = tag ∧ x.va = a / 8 * 8 ∧ x.mask.getLsbD (a % 8) then byteAt x.data (a % 8) else b) b

/-- n bytes with the store buffer's over them. -/
def overlayNat (sb : List SbEntry) (tag va n x : Nat) : Nat :=
  natOfBytes ((List.range n).map fun i => overlayByte sb tag (va + i) (BitVec.ofNat 8 (x / 2 ^ (8 * i))))

/-- Whether the store buffer holds a byte. -/
def buffered (sb : List SbEntry) (tag a : Nat) : Bool :=
  sb.any fun x => x.asid == tag && x.va == a / 8 * 8 && x.mask.getLsbD (a % 8)

/-- Store buffer of an agent. -/
def sbOf (s : State) (a : AgentId) : List SbEntry := ((threadOf s a).map (·.sb)).getD []

/-- n bytes of ordinary lines as an agent loads them. -/
def loadPlain (s : State) (a : AgentId) (e : Env) (sp : Space) (va n : Nat) : Except Miss (State × Nat) :=
  let sb := sbOf s a
  let bytes (x : Nat) : Nat := overlayNat sb sp.tag va n x
  if (List.range n).all fun i => buffered sb sp.tag (va + i) then .ok (s, bytes 0)
  else (accessAt va (viewLines s e sp (va / 128 * 128) (lineCount va n))).map fun r => (r.1, bytes (r.2 / 2 ^ (8 * (va % 128))))

/-- A line of the package's own domain region as its home gives it, under the bytes that the agent's slice holds column-private
dirty; no cache allocates it (R472). -/
def homeLine (s : State) (e : Env) (sp : Space) (key : Nat) : Except Miss (State × LineData) :=
  let s := landOwn s sp key e.col
  match mappedAt s sp.tag (lineVa key) with
  | some (_, _, m) => forwardedLine s e sp key m
  | none =>
    (denied sp (lineVa key) (readHome s sp key)).map fun r =>
      (r.1, match privAt r.1 key e.col with
        | some p => mergeLine r.2.data p.data p.mask
        | none => r.2.data)

/-- k lines of the package's own domain region. -/
def homeLines (s : State) (e : Env) (sp : Space) (off : Nat) : Nat → Except Miss (State × Nat)
  | 0 => .ok (s, 0)
  | k + 1 =>
    match homeLines s e sp off k with
    | .error m => .error m
    | .ok (s, x) => (homeLine s e sp (sp.key (off + 128 * k))).map fun r => (r.1, x + r.2.toNat * 2 ^ (1024 * k))

/-- The table window, for monitor level alone (R429). -/
def tableAccess (s : State) (e : Env) (off n : Nat) : Except Miss Space :=
  let p := partOf s e.sp.part
  if e.monitor && twReady p && decide (off + n ≤ 2 ^ twLog2 p) then .ok (tableSpace e.sp.part) else .error (.trap cBadAddress)

/-- The first check of an access that must be aligned: BAD_ADDRESS, that of the table window included (R275, R405, R429). -/
def addressCheck (s : State) (e : Env) (va n : Nat) : Except Miss Unit :=
  match addrKind va with
  | .bad | .launch _ => .error (.trap cBadAddress)
  | .table o => (tableAccess s e o n).map fun _ => ()
  | _ => .ok ()

/-- A read of a snapshot: one of a region of the agent's partition, which is an ordinary read-only page (R25, R286). -/
def snapRead (s : State) (e : Env) (va o : Nat) : Except Miss Unit :=
  if (ffind s.regions (o / 256)).any fun r => r.part == e.sp.part then .ok () else .error (.deny .absent e.sp.tag va)

/-- Load n bytes at a virtual address (R275, R276, R278). -/
def loadBytes (s : State) (a : AgentId) (va n : Nat) : Except Miss (State × Nat) :=
  let e := envOf s a
  match addrKind va with
  | .bad => .error (.trap cBadAddress)
  | .loc o => (localBlock s e o n).map fun b => (wakeSpm s b.1 o n, localNat b.2 o n)
  | .launch o => (launchNat s e o n).map fun x => (s, overlayNat (sbOf s a) 0 va n x)
  | .snap o => (snapRead s e va o).bind fun _ => loadPlain s a e e.sp va n
  | .table o =>
    match tableAccess s e o n with
    | .ok sp => loadPlain s a e sp va n
    | .error m => .error m
  | .domain pkg k o =>
    if pkg = s.pkg.domain then
      match domainAt s k o n with
      | none => .error (.deny .malformed 0 va)
      | some sp =>
        match homeLines s e sp (o / 128 * 128) (lineCount o n) with
        | .ok (t, x) => .ok (t, overlayNat (sbOf s a) 0 va n (x / 2 ^ (8 * (o % 128))))
        | .error (.wait t) => .error (.wait t)
        | .error _ => .error (.deny .malformed 0 va)
    else
      let sb := sbOf s a
      if (List.range n).all fun i => buffered sb 0 (va + i) then .ok (s, overlayNat sb 0 va n 0)
      else (remoteValue s e.who e.col va n false).map fun r => (r.1, overlayNat sb 0 va n r.2)
  | .plain => loadPlain s a e e.sp va n

/-! ### Checks of writes (R434, R435) -/

/-- Whether a line is known writable to an agent (R434). -/
def knownWritable (s : State) (e : Env) (sp : Space) (key : Nat) : Bool :=
  (ffind s.copies (copyKey key e.cache)).any (·.w) || (ffind s.copies (copyKey key (512 + e.col))).any (·.w) ||
  ((ffind s.cols e.col).any fun c => c.perms.contains { asid := sp.tag, unit := lineVa key / 4096, w := true }) ||
  (ffind s.home key).any fun h => h.w && !h.away && h.col == e.col

/-- The check of a write to a line: known writable, or a probe of its target that records the permission, in place of the oldest
one where the cache is full (R434; DESIGN CHOICE, log 30). -/
def checkWrite (s : State) (e : Env) (sp : Space) (key : Nat) : Except Miss State :=
  if knownWritable s e sp key || (mappedAt s sp.tag (lineVa key)).isSome then .ok s
  else
    match lineCell s sp.part key (homeState s sp key).cxl with
    | .error d => .error (.deny d sp.tag (lineVa key))
    | .ok (s, _, w) =>
      if w then
        let p : Perm := { asid := sp.tag, unit := lineVa key / 4096, w := true }
        .ok { s with cols := fmod s.cols e.col fun c => { c with perms := (p :: c.perms).take Config.permEntries } }
      else .error (.deny .prot sp.tag (lineVa key))

/-- Check a list of lines. -/
def checkLines (s : State) (e : Env) (sp : Space) : List Nat → Except Miss State
  | [] => .ok s
  | k :: t =>
    match checkWrite s e sp k with
    | .ok s => checkLines s e sp t
    | .error m => .error m

/-- The check of a write of n bytes at an offset of the package's own domain region: one that its target refuses ends with
PAGE_FAULT (R472; DEDUCED, log 123). -/
def domainWritable (s : State) (e : Env) (va k off n : Nat) : Except Miss State :=
  match domainAt s k off n with
  | none => .error (.deny .malformed 0 va)
  | some sp =>
    match checkLines s e sp ((List.range (lineCount off n)).map fun i => sp.key (off + 128 * i)) with
    | .ok s => .ok s
    | .error _ => .error (.deny .malformed 0 va)

/-! ### The store buffer and its drain (R143, R145, R160) -/

/-- Trigger every monitor of a column on a line (R116). -/
def triggerCol (s : State) (line col : Nat) : State :=
  { s with
    hosts := s.hosts.map fun p => if p.1 / 2 = col then (p.1, { p.2 with th := p.2.th.trigger line }) else p
    groups := s.groups.map fun p => if coreCol s p.2.core = col then (p.1, { p.2 with th := p.2.th.trigger line }) else p }

/-- A store into the column slice: performed at a home in that slice, or held column-private dirty (R145, R160). -/
def throughSlice (s : State) (e : Env) (sp : Space) (key : Nat) (d : LineData) (m : BitVec 128) : State :=
  let s := landOwn s sp key e.col
  if homeCol s sp key = e.col then
    performWrite (addUnack s e.who) sp key d m (some e.cache) e.who e.who false
  else
    let s := settleCache (recallExcl s key none) (512 + e.col) key
    let s := match ffind s.copies (copyKey key (512 + e.col)) with
      | some c => if c.fmt = 0#8 then s else recallExcl (upgrade s sp key (512 + e.col)) key none
      | none => s
    let s := dropCopies s key (colL1s s e.col)
    let p : Priv := match privAt s key e.col with
      | some p => { data := mergeLine p.data d m, mask := p.mask ||| m, by_ := if p.by_ = e.who then e.who else .nobody }
      | none => { data := d, mask := m, by_ := e.who }
    let s := noteStore (nameHome s sp key) key d m e.who (.cache (512 + e.col))
    let s := { s with priv := fset s.priv (privKey key e.col) p
                      cols := fmod s.cols e.col fun c => if c.fifo.contains key then c else { c with fifo := c.fifo ++ [key] } }
    triggerCol s key e.col

/-- Bytes stored by an agent into an exclusive copy. -/
def Copy.store (c : Copy) (d : LineData) (m : BitVec 128) (by_ : Who) : Copy :=
  { c with data := mergeLine c.data d m, dirty := c.dirty ||| m, by_ := if c.dirty = 0#128 ∨ c.by_ = by_ then by_ else .nobody }

/-- Whether a line of a commutative range has partials to combine before it is stored to (R123). -/
def pendingPartials (s : State) (sp : Space) (key : Nat) : Bool :=
  (rangeAt s sp.tag (lineVa key)).any fun c => !(linePartials c (lineVa key)).isEmpty

/-- A store leaves for its line's home (R160). -/
def sendStore (s : State) (key : Nat) (d : LineData) (m : BitVec 128) (cache : Nat) (who : Who) : State :=
  send (noteStore s key d m who (.msg s.nextId)) (.write key d m cache who who)

/-- A store into an exclusive copy of a cache (R143). -/
def storeExcl (s : State) (key cache : Nat) (c : Copy) (d : LineData) (m : BitVec 128) (who : Who) : State :=
  let s := noteStore s key d m who (.cache cache)
  triggerIn { s with copies := fset s.copies (copyKey key cache) (c.store d m who) } key cache

/-- A store leaves the buffer for a line (R108, R143, R160). -/
def drainLine (s : State) (e : Env) (sp : Space) (key : Nat) (d : LineData) (m : BitVec 128) (rel : Bool) : State :=
  match mappedAt s sp.tag (lineVa key) with
  | some (_, _, mp) =>
    if e.block = some mp.block then mappedWrite (landForwards s key) mp (lineVa key) d m e.who
    else send (addUnack s e.who) (.spmWrite key d m e.who)
  | none =>
    if rel then sendStore (nameHome (addUnack s e.who) sp key) key d m e.cache e.who
    else
      let s := match ffind s.copies (copyKey key e.cache) with
        | some c => if c.fmt = 0#8 then s else upgrade s sp key e.cache
        | none => s
      match ffind s.copies (copyKey key e.cache) with
      | some c =>
        if c.excl && !pendingPartials s sp key then
          storeExcl s key e.cache c d m e.who
        else throughSlice (if c.excl then combineLine s sp key none else s) e sp key d m
      | none => throughSlice s e sp key d m

/-- A post reaches the slice of its queue (R406): appended, or held while the FIFO is full. -/
def postTo (s : State) (c q : Nat) (v : Word) (p : Post) (who : Who) : State :=
  match ffind s.cols c with
    | none => sendAck s who false
    | some col =>
      let lq := (ffind col.queues q).getD .reset
      let now := { p with headAt := s.ns, cfg := if lq.fifo.isEmpty then some lq.cfg else none }
      if lq.fifo.length < 16 ∧ lq.heldPosts.isEmpty then
        let lq := { lq with fifo := lq.fifo ++ [now], post := if v = 0#64 then lq.post else v }
        sendAck { s with cols := fset s.cols c { col with queues := fset col.queues q lq } } who false
      else
        let lq := { lq with heldPosts := lq.heldPosts ++ [(p, who)] }
        { s with cols := fset s.cols c { col with queues := fset col.queues q lq } }

/-- A post by an agent of a column of a store that is a release, or follows fences (R171, R406). -/
def Post.store (v : Word) (rel : Option Scope) (fences : List (Scope × List Nat)) (launcher : Nat) : Post :=
  { post := v, packet := none, barrier := v.getLsbD 0, badPacket := false, rel := rel, fences := fences, launcher := launcher, headAt := 0
    cfg := none }

/-- The scope at which an agent's release is made: on a host core `.grp` and `.blk` act as `.col` (R150). -/
def scopeOn (host : Bool) : Scope → Scope
  | .grp => if host then .col else .grp
  | .blk => if host then .col else .blk
  | sc => sc

/-- Whether the oldest store of an agent can leave its buffer: UNACK has room (R301), and no earlier write of the same
remote line by its slice is outstanding (R472); one restored has passed its check again (R443). -/
def canDrain (s : State) (e : Env) (th : Thread) (x : SbEntry) : Bool :=
  x.checked && decide (th.unack < Config.unackMax) &&
  match addrKind x.va with
  | .domain pkg _ _ => pkg == s.pkg.domain || !(s.remote.any fun r => r.2.write && r.2.col == e.col && r.2.va / 128 == x.va / 128)
  | .plain => !((mappedAt s x.asid x.va).any fun m => mapStopped s m.2.2 && e.block != some m.2.2.block)
  | _ => true

/-- A store that the package's own domain region refuses: its answer is on the way (R472). -/
def refusedStore (s : State) (e : Env) (x : SbEntry) : State :=
  let t := sendRemote s e.who e.col x.va true false x.data (popCount x.mask)
  { t with remote := fmod t.remote s.nextId fun r => { r with answer := some .refused } }

/-- The oldest store of an agent leaves its buffer; none where it has to wait. -/
def drainOne (s : State) (a : AgentId) : Option State :=
  match threadOf s a with
  | none => none
  | some th =>
    match th.sb with
    | [] => none
    | x :: rest =>
      let e := envOf s a
      if canDrain s e th x then
        let s := modThread s a fun th => { th with sb := rest }
        let off := x.va % 128
        let d : LineData := BitVec.ofNat 1024 (x.data.toNat * 2 ^ (8 * off))
        let m : BitVec 128 := BitVec.ofNat 128 (x.mask.toNat * 2 ^ off)
        match addrKind x.va with
        | .launch o =>
          let s := addUnack s e.who
          some (if x.data = 0#64 then sendAck s e.who false
            else postTo s (launchSlot o).1 (launchSlot o).2 x.data (.store x.data (x.rel.map (scopeOn (isHost a))) th.fences e.col) e.who)
        | .domain pkg k o =>
          if pkg = s.pkg.domain then
            match domainSpace s k with
            | none => some (refusedStore (addUnack s e.who) e x)
            | some sp => some (sendStore (nameHome (addUnack s e.who) sp (sp.key o)) (sp.key o) d m e.cache e.who)
          else some (sendRemote (addUnack s e.who) e.who e.col x.va true false x.data (popCount x.mask))
        | .table _ => some (drainLine s e (tableSpace e.sp.part) (lineKey (tableTag e.sp.part) x.va) d m x.rel.isSome)
        | _ => some (drainLine s e { e.sp with tag := x.asid } (lineKey x.asid x.va) d m x.rel.isSome)
      else none

/-- Drain n stores of an agent. -/
def drainN (s : State) (a : AgentId) : Nat → Option State
  | 0 => some s
  | n + 1 => (drainN s a n).bind fun s => drainOne s a

/-- Drain an agent's whole buffer, or wait. -/
def drainAll (s : State) (a : AgentId) : Except Miss State :=
  match drainN s a (sbOf s a).length with
  | some s => .ok s
  | none => .error (.wait ((drainOne s a).getD s))

/-- Number of the buffer's oldest stores up to the last one of a line. -/
def throughLine (tag va : Nat) : List SbEntry → Nat
  | [] => 0
  | x :: t =>
    let n := throughLine tag va t
    if 0 < n then n + 1 else if x.asid = tag ∧ x.va / 128 = va / 128 then 1 else 0

/-- Drain an agent's stores of a line and what stands before them (R276, R286). -/
def drainOfLine (s : State) (a : AgentId) (tag va : Nat) : Except Miss State :=
  match drainN s a (throughLine tag va (sbOf s a)) with
  | some s => .ok s
  | none => .error (.wait ((drainOne s a).getD s))

/-- The aligned groups of eight bytes of an n-byte store, the lowest first: the parts of a misaligned or wide store have no fixed
order (R152), and the model buffers and drains them in this one (DESIGN CHOICE, log 100). -/
def storePieces (tag va n v : Nat) (rel : Option Scope) : List SbEntry :=
  let x := v % 2 ^ (8 * n) * 2 ^ (8 * (va % 8))
  let m := (2 ^ n - 1) * 2 ^ (va % 8)
  (List.range ((va % 8 + n + 7) / 8)).map fun k =>
    { va := va / 8 * 8 + 8 * k, asid := tag, data := BitVec.ofNat 64 (x / 2 ^ (64 * k)), mask := BitVec.ofNat 8 (m / 2 ^ (8 * k))
      rel := rel }

/-- Put stores into an agent's buffer, draining its oldest entries to make room (R301). -/
def buffer (s : State) (a : AgentId) (l : List SbEntry) : Except Miss State :=
  let need := (sbOf s a).length + l.length - Config.storeBufferMax
  match drainN s a need with
  | some s => .ok (modThread s a fun th => { th with sb := th.sb ++ l })
  | none => .error (.wait s)

/-- Whether a scope is `.die` or wider. -/
def wideScope : Scope → Bool
  | .grp | .blk | .col => false
  | _ => true

/-- The scope a release store's own write carries into the buffer: set where it is performed at its home (R160). -/
def releaseMark (sc : Scope) : Option Scope := if wideScope sc then some sc else none

/-- A line has been stored to since the fences so far (R171). -/
def Thread.noteStore (th : Thread) (line : Nat) : Thread :=
  { th with fences := th.fences.map fun f => (f.1, if f.2.contains line then f.2 else line :: f.2) }

/-- Put a store into an agent's buffer: what it writes is not released by the fences so far (R171). -/
def bufferStore (s : State) (a : AgentId) (l : List SbEntry) : Except Miss State :=
  (buffer s a l).map fun s => modThread s a fun th => l.foldl (fun th x => th.noteStore (lineKey x.asid x.va)) th

/-- Store n bytes at a virtual address (R275, R276, R278), as a release at a scope: one of `.die` or wider is performed at its
home. -/
def storeBytes (s : State) (a : AgentId) (va n v : Nat) (rel : Option Scope) : Except Miss State :=
  let e := envOf s a
  match addrKind va with
  | .bad => .error (.trap cBadAddress)
  | .loc o =>
    match localBlock s e o n with
    | .error m => .error m
    | .ok (b, blk) => if o + n ≤ blk.spmBytes then .ok (spmWrite s b o n v e.who) else .error (.trap cBarWrite)
  | .launch o =>
    match launchCol s e o with
    | .error m => .error m
    | .ok _ => if o % 128 = 0 ∧ n = 8 then
        buffer s a (storePieces 0 va n v rel) else .error (.trap cBadAddress)
  | .snap o =>
    match ffind s.regions (o / 256) with
    | some _ => .error (.trap cProtWrite)
    | none => .error (.deny .absent e.sp.tag va)
  | .table o =>
    match tableAccess s e o n with
    | .ok sp => bufferStore s a (storePieces sp.tag va n v (rel.bind releaseMark))
    | .error m => .error m
  | .domain pkg k o =>
    (if pkg = s.pkg.domain then domainWritable s e va k o n else .ok s).bind fun s =>
      bufferStore s a (storePieces 0 va n v (rel.bind releaseMark))
  | .plain =>
    match accessAt va (checkLines s e e.sp ((List.range (lineCount va n)).map fun k => e.sp.key (va + 128 * k))) with
    | .error m => .error m
    | .ok s => bufferStore s a (storePieces e.sp.tag va n v (rel.bind releaseMark))

/-! ### Release and acquire (R150, R162, R163) -/

/-- Push column-private dirty lines of a column, oldest first, counted in an agent's UNACK (R161, R162). -/
def pushLines (s : State) (col : Nat) (who : Who) : List Nat → State
  | [] => s
  | k :: t => pushLines (pushMsg s k col who) col who t

/-- Column-private dirty lines of a column, oldest first. -/
def fifoOf (s : State) (col : Nat) : List Nat := ((ffind s.cols col).map (·.fifo)).getD []

/-- Write back every dirty capacity-tier line of a partition, what an exclusive holder has stored into it included (R162,
`.sys`). -/
def flushTier (s : State) (part : Nat) : State :=
  let s := (s.home.filter fun h => h.2.cxl && h.2.excl.isSome).foldl (fun s h => recallExcl s h.1 none) s
  (s.home.filter fun h => h.2.cxl && h.2.dirty != 0#128).foldl (fun s h => writeBack s part h.1) s

/-- Base die of a column (R11). -/
def colDie (s : State) (col : Nat) : Nat := ((ffind s.cols col).map (·.phys)).getD col / 16

/-- Whether a release at a scope by an agent of a column awaits the acknowledgement of a push: at `.die` those of homes on its
base die, at `.pkg` and wider all (R162). -/
def awaitsPush (s : State) (sc : Scope) (col : Nat) (p : PushRec) : Bool :=
  match sc with
  | .grp | .blk | .col => false
  | .die => colDie s p.home == colDie s col
  | _ => true

/-- Whether a scope's release awaits the acknowledgements of stores to other packages (R162). -/
def awaitsRemote : Scope → Bool
  | .dom | .sys => true
  | _ => false

/-- Stores and pushes that an agent's UNACK counts and that a release at a scope need not wait for: pushes but those it
awaits, and stores to other packages below `.dom`. -/
def exempt (s : State) (e : Env) (sc : Scope) : Nat :=
  (s.pushes.filter fun p => p.2.who == e.who && !awaitsPush s sc e.col p.2).length +
  (if awaitsRemote sc then 0 else (s.remote.filter fun r => r.2.who == e.who && r.2.write).length)

/-- Whether a scope's release waits for the slice's acknowledgements: `.col` and wider, and on a host core every scope
(R150, R162). -/
def waitsSlice (host : Bool) : Scope → Bool
  | .grp | .blk => host
  | _ => true

/-- The marker of a release at `.die` or wider (R162): every column-private dirty line ahead of it is pushed, as UNACK has
room, and the pushes of the column not yet acknowledged, an eviction's included, are those the release awaits. -/
def placeMarker (s : State) (a : AgentId) (e : Env) (sc : Scope) : State :=
  let th := (threadOf s a).getD (.fresh 0#64 0#16)
  if !wideScope sc || th.marker then s
  else
    let l := fifoOf s e.col
    let room := Config.unackMax - th.unack
    let s := pushLines s e.col e.who (l.take room)
    if room < l.length then s
    else
      let ids := (s.pushes.filter fun p => p.2.col == e.col && awaitsPush s sc e.col p.2).map Prod.fst
      modThread s a fun th => { th with marker := true, await := ids }

/-- The steps of a release at a scope (R162): the buffer drains at every scope; at `.col` and wider every acknowledgement of
the agent's stores is awaited; at `.die` or wider every line ahead of a marker is pushed and those pushes' acknowledgements
are awaited; the marker stays set between the issues of a waiting word. -/
def releaseSteps (s : State) (a : AgentId) (sc : Scope) : Except Miss State :=
  let e := envOf s a
  match drainAll s a with
  | .error m => .error m
  | .ok s =>
    if !waitsSlice (isHost a) sc then .ok s
    else
      let s := placeMarker s a e sc
      let th := (threadOf s a).getD (.fresh 0#64 0#16)
      if (th.marker || !wideScope sc) && th.unack == exempt s e sc && th.atomics == 0 && th.await.all (pushDone s) then
        let s := modThread s a fun th => { th with marker := false, await := [] }
        .ok (if sc = .sys then flushTier s e.sp.part else s)
      else .error (.wait s)

/-! ### Accesses performed at the home (R276, R283) -/

/-- One more atomic or commit awaits its result (R301). -/
def addAtomic (s : State) (w : Who) : State := modWho s w fun th => { th with atomics := th.atomics + 1 }

/-- Whether an atomic has room (R301). -/
def atomicRoom (s : State) (a : AgentId) : Bool := ((threadOf s a).map fun th => decide (th.atomics < Config.atomicsMax)).getD false

/-- Bits of a line at a byte offset. -/
def lineNat (d : LineData) (off n : Nat) : Nat := d.toNat / 2 ^ (8 * off) % 2 ^ (8 * n)

/-- The push before an access performed at the home (R161, R276), which stalls where UNACK has no room for it (R301). -/
def pushFirst (s : State) (a : AgentId) (e : Env) (sp : Space) (key : Nat) : Except Miss State :=
  if (privAt s key e.col).isSome && decide (Config.unackMax ≤ ((threadOf s a).map (·.unack)).getD 0) then .error (.wait s)
  else .ok (pushNow s sp key e.col e.who)

/-- One step on an n-byte element of a line at its home, by an agent of a cache: the old value; a change is one write (R138,
R283). -/
def changeHome (s : State) (key : Nat) (h : HomeLine) (off n : Nat) (f : Nat → Nat) (writer : Option Nat) (who : Who) : State × Nat :=
  let old := lineNat h.data off n
  let new := f old % 2 ^ (8 * n)
  if new = old then (sendAck s who true, old)
  else (writeHome s key h (BitVec.ofNat 1024 (new * 2 ^ (8 * off))) (maskRange 128 off n) writer who who true, old)

/-- Such a step as a tagged request of an agent of the package (R144, R174, R283). -/
def stepAtHome (s : State) (sp : Space) (key off n : Nat) (f : Nat → Nat) (cache : Nat) (who : Who) : Except Deny (State × Nat) :=
  match readHome s sp key with
  | .error d => .error d
  | .ok (s, h) => .ok (changeHome (tagged s h.col who (lineNat h.data off n)) key h off n f (some cache) who)

/-- An atomic step on an element of a mapped line, in its scratchpad (R108), a tagged request at the line's home as any (R174). -/
def stepMapped (s : State) (e : Env) (sp : Space) (key off n : Nat) (f : Nat → Nat) (m : MapEnt) : Except Miss (State × Nat) :=
  (forwardedLine s e sp key m).map fun r =>
    let old := lineNat r.2 off n
    let new := f old % 2 ^ (8 * n)
    let s := tagged r.1 (homeCol r.1 sp key) e.who old
    (if new = old then s else
      mappedWrite s m (lineVa key) (BitVec.ofNat 1024 (new * 2 ^ (8 * off))) (maskRange 128 off n) e.who, old)

/-- An atomic performed at the home, after the agent's earlier stores to the line and the slice's bytes of it (R161, R276). -/
def atomicHome (s : State) (a : AgentId) (e : Env) (sp : Space) (key off n : Nat) (f : Nat → Nat) : Except Miss (State × Nat) :=
  match mappedAt s sp.tag (lineVa key) with
  | some (_, _, m) => stepMapped s e sp key off n f m
  | none =>
    match pushFirst s a e sp key with
    | .error m => .error m
    | .ok s =>
      if atomicRoom s a then denied sp (lineVa key + off) (stepAtHome (addAtomic s e.who) sp key off n f e.cache e.who) else .error (.wait s)

/-- The checks of an atomic's address that come before its release steps (R111, R275, R405). -/
def atomicCheck (s : State) (a : AgentId) (va n : Nat) : Except Miss Unit :=
  let e := envOf s a
  (addressCheck s e va n).bind fun _ =>
    if va % n ≠ 0 then .error (.trap cMisaligned)
    else match addrKind va with
      | .loc o => (localBlock s e o n).bind fun b => if o + n ≤ b.2.spmBytes then .ok () else .error (.trap cBarWrite)
      | _ => .ok ()

/-- An atomic step of an agent on an n-byte element (R275, R276, R283): the element's old value. -/
def atomicBytes (s : State) (a : AgentId) (va n : Nat) (f : Nat → Nat) : Except Miss (State × Nat) :=
  let e := envOf s a
  match atomicCheck s a va n with
  | .error m => .error m
  | .ok _ =>
    match addrKind va with
    | .bad | .launch _ => .error (.trap cBadAddress)
    | .loc o =>
      (localBlock s e o n).map fun b =>
        let old := localNat b.2 o n
        let new := f old % 2 ^ (8 * n)
        (if new = old then wakeSpm s b.1 o n else spmWrite s b.1 o n new e.who, old)
    | .snap o => if (ffind s.regions (o / 256)).isSome then .error (.trap cProtWrite) else .error (.deny .absent e.sp.tag va)
    | .table o =>
      (tableAccess s e o n).bind fun sp => (drainOfLine s a sp.tag va).bind fun s => atomicHome s a e sp (sp.key va) (va % 128) n f
    | .domain pkg k o =>
      if pkg = s.pkg.domain then
        match domainAt s k o n with
        | none => .error (.deny .malformed 0 va)
        | some sp =>
          match ((domainWritable s e va k o n).bind fun s => drainOfLine s a 0 va).bind fun s => atomicHome (landOwn s sp (sp.key o) e.col) a e sp (sp.key o) (o % 128) n f with
          | .error (.deny _ _ _) => .error (.deny .malformed 0 va)
          | r => r
      else (drainOfLine s a 0 va).bind fun s => remoteValue s e.who e.col va n true
    | .plain =>
      let key := e.sp.key va
      match accessAt va (checkWrite s e e.sp key) with
      | .error m => .error m
      | .ok s =>
        (drainOfLine s a e.sp.tag va).bind fun s =>
          match ffind s.copies (copyKey key e.cache) with
          | some c =>
            if c.excl && !pendingPartials s e.sp key then
              let old := lineNat c.data (va % 128) n
              let new := f old % 2 ^ (8 * n)
              if new = old then .ok (s, old)
              else
                .ok (storeExcl s key e.cache c (BitVec.ofNat 1024 (new * 2 ^ (8 * (va % 128)))) (maskRange 128 (va % 128) n) e.who, old)
            else accessAt va (atomicHome s a e e.sp key (va % 128) n f)
          | none => accessAt va (atomicHome s a e e.sp key (va % 128) n f)

end Sys2Proof.Machine
end

