-- ==== Sys2Proof/Machine/Ops.lean ====
section
/-! DEFINITION. Registers of agents; taking a trap, parking, and returning; held faults (R39, R45 to R48, R51, R52, R386 to
R400, R435 to R437). -/

namespace Sys2Proof.Machine

/-! ### Registers -/

/-- The bank of the active handler (R387). -/
def Thread.bank (th : Thread) : HBank := if th.atMonitor then th.mbank else th.kbank

/-- Apply a function to the bank of the active handler. -/
def Thread.modBank (th : Thread) (f : HBank → HBank) : Thread :=
  if th.atMonitor then { th with mbank := f th.mbank } else { th with kbank := f th.kbank }

/-- Whether a scalar register number names the handler bank (R51). -/
def banked (th : Thread) (r : Reg) : Bool := th.inHandler && decide (24#5 ≤ r) && decide (r ≤ 27#5)

/-- A scalar register as storage (R51). -/
def Thread.reg (th : Thread) (r : Reg) : Word :=
  if r = 0#5 then 0#64 else if banked th r then sget th.bank.x r.toNat else sget th.x r.toNat

/-- Write a scalar register as storage; x0 discards (R51). -/
def Thread.setReg (th : Thread) (r : Reg) (v : Word) : Thread :=
  if r = 0#5 then th
  else if banked th r then th.modBank fun b => { b with x := sset b.x r.toNat v }
  else { th with x := sset th.x r.toNat v }

/-- Whether the current agent's ports are enabled (R52). -/
def portsOn (s : State) : Bool := (curGroup s).any (·.portEn)

/-- A source register of the current word (R51, R52): x28 reads zero and x29 the oldest flit while ports are
enabled. -/
def rd (s : State) (r : Reg) : Word :=
  if portsOn s && r == 28#5 then 0#64
  else if portsOn s && r == 29#5 then (((curGroup s).bind fun g => g.rx.head?).map (·.payload)).getD 0#64
  else (curThread s).reg r

/-- Whether PORT_DST names a group of the sender's region (R120). -/
def portTarget (s : State) (g : Group) : Bool :=
  match ffind s.regions g.region with
  | some r => decide (bitsOf g.portDst 63 32 < bitsOf r.record 351 320) && decide (bitsOf g.portDst 19 16 < bitsOf r.record 367 352)
  | none => false

/-- Header of a flit (R118). -/
def flitHeader (g : Group) : Word :=
  wordOf (g.blockId * 2 ^ 32 + g.groupId % 16 * 2 ^ 16 + bitsOf g.portDst 15 8 * 2 ^ 8)

/-- Inject one flit (R52, R120). -/
def injectFlit (s : State) (v : Word) : State :=
  match groupOf s.cur, curGroup s with
  | some k, some g =>
    let s := send s (.flit k g.region (bitsOf g.portDst 63 32) (bitsOf g.portDst 19 16)
      { payload := v, header := flitHeader g } false)
    modGroup s k fun g => { g with credits := g.credits - 1 }
  | _, _ => s

/-- Write a destination register of the current word (R51, R52). -/
def wr (s : State) (r : Reg) (v : Word) : State :=
  if portsOn s && r == 28#5 then injectFlit s v else modCur s fun th => th.setReg r v

/-- A stall in a wait, at which the stream is no longer at a safe point (R297). -/
def stallWait (s : State) : Exit := .stall (modCur s fun th => { th with prevSafe := none })

/-- The port rules before a word takes effect (R52, R120): PORT_MISUSE, PORT_NOTARGET, and the waits, which end an issue as
given. -/
def portCheckOr (wait : Exit) (s : State) (srcs dsts : List Reg) : Except Exit Unit :=
  if portsOn s then
    match curGroup s with
    | none => .ok ()
    | some g =>
      if dsts.contains 29#5 then .error (trapOf cPortMisuse)
      else if dsts.contains 28#5 && !portTarget s g then .error (trapOf cPortNotarget)
      else if (dsts.contains 28#5 && g.credits == 0) || (srcs.contains 29#5 && g.rx.isEmpty) then .error wait
      else .ok ()
  else .ok ()

/-- The port rules of a word whose stall leaves the safe point before it. -/
def portCheck (s : State) (srcs dsts : List Reg) : Except Exit Unit := portCheckOr (stallWait s) s srcs dsts

/-- Pop the oldest received flit (R52). -/
def popFlit (s : State) : State :=
  modCurGroup s fun g => match g.rx with
    | [] => g
    | f :: t => { g with rx := t, portSrc := f.header }

/-- The next scalar word follows. -/
def advance (s : State) : State := modCur s fun th => { th with pc := th.pc + 4#64, prevSafe := none }

/-- The scalar stream continues at an address. -/
def jumpTo (s : State) (a : Word) : State := modCur s fun th => { th with pc := a, prevSafe := none }

/-! ### Fault records (R395) -/

/-- Contents of a fault record (R395). -/
structure FaultRec where
  cause : BitVec 8
  source : Nat
  blockId : Nat
  rcb : Nat
  pc : Word
  lanes : LaneMask
  groupId : Nat
  core : Nat
  irec : BitVec 16
  seg : Nat
  elem : Word
  va : Nat
  deriving DecidableEq, Repr

/-- The 64 bytes of a fault record written at a time. -/
def FaultRec.bytes (f : FaultRec) (time : Nat) : Nat :=
  f.cause.toNat + f.source * 2 ^ 8 + f.blockId * 2 ^ 32 + f.rcb * 2 ^ 64 + f.pc.toNat * 2 ^ 128 + time * 2 ^ 192
    + f.lanes.toNat * 2 ^ 256 + f.groupId * 2 ^ 288 + f.core * 2 ^ 304 + f.irec.toNat * 2 ^ 320 + f.seg * 2 ^ 336
    + f.elem.toNat % 2 ^ 32 * 2 ^ 352 + f.va * 2 ^ 384

/-- Write a record into a fault area, or nothing where it must wait (R395). -/
def areaAppend (s : State) (part hdr : Nat) (data : Nat) : Option State :=
  let sp := hwSpace s part
  match readHdr s sp hdr with
  | none => none
  | some q =>
    if q.ok 32 && !q.full then
      let s := hwOrdered s sp (q.base + 64 * (q.prod % 2 ^ q.log2)) 64 data
      some (hwWrite s sp hdr 8 (q.prod + 1) .nobody)
    else none

/-- Write a fault record into its domain's area, or keep it waiting; none where no area exists (R395). -/
def recordFault (s : State) (part : Nat) (f : FaultRec) : Option State :=
  let area := if f.rcb = 0 then 0 else rcbField s part (faultDomain s part f.rcb) 0x38 8
  if area = 0 then none
  else
    let data := f.bytes s.ns
    match areaAppend s part area data with
    | some s => some s
    | none => some { s with faultWait := fset s.faultWait s.nextId { part := part, hdr := area, data := BitVec.ofNat 512 data }
                            nextId := s.nextId + 1 }

/-- The machine check of a fault that no area receives (R395, R445). -/
def noAreaCheck (s : State) (part col core : Nat) (cause : BitVec 8) (pc : Word) : State :=
  (machineCheck s part
    { kind := 11, unit := Config.noUnit % 256, col := some col, quad := 0, core := core, index := 0, asid := 0xFFFF, va := 0
      info := wordOf (cause.toNat * 2 ^ 56 + pc.toNat % 2 ^ 56) }).1

/-! ### Taking a trap (R45, R46, R386 to R388, R393) -/

/-- MON_VEC of an agent's core (R392). -/
def monVecOf (s : State) : AgentId → Word
  | .host c _ => ((ffind s.cols c).map (·.monVec)).getD 0#64
  | .group g | .gang g _ => ((((ffind s.groups g).map (·.core)).bind fun c => ffind s.cores c).map (·.monVec)).getD 0#64
  | .seq _ => 0#64

/-- Physical core index of an agent, 0xFF for a host core. -/
def physCore (s : State) : AgentId → Nat
  | .host _ _ => 0xFF
  | .seq b => ((((ffind s.blocks b).map (·.core)).bind fun c => ffind s.cores c).map (·.phys)).getD 0xFF
  | .group g | .gang g _ => ((((ffind s.groups g).map (·.core)).bind fun c => ffind s.cores c).map (·.phys)).getD 0xFF

/-- A group that waits in `xacq` gives up its place in its block's queue: the word issues again later (R40). -/
def dropRequest (s : State) (g : Nat) : State :=
  { s with blocks := s.blocks.map fun b => (b.1, { b.2 with xq := b.2.xq.filter fun r => r.1 != g }) }

/-- A double fault (R388). -/
def doubleFault (s : State) (a : AgentId) (cause : BitVec 8) : State :=
  let e := envOf s a
  let pc := ((threadOf s a).map (·.pc)).getD 0#64
  let s := modThread s a fun th => { th with run := .dead cause pc }
  let s := (machineCheck ((groupOf a).elim s (dropRequest s)) e.sp.part
    { kind := 9, unit := Config.noUnit % 256, col := some e.col, quad := 0, core := physCore s a, index := 0
      asid := e.sp.tag % 2 ^ 16, va := 0, info := wordOf (cause.toNat * 2 ^ 56 + pc.toNat % 2 ^ 56) }).1
  freezeBox s e.col

/-- The monitor of a thread is lost and its watches are cleared (R116, R121). -/
def Thread.loseWatch (th : Thread) : Thread :=
  { th with watches := [], monitor := th.monitor.map fun m => { m with fired := true } }

/-- An access wakes the banks that are in Winter, and each wake is counted (R67). -/
def wakeBanks (s : State) (core : Nat) (bs : List Bank) : State :=
  modCore s core fun c =>
    { c with winter := c.winter.filter fun b => !bs.contains b
             winterWakes := min (2 ^ 32 - 1) (c.winterWakes + (c.winter.filter fun b => bs.contains b).length) }

/-- The bank of a group's handler has been cleared, which wakes it (R55, R67). -/
def clearedBank (s : State) (g : Nat) (monitor : Bool) : State :=
  match ffind s.groups g with
  | some p => wakeBanks s p.core [.handler p.core p.slot monitor]
  | none => s

/-- Enter a handler (R45, R46, R65, R387): its trap record is written, its bank cleared, the interrupted level's lane
task and `lr` kept aside, and the scalar program counter set to the vector. -/
def enterHandler (s : State) (a : AgentId) (monitor : Bool) (vec : Word) (t : TrapInfo) : State :=
  let grp := (groupOf a).bind fun g => ffind s.groups g
  let s := modThread s a fun th =>
    let f : Frame :=
      { monitor := monitor
        trap := some { cause := t.cause, lanes := t.lanes, spc := th.pc, irec := t.irec, elem := t.elem }
        task := grp.bind (·.task), lr := (grp.map (·.lr)).getD [] }
    { th.loseWatch with
      frames := f :: th.frames, pc := vec, run := .running, prevSafe := none, marker := false
      kbank := if monitor then th.kbank else .clear, mbank := if monitor then .clear else th.mbank }
  match groupOf a with
  | some g => clearedBank (modGroup (dropRequest s g) g fun p => { p with task := none, lr := [] }) g monitor
  | none => s

/-- Enter the monitor (R393, rules 2 and 5). -/
def enterMonitor (s : State) (a : AgentId) (t : TrapInfo) : State :=
  let vec := monVecOf s a
  if vec = 0#64 then doubleFault s a t.cause
  else
    let s := blackBox s (envOf s a).col 4 (Config.noUnit % 256) (physCore s a) (t.cause.zeroExtend 64)
      (((threadOf s a).map (·.pc)).getD 0#64)
    enterHandler s a true vec t

/-- Effective VEC_TABLE of an agent (R391). -/
def vecTableOf (s : State) (a : AgentId) : Nat :=
  match a with
  | .host _ _ => rcbEffective s (envOf s a).sp.part (rcbOf s a) 0x08 8
  | .group g | .gang g _ => ((((ffind s.groups g).map (·.region)).bind fun r => ffind s.regions r).map (·.vecTable)).getD 0
  | .seq _ => 0

/-- The kernel vector of a cause, read with a plain load; 0 where there is no table (R391, R393). -/
def kernelVector (s : State) (a : AgentId) (c : BitVec 8) : Except Miss (State × Word) :=
  let t := vecTableOf s a
  if t = 0 then .ok (s, 0#64) else (loadBytes s a (t + 8 * c.toNat) 8).map fun r => (r.1, wordOf r.2)

/-- Lane program counter that a group's fault record shows: that of the gang whose lanes fault (R395). -/
def lanePc (g : Group) (lanes : LaneMask) : Word :=
  match g.task with
  | none => g.th.pc
  | some t =>
    let mine := t.gangs.find? fun x => (List.range 32).any fun l => lanes.getLsbD l && x.slices.getLsbD (l / 4)
    wordOf ((mine.map (·.pc)).getD 0)

/-- The fault record of a group or host thread (R395). -/
def threadFault (s : State) (a : AgentId) (t : TrapInfo) : FaultRec :=
  let g := (groupOf a).bind fun g => ffind s.groups g
  { cause := t.cause, source := if t.irec = 0xFFFF#16 then 0 else 2, blockId := (g.map (·.blockId)).getD 0, rcb := rcbOf s a
    pc := match g with
      | some g => if t.lanes = 0#32 then g.th.pc else lanePc g t.lanes
      | none => ((threadOf s a).map (·.pc)).getD 0#64
    lanes := t.lanes, groupId := (g.map (·.groupId)).getD 0, core := (g.map (·.core)).getD 0xFFFF, irec := t.irec
    seg := (g.bind (·.seg)).getD 0xFFFF, elem := t.elem, va := t.va }

/-- A fault of rule 3 of R393 for a group or host thread: a record and a stop, or the monitor where no area exists. -/
def domainFault (s : State) (a : AgentId) (t : TrapInfo) : State :=
  match recordFault s (envOf s a).sp.part (threadFault s a t) with
  | some s => modThread ((groupOf a).elim s (dropRequest s)) a fun th => { th with run := .faulted t.cause }
  | none => enterMonitor s a t

/-- A fault of a sequencer: always for the fault domain (R393, R395). -/
def seqFault (s : State) (b : Nat) (t : TrapInfo) : State :=
  match ffind s.blocks b with
  | none => s
  | some blk =>
    let e := envOf s (.seq b)
    let f : FaultRec :=
      { cause := t.cause, source := 1, blockId := blk.blockId, rcb := rcbOf s (.seq b), pc := blk.seq.mpc, lanes := 0#32
        groupId := 0, core := blk.core, irec := t.irec, seg := blk.seg.getD 0xFFFF, elem := t.elem, va := t.va }
    let s := match recordFault s e.sp.part f with
      | some s => s
      | none => noAreaCheck s e.sp.part e.col (physCore s (.seq b)) t.cause blk.seq.mpc
    modBlock s b fun x => { x with seq := { x.seq with run := .faulted t.cause } }

/-! ### Parking (R47, R436) -/

/-- Offset of a pending-fault entry in the table window (R436). -/
def pftOff (p : Partition) (slot : Nat × Nat) : Nat :=
  (p.twCfg.extractLsb' 32 16).toNat * 65536 + 32 * (512 * slot.1 + slot.2)

/-- Write a pending-fault entry with DISPOSE 0, before the event that tells of it (R436). -/
def writePft (s : State) (part : Nat) (slot : Nat × Nat) (p : Park) : State :=
  let pa := partOf s part
  if twReady pa then
    hwOrdered s (tableSpace part) (tableBase + pftOff pa slot) 32
      (p.state + p.asid % 2 ^ 16 * 2 ^ 16 + p.lanes.toNat * 2 ^ 32 + p.va.toNat * 2 ^ 64 + s.ns * 2 ^ 128 + p.kind * 2 ^ 192)
  else s

/-- Free a pending-fault entry (R437). -/
def freePft (s : State) (part : Nat) (slot : Nat × Nat) : State :=
  let pa := partOf s part
  if twReady pa then hwWrite s (tableSpace part) (tableBase + pftOff pa slot) 1 0 .nobody else s

/-- DISPOSE of a pending-fault entry (R436). -/
def pftDispose (s : State) (part : Nat) (slot : Nat × Nat) : Bool :=
  let pa := partOf s part
  twReady pa && ((hwNat s (tableSpace part) (tableBase + pftOff pa slot + 1) 1).getD 0 == 1)

/-- The entry and the event of parking (R435, R436). -/
def announcePark (s : State) (sp : Space) (col : Nat) (slot : Nat × Nat) (p : Park) : State :=
  if p.state = 2 then
    let m := poisonCheck s sp p.va.toNat
    appendEvent (writePft m.1 sp.part slot p) col 0x0005 m.2
  else
    appendEvent (writePft s sp.part slot p) col 0x0004
      (p.va.toNat + slot.1 * 2 ^ 64 + slot.2 % 256 * 2 ^ 72 + slot.2 / 256 * 2 ^ 80)

/-- Park an agent, whose word issues again at the replay (R47, R436). -/
def takePark (s : State) (a : AgentId) (p : Park) : State :=
  let e := envOf s a
  let s := match a with
    | .seq b => modBlock s b fun x => { x with seq := { x.seq with run := .parked p, replays := true } }
    | _ => modThread s a fun th => { th with run := .parked p, replays := some a }
  announcePark s e.sp e.col (pftSlot s a) p

/-- Whether an agent's parked word has yet to complete its replay (R437). -/
def replaying (s : State) : AgentId → Bool
  | .seq b => (ffind s.blocks b).any (·.seq.replays)
  | a => (threadOf s a).any fun th => th.replays == some a

/-- Whether an agent is parked. -/
def isParked (s : State) (a : AgentId) : Bool :=
  let run : Option Run := match a with
    | .seq b => (ffind s.blocks b).map (·.seq.run)
    | a => (threadOf s a).map (·.run)
  match run with
  | some (.parked _) => true
  | _ => false

/-- A word has ended, from its state before to its state after: the replay that it was is complete, and the pending-fault entry
free, unless it has parked again (R437). -/
def endReplay (s t : State) (a : AgentId) : State :=
  if replaying s a && !isParked t a then
    let t := freePft t (envOf s a).sp.part (pftSlot s a)
    match a with
    | .seq b => modBlock t b fun x => { x with seq := { x.seq with replays := false } }
    | _ => modThread t a fun th => { th with replays := none }
  else t

/-! ### Routing a trap (R393) -/

/-- The agent whose thread an agent runs on: a gang's is its group's scalar stream. -/
def ownThread : AgentId → AgentId
  | .gang g _ => .group g
  | a => a

/-- The load of a vector does not complete: the trap stays pending while the agent parks or waits, and is taken once the load
succeeds; a vector that no load can read sends the trap to the monitor (R391, R393, R435). -/
def vectorMiss (s : State) (a : AgentId) (t : TrapInfo) (m : Miss) : State :=
  let later (s : State) : State := modThread s a fun th => { th with pending := some t }
  match m.exit 0 0#32 with
  | .park p _ => takePark (later s) (ownThread a) p
  | .stall s => later s
  | .trap _ _ => enterMonitor s a t

/-- Take a trap (R393). -/
def takeTrap (s : State) (a : AgentId) (t : TrapInfo) : State :=
  match a with
  | .seq b => seqFault s b t
  | _ =>
    match threadOf s a with
    | none => s
    | some th =>
      if th.atMonitor then doubleFault s a t.cause
      else if th.inHandler then enterMonitor s a t
      else match routeOf t.cause with
        | .domain => domainFault s a t
        | .kernel =>
          match kernelVector s a t.cause with
          | .ok (s, v) => if v = 0#64 then enterMonitor s a t else enterHandler s a false v t
          | .error m => vectorMiss s a t m
        | .monitor => enterMonitor s a t

/-- Whether a gang other than an agent has issued its word in part, so that a trap of the agent waits for it (R45): not one that
waits to trap itself. -/
def midWord (s : State) (a : AgentId) : Bool :=
  match (groupOf a).bind fun g => ffind s.groups g with
  | none => false
  | some p => ((p.task.map (·.gangs)).getD []).any fun x =>
      x.again.isSome && !x.traps && (match a with
        | .gang _ k => (bitsSet x.slices).head? != some k
        | _ => true)

/-- The trap of an agent that is due: one that is pending, outside a handler (R393). -/
def dueTrap (s : State) (a : AgentId) : Option TrapInfo :=
  (threadOf s a).bind fun th => if th.inHandler then none else th.pending

/-- A trap that no word of the agent raises: pending while a word issued in part has yet to complete (R45). -/
def raiseTrap (s : State) (a : AgentId) (t : TrapInfo) : State :=
  if midWord s (ownThread a) then modThread s a fun th => { th with pending := some t } else takeTrap s a t

/-- The pending trap of an agent is taken, unless a word issued in part has yet to complete (R45, R393). -/
def takePending (s : State) (a : AgentId) (t : TrapInfo) : State :=
  if midWord s a then s
  else endReplay s (takeTrap (modThread s a fun th => { th with pending := none }) a t) a

/-- A trap ends a word issued in part: `lr` is as it was before its first issue (R65). -/
def Gang.unlatch (x : Gang) : Gang := { x with again := x.again.map fun r => { r with latched := 0#32, lr := [] }, traps := false }

/-- The lanes of a latch that an issue in part has set hold again what they held before. -/
def Reissue.restore (r : Reissue) (lr : SMap 64) : SMap 64 := (bitsSet r.latched).foldl (fun m l => sset m l (sget r.lr l)) lr

/-- A trap of an agent's word leaves `lr` unchanged: a gang's word that has been issued in part gives back what it set (R65). -/
def unlatch (s : State) (a : AgentId) : State :=
  match a with
  | .gang g k => modGroup s g fun p =>
      let mine (x : Gang) : Bool := (bitsSet x.slices).head? == some k
      let gangs := (p.task.map (·.gangs)).getD []
      { p with lr := (gangs.filter mine).foldl (fun m x => x.again.elim m fun r => r.restore m) p.lr
               task := p.task.map fun t => { t with gangs := t.gangs.map fun x => if mine x then x.unlatch else x } }
  | _ => s

/-- A gang whose word has been issued in part waits to trap. -/
def markTraps (s : State) (a : AgentId) : State :=
  match a with
  | .gang g k => modGroup s g fun p => { p with task := p.task.map fun t =>
      { t with gangs := t.gangs.map fun x => if (bitsSet x.slices).head? = some k then { x with traps := true } else x } }
  | _ => s

/-! ### Cycles (R238, R492) -/

/-- Cycles pass on a compute core, or from 256 on, on the host core of a column (R238, R492). -/
def coreCycles (s : State) (c n : Nat) : State :=
  if c < 256 then
    modCore s c fun x => { x with cyc := (x.cyc + n) % 2 ^ 64, stretch := x.stretch - n, halve := x.halve - (n - x.stretch) }
  else { s with cols := fmod s.cols (c - 256) fun x => { x with hostCyc := (x.hostCyc + n) % 2 ^ 64 } }

/-! ### Outcomes -/

/-- Refusals that a trap has told an agent (R174, R472). -/
def dropRefused (s : State) (a : AgentId) : State :=
  { s with remote := s.remote.filter fun r =>
      !(r.2.who == (envOf s a).who && (r.2.answer == some .refused || r.2.answer == some .stale)) }

/-- The next state of an issue: a trap waits until every word issued in part has completed, and its word then raises it again
(R45); a replay that does not park again frees its pending-fault entry (R437). -/
def settle (s : State) (r : Except Exit State) : State :=
  match r with
  | .ok t => endReplay s t s.cur
  | .error (.stall t) => t
  | .error (.trap t kept) =>
    if midWord s s.cur then markTraps s s.cur
    else endReplay s (takeTrap (dropRefused (unlatch (kept.getD s) s.cur) s.cur) s.cur t) s.cur
  | .error (.park p kept) => takePark (kept.getD s) s.cur p

/-- What the execution of an instruction answers. -/
abbrev Out := Host.Outcome State Fault Refusal

/-- Outcome of a scalar word whose body sets the program counter itself, and whose wait for a port ends its issue as given. -/
def scalarOr (wait : Exit) (s : State) (srcs dsts : List Reg) (body : State → Except Exit State) : Out :=
  match s.cur, threadOf s s.cur with
  | .gang _ _, _ => .fault .wrongStream
  | _, none => .fault .wrongStream
  | _, some _ =>
    .next (settle s (
      match portCheckOr wait s srcs dsts with
      | .error x => .error x
      | .ok _ =>
        match body s with
        | .error x => .error x
        | .ok t => .ok (if portsOn s && srcs.contains 29#5 then popFlit t else t)))

/-- Outcome of a scalar word whose body sets the program counter itself. -/
def scalarJump (s : State) (srcs dsts : List Reg) (body : State → Except Exit State) : Out := scalarOr (stallWait s) s srcs dsts body

/-- Outcome of a scalar word after which the next one follows. -/
def scalar (s : State) (srcs dsts : List Reg) (body : State → Except Exit State) : Out :=
  scalarJump s srcs dsts fun s => (body s).map advance

/-- A word that a host core does not execute (R185). -/
def groupOnly (s : State) : Except Exit Unit := need (!isHost s.cur) cIllegalInstr

/-! ### Held faults and their delivery (R48, R351) -/

/-- Core that holds an issue record; host threads' records follow those of the cores. -/
def irecCore (key : Nat) : Nat := key / 256

/-- TRAP_IREC of a record for an agent (R70, R351): with the core's number where the group has left that core, or has departed
since the issue. -/
def irecName (s : State) (a : AgentId) (key : Nat) : BitVec 16 :=
  match a with
  | .host _ _ => BitVec.ofNat 16 (key % 16)
  | _ =>
    let here := irecCore key == (pftSlot s a).1 && !((ffind s.irecs key).any (·.departed))
    BitVec.ofNat 16 (if here then key % 256 else irecCore key * 256 + key % 256)

/-- Whether an issue record belongs to an agent: to its issuer, or to every group of a collective copy that has not
taken its fault (R325). -/
def IRec.ownedBy (r : IRec) (a : AgentId) : Bool :=
  match a with
  | .host c t => r.who == .host c t
  | .group g | .gang g _ =>
    if r.op = .cpColl then (r.parts.any fun p => p.group == g) && !r.told.contains g else r.who == .grp g
  | .seq _ => false

/-- A record whose fault an agent has taken; a collective copy's stays held for its other groups, those that have yet to issue
their parts among them (R325). -/
def IRec.deliver (r : IRec) (a : AgentId) : IRec :=
  match groupOf a with
  | some g => { r with told := g :: r.told, run := if r.op = .cpColl then r.run else .delivered }
  | none => { r with run := .delivered }

/-- Whether a group has issued its part of a collective copy (R325). -/
def IRec.joined (r : IRec) (g : Nat) : Bool := (r.parts.any fun p => p.group == g) || r.told.contains g

/-- Whether a collective copy has been issued by every group of its block; a group that is Done counts (R325). -/
def gathered (s : State) (r : IRec) : Bool :=
  r.op != .cpColl || ((ffind s.blocks r.block).map fun b => b.groups.all fun g =>
    r.joined g || ((ffind s.groups g).map fun p => p.th.run == .done).getD true).getD true

/-- Cause, element and address of a record's held fault. -/
def IRec.heldFault (r : IRec) : Option (BitVec 8 × Word32 × Nat) :=
  match r.run with
  | .held c e va => some (c, e, va)
  | _ => none

/-- The first held fault of the current agent among the records that pass a test, delivered as a trap (R48): routed by
the engine's own cause, or as ENG_FAULT on a host core (R329), with TRAP_IREC and TRAP_ELEM.  A fault that falls due
while a handler runs waits for its `tret` (R400). -/
def deliverHeld (s : State) (test : IRec → Bool) : Except Exit Unit :=
  if (curThread s).inHandler then .ok ()
  else match s.irecs.find? fun r => r.2.ownedBy s.cur && r.2.heldFault.isSome && test r.2 with
  | none => .ok ()
  | some (k, r) =>
    match r.heldFault with
    | none => .ok ()
    | some (c, e, va) =>
      let t : TrapInfo :=
        { cause := if isHost s.cur then cEngFault else c, lanes := 0#32, irec := irecName s s.cur k, elem := e.zeroExtend 64
          va := va }
      .error (.trap t (some { s with irecs := fset s.irecs k (r.deliver s.cur) }))

/-- The fault record of an engine operation (R395). -/
def engineFault (s : State) (key : Nat) (r : IRec) (c : BitVec 8) (elem : Word32) (va : Nat) : FaultRec :=
  let g := match r.who with
    | .grp g => ffind s.groups g
    | _ => none
  { cause := c, source := 2, blockId := (g.map (·.blockId)).getD 0, rcb := r.rcb, pc := r.pc, lanes := 0#32
    groupId := (g.map (·.groupId)).getD 0, core := if key < 16384 then r.core else 0xFFFF
    irec := BitVec.ofNat 16 (if key < 16384 then key % 256 else key % 16), seg := (g.bind (·.seg)).getD 0xFFFF
    elem := elem.zeroExtend 64, va := va }

/-- Report an engine fault to the fault domain of its region, or by a machine check where no area exists; its record
stays until the disposal (R49, R329, R395). -/
def reportEngine (s : State) (key : Nat) (r : IRec) (c : BitVec 8) (elem : Word32) (va : Nat) : State :=
  let col := if key < 16384 then coreCol s r.core else (key - 16384) / 32
  let phys := if key < 16384 then ((ffind s.cores r.core).map (·.phys)).getD 0xFF else 0xFF
  let s := match recordFault s r.part (engineFault s key r c elem va) with
    | some s => s
    | none => noAreaCheck s r.part col phys c r.pc
  { s with irecs := fset s.irecs key { r with run := .reported } }

/-- Report every fault held for a group that is Done (R49). -/
def reportOrphans (s : State) (g : Nat) : State :=
  (s.irecs.filter fun r => r.2.ownedBy (.group g)).foldl
    (fun s r => match r.2.heldFault with
      | some (c, e, va) => reportEngine s r.1 r.2 c e va
      | none => s) s

/-! ### Observation of completion objects (R48) -/

/-- Address of an operation's stamp (R322). -/
def IRec.stampVa (r : IRec) : Nat := bitsOf r.desc 63 0

/-- Deliver the held fault of an operation whose 8-byte stamp an access of n bytes overlaps (R48). -/
def observeBytes (s : State) (va n : Nat) : Except Exit Unit :=
  deliverHeld s fun r => decide (r.stampVa < va + n) && decide (va < r.stampVa + 8)

end Sys2Proof.Machine
end

