-- ==== Sys2Proof/Machine/Fetch.lean ====
section
/-! DEFINITION. Fetching instructions: instruction caches, pinned code, segments, mask words (R177, R194 to R198,
R336, R337). -/

namespace Sys2Proof.Machine

/-- n bytes of a launch record at an offset (R25). -/
def recNat (r : BitVec 2048) (off n : Nat) : Nat := r.toNat / 2 ^ (8 * off) % 2 ^ (8 * n)

/-- First global iteration of block b of n over i iterations (R41). -/
def workStart (i b n : Nat) : Nat := b * i / n

/-- Region of an agent. -/
def regionOf (s : State) (a : AgentId) : Option Region :=
  match a with
  | .host _ _ => none
  | .group g | .gang g _ => ((ffind s.groups g).map (·.region)).bind fun r => ffind s.regions r
  | .seq b => ((ffind s.blocks b).map (·.region)).bind fun r => ffind s.regions r

/-- LANE_BASE of an agent's region (R25). -/
def laneBase (s : State) (a : AgentId) : Nat := ((regionOf s a).map fun r => recNat r.record 0x18 8).getD 0

/-- The current segment of a traveller that runs no handler (R337). -/
def curSegment (s : State) (a : AgentId) : Option Segment :=
  match (groupOf a).bind fun g => ffind s.groups g with
  | none => none
  | some g =>
    if g.th.inHandler then none
    else g.seg.bind fun n => ((regionOf s a).bind (·.march)).bind fun m => m.segs[n]?

/-- Whether a scalar address lies in the current segment, if there is one (R337). -/
def inScalarSeg (s : State) (va : Nat) : Bool :=
  (curSegment s s.cur).all fun g => decide (g.scalarLo ≤ va) && decide (va < g.scalarHi)

/-- Whether a lane word index lies in the current segment, if there is one (R337). -/
def inLaneSeg (s : State) (k : Nat) : Bool :=
  (curSegment s s.cur).all fun g => decide (g.laneLo ≤ k) && decide (k < g.laneHi)

/-- Apply a function to the March state of a region. -/
def modMarch (s : State) (region : Nat) (f : March → March) : State :=
  { s with regions := fmod s.regions region fun r => { r with march := r.march.map f } }

/-- Whether an address lies in the code of a segment (R335). -/
def Segment.covers (g : Segment) (laneBase va : Nat) : Bool :=
  (decide (g.scalarLo ≤ va) && decide (va < g.scalarHi)) || (decide (g.matrixLo ≤ va) && decide (va < g.matrixHi)) ||
  (decide (laneBase + 12 * g.laneLo ≤ va) && decide (va < laneBase + 12 * g.laneHi))

/-- Whether a holder block keeps its segment's code pinned: a removed one until its last traveller has left (R336). -/
def pins (s : State) (bk : Nat) (b : Block) : Bool :=
  !b.removed || s.groups.any fun g => g.2.block == bk && g.2.place.inSlot && g.2.th.run != .done

/-- The holder block of a segment on a core that still takes arrivals (R333, R336). -/
def holderBlock (s : State) (region seg core : Nat) : Option (Nat × Block) :=
  s.blocks.find? fun b => b.2.region == region && b.2.seg == some seg && b.2.core == core && !b.2.removed && b.2.run != .retired

/-- A removed holder drops its pin when its last traveller of the segment has left (R336). -/
def dropPins (s : State) (region : Nat) : State :=
  let gone := s.blocks.filterMap fun b =>
    match b.2.seg with
    | some n => if b.2.region == region && b.2.removed && !pins s b.1 b.2 && (holderBlock s region n b.2.core).isNone then some (b.2.core, n) else none
    | none => none
  match ffind s.regions region with
  | none => s
  | some r =>
    modMarch s region fun m =>
      { m with pinned := m.pinned.filter fun u => gone.all fun (c, n) =>
          u.1 / 2 ^ 57 != c || !((m.segs[n]?).any fun g => g.covers (recNat r.record 0x18 8) (u.1 % 2 ^ 57)) }

/-- Key of a unit of code that a core has pinned. -/
def pinKey (core va : Nat) : Nat := core * 2 ^ 57 + va

/-- Compute core and region of an agent. -/
def placeOf (s : State) (a : AgentId) : Option (Nat × Nat) :=
  match a with
  | .host _ _ => none
  | .group g | .gang g _ => (ffind s.groups g).map fun p => (p.core, p.region)
  | .seq b => (ffind s.blocks b).map fun x => (x.core, x.region)

/-- Code that an agent's core has pinned at an address (R336). -/
def pinnedUnit (s : State) (a : AgentId) (va : Nat) : Option Word32 :=
  (placeOf s a).bind fun (c, r) => ((ffind s.regions r).bind (·.march)).bind fun m => ffind m.pinned (pinKey c va)

/-- Whether an agent's core pins the segment that an address lies in (R336). -/
def pinsHere (s : State) (a : AgentId) (va : Nat) : Bool :=
  (placeOf s a).any fun (c, r) =>
    s.blocks.any fun b => b.2.region == r && b.2.core == c && b.2.run != .retired && pins s b.1 b.2 &&
      (b.2.seg.bind fun n => ((ffind s.regions r).bind (·.march)).bind fun m => m.segs[n]?).any fun g => g.covers (laneBase s a) va

/-- Whether the acknowledgements that a moved group awaits have been counted in (R170, R346). -/
def movesDone (s : State) (g : Nat) : Bool := (ffind s.groups g).all fun p => p.moves.all fun id => (ffind s.pushes id).isNone

/-- Whether those that a block awaits have been (R170, R411). -/
def blockArrived (s : State) (bk : Nat) : Bool := (ffind s.blocks bk).all fun b => b.moves.all fun id => (ffind s.pushes id).isNone

/-- The agent that an instruction cache files code under: nobody on a host core, whose threads share theirs (R13); the scalar and
the lane stream of a group, and a sequencer, each in a cache of its kind (R14). -/
def codeOwner : AgentId → Option AgentId
  | .host _ _ => none
  | .gang g _ => some (.gang g 0)
  | a => some a

/-- What the instruction cache that an agent fetches through holds: its host core's, or its compute core's (R13, R14). -/
def icacheOf (s : State) (a : AgentId) : List CodeUnit :=
  match a with
  | .host c _ => ((ffind s.cols c).map (·.icache)).getD []
  | a => ((placeOf s a).bind fun p => (ffind s.cores p.1).map (·.icaches)).getD []

/-- A unit of code that an agent has fetched and its instruction cache still holds (R177). -/
def cachedUnit (s : State) (a : AgentId) (va : Nat) : Option Word32 :=
  ((icacheOf s a).find? fun u => u.who == codeOwner a && u.asid == (envOf s a).sp.tag && u.va == va).map (·.word)

/-- Units that a core has pinned (R336). -/
def pinnedUnits (s : State) (core : Nat) : Nat :=
  (s.regions.filterMap fun r => r.2.march).foldl (fun n m => n + (m.pinned.filter fun u => u.1 / 2 ^ 57 == core).length) 0

/-- A unit more in an instruction cache with room for some: beyond that, one that it holds, a free choice, leaves it (R13, R14). -/
def addUnit (l : List CodeUnit) (u : CodeUnit) (room pick : Nat) : List CodeUnit :=
  let l := u :: l.filter fun x => !(x.who == u.who && x.asid == u.asid && x.va == u.va)
  if room < l.length then l.eraseIdx (1 + pick % (l.length - 1)) else l

/-- Keep a fetched unit (R13, R14, R177). -/
def putIcache (s : State) (a : AgentId) (va : Nat) (w : Word32) : State :=
  let u : CodeUnit := { who := codeOwner a, asid := (envOf s a).sp.tag, va := va, word := w }
  let pick := Config.choice s.freeCtr
  let s := { s with freeCtr := s.freeCtr + 1 }
  match a with
  | .host c _ => { s with cols := fmod s.cols c fun x => { x with icache := addUnit x.icache u Config.hostCodeUnits pick } }
  | a =>
    match placeOf s a with
    | some p => modCore s p.1 fun x => { x with icaches := addUnit x.icaches u (Config.coreCodeUnits - pinnedUnits s p.1) pick }
    | none => s

/-- The code that some agents have fetched leaves the instruction caches of the compute cores. -/
def dropCode (s : State) (mine : AgentId → Bool) : State :=
  { s with cores := s.cores.map fun c => (c.1, { c.2 with icaches := c.2.icaches.filter fun u => !u.who.any mine }) }

/-- Whether an agent is a stream of a group. -/
def streamOf (g : Nat) (a : AgentId) : Bool := groupOf a == some g

/-- Keep a fetched unit: pinned where the core pins the segment it lies in, whose code could not be read before (R336). -/
def keepUnit (s : State) (a : AgentId) (va : Nat) (w : Word32) : State :=
  if pinsHere s a va then
    match placeOf s a with
    | some (c, r) => modMarch s r fun m => { m with pinned := fset m.pinned (pinKey c va) w }
    | none => s
  else putIcache s a va w

/-- Fetch 32 bits of code (R177, R336). -/
def fetchUnit (s : State) (a : AgentId) (va : Nat) : Except Miss (State × Word32) :=
  match pinnedUnit s a va with
  | some w => .ok (s, w)
  | none =>
    match cachedUnit s a va with
    | some w => .ok (s, w)
    | none =>
      match loadBytes s a va 4 with
      | .error m => .error m
      | .ok (t, x) => .ok (keepUnit t a va (BitVec.ofNat 32 x), BitVec.ofNat 32 x)

/-- Fetch k units from an address, first at the lowest. -/
def fetchUnits (s : State) (a : AgentId) (va : Nat) : Nat → Except Miss (State × List Byte)
  | 0 => .ok (s, [])
  | k + 1 =>
    match fetchUnits s a va k with
    | .error m => .error m
    | .ok (s, l) => (fetchUnit s a (va + 4 * k)).map fun r => (r.1, l ++ leBytes 4 r.2.toNat)

/-- The cause that a rejected word traps with (R198). -/
def rejectCause : Reject → BitVec 8
  | .illegalInstr | .truncated => cIllegalInstr
  | .illegalPair => cIllegalPair
  | .badMask => cBadMask
  | .illegalOperand => cIllegalOperand

/-! ### Lane words -/

/-- Whether the word at an address of the lane section has its safe-point bit set (R186); a word that cannot be read
counts as one without. -/
def safeBitAt (s : State) (a : AgentId) (base k : Nat) : Bool :=
  match fetchUnit s a (base + 12 * k + 8) with
  | .ok (_, w) => w.getLsbD 31
  | .error _ => false

/-- Whether word k of the section is a mask word, decided from word 0 forward (R196). -/
def isMaskWord (s : State) (a : AgentId) (base : Nat) : Nat → Bool
  | 0 => false
  | k + 1 => !isMaskWord s a base k && safeBitAt s a base k

/-- Whether a lane transfer to a word index is legal (R177, R196). -/
def laneTargetOk (s : State) (k : Nat) : Bool := decide (k < 2 ^ 24) && !isMaskWord s s.cur (laneBase s s.cur) k

/-- The gang of an agent, by its lowest slice. -/
def gangOf (g : Group) (k : Nat) : Option Gang :=
  g.task.bind fun t => t.gangs.find? fun x => (bitsSet x.slices).head? == some k

/-- Lanes of a gang that are live: lanes below the count in its slices (R29, R31). -/
def gangLanes (t : Task) (g : Gang) : LaneMask :=
  BitVec.ofNat 32 (((List.range 32).filter fun l => decide (l < t.n) && g.slices.getLsbD (l / 4)).foldl (fun m l => m + 2 ^ l) 0)

/-- Apply a function to one gang of a group. -/
def Group.modGang (p : Group) (k : Nat) (f : Gang → Gang) : Group :=
  { p with task := p.task.map fun t =>
      { t with gangs := t.gangs.map fun x => if (bitsSet x.slices).head? = some k then f x else x } }

/-- Bytes of the lane word at a gang's program counter, with the mask word that follows a safe point (R195).  The mask word is
fetched before the word's own checks of R198, so a page fault of its fetch comes before them (DESIGN CHOICE, log 103); one
that lies outside the current segment is not fetched (R337). -/
def fetchLane (s : State) (a : AgentId) (k : Nat) : Except Miss (State × List Byte) :=
  let va := laneBase s a + 12 * k
  match fetchUnits s a va 3 with
  | .error m => .error m
  | .ok (s, l) =>
    if (BitVec.ofNat 96 (leNat l)).getLsbD 95 then
      if (curSegment s a).all fun g => decide (k + 1 < g.laneHi) then (fetchUnits s a (va + 12) 3).map fun r => (r.1, l ++ r.2)
      else .error (.trap cSegLeave)
    else .ok (s, l)

end Sys2Proof.Machine
end

