-- ==== Sys2Proof/Machine/ScalarMem.lean ====
section
/-! DEFINITION. Scalar memory words: loads, stores, watched loads, prefetch, cleans, fences, atomics, the conditional
multi-line store (R278, R280 to R287). -/

namespace Sys2Proof.Machine

/-! ### Loads and stores (R278) -/

/-- Extend a loaded value to a register. -/
def extend (signed : Bool) (n : Nat) (x : Nat) : Word :=
  if signed && decide (2 ^ (8 * n - 1) ≤ x) then BitVec.ofInt 64 ((x : Int) - 2 ^ (8 * n)) else wordOf x

/-- Size in bytes of a MEM type. -/
def memBytes : MemTy → Nat
  | .i8 | .n8 => 1
  | .i16 | .n16 => 2
  | .i32 | .n32 => 4
  | .i64 => 8

/-- Whether a MEM type is signed. -/
def memSigned : MemTy → Bool
  | .n8 | .n16 | .n32 => false
  | _ => true

/-- Load n bytes at an address into a register (R48, R278). -/
def loadInto (s : State) (d : Reg) (va : Word) (n : Nat) (signed : Bool) : Except Exit State :=
  match observeBytes s va.toNat n with
  | .error x => .error x
  | .ok _ => (lift 0 (loadBytes s s.cur va.toNat n)).map fun r => wr r.1 d (extend signed n r.2)

/-- A plain load. -/
def plainLoad (d a : Reg) (i : BitVec 16) (s : State) (n : Nat) (signed : Bool) : Out :=
  scalar s [a] [d] fun s => loadInto s d (rd s a + sext64 i) n signed

def execLdI8 (d a : Reg) (i : BitVec 16) (s : State) : Out := plainLoad d a i s 1 true
def execLdI16 (d a : Reg) (i : BitVec 16) (s : State) : Out := plainLoad d a i s 2 true
def execLdI32 (d a : Reg) (i : BitVec 16) (s : State) : Out := plainLoad d a i s 4 true
def execLdI64 (d a : Reg) (i : BitVec 16) (s : State) : Out := plainLoad d a i s 8 true
def execLdN8 (d a : Reg) (i : BitVec 16) (s : State) : Out := plainLoad d a i s 1 false
def execLdN16 (d a : Reg) (i : BitVec 16) (s : State) : Out := plainLoad d a i s 2 false
def execLdN32 (d a : Reg) (i : BitVec 16) (s : State) : Out := plainLoad d a i s 4 false

/-- Store the low n bytes of a value. -/
def storeFrom (s : State) (va v : Word) (n : Nat) (rel : Option Scope) : Except Exit State :=
  lift 1 (storeBytes s s.cur va.toNat n v.toNat rel)

/-- A plain store. -/
def plainStore (d a : Reg) (i : BitVec 16) (s : State) (n : Nat) : Out :=
  scalar s [d, a] [] fun s => storeFrom s (rd s a + sext64 i) (rd s d) n none

def execSt8 (d a : Reg) (i : BitVec 16) (s : State) : Out := plainStore d a i s 1
def execSt16 (d a : Reg) (i : BitVec 16) (s : State) : Out := plainStore d a i s 2
def execSt32 (d a : Reg) (i : BitVec 16) (s : State) : Out := plainStore d a i s 4
def execSt64 (d a : Reg) (i : BitVec 16) (s : State) : Out := plainStore d a i s 8

/-- An acquire makes later accesses wait for its value (R163), which each word of the model does by acting whole. -/
def execLdOrdered (d a : Reg) (_ : Scope) (_ : Bool) (t : MemTy) (s : State) : Out :=
  scalar s [a] [d] fun s => loadInto s d (rd s a) (memBytes t) (memSigned t)

/-- The checks of an access's address, which come before its release steps (R275). -/
def trapFirst {α : Type} (r : Except Miss α) : Except Miss Unit :=
  match r with
  | .error (.trap c) => .error (.trap c)
  | _ => .ok ()

/-- A release completes its steps at its scope before its own write (R162), its address checked first (R275). -/
def execStOrdered (a b : Reg) (sc : Scope) (rel : Bool) (t : MemTy) (s : State) : Out :=
  scalar s [a, b] [] fun s =>
    if rel then
      (lift 1 ((trapFirst (storeBytes s s.cur (rd s a).toNat (memBytes t) (rd s b).toNat (some sc))).bind fun _ =>
        releaseSteps s s.cur sc)).bind fun s => storeFrom s (rd s a) (rd s b) (memBytes t) (some sc)
    else storeFrom s (rd s a) (rd s b) (memBytes t) none

/-! ### Watched loads (R121, R280) -/

/-- Place a watch of the current thread on a line: at most four, the oldest replaced; a line that carries one already is
watched anew, as the youngest (DESIGN CHOICE, log 96). -/
def placeWatch (s : State) (line : Nat) : State :=
  modCur s fun th =>
    let l := th.watches.filter (·.line != line) ++ [{ line := line, broken := false }]
    { th with watches := l.drop (l.length - Config.watchesMax) }

/-- A load performed at the home with its watch; a mapped line takes none (R276, R280). -/
def watchedLine (s : State) (a : AgentId) (e : Env) (sp : Space) (va n : Nat) : Except Miss (State × Nat) :=
  (drainOfLine s a sp.tag va).bind fun s =>
    match mappedAt s sp.tag va with
    | some (_, _, m) => (forwardedLine s e sp (sp.key va) m).map fun r => (r.1, lineNat r.2 (va % 128) n)
    | none =>
      (pushFirst s a e sp (sp.key va)).bind fun s =>
        (denied sp va (readHome s sp (sp.key va))).map fun r => (placeWatch r.1 (sp.key va), lineNat r.2.data (va % 128) n)

/-- `ldw` at an address. -/
def watchedLoad (s : State) (a : AgentId) (va n : Nat) : Except Miss (State × Nat) :=
  let e := envOf s a
  (addressCheck s e va n).bind fun _ =>
    if va % n ≠ 0 then .error (.trap cMisaligned)
    else match addrKind va with
      | .loc _ => loadBytes s a va n
      | .snap _ => (loadBytes s a va n).map fun r => (placeWatch r.1 (e.sp.key va), r.2)
      | .table o => (tableAccess s e o n).bind fun sp => watchedLine s a e sp va n
      | .plain => watchedLine s a e e.sp va n
      | _ => .error (.trap cBadAddress)

def execLdw (d a : Reg) (_ : Scope) (_ : Bool) (t : MemTy) (s : State) : Out :=
  scalar s [a] [d] fun s =>
    (observeBytes s (rd s a).toNat (memBytes t)).bind fun _ =>
      (lift 0 (watchedLoad s s.cur (rd s a).toNat (memBytes t))).map fun r => wr r.1 d (extend (memSigned t) (memBytes t) r.2)

/-! ### Prefetch and cleans (R285, R286) -/

/-- Count a prefetch in flight. -/
def addPrefetch (s : State) (w : Who) : State := modWho s w fun th => { th with prefetches := th.prefetches + 1 }

/-- A prefetch of a line whose home holds it leaves as a fill; any other is a read of its channel (R285, R449). -/
def prefetchLine (s : State) (e : Env) (sp : Space) (key : Nat) : State :=
  if (ffind s.copies (copyKey key e.cache)).isSome || (privAt s key e.col).isSome || (mappedAt s sp.tag (lineVa key)).isSome then s
  else match (ffind s.home key).filter fun h => !h.away with
    | some _ =>
      match serveHome s sp key with
      | .error _ => s
      | .ok (s, h) =>
        let s := setHome s key (h.record s (fullEntry e.cache) 0#8)
        send (addPrefetch s e.who) (.fill e.cache key h.fullCopy e.who)
    | none =>
      match lineCell s sp.part key (homeState s sp key).cxl with
      | .error _ => s
      | .ok (s, cell, _) =>
        if inStack cell then
          sendChan (addPrefetch (nameHome s sp key) e.who) (chanKey cell)
            { op := 1, addr := cell % 2 ^ 32, data := 0#1024, mask := 0#128, line := key, fillFor := some (e.cache, e.who)
              performed := none, order := 0 }
        else match fillFull s sp key e.cache with
          | .ok (s, _) => s
          | .error _ => s

/-- `pf` at an address: it never traps beyond the first check, and beyond eight in flight it is dropped (R285, R301). -/
def prefetchAt (s : State) (a : AgentId) (va : Nat) : Except Miss State :=
  let e := envOf s a
  match addrKind va with
  | .bad => .error (.trap cBadAddress)
  | .plain =>
    if ((threadOf s a).map (·.prefetches)).getD 0 < Config.prefetchMax then .ok (prefetchLine s e e.sp (e.sp.key va)) else .ok s
  | _ => .ok s

def execPf (a : Reg) (s : State) : Out := scalar s [a] [] fun s => lift 0 (prefetchAt s s.cur (rd s a).toNat)

/-- Place what an agent has stored into a line of a PERSIST extent in its device's persistence domain (R173, R286, R460, R464). -/
def persistLine (s : State) (part key : Nat) (who : Who) : State :=
  if (lineExtent s part key (homeState s (spaceOfLine s key) key).cxl).any (·.persist) then
    { s with cxl := s.cxl.map fun p => (p.1, { p.2 with stores := p.2.stores.map fun x =>
        if x.line = key ∧ x.by_ = who ∧ x.place = .home then { x with placed := true } else x }) }
  else s

/-- The home writes a line's current value to its backing memory (R286): of a mapped line the scratchpad's (R108); with
`persist`, into the persistence domain of a CXL device. -/
def cleanHome (s : State) (e : Env) (sp : Space) (key : Nat) (persist : Bool) : Except Miss (State × HomeLine) :=
  let kept (s : State) : State := if persist then persistLine s sp.part key e.who else s
  match mappedAt s sp.tag (lineVa key) with
  | some (_, _, m) =>
    (forwardedLine s e sp key m).bind fun x =>
      (denied sp (lineVa key) (reachHome x.1 sp key none)).map fun r =>
        let h := { r.2 with data := x.2, dirty := BitVec.allOnes 128 }
        (kept (writeBack (setHome r.1 key h) sp.part key), h)
  | none => (denied sp (lineVa key) (reachHome s sp key none)).map fun r => (kept (writeBack r.1 sp.part key), r.2)

/-- Whether UNACK has room for a counted access at a line's home and for the push before it (R301). -/
def cleanRoom (s : State) (a : AgentId) (e : Env) (key : Nat) : Bool :=
  decide (((threadOf s a).map (·.unack)).getD 0 + (if (privAt s key e.col).isSome then 1 else 0) < Config.unackMax)

/-- A clean counted in UNACK until it is acknowledged. -/
def cleaned (s : State) (e : Env) : State := sendAck (addUnack s e.who) e.who false

/-- A clean of a line (R108, R149, R286): drained, pushed, written back, and the issuer's own copies given up; of a read-only
name every copy goes. -/
def cleanLine (s : State) (a : AgentId) (e : Env) (sp : Space) (va : Nat) (persist : Bool) : Except Miss State :=
  let key := sp.key va
  (drainOfLine s a sp.tag va).bind fun s =>
    if !cleanRoom s a e key then .error (.wait s)
    else
      (cleanHome (pushNow s sp key e.col e.who) e sp key persist).map fun r =>
        if (mappedAt s sp.tag va).isSome then cleaned r.1 e
        else if !r.2.w then cleaned (evictHome r.1 key) e
        else
          let gone := e.cache :: (if r.2.col = e.col then [] else [512 + e.col])
          let s := dropCopies (gone.foldl (fun s c => settleCache s c key) r.1) key gone
          cleaned { s with home := fmod s.home key fun h => gone.foldl HomeLine.free h } e

/-- `cln` and `cln.persist` at an address (R286, R405, R472). -/
def cleanAt (s : State) (a : AgentId) (va : Nat) (persist : Bool) : Except Miss State :=
  let e := envOf s a
  let room (s : State) (key : Nat) : Except Miss Unit := if cleanRoom s a e key then .ok () else .error (.wait s)
  match addrKind va with
  | .bad => .error (.trap cBadAddress)
  | .loc o => (localBlock s e o 1).map fun _ => s
  | .launch o => (launchCol s e o).map fun _ => s
  | .snap o =>
    if (ffind s.regions (o / 256)).any fun r => r.part == e.sp.part then (room s (e.sp.key va)).map fun _ => cleaned s e
    else .error (.deny .absent e.sp.tag va)
  | .table o => (tableAccess s e o 1).bind fun sp => cleanLine s a e sp va persist
  | .domain pkg k o =>
    (drainOfLine s a 0 va).bind fun s =>
      if pkg = s.pkg.domain then
        match domainAt s k o 1 with
        | none => .error (.deny .malformed 0 va)
        | some sp =>
          (room s (sp.key o)).bind fun _ =>
            match cleanHome (pushNow (landOwn s sp (sp.key o) e.col) sp (sp.key o) e.col e.who) e sp (sp.key o) persist with
            | .error (.wait t) => .error (.wait t)
            | .error _ => .error (.deny .malformed 0 va)
            | .ok r => .ok (cleaned r.1 e)
      else (room s (e.sp.key va)).map fun _ => sendRemote (addUnack s e.who) e.who e.col va true false 0#64 0
  | .plain => cleanLine s a e e.sp va persist

def execCln (a : Reg) (s : State) : Out := scalar s [a] [] fun s => lift 1 (cleanAt s s.cur (rd s a).toNat false)
def execClnPersist (a : Reg) (s : State) : Out := scalar s [a] [] fun s => lift 1 (cleanAt s s.cur (rd s a).toNat true)

/-! ### Fences (R162, R163, R173, R177, R287) -/

/-- A fence at `.blk` or wider makes earlier stores to code visible to the group's fetches, or to those of a host core (R177). -/
def refetch (s : State) (sc : Scope) : State :=
  if sc = .grp then s
  else match s.cur, groupOf s.cur with
    | .host c _, _ => { s with cols := fmod s.cols c fun x => { x with icache := [] } }
    | _, some g => dropCode s (streamOf g)
    | _, none => s

/-- What `cln.persist` has placed in a device's persistence domain becomes durable (R173, R464); a cell all of whose stores are
durable needs no record of them. -/
def CxlPort.flush (p : CxlPort) : CxlPort :=
  let l := p.stores.map fun x => if x.placed then { x with durable := true } else x
  let open_ (c : Nat) : Bool := l.any fun x => x.cell == c && !x.durable
  { p with flushes := p.flushes + 1, stores := l.filter fun x => open_ x.cell, bases := p.bases.filter fun b => open_ b.1 }

/-- One port's part of a Global Persistent Flush (R464): a machine check where it cannot flush. -/
def flushPort (s : State) (part port : Nat) : State :=
  match ffind s.cxl port with
  | none => s
  | some p =>
    if p.linkUp && (!p.persistent || p.flushOk) then
      { s with cxl := fset s.cxl port p.flush }
    else
      (machineCheck s part { kind := 10, unit := 10, col := none, quad := 4 * port + 3, core := 0xFF, index := port, asid := 0xFFFF, va := 0
                             info := Config.syndrome s.freeCtr }).1

/-- Global Persistent Flush on both ports (R464). -/
def persistentFlush (s : State) (part : Nat) : State :=
  let s := s.parts.foldl (fun s p => flushTier s p.1) s
  flushPort (flushPort s part 0) part 1

/-- A release or full fence has ended: a later post of a plain store follows it (R171). -/
def fenceDone (s : State) (sc : Scope) : State :=
  let k := scopeOn (isHost s.cur) sc
  modCur s fun th => { th with fences := (k, []) :: th.fences.filter fun f => f.1 != k }

/-- A full fence at a scope: its steps are a release's, but one at `.die` awaits its column's pushes to every home, so that no agent of
the die still reads what a store before it has replaced (R158, R162; DEDUCED, log 141). -/
def fullFence (s : State) (sc : Scope) : Except Miss State :=
  (releaseSteps s s.cur (if sc = .die then .pkg else sc)).map fun s =>
    fenceDone (refetch (if sc = .sys then persistentFlush s (envOf s s.cur).sp.part else s) sc) sc

def execFence (sc : Scope) (s : State) : Out := scalar s [] [] fun s => lift 1 (fullFence s sc)
def execFenceAcq (sc : Scope) (s : State) : Out := scalar s [] [] fun s => .ok (refetch s sc)
def execFenceRel (sc : Scope) (s : State) : Out :=
  scalar s [] [] fun s => (lift 1 (releaseSteps s s.cur sc)).map fun s => fenceDone (refetch s sc) sc

/-! ### Atomics (R283) -/

/-- Whether a semantics releases. -/
def semReleases : Sem → Bool
  | .rel | .ar => true
  | _ => false

/-- New value of an atomic operation on w bits. -/
def amoValue (op : AmoOp) (w old b : Nat) : Nat :=
  let x := old % 2 ^ w
  let y := b % 2 ^ w
  let t : ITy := if w = 64 then .i64 else .i32
  match op with
  | .swap => y
  | .add => (x + y) % 2 ^ w
  | .and => Nat.land x y
  | .or => Nat.lor x y
  | .xor => Nat.xor x y
  | .minI => if intOf t y < intOf t x then y else x
  | .maxI => if intOf t x < intOf t y then y else x
  | .minN => if y < x then y else x
  | .maxN => if x < y then y else x
  | .fadd => (fpAdd (if w = 64 then descF64 else descF32) .rne x y).1

/-- An atomic with its release steps and its observation. -/
def atomicWord (s : State) (d a : Reg) (sc : Scope) (sem : Sem) (w64 : Bool) (f : Nat → Nat) : Except Exit State :=
  let n := if w64 then 8 else 4
  match observeBytes s (rd s a).toNat n with
  | .error x => .error x
  | .ok _ =>
    let r : Except Miss State :=
      if semReleases sem then (atomicCheck s s.cur (rd s a).toNat n).bind fun _ => releaseSteps s s.cur sc else .ok s
    (lift 2 (r.bind fun t => atomicBytes t s.cur (rd s a).toNat n f)).map fun r => wr r.1 d (wordOf r.2)

/-- One `amo` operation. -/
def amoWord (op : AmoOp) (d a b : Reg) (sc : Scope) (sem : Sem) (w64 : Bool) (s : State) : Out :=
  scalar s [a, b] [d] fun s =>
    atomicWord s d a sc sem w64 fun old => amoValue op (if w64 then 64 else 32) old (rd s b).toNat

def execAmoSwap (d a b : Reg) (sc : Scope) (sem : Sem) (w64 : Bool) (s : State) : Out := amoWord .swap d a b sc sem w64 s
def execAmoAdd (d a b : Reg) (sc : Scope) (sem : Sem) (w64 : Bool) (s : State) : Out := amoWord .add d a b sc sem w64 s
def execAmoAnd (d a b : Reg) (sc : Scope) (sem : Sem) (w64 : Bool) (s : State) : Out := amoWord .and d a b sc sem w64 s
def execAmoOr (d a b : Reg) (sc : Scope) (sem : Sem) (w64 : Bool) (s : State) : Out := amoWord .or d a b sc sem w64 s
def execAmoXor (d a b : Reg) (sc : Scope) (sem : Sem) (w64 : Bool) (s : State) : Out := amoWord .xor d a b sc sem w64 s
def execAmoMinI (d a b : Reg) (sc : Scope) (sem : Sem) (w64 : Bool) (s : State) : Out := amoWord .minI d a b sc sem w64 s
def execAmoMaxI (d a b : Reg) (sc : Scope) (sem : Sem) (w64 : Bool) (s : State) : Out := amoWord .maxI d a b sc sem w64 s
def execAmoMinN (d a b : Reg) (sc : Scope) (sem : Sem) (w64 : Bool) (s : State) : Out := amoWord .minN d a b sc sem w64 s
def execAmoMaxN (d a b : Reg) (sc : Scope) (sem : Sem) (w64 : Bool) (s : State) : Out := amoWord .maxN d a b sc sem w64 s
def execAmoFadd (d a b : Reg) (sc : Scope) (sem : Sem) (w64 : Bool) (s : State) : Out := amoWord .fadd d a b sc sem w64 s

/-- The compare value is the destination's. -/
def execCas (d a b : Reg) (sc : Scope) (sem : Sem) (w64 : Bool) (s : State) : Out :=
  scalar s [d, a, b] [d] fun s =>
    let w := if w64 then 64 else 32
    atomicWord s d a sc sem w64 fun old => if old = (rd s d).toNat % 2 ^ w then (rd s b).toNat % 2 ^ w else old

/-! ### The conditional multi-line store (R121, R281, R282) -/

/-- One line of a commit list: its address, its data and its mask. -/
structure CommitLine where
  va : Nat
  data : LineData
  mask : BitVec 128
  deriving DecidableEq, Repr

/-- Read the lines of a commit list with plain loads: each entry and its data, all before a LINE is checked (R281; DESIGN CHOICE, log
134). -/
def commitLines (s : State) (a : AgentId) (list : Nat) : Nat → Except Miss (State × List CommitLine)
  | 0 => .ok (s, [])
  | k + 1 =>
    match commitLines s a list k with
    | .error m => .error m
    | .ok (s, l) =>
      match loadBytes s a (list + 0x20 + 32 * k) 32 with
      | .error m => .error m
      | .ok (s, x) =>
        match loadBytes s a (x / 2 ^ 64 % 2 ^ 64) 128 with
        | .error m => .error m
        | .ok (s, d) => .ok (s, l ++ [{ va := x % 2 ^ 64, data := BitVec.ofNat 1024 d, mask := BitVec.ofNat 128 (x / 2 ^ 128) }])

/-- Whether a LINE of a commit list may be named (R281, R472). -/
def commitLineOk (l : CommitLine) : Bool :=
  decide (l.va % 128 = 0) && match addrKind l.va with
    | .domain _ _ _ => false
    | _ => true

/-- Why a named line refuses the commit before it is sent (R275, R405, R434). -/
def commitCheck (s : State) (e : Env) : List CommitLine → Except Miss State
  | [] => .ok s
  | l :: t =>
    match addrKind l.va with
    | .bad | .launch _ => .error (.trap cBadAddress)
    | .snap _ => if l.mask = 0#128 then commitCheck s e t else .error (.trap cProtWrite)
    | .table o => (tableAccess s e o 128).bind fun _ => commitCheck s e t
    | .plain =>
      if l.mask = 0#128 then commitCheck s e t else (checkWrite s e e.sp (e.sp.key l.va)).bind fun s => commitCheck s e t
    | _ => commitCheck s e t

/-- Space of a commit line. -/
def commitSpace (e : Env) (va : Nat) : Space :=
  match addrKind va with
  | .table _ => tableSpace e.sp.part
  | _ => e.sp

/-- The named lines as the commit finds them at their homes: the group's stores drained, its slice's bytes pushed, what an exclusive
holder has stored written back, which is a write of other agents (R121, R143, R161, R276). -/
def commitPush (s : State) (a : AgentId) (e : Env) : List CommitLine → Except Miss State
  | [] => .ok s
  | l :: t =>
    let sp := commitSpace e l.va
    (drainOfLine s a sp.tag l.va).bind fun s =>
      (pushFirst s a e sp (sp.key l.va)).bind fun s => commitPush (recallExcl s (sp.key l.va) none) a e t

/-- Whether a commit line is mapped onto a scratchpad, where it has no watch (R280). -/
def commitMapped (s : State) (e : Env) (l : CommitLine) : Bool := (mappedAt s (commitSpace e l.va).tag l.va).isSome

/-- Status of a commit (R280, R282). -/
def commitStatus (s : State) (a : AgentId) (e : Env) (l : List CommitLine) : Nat :=
  let w := ((threadOf s a).map (·.watches)).getD []
  let keys := l.map fun x => (commitSpace e x.va).key x.va
  let homes := (l.map fun x => homeCol s (commitSpace e x.va) ((commitSpace e x.va).key x.va)).eraseDups
  if (l.any fun x => commitMapped s e x) || keys.any fun k => !(w.any fun x => x.line == k) then 2
  else if 1 < homes.length then 3
  else if w.any fun x => keys.contains x.line && x.broken then 1
  else 0

/-- Home of a commit's first line, which decides it. -/
def commitHome (s : State) (e : Env) (l : List CommitLine) : Nat :=
  (l.head?.map fun x => homeCol s (commitSpace e x.va) ((commitSpace e x.va).key x.va)).getD 0

/-- Write the lines of a commit at their home in one step, for the commit's response. -/
def commitWrite (s : State) (e : Env) (j : Nat) : List CommitLine → State
  | [] => s
  | l :: t =>
    let sp := commitSpace e l.va
    commitWrite (performWrite s sp (sp.key l.va) l.data l.mask (some e.cache) e.who (.join j) true) e j t

/-- The response of a commit that succeeds waits for the acknowledgements of every line it writes (R137, R282). -/
def commitDone (s : State) (e : Env) (l : List CommitLine) : State :=
  let w := l.filter fun x => x.mask != 0#128
  if w.isEmpty then sendAck s e.who true
  else
    let j := s.nextId
    commitWrite { s with pendw := fset s.pendw j { left := w.length, who := e.who, resp := true, coarse := none }, nextId := j + 1 } e j w

/-- Room in the store buffer for one more entry (R301): its oldest stores drain, or the word stalls. -/
def bufferRoom (s : State) (a : AgentId) : Except Miss State :=
  match drainN s a ((sbOf s a).length + 1 - Config.storeBufferMax) with
  | some s => .ok s
  | none => .error (.wait s)

/-- The lines that a commit list names, read with plain loads and checked (R281); a misaligned list is CST_LIST too (DESIGN CHOICE,
log 133). -/
def commitList (s : State) (a : AgentId) (list : Nat) : Except Miss (State × List CommitLine) :=
  if 2 ^ 57 ≤ list then .error (.trap cBadAddress)
  else if list % 32 ≠ 0 then .error (.trap cCstList)
  else
    (loadBytes s a list 32).bind fun h =>
      let n := h.2 % 256
      if n = 0 ∨ 4 < n ∨ h.2 / 256 ≠ 0 then .error (.trap cCstList)
      else
        (commitLines h.1 a list n).bind fun r =>
          if !(r.2.all commitLineOk) || (r.2.map (·.va)).eraseDups.length != n then .error (.trap cCstList) else .ok r

/-- The commit of a list of lines, decided at the home under one tag (R174, R282). -/
def commit (s : State) (a : AgentId) (l : List CommitLine) (rel : Option Scope) : Except Miss (State × Nat) :=
  let e := envOf s a
  (commitCheck s e l).bind fun s =>
  ((match rel with
    | some sc => releaseSteps s a sc
    | none => .ok s) : Except Miss State).bind fun s =>
  (commitPush s a e l).bind fun s =>
  (bufferRoom s a).bind fun s =>
    if atomicRoom s a then
      let st := commitStatus s a e l
      let s := tagged (addAtomic s e.who) (commitHome s e l) e.who st
      let s := if st = 0 then commitDone s e l else sendAck s e.who true
      .ok (modThread s a fun th => { th with watches := [] }, st)
    else .error (.wait s)

/-- The list and the data are plain loads, the rest is an atomic (R281, R436). -/
def execCst (d a : Reg) (sc : Scope) (rel : Bool) (s : State) : Out :=
  scalar s [a] [d] fun s =>
    (lift 0 (commitList s s.cur (rd s a).toNat)).bind fun r =>
      (lift 2 (commit r.1 r.1.cur r.2 (if rel then some sc else none))).map fun r => wr r.1 d (wordOf r.2)

end Sys2Proof.Machine
end

