-- ==== Sys2Proof/Machine/Peer.lean ====
section
/-! DEFINITION. Requests from outside the package: tags and the replay caches of the homes, and the admission of launch
packets (R174, R419 to R421, R473). -/

namespace Sys2Proof.Machine

/-! ### Replay caches (R174) -/

/-- What a target finds of a tag: new, a duplicate with its cached result, or too old. -/
inductive TagState | fresh | duplicate (v : Word) | stale
  deriving DecidableEq, Repr

/-- The state of a tag at its target home; sequences count modulo m. -/
def tagState (s : State) (home source seq m : Nat) : TagState :=
  let l := replaysOf s home source
  match newestSeq m (l.map (·.seq)) with
  | none => .fresh
  | some n =>
    if 255 < seqBehind m n seq ∧ seqBehind m n seq < m / 2 then .stale
    else match l.find? fun r => r.seq == seq with
      | some r => .duplicate r.result
      | none => .fresh

/-- A home performs a new request: its result is cached within the window of the newest sequence seen (R174). -/
def keepFresh (s : State) (home source seq m : Nat) (v : Word) : State :=
  keepReplay s home source seq m ((newestSeq m (seq :: (replaysOf s home source).map (·.seq))).getD seq) v

/-- The machine check of a request too old to be told from a duplicate (R174). -/
def staleCheck (s : State) (part col asid va : Nat) : State :=
  (machineCheck s part
    { kind := 8, unit := Config.noUnit % 256, col := some col, quad := 0, core := 0xFF, index := 0, asid := asid, va := va
      info := Config.syndrome s.freeCtr }).1

/-! ### Launch packets (R419 to R421) -/

/-- A 256-byte record as one value. -/
def recordOf (l : List Byte) : BitVec 2048 := BitVec.ofNat 2048 (natOfBytes (l.take 256))

/-- Whether a packet passes the access-control table (R420). -/
def packetAllowed (s : State) (p : LaunchPacket) : Bool :=
  (ffind s.cols p.column.toNat).any fun c =>
    ((ffind c.queues p.queue.toNat).map fun q => q.cfg.getLsbD 0 && q.cfg.getLsbD 1).getD false &&
    ((ffind s.act p.src.toNat).getD 0#256).getLsbD (8 * p.column.toNat + p.queue.toNat)

/-- Source number of a package's launch packets in the replay caches, apart from those of its agents. -/
def packetSource (src : Nat) : Nat := 2 ^ 65 + src

/-- Admit a launch packet, acknowledged to its sender, or drop it, and what the sender is told: admitted (now or before), refused, or
stale (R174, R420, R421). -/
def admitPacket (s : State) (p : LaunchPacket) (who : Who) : State × RemoteAnswer :=
  if packetAllowed s p then
    match tagState s p.column.toNat (packetSource p.src.toNat) p.seq.toNat (2 ^ 64) with
    | .fresh =>
      let post : Post :=
        { post := 0#64, packet := some (recordOf p.record), barrier := p.flags.getLsbD 0
          badPacket := p.flags.extractLsb' 1 7 != 0#7 || p.resv != 0#24, rel := some .sys, fences := [], launcher := p.column.toNat, headAt := 0, cfg := none }
      (postTo (keepFresh s p.column.toNat (packetSource p.src.toNat) p.seq.toNat (2 ^ 64) 0#64) p.column.toNat p.queue.toNat 0#64 post who
        , .value 0)
    | .duplicate _ => (sendAck s who false, .value 0)
    | .stale => (staleCheck s (((ffind s.cols p.column.toNat).map (·.part)).getD 0) p.column.toNat 0xFFFF 0, .stale)
  else (s, .refused)

/-- A launch packet from its 272 bytes; the source is the link's (R419). -/
def packetOf (src : Nat) (l : List Byte) : LaunchPacket :=
  let byte (k : Nat) : Byte := l.getD k 0#8
  { src := BitVec.ofNat 16 src, column := byte 2, queue := byte 3, flags := byte 4, resv := byte 7 ++ byte 6 ++ byte 5
    seq := wordOf (natOfBytes ((l.drop 8).take 8)), record := (l.drop 16).take 256 }

end Sys2Proof.Machine
end

