-- ==== Sys2Proof/Machine/ScalarInt.lean ====
section
/-! DEFINITION. Scalar integer words: register and immediate forms, constants, branches, jumps, lane-task control (R207
to R222). -/

namespace Sys2Proof.Machine

/-! ### Shapes -/

/-- A word that writes a function of one register. -/
def scalar1 (d a : Reg) (s : State) (f : Word → Word) : Out := scalar s [a] [d] fun s => .ok (wr s d (f (rd s a)))

/-- A word that writes a function of two registers. -/
def scalar2 (d a b : Reg) (s : State) (f : Word → Word → Word) : Out :=
  scalar s [a, b] [d] fun s => .ok (wr s d (f (rd s a) (rd s b)))

/-! ### Values -/

/-- Bits [127:64] of a product (R209). -/
def highProduct (x y : Int) : Word := BitVec.ofInt 64 (x * y / 2 ^ 64)

/-- Signed quotient (R211). -/
def divSigned (a b : Word) : Word := if b = 0#64 then BitVec.allOnes 64 else BitVec.ofInt 64 (a.toInt.tdiv b.toInt)

/-- Signed remainder (R211). -/
def remSigned (a b : Word) : Word := if b = 0#64 then a else BitVec.ofInt 64 (a.toInt.tmod b.toInt)

/-- Leading zeros of n bits from the top (R212). -/
def leadingZeros {w : Nat} (x : BitVec w) : Nat → Nat
  | 0 => 0
  | n + 1 => if x.getLsbD n then 0 else 1 + leadingZeros x n

/-- Trailing zeros of n bits from bit k (R212). -/
def trailingZeros {w : Nat} (x : BitVec w) (k : Nat) : Nat → Nat
  | 0 => 0
  | n + 1 => if x.getLsbD k then 0 else 1 + trailingZeros x (k + 1) n

/-- The eight bytes reversed (R212). -/
def swapBytes (x : Word) : Word :=
  byteAt x 0 ++ byteAt x 1 ++ byteAt x 2 ++ byteAt x 3 ++ byteAt x 4 ++ byteAt x 5 ++ byteAt x 6 ++ byteAt x 7

/-- WIDTH of a field description, at most 64 (R213). -/
def fieldWidth (b : Word) : Nat := min (bitsOf b 14 8) 64

/-- POS of a field description (R213). -/
def fieldPos (b : Word) : Nat := bitsOf b 5 0

/-- Low w bits, sign-extended; 0 when w = 0 (R213). -/
def signField (t : Word) (w : Nat) : Word :=
  let u := t.toNat % 2 ^ w
  if w = 0 then 0#64 else BitVec.ofInt 64 (if 2 ^ (w - 1) ≤ u then (u : Int) - 2 ^ w else u)

/-- Insert the low w bits of a at bit p of x; bits beyond 63 are dropped (R213). -/
def insertField (x a : Word) (p w : Nat) : Word :=
  let m : Word := BitVec.ofNat 64 ((2 ^ w - 1) * 2 ^ p)
  (x &&& ~~~m) ||| ((a <<< p) &&& m)

/-- Offset of a transfer in bytes: four times a signed word offset (R179). -/
def byteOffset {w : Nat} (o : BitVec w) : Word := sext64 o <<< 2

/-! ### Register forms (R209 to R213) -/

def execAdd (d a b : Reg) (s : State) : Out := scalar2 d a b s fun x y => x + y
def execSub (d a b : Reg) (s : State) : Out := scalar2 d a b s fun x y => x - y
def execMul (d a b : Reg) (s : State) : Out := scalar2 d a b s fun x y => x * y
def execMulhI (d a b : Reg) (s : State) : Out := scalar2 d a b s fun x y => highProduct x.toInt y.toInt
def execMulhN (d a b : Reg) (s : State) : Out := scalar2 d a b s fun x y => highProduct x.toNat y.toNat
def execDivI (d a b : Reg) (s : State) : Out := scalar2 d a b s divSigned
def execDivN (d a b : Reg) (s : State) : Out :=
  scalar2 d a b s fun x y => if y = 0#64 then BitVec.allOnes 64 else x / y
def execRemI (d a b : Reg) (s : State) : Out := scalar2 d a b s remSigned
def execRemN (d a b : Reg) (s : State) : Out := scalar2 d a b s fun x y => if y = 0#64 then x else x % y
def execAnd (d a b : Reg) (s : State) : Out := scalar2 d a b s fun x y => x &&& y
def execOr (d a b : Reg) (s : State) : Out := scalar2 d a b s fun x y => x ||| y
def execXor (d a b : Reg) (s : State) : Out := scalar2 d a b s fun x y => x ^^^ y
def execAndn (d a b : Reg) (s : State) : Out := scalar2 d a b s fun x y => x &&& ~~~y
def execShl (d a b : Reg) (s : State) : Out := scalar2 d a b s fun x y => x <<< bitsOf y 5 0
def execShr (d a b : Reg) (s : State) : Out := scalar2 d a b s fun x y => x >>> bitsOf y 5 0
def execSra (d a b : Reg) (s : State) : Out := scalar2 d a b s fun x y => x.sshiftRight (bitsOf y 5 0)
def execRol (d a b : Reg) (s : State) : Out := scalar2 d a b s fun x y => x.rotateLeft (bitsOf y 5 0)
def execMinI (d a b : Reg) (s : State) : Out := scalar2 d a b s fun x y => if y.slt x then y else x
def execMinN (d a b : Reg) (s : State) : Out := scalar2 d a b s fun x y => if y.ult x then y else x
def execMaxI (d a b : Reg) (s : State) : Out := scalar2 d a b s fun x y => if x.slt y then y else x
def execMaxN (d a b : Reg) (s : State) : Out := scalar2 d a b s fun x y => if x.ult y then y else x
def execSltI (d a b : Reg) (s : State) : Out := scalar2 d a b s fun x y => word01 (x.slt y)
def execSltN (d a b : Reg) (s : State) : Out := scalar2 d a b s fun x y => word01 (x.ult y)
def execSeq (d a b : Reg) (s : State) : Out := scalar2 d a b s fun x y => word01 (x == y)
/-- xa if xc ≠ 0, else xb. -/
def execSel (d a b c : Reg) (s : State) : Out :=
  scalar s [a, b, c] [d] fun s => .ok (wr s d (if rd s c ≠ 0#64 then rd s a else rd s b))
def execClz (d a : Reg) (s : State) : Out := scalar1 d a s fun x => wordOf (leadingZeros x 64)
def execCtz (d a : Reg) (s : State) : Out := scalar1 d a s fun x => wordOf (trailingZeros x 0 64)
def execPopc (d a : Reg) (s : State) : Out := scalar1 d a s fun x => wordOf (popCount x)
def execBswap (d a : Reg) (s : State) : Out := scalar1 d a s swapBytes
def execBextI (d a b : Reg) (s : State) : Out :=
  scalar2 d a b s fun x y => signField (x >>> fieldPos y) (fieldWidth y)
def execBextN (d a b : Reg) (s : State) : Out :=
  scalar2 d a b s fun x y => wordOf ((x >>> fieldPos y).toNat % 2 ^ fieldWidth y)
/-- The destination is a source as well. -/
def execBins (d a b : Reg) (s : State) : Out :=
  scalar s [d, a, b] [d] fun s => .ok (wr s d (insertField (rd s d) (rd s a) (fieldPos (rd s b)) (fieldWidth (rd s b))))
def execLea (d a b : Reg) (n : BitVec 2) (s : State) : Out := scalar2 d a b s fun x y => x + (y <<< n.toNat)

/-! ### Immediate forms (R210, R214 to R216) -/

def execAddImm (d a : Reg) (i : BitVec 16) (s : State) : Out := scalar1 d a s fun x => x + sext64 i
def execMulImm (d a : Reg) (i : BitVec 16) (s : State) : Out := scalar1 d a s fun x => x * sext64 i
def execAndImm (d a : Reg) (i : BitVec 16) (s : State) : Out := scalar1 d a s fun x => x &&& zext64 i
def execOrImm (d a : Reg) (i : BitVec 16) (s : State) : Out := scalar1 d a s fun x => x ||| zext64 i
def execXorImm (d a : Reg) (i : BitVec 16) (s : State) : Out := scalar1 d a s fun x => x ^^^ zext64 i
def execSltIImm (d a : Reg) (i : BitVec 16) (s : State) : Out := scalar1 d a s fun x => word01 (x.slt (sext64 i))
def execSltNImm (d a : Reg) (i : BitVec 16) (s : State) : Out := scalar1 d a s fun x => word01 (x.ult (sext64 i))
def execSeqImm (d a : Reg) (i : BitVec 16) (s : State) : Out := scalar1 d a s fun x => word01 (x == sext64 i)
def execShlImm (d a : Reg) (n : BitVec 6) (s : State) : Out := scalar1 d a s fun x => x <<< n.toNat
def execShrImm (d a : Reg) (n : BitVec 6) (s : State) : Out := scalar1 d a s fun x => x >>> n.toNat
def execSraImm (d a : Reg) (n : BitVec 6) (s : State) : Out := scalar1 d a s fun x => x.sshiftRight n.toNat
def execRolImm (d a : Reg) (n : BitVec 6) (s : State) : Out := scalar1 d a s fun x => x.rotateLeft n.toNat
def execLi (d : Reg) (i : BitVec 16) (s : State) : Out := scalar s [] [d] fun s => .ok (wr s d (sext64 i))
/-- Chunk k is replaced; the destination is a source. -/
def execLiIns (d : Reg) (k : BitVec 2) (i : BitVec 16) (s : State) : Out :=
  scalar1 d d s fun x => setBits x (16 * k.toNat) 16 i.toNat
/-- The address is that of the word itself. -/
def execPcrel (d : Reg) (o : BitVec 21) (s : State) : Out :=
  scalar s [] [d] fun s => .ok (wr s d ((curThread s).pc + byteOffset o))

/-! ### Control transfers (R177, R217 to R220, R337) -/

/-- A relative transfer of the scalar stream: SEG_LEAVE outside the current segment. -/
def branchTo {w : Nat} (s : State) (o : BitVec w) : Except Exit State :=
  let t := (curThread s).pc + byteOffset o
  if inScalarSeg s t.toNat then .ok (jumpTo s t) else .error (trapOf cSegLeave)

/-- A conditional branch on two registers. -/
def branchIf (a b : Reg) (o : BitVec 12) (s : State) (f : Word → Word → Bool) : Out :=
  scalarJump s [a, b] [] fun s => if f (rd s a) (rd s b) then branchTo s o else .ok (advance s)

def execBrEq (a b : Reg) (o : BitVec 12) (s : State) : Out := branchIf a b o s fun x y => x == y
def execBrNe (a b : Reg) (o : BitVec 12) (s : State) : Out := branchIf a b o s fun x y => x != y
def execBrLt (a b : Reg) (o : BitVec 12) (s : State) : Out := branchIf a b o s fun x y => x.slt y
def execBrGe (a b : Reg) (o : BitVec 12) (s : State) : Out := branchIf a b o s fun x y => !x.slt y
def execBrLtN (a b : Reg) (o : BitVec 12) (s : State) : Out := branchIf a b o s fun x y => x.ult y
def execBrGeN (a b : Reg) (o : BitVec 12) (s : State) : Out := branchIf a b o s fun x y => !x.ult y

/-- A count of 0 falls through and writes nothing; otherwise the count is stepped, and a count still non-zero
branches; the send port reads 0, so nothing is ever sent. -/
def execLoop (a : Reg) (o : BitVec 12) (s : State) : Out :=
  scalarJump s [a] (if a = 28#5 ∧ portsOn s then [] else [a]) fun s =>
    let x := rd s a
    if x = 0#64 then .ok (advance s)
    else if x - 1#64 = 0#64 then .ok (advance (wr s a 0#64))
    else (branchTo s o).map fun t => wr t a (x - 1#64)

def execJmp (o : BitVec 26) (s : State) : Out := scalarJump s [] [] fun s => branchTo s o

/-- x1 receives the address of the next word. -/
def execCall (o : BitVec 26) (s : State) : Out :=
  scalarJump s [] [1#5] fun s => (branchTo s o).map fun t => wr t 1#5 ((curThread s).pc + 4#64)

/-- The target is read before the link is written; d5 = 0 writes no link. -/
def execJr (d a : Reg) (i : BitVec 16) (s : State) : Out :=
  scalarJump s [a] (if d = 0#5 then [] else [d]) fun s =>
    let t := rd s a + sext64 i
    if t.extractLsb' 0 2 ≠ 0#2 then .error (trapOf cBadTarget)
    else if inScalarSeg s t.toNat then .ok (jumpTo (wr s d ((curThread s).pc + 4#64)) t)
    else .error (trapOf cSegLeave)

/-! ### Lane tasks (R29, R30, R65, R221, R222) -/

/-- Slices that hold a lane below a count (R29). -/
def liveSlices (n : Nat) : BitVec 8 := maskRange 8 0 ((n + 3) / 4)

/-- A fresh gang at a word. -/
def Gang.start (slices : BitVec 8) (pc : Nat) : Gang :=
  { slices := slices, pc := pc, wait := none, runLen := 0, promoted := false, safe := none, mask := none, again := none }

/-- Start a lane task at a word with a count (R29, R221). -/
def startTask (s : State) (entry n : Word) : Except Exit State :=
  match curGroup s with
  | none => .error (trapOf cIllegalInstr)
  | some g =>
    if g.task.isSome then .error (.stall s)
    else if !inLaneSeg s entry.toNat then .error (trapOf cSegLeave)
    else if !laneTargetOk s entry.toNat then .error (trapOf cBadTarget)
    else if n = 0#64 ∨ Config.gangWidth < n.toNat then .error (trapOf cBadCount)
    else .ok (modCurGroup s fun g =>
      { g with
        task := some { n := n.toNat, gangs := [.start (liveSlices n.toNat) entry.toNat], endMask := 0#96, endSafe := true
                       tids := ((ffind s.blocks g.block).map (·.tids)).getD [] }
        lr := [] })

def execLxImm (a : Reg) (n : BitVec 6) (s : State) : Out :=
  scalar s [a] [] fun s => (groupOnly s).bind fun _ => startTask s (rd s a) (n.zeroExtend 64)

/-- The count is the whole of the second register. -/
def execLxReg (d a : Reg) (s : State) : Out :=
  scalar s [a, d] [] fun s => (groupOnly s).bind fun _ => startTask s (rd s a) (rd s d)

/-- Whether the current group runs a lane task. -/
def taskRuns (s : State) : Bool := (curGroup s).any fun g => g.task.isSome

/-- Wait for the end of the current lane task (R222). -/
def waitTask (s : State) : Except Exit Unit := if taskRuns s then .error (.stall s) else .ok ()

def execLwait (s : State) : Out :=
  scalar s [] [] fun s => (groupOnly s).bind fun _ => (waitTask s).map fun _ => s

/-- 1 while a task runs. -/
def execLpoll (d : Reg) (s : State) : Out :=
  scalar s [] [d] fun s => (groupOnly s).map fun _ => wr s d (word01 (taskRuns s))

end Sys2Proof.Machine
end

