-- ==== Sys2Proof/Machine/Sync.lean ====
section
/-! DEFINITION. Hardware barriers, the monitor, message-port control and extended registers (R40, R55, R110 to R120,
R296 to R300, R341). -/

namespace Sys2Proof.Machine

/-! ### Barriers (R110 to R113, R341) -/

/-- A barrier word from its fields (R110). -/
def barMake (tx : BitVec 32) (phase : Bool) (expect pending : Nat) : Word :=
  tx ++ (if phase then 1#1 else 0#1) ++ 0#4 ++ BitVec.ofNat 11 expect ++ 0#5 ++ BitVec.ofNat 11 pending

/-- TX of a barrier word. -/
def barTx (w : Word) : BitVec 32 := w.extractLsb' 32 32
/-- PHASE of a barrier word. -/
def barPhase (w : Word) : Bool := w.getLsbD 31
/-- EXPECT of a barrier word. -/
def barExpect (w : Word) : Nat := bitsOf w 26 16
/-- PENDING of a barrier word. -/
def barPending (w : Word) : Nat := bitsOf w 10 0

/-- A barrier after a step on it: the phase flips when nothing is missing (R112). -/
def barFlip (w : Word) : Word :=
  if 1 ≤ barExpect w ∧ barPending w = 0 ∧ barTx w = 0#32 then barMake 0#32 (!barPhase w) (barExpect w) (barExpect w) else w

/-- One atomic step on barrier n of a block (R112): a flip clears the bit of every group's OWE (R341); monitors on the
barrier's line wake. -/
def barStep (s : State) (b n : Nat) (f : Word → Word) : State :=
  match ffind s.blocks b with
  | none => s
  | some blk =>
    let old := sget blk.bars n
    let new := barFlip (f old)
    let s := modBlock s b fun x => { x with bars := sset x.bars n new }
    let s :=
      if barPhase new = barPhase old then s
      else { s with groups := s.groups.map fun p => if p.2.block = b then (p.1, { p.2 with owe := setBit p.2.owe n false }) else p }
    if new = old then s else modThreads s fun _ _ th => th.trigger (spmLine b (blk.spmBytes + 8 * n))

/-- `bar.init`: a count outside 1 to 1,024 is refused (R296). -/
def barInit (s : State) (b n count : Nat) : Except (BitVec 8) State :=
  if count = 0 ∨ 1024 < count then .error cBarCount
  else .ok (barStep s b n fun w => barMake 0#32 (barPhase w) count count)

/-- One arrival: refused at a barrier never initialised, or complete but for its bytes (R112). -/
def barArrive (s : State) (b n : Nat) : Except (BitVec 8) State :=
  match ffind s.blocks b with
  | none => .error cBarOverarrive
  | some blk =>
    let w := sget blk.bars n
    if barExpect w = 0 ∨ barPending w = 0 then .error cBarOverarrive
    else .ok (barStep s b n fun w => barMake (barTx w) (barPhase w) (barExpect w) (barPending w - 1))

/-- Add bytes to TX, modulo 2^32 (R112). -/
def barAddTx (s : State) (b n : Nat) (d : BitVec 32) : State :=
  barStep s b n fun w => barMake (barTx w + d) (barPhase w) (barExpect w) (barPending w)

/-- `bar.exp`: a value above 0x7FFF_FFFF, or a sum past 2^31 - 1, is refused (R296). -/
def barPost (s : State) (b n v : Nat) : Except (BitVec 8) State :=
  let tx := ((ffind s.blocks b).map fun x => barTx (sget x.bars n)).getD 0#32
  if 2 ^ 31 ≤ v ∨ (2 ^ 31 : Int) ≤ tx.toInt + v then .error cBarCount else .ok (barAddTx s b n (BitVec.ofNat 32 v))

/-- Whether a wait for parity q has completed (R113). -/
def barPassed (s : State) (b n : Nat) (q : Bool) : Bool :=
  ((ffind s.blocks b).map fun x => barPhase (sget x.bars n) != q).getD false

/-- The current block, when it has a barrier n; BAR_RANGE otherwise (R296). -/
def barBlock (s : State) (n : Nat) : Except (BitVec 8) Nat :=
  match curGroup s with
  | none => .error cBarRange
  | some g => if n < ((ffind s.blocks g.block).map (·.barCount)).getD 0 then .ok g.block else .error cBarRange

/-- The current group owes a phase change of barrier n (R341). -/
def oweBar (s : State) (n : Nat) : State := modCurGroup s fun g => { g with owe := setBit g.owe n true }

/-- Whether an operation arrives on barrier n (R322). -/
def IRec.arrivesOn (r : IRec) (n : Nat) : Bool := r.desc.getLsbD 64 && decide (bitsOf r.desc 79 72 = n)

/-- A barrier refusal as a trap of some lanes. -/
def barTrap {α : Type} (lanes : LaneMask) (r : Except (BitVec 8) α) : Except Exit α :=
  match r with
  | .ok x => .ok x
  | .error c => .error (.trap (.of c lanes) none)

/-- Deliver the held fault of an operation that arrives on barrier n (R48). -/
def observeBar (s : State) (n : Nat) : Except Exit Unit := deliverHeld s fun r => r.arrivesOn n

/-- An arrival by a group: a release at `.blk` (R165). -/
def arriveWord (s : State) (n : Nat) (lanes : LaneMask) : Except Exit State :=
  (barTrap lanes (barBlock s n)).bind fun b =>
    (barTrap lanes (barArrive s b n)).bind fun _ =>
      match releaseSteps s s.cur .blk with
      | .error m => .error (m.exit 1 lanes)
      | .ok s => barTrap lanes (barArrive s b n)

/-- `bar.init` by a group. -/
def initWord (s : State) (n count : Nat) : Except Exit State :=
  (barTrap 0#32 (barBlock s n)).bind fun b => barTrap 0#32 (barInit (oweBar s n) b n count)

/-- `bar.exp` by a group. -/
def postWord (s : State) (n v : Nat) (lanes : LaneMask) : Except Exit State :=
  (barTrap lanes (barBlock s n)).bind fun b => barTrap lanes (barPost (oweBar s n) b n v)

/-- Whether a wait of a group has completed, after the observation (R48). -/
def waitWord (s : State) (n : Nat) (q : Bool) (lanes : LaneMask) : Except Exit Bool :=
  (barTrap lanes (barBlock s n)).bind fun b => (observeBar s n).map fun _ => barPassed s b n q

def execBarInit (a : Reg) (n : BitVec 6) (s : State) : Out :=
  scalar s [a] [] fun s => (groupOnly s).bind fun _ => initWord s n.toNat (rd s a).toNat

def execBarArr (n : BitVec 6) (s : State) : Out := scalar s [] [] fun s => (groupOnly s).bind fun _ => arriveWord s n.toNat 0#32

/-- The value is bits 31 to 0 of the register. -/
def execBarExp (a : Reg) (n : BitVec 6) (s : State) : Out :=
  scalar s [a] [] fun s => (groupOnly s).bind fun _ => postWord s n.toNat (bitsOf (rd s a) 31 0) 0#32

def execBarWait (q : Bool) (n : BitVec 6) (s : State) : Out :=
  scalar s [] [] fun s =>
    (groupOnly s).bind fun _ => (waitWord s n.toNat q 0#32).bind fun p => if p then .ok s else .error (stallWait s)

def execBarTry (d : Reg) (q : Bool) (n : BitVec 6) (s : State) : Out :=
  scalar s [] [d] fun s => (groupOnly s).bind fun _ => (waitWord s n.toNat q 0#32).map fun p => wr s d (word01 p)

/-! ### Monitor (R116, R298) -/

/-- Arm the current thread's monitor on a line. -/
def armMonitor (s : State) (line : Nat) (fired : Bool) : State :=
  modCur s fun th => { th with monitor := some { line := line, fired := fired } }

/-- Fill a line in the agent's L1 at full precision as an ordinary copy (R298). -/
def fillOrdinary (s : State) (e : Env) (sp : Space) (key : Nat) : Except Miss State :=
  if (mappedAt s sp.tag (lineVa key)).isSome || (privAt s key e.col).isSome ||
      (ffind s.copies (copyKey key e.cache)).any (fun c => c.fmt == 0#8) then .ok s
  else (denied sp (lineVa key) (fillFull s sp key e.cache)).map fun r => r.1

/-- The load of `mon.arm` and its arm (R275, R298, R472); a line that no L1 may hold is lost at once. -/
def armAt (s : State) (a : AgentId) (va : Nat) : Except Miss (State × Nat) :=
  let e := envOf s a
  match (match addrKind va with
      | .table o => (tableAccess s e o 8).map fun _ => ()
      | .bad => .error (.trap cBadAddress)
      | _ => .ok () : Except Miss Unit) with
  | .error m => .error m
  | .ok _ =>
    if va % 8 ≠ 0 then .error (.trap cMisaligned)
    else match addrKind va with
      | .bad => .error (.trap cBadAddress)
      | .domain _ _ _ => .error (.trap cBadAddress)
      | .loc o =>
        match localBlock s e o 8 with
        | .error m => .error m
        | .ok (b, blk) => .ok (armMonitor (wakeSpm s b o 8) (spmLine b o) false, localNat blk o 8)
      | .launch _ => (loadBytes s a va 8).map fun r => (armMonitor r.1 (e.sp.key va) true, r.2)
      | .snap _ => (loadBytes s a va 8).map fun r => (armMonitor r.1 (e.sp.key va) false, r.2)
      | .table o =>
        (tableAccess s e o 8).bind fun sp =>
          (accessAt va (fillOrdinary s e sp (sp.key va))).bind fun s =>
            (loadBytes s a va 8).map fun r => (armMonitor r.1 (sp.key va) false, r.2)
      | .plain =>
        (accessAt va (fillOrdinary s e e.sp (e.sp.key va))).bind fun s =>
          (loadBytes s a va 8).map fun r => (armMonitor r.1 (e.sp.key va) false, r.2)

def execMonArm (d a : Reg) (s : State) : Out :=
  scalar s [a] [d] fun s =>
    (observeBytes s (rd s a).toNat 8).bind fun _ => (lift 0 (armAt s s.cur (rd s a).toNat)).map fun r => wr r.1 d (wordOf r.2)

/-- The end of a wait on the monitor, or the stall (R116). -/
def monitorWait (s : State) : Except Exit State :=
  match (curThread s).monitor with
  | none => .ok s
  | some m => if m.fired then .ok (modCur s fun th => { th with monitor := none }) else .error (stallWait s)

def execMonWait (s : State) : Out := scalar s [] [] monitorWait

/-! ### Ports and extended registers (R40, R52, R55, R299, R300) -/

/-- Enable the ports, or, once every credit is back, disable them and discard what was received. -/
def execPortCfg (e : Bool) (s : State) : Out :=
  scalar s [] [] fun s =>
    (groupOnly s).bind fun _ =>
      if e then .ok (modCurGroup s fun g => { g with portEn := true, drop := false })
      else if ((curGroup s).map (·.credits)).getD 8 = 8 then
        .ok (modCurGroup s fun g =>
          if g.portEn then { g with portEn := false, rx := [], th := { g.th with x := sset (sset g.th.x 28 0#64) 29 0#64 } } else { g with rx := [] })
      else .error (stallWait s)

/-- Chunks of a block's pool that no group holds. -/
def freeChunks (s : State) (b : Nat) : Nat :=
  ((ffind s.blocks b).map (·.chunks)).getD 0 - (s.groups.foldl (fun n p => if p.2.block = b then n + p.2.ext else n) 0)

/-- Give a group n more chunks, which read zero, and whose banks the clearing wakes (R40, R55, R67). -/
def giveChunks (s : State) (g n : Nat) : State :=
  let s := match ffind s.groups g with
    | some p => wakeBanks s p.core ((List.range n).map fun k => .chunk p.core (16 * p.slot + p.ext + k))
    | none => s
  modGroup s g fun p =>
    { p with ext := p.ext + n
             v := p.v.filter fun w => !(decide (32 + 16 * p.ext ≤ w.1 % 256) && decide (w.1 % 256 < 32 + 16 * (p.ext + n))) }

/-- Serve the waiting requests of a block, in the order in which they issued, while the oldest fits (R40). -/
def serveChunks (s : State) (b : Nat) : List (Nat × Nat) → State
  | [] => modBlock s b fun x => { x with xq := [] }
  | (g, n) :: t =>
    if n ≤ freeChunks s b then serveChunks (modGroup (giveChunks s g n) g fun p => { p with th := { p.th with pc := p.th.pc + 4#64, prevSafe := none } }) b t
    else modBlock s b fun x => { x with xq := (g, n) :: t }

/-- A block's waiting requests are looked at again. -/
def retryChunks (s : State) (b : Nat) : State := serveChunks s b (((ffind s.blocks b).map (·.xq)).getD [])

/-- A request waits in its block's queue until it is served, which completes the word (R40). -/
def execXacq (n : BitVec 5) (s : State) : Out :=
  scalarJump s [] [] fun s =>
    (groupOnly s).bind fun _ =>
      (waitTask s).bind fun _ =>
        match groupOf s.cur, curGroup s with
        | some k, some g =>
          let pool := ((ffind s.blocks g.block).map (·.chunks)).getD 0
          let queue := ((ffind s.blocks g.block).map (·.xq)).getD []
          if pool < n.toNat ∨ 14 < g.ext + n.toNat then .error (trapOf cBadCount)
          else if n = 0#5 then .ok (advance s)
          else if (queue.head?.map (·.1)) == some k && decide (n.toNat ≤ freeChunks s g.block) then
            .ok (advance (giveChunks (modBlock s g.block fun b => { b with xq := queue.drop 1 }) k n.toNat))
          else if queue.any fun r => r.1 == k then .error (stallWait s)
          else if queue.isEmpty ∧ n.toNat ≤ freeChunks s g.block then .ok (advance (giveChunks s k n.toNat))
          else .error (stallWait (modBlock s g.block fun b => { b with xq := b.xq ++ [(k, n.toNat)] }))
        | _, _ => .error (trapOf cIllegalInstr)

/-- The most recently acquired chunks go back to the pool; a waiting request is served by `XACQ_GRANT`, or when the
oldest one issues again. -/
def execXrel (n : BitVec 5) (s : State) : Out :=
  scalar s [] [] fun s =>
    (groupOnly s).bind fun _ =>
      (waitTask s).bind fun _ =>
        match groupOf s.cur, curGroup s with
        | some k, some g =>
          if g.ext < n.toNat then .error (trapOf cBadCount)
          else .ok (modGroup s k fun p => { p with ext := p.ext - n.toNat })
        | _, _ => .error (trapOf cIllegalInstr)

end Sys2Proof.Machine
end

