-- ==== Sys2Proof/Machine/Tensor.lean ====
section
/-! DEFINITION. Tensor-identifier records, their validation, scale streams, and the TID words (R73, R89 to R92, R288,
R330). -/

namespace Sys2Proof.Machine

/-! ### Fields of a record (R91) -/

/-- n bytes of a record at an offset. -/
def tidNat (r : BitVec 1024) (off n : Nat) : Nat := r.toNat / 2 ^ (8 * off) % 2 ^ (8 * n)

/-- FMT of a record. -/
def tidFmt (r : BitVec 1024) : BitVec 8 := r.extractLsb' 0 8
/-- RANK of a record. -/
def tidRank (r : BitVec 1024) : Nat := tidNat r 1 1
/-- BLK of a record. -/
def tidBlk (r : BitVec 1024) : Nat := tidNat r 2 1
/-- SPACE of a record. -/
def tidSpace (r : BitVec 1024) : Nat := tidNat r 3 1
/-- RO of a record. -/
def tidRo (r : BitVec 1024) : Bool := r.getLsbD 32
/-- BASE of a record. -/
def tidBase (r : BitVec 1024) : Nat := tidNat r 8 8
/-- EXT[k] as stored. -/
def tidExtRaw (r : BitVec 1024) (k : Nat) : Nat := tidNat r (0x10 + 4 * k) 4
/-- Element size in bytes of a format code; 1 for a code that is none. -/
def elemBytes (c : BitVec 8) : Nat := ((Fmt.ofBits c).map fun f => f.width / 8).getD 1
/-- Element size of a record. -/
def tidSize (r : BitVec 1024) : Nat := elemBytes (tidFmt r)
/-- STRIDE[k]; STRIDE[0] is the element size. -/
def tidStride (r : BitVec 1024) (k : Nat) : Nat := if k = 0 then tidSize r else tidNat r (0x28 + 8 * (k - 1)) 8
/-- Extent of a dimension; one beyond RANK counts as 1. -/
def tidExt (r : BitVec 1024) (k : Nat) : Nat := if k < tidRank r then tidExtRaw r k else 1
/-- Elements of a scale block; 0 for no scales. -/
def tidBlock (r : BitVec 1024) : Nat := [0, 16, 32, 64].getD (tidBlk r) 0

/-- Byte address of an element by its coordinates (R91); in the scratchpad, its offset. -/
def tidAddr (r : BitVec 1024) (c : List Nat) : Nat :=
  (List.range 5).foldl (fun a k => a + c.getD k 0 * tidStride r k) (tidBase r)

/-- Whether an element of n bytes, at a base address plus multiples below each extent of each stride, has a byte in
[lo, hi). A dimension is tried only where the rest can still reach the range. -/
def strideMeets (lo hi n : Nat) : List (Nat × Nat) → Nat → Bool
  | [], a => decide (lo < a + n) && decide (a < hi)
  | (e, st) :: t, a =>
    let rest := t.foldl (fun m x => m + (x.1 - 1) * x.2) 0
    let first := if st = 0 then 0 else (lo + 1 - n - rest - a + st - 1) / st
    let last := if st = 0 then min e 1 else min e ((hi - a + st - 1) / st)
    (List.range (last - first)).any fun k => strideMeets lo hi n t (a + (first + k) * st)

/-- Whether coordinates lie inside the tensor (R289). -/
def tidInside (r : BitVec 1024) (c : List Nat) : Bool :=
  (List.range 5).all fun k => if k < tidRank r then decide (c.getD k 0 < tidExtRaw r k) else c.getD k 0 == 0

/-! ### Validation (R92) -/

/-- Whether a format code has elements of one, two or four bytes. -/
def tidFmtOk (c : BitVec 8) : Bool := (Fmt.ofBits c).any fun f => decide (f.width ≤ 32)

/-- Whether block scales suit a format. -/
def scaleFmtOk (c : BitVec 8) : Bool :=
  match Fmt.ofBits c with
  | some (.b8 _ _) => true
  | some (.int .i8) => true
  | some (.int .n8) => true
  | _ => false

/-- The lowest failing reason of a record, 0 when valid; `spm` is the block's SPM_BYTES.  Reason 6 takes the last element of a
scratchpad tensor to pass SPM_BYTES when any of its bytes lies at or beyond it, its address at SPM_BYTES included (DESIGN CHOICE,
log 94). -/
def tidReason (r : BitVec 1024) (spm : Nat) : Nat :=
  let rank := min (max (tidRank r) 1) 5
  let last := (List.range rank).foldl (fun a k => a + (tidExtRaw r k - 1) * tidStride r k) (tidBase r)
  if !tidFmtOk (tidFmt r) then 1
  else if tidRank r = 0 ∨ 5 < tidRank r then 2
  else if (List.range 5).any fun k => if k < rank then tidExtRaw r k == 0 else tidExtRaw r k != 0 || tidStride r k != 0 then 3
  else if !tidRo r && (List.range rank).any fun k => k != 0 && decide (tidStride r k < tidExtRaw r (k - 1) * tidStride r (k - 1)) then 4
  else if tidBase r % tidSize r ≠ 0 ∨ (List.range 5).any (fun k => tidStride r k % tidSize r != 0) then 5
  else if (if tidSpace r = 1 then decide (spm < last + tidSize r) else decide (2 ^ 57 ≤ last)) then 6
  else if 3 < tidBlk r ∨ (tidBlk r ≠ 0 ∧ !scaleFmtOk (tidFmt r)) then 7
  else if 1 < tidSpace r ∨ 2 ≤ tidNat r 4 2 ∨ tidNat r 6 2 ≠ 0 ∨ tidNat r 0x24 4 ≠ 0 ∨ tidNat r 0x58 40 ≠ 0 then 8
  else 0

/-- An identifier installed from a record (R330). -/
def Tid.install (r : BitVec 1024) (spm : Nat) : Tid := { raw := r, reason := some (tidReason r spm) }

/-- An identifier never set (R330). -/
def Tid.unset : Tid := { raw := 0#1024, reason := none }

/-- Whether an identifier is valid. -/
def Tid.valid (t : Tid) : Bool := t.reason == some 0

/-- Identifier n of a table, if it is valid and below the count. -/
def validTid (m : FMap Tid) (count n : Nat) : Option (BitVec 1024) :=
  if n < count then (ffind m n).bind fun t => if t.valid then some t.raw else none else none

/-! ### Scale streams (R89, R90) -/

/-- Nibble i of a stream of bytes. -/
def nibble (l : List Byte) (i : Nat) : Nat := let b := (l.getD (i / 2) 0#8).toNat; if i % 2 = 0 then b % 16 else b / 16

/-- Scale byte of a running value; the NaN scale outside 0 to 254. -/
def scaleByte (v : Int) : BitVec 8 := if 0 ≤ v ∧ v ≤ 254 then BitVec.ofInt 8 v else 0xFF#8

/-- Scales of n further blocks from nibble i, with the running value v. -/
def scaleRest (l : List Byte) (i : Nat) (v : Int) : Nat → List (BitVec 8)
  | 0 => []
  | n + 1 =>
    let d := nibble l i
    if d = 8 then
      let w : Int := (nibble l (i + 1) + 16 * nibble l (i + 2) : Nat)
      scaleByte w :: scaleRest l (i + 3) w n
    else
      let w := v + (if 8 ≤ d then (d : Int) - 16 else d)
      scaleByte w :: scaleRest l (i + 1) w n

/-- Scales of the first n blocks of a row. -/
def scalesOf (l : List Byte) : Nat → List (BitVec 8)
  | 0 => []
  | n + 1 => let v : Int := ((l.getD 0 0#8).toNat : Nat); scaleByte v :: scaleRest l 2 v n

/-- Nibbles that a stream of n further blocks takes from nibble i. -/
def scaleLength (l : List Byte) (i : Nat) : Nat → Nat
  | 0 => i
  | n + 1 => scaleLength l (if nibble l i = 8 then i + 3 else i + 1) n

/-! ### The TID words (R330) -/

/-- The current group's block, when it has an identifier n. -/
def tidBlockOf (s : State) (n : Nat) : Except Exit (Nat × Block) :=
  match curGroup s with
  | none => .error (trapOf cBadTid)
  | some g =>
    match ffind s.blocks g.block with
    | none => .error (trapOf cBadTid)
    | some b => if n < b.tidCount then .ok (g.block, b) else .error (trapOf cBadTid)

def execTidSet (a : Reg) (n : BitVec 6) (s : State) : Out :=
  scalar s [a] [] fun s =>
    (groupOnly s).bind fun _ =>
      (tidBlockOf s n.toNat).bind fun b =>
        (observeBytes s (rd s a).toNat 128).bind fun _ =>
          (lift 0 (loadBytes s s.cur (rd s a).toNat 128)).map fun r =>
            modBlock r.1 b.1 fun x => { x with tids := fset x.tids n.toNat (.install (BitVec.ofNat 1024 r.2) x.spmBytes) }

/-- REASON, FMT and RANK; 0xFF alone for an identifier invalidated or never set. -/
def execTidGet (d : Reg) (n : BitVec 6) (s : State) : Out :=
  scalar s [] [d] fun s =>
    (groupOnly s).bind fun _ =>
      (tidBlockOf s n.toNat).map fun b =>
        let t := (ffind b.2.tids n.toNat).getD .unset
        wr s d (match t.reason with
          | none => 0xFF#64
          | some k => wordOf (k + (tidFmt t.raw).toNat * 2 ^ 8 + tidRank t.raw * 2 ^ 16))

def execTidInv (n : BitVec 6) (s : State) : Out :=
  scalar s [] [] fun s =>
    (groupOnly s).bind fun _ =>
      (tidBlockOf s n.toNat).map fun b => modBlock s b.1 fun x => { x with tids := fset x.tids n.toNat .unset }

end Sys2Proof.Machine
end

