-- ==== Sys2Proof/Machine/Subs.lean ====
section
/-! DEFINITION. Precision subscriptions, commutative ranges and scratchpad mappings (R107 to R109, R122, R123, R127 to
R142, R290 to R295). -/

namespace Sys2Proof.Machine

/-! ### The lines a subscription word names (R129, R290) -/

/-- Fields of a subscription descriptor (R129). -/
structure SubDesc where
  kind : Nat
  slice : Bool
  update : Bool
  sat : Bool
  src : BitVec 8
  fmt : BitVec 8
  resv : Bool
  deriving DecidableEq, Repr

/-- A descriptor from its word. -/
def SubDesc.of (x : Word) : SubDesc :=
  { kind := bitsOf x 20 19, slice := x.getLsbD 18, update := x.getLsbD 17, sat := x.getLsbD 16, src := x.extractLsb' 8 8
    fmt := x.extractLsb' 0 8, resv := decide (x.extractLsb' 21 43 ≠ 0#43) }

/-- Coordinate lists of a box: dimension k runs over `size k` values from `org k`; dimension 0 is left at its origin. -/
def rowsOf (org size : Nat → Nat) : Nat → List (List Nat)
  | 0 => [[]]
  | k + 1 => (rowsOf org size k).flatMap fun c => (List.range (size k)).map fun i => c ++ [org k + i]

/-- Line addresses of the bytes from one address up to another. -/
def linesOf (lo hi : Nat) : List Nat := (List.range (hi / 128 - lo / 128 + 1)).map fun i => (lo / 128 + i) * 128

/-- Line addresses of a tile of a tensor, each once (R129, R290). -/
def tileLines (r : BitVec 1024) (org size : Nat → Nat) : List Nat :=
  let ext (k : Nat) : Nat := if k < tidRank r then min (size k) (tidExtRaw r k - org k) else 1
  if ext 0 = 0 then []
  else
    let rows := rowsOf org (fun k => if k = 0 then 1 else ext k) 5
    (rows.flatMap fun c =>
      let a := tidAddr r c
      linesOf a (a + ext 0 * tidSize r - 1)).eraseDups

/-- A 64-byte block that names a tile: its identifier, origins, sizes; none when malformed for a record (R290). -/
def tileOf (blk : Nat) (r : BitVec 1024) : Option ((Nat → Nat) × (Nat → Nat)) :=
  let org (k : Nat) : Nat := blk / 2 ^ (64 + 32 * k) % 2 ^ 32
  let size (k : Nat) : Nat := blk / 2 ^ (256 + 32 * k) % 2 ^ 32
  let resv := blk / 2 ^ 8 % 2 ^ 56 + blk / 2 ^ 224 % 2 ^ 32 + blk / 2 ^ 416 % 2 ^ 96
  let ok := (List.range 5).all fun k => if k < tidRank r then size k != 0 else size k == 0
  if resv = 0 ∧ ok then some (org, size) else none

/-- The identifiers an agent's words may name: its block's. -/
def agentTids (s : State) (a : AgentId) : FMap Tid × Nat :=
  match ((groupOf a).bind fun g => ffind s.groups g).bind fun g => ffind s.blocks g.block with
  | some b => (b.tids, b.tidCount)
  | none => ([], 0)

/-- Line addresses that a subscription word names; `any` leaves SRC unchecked (R129, R290).  A named block that reaches beyond 2^57 is
malformed (DESIGN CHOICE, log 137). -/
def namedLines (s : State) (a : AgentId) (d : SubDesc) (va : Nat) (any_ : Bool) : Except Miss (State × List Nat) :=
  if 2 ^ 57 ≤ va then .error (.trap cBadAddress)
  else if d.kind = 0 then .ok (s, [va / 128 * 128])
  else if d.kind = 1 then
    if va % 16 ≠ 0 then .error (.trap cSubFormat)
    else match loadBytes s a va 16 with
      | .error m => .error m
      | .ok (s, x) =>
        let start := x % 2 ^ 64
        let len := x / 2 ^ 64
        if start % 128 ≠ 0 ∨ len % 128 ≠ 0 ∨ len = 0 ∨ 2 ^ 20 < len ∨ 2 ^ 57 < start + len then .error (.trap cSubFormat)
        else .ok (s, (List.range (len / 128)).map fun i => start + 128 * i)
  else
    if va % 64 ≠ 0 then .error (.trap cSubFormat)
    else match loadBytes s a va 64 with
      | .error m => .error m
      | .ok (s, x) =>
        let t := agentTids s a
        match validTid t.1 t.2 (x % 256) with
        | none => .error (.trap cSubFormat)
        | some r =>
          if tidSpace r = 1 ∨ (!any_ && tidFmt r != d.src) then .error (.trap cSubFormat)
          else match tileOf x r with
            | none => .error (.trap cSubFormat)
            | some (org, size) =>
              let l := tileLines r org size
              if 8192 < l.length then .error (.trap cSubFormat) else .ok (s, l)

/-- Space of a line that a subscription may name: domain addresses trap, the launch window does, and a local line has
none (R129, R405, R472). -/
def subSpace (s : State) (e : Env) (va : Nat) : Except Miss (Option Space) :=
  match addrKind va with
  | .domain _ _ _ => .error (.trap cSubFormat)
  | .bad | .launch _ => .error (.trap cBadAddress)
  | .loc o => (localBlock s e o 1).map fun _ => none
  | .snap o => (snapRead s e va o).map fun _ => some e.sp
  | .table o => (tableAccess s e o 128).map fun sp => some sp
  | .plain => .ok (some e.sp)

/-- Check the places of a list of lines. -/
def subPlaces (s : State) (e : Env) : List Nat → Except Miss (List (Space × Nat))
  | [] => .ok []
  | va :: t =>
    match subSpace s e va, subPlaces s e t with
    | .error m, _ => .error m
    | _, .error m => .error m
    | .ok none, .ok l => .ok l
    | .ok (some sp), .ok l => .ok ((sp, sp.key va) :: l)

/-! ### Serving a subscription (R128 to R133, R141, R142) -/

/-- Whether the home serves a line at full precision without recording a subscription (R130). -/
def serveFull (s : State) (e : Env) (sp : Space) (key : Nat) (d : SubDesc) (h : HomeLine) : Bool :=
  (rangeAt s sp.tag (lineVa key)).any (fun c => crCode c.fmt != d.src) || (h.src != 0#8 && h.src != d.src) ||
  (d.slice && h.col == e.col)

/-- Subscribe one line for a cache with a mode and an overflow choice: whether it is recorded as subscribed. -/
def subLine (s : State) (e : Env) (cache : Nat) (d : SubDesc) (mode sat : Bool) (sp : Space) (key : Nat) :
    Except Miss (State × Nat) :=
  let va := lineVa key
  if (mappedAt s sp.tag va).isSome then .ok (s, 0)
  else
    match denied sp va (serveHome (landOwn s sp key e.col) sp key) with
    | .error m => .error m
    | .ok (s, h) =>
      if serveFull s e sp key d h then
        if d.slice && h.col == e.col then .ok (s, 0) else (denied sp va (fillFull s sp key cache)).map fun r => (r.1, 0)
      else
        let full := decide (d.fmt = d.src)
        let scale := if full then 127#8 else subScale d.src d.fmt h.data
        let c : Copy :=
          { data := if full then h.data else narrowLine d.src d.fmt scale sat h.data
            fmt := if full then 0#8 else d.fmt, src := if full then 0#8 else d.src, scale := scale, w := h.w
            excl := false, dirty := 0#128, by_ := .nobody }
        let ent : DirEnt := { sharer := cache, update := mode, sat := sat, fmt := c.fmt, scale := scale }
        let s := { s with copies := fset s.copies (copyKey key cache) c }
        .ok (setHome s key (h.record s ent d.src), 1)

/-- MODE and SAT that a line's subscription takes: those of the entry held, for `subup` (R142); of a line gone coarse, where no
entry holds them, the descriptor's (DESIGN CHOICE, log 98). -/
def entryMode (s : State) (cache : Nat) (d : SubDesc) (keep : Bool) (key : Nat) : Bool × Bool :=
  if keep && (ffind s.copies (copyKey key cache)).isSome then
    match (ffind s.home key).bind fun h => h.ents.find? fun x => x.sharer == cache with
    | some x => (x.update, x.sat)
    | none => (d.update, d.sat)
  else (d.update, d.sat)

/-- Subscribe a list of lines, counting those recorded. -/
def subAll (s : State) (e : Env) (cache : Nat) (d : SubDesc) (keep : Bool) : List (Space × Nat) → Except Miss (State × Nat)
  | [] => .ok (s, 0)
  | (sp, key) :: t =>
    let m := entryMode s cache d keep key
    match subLine s e cache d m.1 m.2 sp key with
    | .error x => .error x
    | .ok (s, n) => (subAll s e cache d keep t).map fun r => (r.1, n + r.2)

/-- Whether `subup` may ask for a format on a line: wider than the copy held, or the full line (R142). -/
def widens (s : State) (cache : Nat) (d : SubDesc) (key : Nat) : Bool :=
  match ffind s.copies (copyKey key cache) with
  | none => true
  | some c => d.fmt == d.src || decide ((if c.fmt = 0#8 then codeWidth d.src else codeWidth c.fmt) < codeWidth d.fmt)

/-- The cache a descriptor names (R129, R291). -/
def subCache (e : Env) (d : SubDesc) : Nat := if d.slice then 512 + e.col else e.cache

/-- `sub` and `subup` (R129, R141, R142, R290, R291). -/
def subscribe (s : State) (a : AgentId) (va : Nat) (d : SubDesc) (up : Bool) : Except Miss (State × Nat) :=
  let e := envOf s a
  if d.kind = 3 ∨ d.resv ∨ !subPairOk d.src d.fmt ∨ (!d.slice ∧ isHost a) then .error (.trap cSubFormat)
  else match namedLines s a d va false with
    | .error m => .error m
    | .ok (s, l) =>
      match subPlaces s e l with
      | .error m => .error m
      | .ok ps =>
        if up && !(ps.all fun p => widens s (subCache e d) d p.2) then .error (.trap cSubFormat)
        else subAll s e (subCache e d) d up ps

/-- Discard a list of lines' copies, counting them (R141). -/
def unsubAll (s : State) (cache : Nat) : List (Space × Nat) → State × Nat
  | [] => (s, 0)
  | (_, key) :: t =>
    let held := (ffind s.copies (copyKey key cache)).isSome
    let r := unsubAll (evictCopy s cache key) cache t
    (r.1, r.2 + if held then 1 else 0)

/-- `unsub` (R141, R290, R291). -/
def unsubscribe (s : State) (a : AgentId) (va : Nat) (d : SubDesc) : Except Miss (State × Nat) :=
  let e := envOf s a
  if d.kind = 3 ∨ (!d.slice ∧ isHost a) then .error (.trap cSubFormat)
  else match namedLines s a d va true with
    | .error m => .error m
    | .ok (s, l) => (subPlaces s e l).map fun ps => unsubAll s (subCache e d) ps

/-- A subscription word. -/
def subsWord (d a b : Reg) (s : State) (f : State → Nat → SubDesc → Except Miss (State × Nat)) : Out :=
  scalar s [a, b] [d] fun s => (lift 0 (f s (rd s a).toNat (.of (rd s b)))).map fun r => wr r.1 d (wordOf r.2)

def execSubSubscription (d a b : Reg) (s : State) : Out := subsWord d a b s fun s va x => subscribe s s.cur va x false
def execUnsub (d a b : Reg) (s : State) : Out := subsWord d a b s fun s va x => unsubscribe s s.cur va x
def execSubup (d a b : Reg) (s : State) : Out := subsWord d a b s fun s va x => subscribe s s.cur va x true

/-! ### Commutative ranges (R122, R123, R292 to R294) -/

/-- Format of a range by its code (R292). -/
def crOf (c : Nat) : Option CrTy := if c = 1 then some .f32 else if c = 3 then some .bf16 else if c = 0x22 then some .i32 else none

/-- Whether two address ranges meet. -/
def overlaps (a n b m : Nat) : Bool := decide (a < b + m) && decide (b < a + n)

/-- Whether a range of an ASID meets an active commutative range. -/
def meetsRange (s : State) (asid va n : Nat) : Bool := s.ranges.any fun c => c.asid == asid && overlaps va n c.start c.len

/-- Whether a range of an ASID meets a scratchpad mapping. -/
def meetsMap (s : State) (asid va n : Nat) : Bool :=
  s.cores.any fun c => c.2.maps.any fun m => m.2.asid == asid && overlaps va n m.2.base m.2.len

/-- Declare a range (R292); a domain address, or another window, is a bad START. -/
def declareRange (s : State) (a : AgentId) (start x : Nat) : Except Miss State :=
  let e := envOf s a
  let len := x % 2 ^ 32
  if 2 ^ 57 ≤ start then .error (.trap cBadAddress)
  else match crOf (x / 2 ^ 32 % 256) with
    | none => .error (.trap cCrBad)
    | some t =>
      if x / 2 ^ 42 ≠ 0 ∨ x / 2 ^ 40 % 4 = 3 ∨ start % 128 ≠ 0 ∨ len % 128 ≠ 0 ∨ len = 0 ∨ 2 ^ 20 < len ∨
          addrKind start ≠ .plain ∨ addrKind (start + len - 1) ≠ .plain then .error (.trap cCrBad)
      else if 16 ≤ (s.ranges.filter fun c => c.rcb == rcbOf s a).length ∨ meetsRange s e.sp.tag start len ∨
          meetsMap s e.sp.tag start len then .error (.trap cCrConflict)
      else
        .ok { s with ranges :=
          { rcb := rcbOf s a, asid := e.sp.tag, start := start, len := len, op := x / 2 ^ 40 % 4, fmt := t, partials := [] } :: s.ranges }

def execCrSet (a b : Reg) (s : State) : Out :=
  scalar s [a, b] [] fun s => lift 1 (declareRange s s.cur (rd s a).toNat (rd s b).toNat)

/-- The range that an agent's contribution finds (R293). -/
def ownRange (s : State) (a : AgentId) (va : Nat) (t : CrTy) : Option CRange :=
  match rangeAt s (envOf s a).sp.tag va with
  | some c => if c.rcb = rcbOf s a ∧ c.fmt = t then some c else none
  | none => none

/-- One contribution to a core's partial (R97, R122). -/
def foldContribution (s : State) (c : CRange) (core va v : Nat) : State :=
  let k := partialKey core va
  let w := c.fmt.width
  let old := ((ffind c.partials k).map (·.toNat)).getD (crIdentity c.fmt c.op)
  setRange s { c with partials := fset c.partials k (BitVec.ofNat 32 (crFold c.fmt c.op old (v % 2 ^ w))) }

/-- The check of one contribution's address: BAD_ADDRESS, MISALIGNED, SPM_RANGE, then CR_MISS (R275, R293, R429). -/
def raddCheck (s : State) (a : AgentId) (t : CrTy) (va : Nat) : Except (BitVec 8) CRange :=
  match addressCheck s (envOf s a) va (t.width / 8) with
  | .error _ => .error cBadAddress
  | .ok _ =>
    if va % (t.width / 8) ≠ 0 then .error cMisaligned
    else if (match addrKind va with
        | .loc o => (localBlock s (envOf s a) o (t.width / 8)).toOption.isNone
        | _ => false) then .error cSpmRange
    else match ownRange s a va t with
      | some c => .ok c
      | none => .error cCrMiss

/-- A host core's contribution, one write at the home whatever its value (R138, R293), counted in UNACK (R168). -/
def foldAtHome (s : State) (e : Env) (c : CRange) (va v : Nat) : Except Miss State :=
  let w := c.fmt.width
  let off := va % 128
  (denied e.sp va (readHome s e.sp (e.sp.key va))).map fun r =>
    let new := crFold c.fmt c.op (lineNat r.2.data off (w / 8)) (v % 2 ^ w) % 2 ^ w
    writeHome (addUnack r.1 e.who) (e.sp.key va) r.2 (BitVec.ofNat 1024 (new * 2 ^ (8 * off))) (maskRange 128 off (w / 8)) (some e.cache)
      e.who e.who false

/-- One contribution: to the core's partial, or on a host core one step at the home (R293), of a line known writable (R434). -/
def contribute (s : State) (a : AgentId) (t : CrTy) (va v : Nat) : Except Miss State :=
  let e := envOf s a
  match raddCheck s a t va with
  | .error c => .error (.trap c)
  | .ok c =>
    (accessAt va (checkWrite s e e.sp (e.sp.key va))).bind fun s =>
      match e.core with
      | some core => .ok (foldContribution s c core va v)
      | none =>
        (drainOfLine s a e.sp.tag va).bind fun s =>
          if !cleanRoom s a e (e.sp.key va) then .error (.wait s)
          else (pushFirst s a e e.sp (e.sp.key va)).bind fun s => foldAtHome s e c va v

def execRadd (a b : Reg) (t : CrTy) (s : State) : Out :=
  scalar s [a, b] [] fun s => lift 2 (contribute s s.cur t (rd s a).toNat (rd s b).toNat)

/-- Combine every line of a range, each combine ordered at `.pkg`: no cache is left with what it held before (R123, R294). -/
def combineRange (s : State) (sp : Space) (c : CRange) : State :=
  (List.range (c.len / 128)).foldl (fun s i =>
    settleLine (combineLine s sp (sp.key (c.start + 128 * i)) none) (sp.key (c.start + 128 * i))) s

/-- End a range: every line is combined and becomes ordinary (R294). -/
def endRange (s : State) (a : AgentId) (start : Nat) : Except Miss State :=
  let e := envOf s a
  if 2 ^ 57 ≤ start then .error (.trap cBadAddress)
  else match s.ranges.find? fun c => c.rcb == rcbOf s a && c.asid == e.sp.tag && c.start == start with
    | none => .error (.trap cCrMiss)
    | some c =>
      let s := combineRange s e.sp c
      match (s.ranges.find? fun x => x.asid == c.asid && x.start == c.start).bind fun x => x.partials.head? with
      | some (k, _) =>
        match denied e.sp (k % 2 ^ 57) (readHome s e.sp (e.sp.key (k % 2 ^ 57))) with
        | .error m => .error m
        | .ok _ => .error (.wait s)
      | none => .ok { s with ranges := s.ranges.filter fun x => !(x.asid == c.asid && x.start == c.start) }

def execCrEnd (a : Reg) (s : State) : Out := scalar s [a] [] fun s => lift 1 (endRange s s.cur (rd s a).toNat)

/-! ### Scratchpad mappings (R107 to R109, R295) -/

/-- Lowest free entry of a core's mapping table. -/
def freeMap (s : State) (core : Nat) : Option Nat :=
  (List.range 16).find? fun i => (((ffind s.cores core).map (·.maps)).getD []).all fun m => m.1 != i

/-- Whether a mapping is refused (R109, R295). -/
def mapRefused (s : State) (e : Env) (b core base len off : Nat) : Bool :=
  let spm := ((ffind s.blocks b).map (·.spmBytes)).getD 0
  base % 128 != 0 || len % 128 != 0 || off % 128 != 0 || len == 0 || addrKind base != .plain ||
  addrKind (base + len - 1) != .plain || meetsMap s e.sp.tag base len || meetsRange s e.sp.tag base len ||
  decide (spm < off + len) ||
  (((ffind s.cores core).map (·.maps)).getD []).any fun m => m.2.block == b && overlaps off len m.2.off m.2.len

/-- Fetch, check and, for `.fill`, copy the lines of a range from their homes: every copy elsewhere goes, column-private
bytes are pushed first (R108); n lines from the first.  The plain form's contents are a new value of every byte, which ends a poison
(DEDUCED, log 139). -/
def mapLines (s : State) (e : Env) (b base off : Nat) (fill : Bool) : Nat → Except Miss State
  | 0 => .ok s
  | n + 1 =>
    match mapLines s e b base off fill n with
    | .error m => .error m
    | .ok s =>
      let va := base + 128 * n
      let key := e.sp.key va
      match checkWrite s e e.sp key with
      | .error m => .error m
      | .ok s =>
        let s := (s.cols.map Prod.fst).foldl (fun s c => pushNow s e.sp key c .nobody) s
        match denied e.sp va ((if fill then readHome s e.sp key else reachHome s e.sp key none).bind fun r =>
            installHome (settleLine r.1 key) e.sp key) with
        | .error m => .error m
        | .ok (s, h) =>
          let held := s.copies.filter fun p => p.1 / 1024 == key
          let s := dropCopies s key (held.map fun p => p.1 % 1024)
          let s := setHome s key { h with ents := [], coarse := false, cols := 0#32, src := 0#8, excl := none, poison := none }
          .ok (if fill then spmWrite s b (off + 128 * n) 128 h.data.toNat e.who
            else wakeLine (noteStore s key (BitVec.ofNat 1024 ((ffind s.blocks b).elim 0 fun x => localNat x (off + 128 * n) 128))
              (BitVec.allOnes 128) e.who .home) key e.who .all)

/-- `spm.map` and `spm.map.fill` (R107 to R109, R295): the entry's index. -/
def mapScratch (s : State) (a : AgentId) (base x : Nat) (fill : Bool) : Except Miss (State × Nat) :=
  let e := envOf s a
  let len := x / 2 ^ 32 % 2 ^ 32
  let off := x % 2 ^ 32
  if 2 ^ 57 ≤ base then .error (.trap cBadAddress)
  else match e.block, e.core with
    | some b, some core =>
      if mapRefused s e b core base len off then .error (.trap cSpmMapConflict)
      else match freeMap s core with
        | none => .error (.trap cSpmMapConflict)
        | some i =>
          match drainAll s a with
          | .error m => .error m
          | .ok s =>
            (mapLines s e b base off fill (len / 128)).map fun s =>
              (modCore s core fun c =>
                { c with maps := fset c.maps i { base := base, len := len, off := off, block := b, asid := e.sp.tag } }, i)
    | _, _ => .error (.trap cSpmMapConflict)

/-- A mapping word. -/
def mapWord (d a b : Reg) (s : State) (fill : Bool) : Out :=
  scalar s [a, b] [d] fun s =>
    (groupOnly s).bind fun _ =>
      (lift 1 (mapScratch s s.cur (rd s a).toNat (rd s b).toNat fill)).map fun r => wr r.1 d (wordOf r.2)

def execSpmMap (d a b : Reg) (s : State) : Out := mapWord d a b s false
def execSpmMapFill (d a b : Reg) (s : State) : Out := mapWord d a b s true

/-- Write back n lines of a mapping to their homes and their backing memory: the stores forwarded to them reach the scratchpad first, a
poisoned line stays so (R108, R445). -/
def unmapLines (s : State) (sp : Space) (m : MapEnt) : Nat → Except Miss State
  | 0 => .ok s
  | n + 1 =>
    match unmapLines s sp m n with
    | .error x => .error x
    | .ok s =>
      let va := m.base + 128 * n
      let key := sp.key va
      (denied sp va (reachHome (landForwards s key) sp key none)).map fun r =>
        writeBack (setHome r.1 key { r.2 with data := mappedLine r.1 m va, dirty := BitVec.allOnes 128 }) sp.part key

/-- Write a mapping back and take it out of its core's table. -/
def removeMap (s : State) (sp : Space) (core i : Nat) (m : MapEnt) : Except Miss State :=
  (unmapLines s { sp with tag := m.asid } m (m.len / 128)).map fun s => modCore s core fun c => { c with maps := fdel c.maps i }

/-- `spm.unmap` (R108, R295). -/
def unmapScratch (s : State) (a : AgentId) (base : Nat) : Except Miss State :=
  let e := envOf s a
  if 2 ^ 57 ≤ base then .error (.trap cBadAddress)
  else match e.core with
    | none => .error (.trap cSpmMapConflict)
    | some core =>
      match (((ffind s.cores core).map (·.maps)).getD []).find? fun m => m.2.base == base && some m.2.block == e.block with
      | none => .error (.trap cSpmMapConflict)
      | some (i, m) =>
        match drainAll s a with
        | .error x => .error x
        | .ok s => removeMap s e.sp core i m

def execSpmUnmap (a : Reg) (s : State) : Out :=
  scalar s [a] [] fun s => (groupOnly s).bind fun _ => lift 1 (unmapScratch s s.cur (rd s a).toNat)

end Sys2Proof.Machine
end

