-- ==== Sys2Proof/Machine/Engine.lean ====
section
/-! DEFINITION. Engine operations: descriptors, the checks at issue, the landing of payload lines, completion and faults
(R48, R112, R115, R164, R174 to R176, R321 to R329, R474, R504). -/

namespace Sys2Proof.Machine

/-! ### Descriptors (R322) -/

/-- n bytes of a descriptor. -/
def edNat (d : BitVec 4096) (off n : Nat) : Nat := d.toNat / 2 ^ (8 * off) % 2 ^ (8 * n)

/-- STAMP. -/
def edStamp (d : BitVec 4096) : Nat := edNat d 0 8
/-- ARR. -/
def edArr (d : BitVec 4096) : Bool := d.getLsbD 64
/-- EWAIT. -/
def edEwait (d : BitVec 4096) : Bool := d.getLsbD 65
/-- EPAR. -/
def edEpar (d : BitVec 4096) : Bool := d.getLsbD 66
/-- CONV. -/
def edConv (d : BitVec 4096) : Bool := d.getLsbD 67
/-- INLINE. -/
def edInline (d : BitVec 4096) : Bool := d.getLsbD 68
/-- ABAR. -/
def edAbar (d : BitVec 4096) : Nat := edNat d 9 1
/-- EBAR. -/
def edEbar (d : BitVec 4096) : Nat := edNat d 10 1
/-- RED. -/
def edRed (d : BitVec 4096) : Nat := edNat d 14 1
/-- SORG[k]. -/
def edSorg (d : BitVec 4096) (k : Nat) : Nat := edNat d (0x10 + 4 * k) 4
/-- DORG[k]. -/
def edDorg (d : BitVec 4096) (k : Nat) : Nat := edNat d (0x24 + 4 * k) 4
/-- SIZE[k]. -/
def edSize (d : BitVec 4096) (k : Nat) : Nat := edNat d (0x38 + 4 * k) 4
/-- COLS. -/
def edCols (d : BitVec 4096) : Nat := edNat d 0x4C 4
/-- PEER. -/
def edPeer (d : BitVec 4096) : Nat := edNat d 0x50 8
/-- A record given inline: 0 source, 1 destination, 2 index. -/
def edRecord (d : BitVec 4096) (k : Nat) : BitVec 1024 := d.extractLsb' (8 * (0x80 + 0x80 * k)) 1024

/-- Whether an operation uses an index tensor. -/
def EngOp.indexed : EngOp → Bool
  | .gth | .scat => true
  | _ => false

/-- The first check of R323: alignment, reserved and unused fields, flags. -/
def edFormOk (op : EngOp) (host : Bool) (d : BitVec 4096) : Bool :=
  edStamp d != 0 && decide (edStamp d % 8 = 0) && decide (edNat d 8 1 < 32) && decide (edNat d 15 1 = 0) &&
  decide (edNat d 0x58 40 = 0) && !(edEpar d && !edEwait d) && (edArr d || edAbar d == 0) && (edEwait d || edEbar d == 0) &&
  !(host && (edArr d || edEwait d || !edInline d)) &&
  (match op with
    | .redcp | .dcoll => decide (edRed d < 3)
    | _ => edRed d == 0) &&
  (op == .mcast || edCols d == 0) && (op == .dcoll || edPeer d == 0) &&
  (op.indexed || (if edInline d then edRecord d 2 == 0#1024 else edNat d 13 1 == 0)) &&
  (match op with
    | .gth => edSorg d 1 == 0
    | .scat => edDorg d 1 == 0
    | _ => true)

/-- Whether nothing beyond a valid record's RANK is used of an origin, and of the sizes beyond both ranks (R322, R323). -/
def edUnusedOk (d : BitVec 4096) (src dst : Tid) : Bool :=
  let beyond (rank : Nat) (f : Nat → Nat) : Bool := (List.range 5).all fun k => decide (k < rank) || f k == 0
  (!src.valid || beyond (tidRank src.raw) (edSorg d)) && (!dst.valid || beyond (tidRank dst.raw) (edDorg d)) &&
  (!src.valid || !dst.valid || beyond (max (tidRank src.raw) (tidRank dst.raw)) (edSize d))

/-- A named identifier, or a record given inline, as the issue record keeps it (R321). -/
def edTid (s : State) (a : AgentId) (d : BitVec 4096) (k : Nat) : Tid :=
  let b := ((groupOf a).bind fun g => ffind s.groups g).bind fun g => ffind s.blocks g.block
  if edInline d then .install (edRecord d k) ((b.map (·.spmBytes)).getD 0)
  else match b with
    | none => .unset
    | some b => if edNat d (11 + k) 1 < b.tidCount then (ffind b.tids (edNat d (11 + k) 1)).getD .unset else .unset

/-- Whether a box lies inside a tensor; the indexed dimension is left out (R323). -/
def boxInside (r : BitVec 1024) (org size : Nat → Nat) (indexed : Bool) : Bool :=
  (List.range 5).all fun k =>
    if k < tidRank r then size k != 0 && ((indexed && k == 1) || decide (org k + size k ≤ tidExtRaw r k))
    else size k == 0 && org k == 0

/-- Whether two formats may meet in an operation (R323, R326). -/
def formatsOk (op : EngOp) (conv : Bool) (a b : BitVec 1024) : Bool :=
  if conv then
    tidBlk a == 0 && tidBlk b == 0 && op != .redcp &&
    match Fmt.ofBits (tidFmt a), Fmt.ofBits (tidFmt b) with
    | some x, some y => convertOk x y
    | _, _ => false
  else tidFmt a == tidFmt b

/-- Coordinates of a box, dimension 0 fastest (R324). -/
def boxCoords : List Nat → List (List Nat)
  | [] => [[]]
  | n :: t => (boxCoords t).flatMap fun c => (List.range n).map fun i => i :: c

/-- Sizes of a descriptor's box. -/
def edSizes (d : BitVec 4096) (rank : Nat) : List Nat := (List.range rank).map (edSize d)

/-- Elements of a descriptor's box. -/
def edCount (d : BitVec 4096) (rank : Nat) : Nat := (edSizes d rank).foldl (· * ·) 1

/-- Byte address of element coordinates; in the scratchpad, its offset. -/
def elemAddr (r : BitVec 1024) (org : Nat → Nat) (j : List Nat) (index : Option Nat) : Nat :=
  tidAddr r ((List.range (tidRank r)).map fun k =>
    if k = 1 then (index.getD (org 1 + j.getD 1 0)) else org k + j.getD k 0)

/-- Whether a byte lies in the launch window. -/
def inLaunchWindow (va : Nat) : Bool := decide (launchBase ≤ va) && decide (va < localBase)

/-- Whether a tensor has any element in the launch window (R504). -/
def tensorInWindow (r : BitVec 1024) : Bool :=
  tidSpace r == 0 &&
    strideMeets launchBase localBase (tidSize r) ((List.range (tidRank r)).reverse.map fun k => (tidExtRaw r k, tidStride r k)) (tidBase r)

/-- Whether a tensor's box, with the whole of an indexed dimension, has a byte in a range of addresses. -/
def boxMeets (lo hi : Nat) (r : BitVec 1024) (org : Nat → Nat) (d : BitVec 4096) (indexed : Bool) : Bool :=
  tidSpace r == 0 &&
    strideMeets lo hi (tidSize r)
      ((List.range (tidRank r)).reverse.map fun k => (if indexed && k == 1 then tidExtRaw r 1 else edSize d k, tidStride r k))
      (elemAddr r org [] (if indexed then some 0 else none))

/-- Whether a tensor's box reaches the launch window (R504). -/
def boxInWindow (r : BitVec 1024) (org : Nat → Nat) (d : BitVec 4096) (indexed : Bool) : Bool :=
  boxMeets launchBase localBase r org d indexed

/-- Whether a destination box lies in the scratchpad, by its tensor's SPACE or by the local window (R105, R112). -/
def boxLocal (op : EngOp) (d : BitVec 4096) (dst : BitVec 1024) : Bool :=
  tidSpace dst == 1 || boxMeets localBase (2 ^ 57) dst (edDorg d) d (op == .scat)

/-- Whether an operation writes the scratchpad of its block in some part (R43). -/
def IRec.toScratch (r : IRec) : Bool :=
  boxLocal r.op r.desc r.dst.raw || r.parts.any fun p => boxLocal r.op p.desc p.dst.raw

/-- The package whose packet address a destination is based at. -/
def packetTarget (r : BitVec 1024) : Option Nat :=
  if tidSpace r = 1 then none
  else match addrKind (tidBase r) with
    | .domain p 0 o => if o = packetOffset then some p else none
    | _ => none

/-! ### The checks at issue (R323, R326 to R328, R504) -/

/-- A domain-group record (R328): its count, rank, tag and members. -/
structure DomainGroup where
  count : Nat
  rank : Nat
  resv : Nat
  members : List Nat
  deriving DecidableEq, Repr

/-- A record that passes, for operations that name none. -/
def DomainGroup.pair : DomainGroup := { count := 2, rank := 0, resv := 0, members := [0, 1] }

/-- Read a domain-group record. -/
def readDomainGroup (s : State) (a : AgentId) (va : Nat) : Except Miss (State × DomainGroup) :=
  match loadBytes s a va 16 with
  | .error m => .error m
  | .ok (s, h) =>
    let n := h % 2 ^ 16
    if n = 0 ∨ 768 < n then .ok (s, { count := n, rank := 0, resv := 0, members := [] })
    else (loadBytes s a (va + 16) (2 * n)).map fun r =>
      (r.1, { count := n, rank := h / 2 ^ 16 % 2 ^ 16, resv := h / 2 ^ 32 % 2 ^ 32
              members := (List.range n).map fun i => r.2 / 2 ^ (16 * i) % 2 ^ 16 })

/-- Whether a domain-group record is well formed (R328). -/
def DomainGroup.ok (g : DomainGroup) : Bool :=
  decide (2 ≤ g.count) && decide (g.count ≤ 768) && decide (g.rank < g.count) && g.resv == 0 &&
  decide (g.members.eraseDups.length = g.count)

/-- Destination lines of a box. -/
def boxLines (r : BitVec 1024) (org : Nat → Nat) (d : BitVec 4096) : List Nat :=
  ((boxCoords (edSizes d (tidRank r))).map fun j => elemAddr r org j none / 128).eraseDups

/-- The operation's own checks (R326 to R328). -/
def ownChecks (s : State) (a : AgentId) (op : EngOp) (sc : Scope) (d : BitVec 4096) (src dst idx : BitVec 1024) :
    Except (BitVec 8) Unit :=
  match op with
  | .gth | .scat =>
    if tidRank idx = 1 ∧ (tidFmt idx = 0x22#8 ∨ tidFmt idx = 0x2A#8) ∧ edSize d 1 ≤ tidExtRaw idx 0 ∧ 2 ≤ tidRank src then .ok ()
    else .error cEngDesc
  | .redcp =>
    if (tidFmt dst = 1#8 ∨ tidFmt dst = 3#8 ∨ tidFmt dst = 0x22#8) ∧ (boxLines dst (edDorg d) d).length ≤ 2048 then .ok ()
    else .error cEngDesc
  | .mcast =>
    if tidSpace dst ≠ 1 then .error cEngDesc
    else if (bitsSet (BitVec.ofNat 32 (edCols d))).all fun c => (partOf s (envOf s a).sp.part).cols.contains c then .ok ()
    else .error cMcastPart
  | .dcoll => if sc = .dom ∨ sc = .sys then .ok () else .error cEngDesc
  | _ => .ok ()

/-- Every check of R323, in its order, with the identifiers that the record keeps. -/
def issueChecks (s : State) (a : AgentId) (op : EngOp) (sc : Scope) (d : BitVec 4096) : Except (BitVec 8) (Tid × Tid × Tid) :=
  let src := edTid s a d 0
  let dst := edTid s a d 1
  let idx := if op.indexed then edTid s a d 2 else .unset
  let bars := (((groupOf a).bind fun g => ffind s.groups g).bind fun g => ffind s.blocks g.block).map (·.barCount)
  if !edFormOk op (isHost a) d || !edUnusedOk d src dst then .error cEngDesc
  else if !src.valid ∨ !dst.valid ∨ (op.indexed ∧ !idx.valid) then .error cBadTid
  else if tidRo dst.raw then .error cTidReadonly
  else if tidRank src.raw ≠ tidRank dst.raw ∨ !formatsOk op (edConv d) src.raw dst.raw ∨
      !boxInside src.raw (edSorg d) (edSize d) (op == .gth) ∨ !boxInside dst.raw (edDorg d) (edSize d) (op == .scat) then
    .error cEngDesc
  else if (edArr d ∧ bars.getD 0 ≤ edAbar d) ∨ (edEwait d ∧ bars.getD 0 ≤ edEbar d) then .error cBarRange
  else match ownChecks s a op sc d src.raw dst.raw idx.raw with
    | .error c => .error c
    | .ok _ =>
      if boxInWindow src.raw (edSorg d) d (op == .gth) ∨ boxInWindow dst.raw (edDorg d) d (op == .scat) ∨
          inLaunchWindow (edStamp d) ∨ 2 ^ 57 ≤ edStamp d ∨
          (op.indexed ∧ tensorInWindow idx.raw) then
        .error cBadAddress
      else .ok (src, dst, idx)

/-- Read a descriptor with plain loads: 128 bytes, or 512 with INLINE (R322). -/
def readDesc (s : State) (a : AgentId) (va : Nat) : Except Miss (State × BitVec 4096) :=
  if 2 ^ 57 ≤ va then .error (.trap cBadAddress)
  else if va % 128 ≠ 0 then .error (.trap cEngDesc)
  else match loadBytes s a va 128 with
    | .error m => .error m
    | .ok (s, x) =>
      let d : BitVec 4096 := BitVec.ofNat 4096 x
      if edInline d then (loadBytes s a va 512).map fun r => (r.1, BitVec.ofNat 4096 r.2) else .ok (s, d)

/-! ### Issue (R48, R321, R325, R329) -/

/-- Keys of an agent's issue records. -/
def recordKeys (s : State) : AgentId → List Nat
  | .host c t => (List.range Config.hostRecords).map fun i => 16384 + 16 * hostKey c t + i
  | a => (List.range Config.issueRecords).map fun i => 256 * (pftSlot s a).1 + i

/-- Lowest free issue record of an agent. -/
def freeRecord (s : State) (a : AgentId) : Option Nat := (recordKeys s a).find? fun k => (ffind s.irecs k).isNone

/-- The collective copy that a group's block is still gathering, one that a difference has faulted included (R325). -/
def openCollective (s : State) (b g : Nat) : Option (Nat × IRec) :=
  s.irecs.find? fun r => r.2.op == .cpColl && r.2.block == b && !gathered s r.2 && !r.2.joined g

/-- The release that an issue is, which gives the fork edge (R164, R321). -/
def issueRelease (s : State) (a : AgentId) (sc : Scope) : Except Miss State := releaseSteps s a sc

/-- A fresh issue record. -/
def newRecord (s : State) (a : AgentId) (op : EngOp) (sc : Scope) (d : BitVec 4096) (v : Word)
    (t : Tid × Tid × Tid) (g : DomainGroup) : IRec :=
  let own := (groupOf a).bind fun g => (ffind s.groups g).map fun p => (g, p)
  let th := (threadOf s a).getD (.fresh 0#64 0#16)
  let part (k : Nat) : EngPart := { group := k, pc := th.pc, desc := d, stamp := v, src := t.1, dst := t.2.1 }
  let parts := if op = .cpColl then (own.toList.map fun x => part x.1) else []
  { op := op, who := (envOf s a).who, region := (own.map (·.2.region)).getD 0, block := (own.map (·.2.block)).getD 0
    core := (own.map (·.2.core)).getD 0, asid := (envOf s a).sp.tag, part := (envOf s a).sp.part, rcb := rcbOf s a, pc := th.pc
    monitor := th.atMonitor, desc := d, stamp := v, scope := sc, src := t.1, dst := t.2.1, idx := t.2.2, done := 0
    rank := if op = .dcoll then g.rank else 0, peers := if op = .dcoll then g.members else []
    parts := parts, told := [], targets := [], begun := false, bitmap := 0#2048, unack := 0, marker := false, await := [], departed := false, arrived := false, stamped := false
    run := .running }

/-- GROUP_ID of a part of a collective copy. -/
def partId (s : State) (p : EngPart) : Nat := ((ffind s.groups p.group).map (·.groupId)).getD 0

/-- Wider of two scopes. -/
def widerScope (a b : Scope) : Scope := if scopeIndex a < scopeIndex b then b else a
where
  /-- Order of the scopes (R150). -/
  scopeIndex : Scope → Nat
    | .grp => 0
    | .blk => 1
    | .col => 2
    | .die => 3
    | .pkg => 4
    | .dom => 5
    | .sys => 6

/-- Whether two descriptors of a collective copy agree (R325). -/
def partsAgree (a b : BitVec 4096) : Bool :=
  edStamp a == edStamp b && edNat a 8 1 == edNat b 8 1 && edAbar a == edAbar b && edEbar a == edEbar b

/-- A group joins a collective copy; a difference faults every part, those still to come included (R325). -/
def joinCollective (s : State) (key : Nat) (r n : IRec) : State :=
  let r' := { r with parts := r.parts ++ n.parts, scope := widerScope r.scope n.scope }
  let run := if partsAgree r.desc n.desc then r.run else .held cEngDesc 0xFFFFFFFF#32 0
  { s with irecs := fset s.irecs key { r' with run := run } }

/-- An engine word (R321). -/
def engineWord (op : EngOp) (d a b : Reg) (sc : Scope) (s : State) : Out :=
  scalar s [a, b] [d] fun s =>
    match lift 0 (readDesc s s.cur (rd s a).toNat) with
    | .error x => .error x
    | .ok (s, desc) =>
      match issueChecks s s.cur op sc desc with
      | .error c => .error (trapOf c)
      | .ok t =>
        match (if op = .dcoll then
            (if edPeer desc % 16 = 0 then lift 0 (readDomainGroup s s.cur (edPeer desc)) else .error (trapOf cEngDesc))
          else .ok (s, .pair) : Except Exit (State × DomainGroup)) with
        | .error x => .error x
        | .ok (s, g) =>
          if !g.ok then .error (trapOf cEngDesc)
          else
            let open_ := if op = .cpColl then
              ((groupOf s.cur).bind fun g => (ffind s.groups g).bind fun p => openCollective s p.block g) else none
            match open_, freeRecord s s.cur with
            | none, none => .error (.stall s)
            | some (k, r), _ =>
              (lift 1 (issueRelease s s.cur sc)).map fun s =>
                wr (joinCollective s k r (newRecord s s.cur op sc desc (rd s b) t g)) d (wordOf (k % 256))
            | none, some k =>
              (lift 1 (issueRelease s s.cur sc)).map fun s =>
                wr { s with irecs := fset s.irecs k (newRecord s s.cur op sc desc (rd s b) t g) } d
                  (wordOf (if isHost s.cur then k % 16 else k % 256))

def execCp (d a b : Reg) (sc : Scope) (s : State) : Out := engineWord .cp d a b sc s
/-- Every group of the block issues its own part; a host core has no block. -/
def execCpColl (d a b : Reg) (sc : Scope) (s : State) : Out :=
  if isHost s.cur then scalar s [a, b] [d] fun _ => .error (trapOf cIllegalInstr) else engineWord .cpColl d a b sc s
def execGth (d a b : Reg) (sc : Scope) (s : State) : Out := engineWord .gth d a b sc s
def execScat (d a b : Reg) (sc : Scope) (s : State) : Out := engineWord .scat d a b sc s
def execRedcp (d a b : Reg) (sc : Scope) (s : State) : Out := engineWord .redcp d a b sc s
def execMcast (d a b : Reg) (sc : Scope) (s : State) : Out := engineWord .mcast d a b sc s
def execDcoll (d a b : Reg) (sc : Scope) (s : State) : Out := engineWord .dcoll d a b sc s

end Sys2Proof.Machine
end

