-- ==== Sys2Proof/Machine/EngineRun.lean ====
section
/-! DEFINITION. How engine operations move: payload lines land one by one, then the arrival and the stamp; faults and
parks (R48, R112, R115, R324 to R328, R474). -/

namespace Sys2Proof.Machine

/-- What one movement of an operation comes to. -/
inductive Landing
  /-- A payload line has landed. -/
  | moved (s : State)
  /-- Every payload line has landed. -/
  | whole (s : State)
  /-- The operation has to wait. -/
  | waits (s : State)
  | parks (s : State) (p : Park)
  | fails (s : State) (cause : BitVec 8) (elem : Word32) (va : Nat)
  deriving DecidableEq, Repr

/-- An access of an operation that did not complete, at an element. -/
def Miss.landing (s : State) (elem : Word32) (kind : Nat) : Miss → Landing
  | .wait t => .waits t
  | .trap c => .fails s c elem 0
  | .deny .absent tag va => .parks s { state := 1, asid := tag, lanes := 0#32, va := wordOf va, kind := kind, woken := false }
  | .deny .poisoned tag va => .parks s { state := 2, asid := tag, lanes := 0#32, va := wordOf va, kind := kind, woken := false }
  | .deny .prot _ _ => .fails s cProtWrite elem 0
  | .deny .conflict _ _ => .fails s cAliasConflict elem 0
  | .deny .malformed _ va => .fails s cPageFault elem va

/-- TRAP_ELEM of a fault that involves no element (R324). -/
def noElem : Word32 := 0xFFFFFFFF#32

/-! ### Places and accesses of an operation -/

/-- Pending-fault slot of an issue record (R436). -/
def engSlot (key : Nat) : Nat × Nat :=
  if key < 16384 then (key / 256, 256 + key % 256)
  else (64 + (key - 16384) / 32, 256 + (key - 16384) % 32)

/-- Column in which an operation was issued. -/
def engCol (s : State) (key : Nat) (r : IRec) : Nat := if key < 16384 then coreCol s r.core else (key - 16384) / 32

/-- Where an operation accesses memory from: the column slice of its issue. -/
def engEnv (s : State) (key : Nat) (r : IRec) : Env :=
  let host := decide (16384 ≤ key)
  let homing := if host then rcbHoming s r.part r.rcb else ((ffind s.regions r.region).map (·.homing)).getD []
  { sp := { part := r.part, tag := r.asid, homing := homing }, col := engCol s key r, core := none
    cache := 512 + engCol s key r, who := .eng key, region := if host then none else some r.region
    block := if host then none else some r.block, monitor := r.monitor }

/-- A line as a column slice gives it to an operation. -/
def colLine (s : State) (e : Env) (sp : Space) (key : Nat) : Except Miss (State × LineData) :=
  let s := combineFirst (landOwn s sp key e.col) e sp key
  match mappedAt s sp.tag (lineVa key) with
  | some (_, _, m) => forwardedLine s e sp key m
  | none => sliceLine s e sp key

/-- A read of an operation at another package, or the wait for its answer, which stays until a payload line has landed, or PAGE_FAULT
where it is refused (R470, R472, R473). -/
def remoteRead (s : State) (e : Env) (va n : Nat) : Except Miss (State × Nat) :=
  match remoteOf s e.who va false with
  | none => .error (.wait (sendRemote s e.who e.col va false false 0#64 n))
  | some (_, r) =>
    match r.answer with
    | none => .error (.wait s)
    | some (.value x) => .ok (s, x % 2 ^ (8 * n))
    | some _ => .error (.deny .malformed 0 va)

/-- The reads of an agent at other packages end, those in flight included. -/
def dropReads (s : State) (w : Who) : State :=
  let ids := (s.remote.filter fun r => r.2.who == w && !r.2.write).map Prod.fst
  { s with
    remote := s.remote.filter fun r => !ids.contains r.1
    net := s.net.filter fun m => match m.kind with
      | .remote k => !ids.contains k
      | _ => true }

/-- Read n bytes of an element at a virtual address. -/
def engLoad (s : State) (e : Env) (va n : Nat) : Except Miss (State × Nat) :=
  let line (sp : Space) : Except Miss (State × Nat) :=
    (accessAt va (colLine s e sp (sp.key va))).map fun r => (r.1, lineNat r.2 (va % 128) n)
  match addrKind va with
  | .bad | .launch _ => .error (.trap cBadAddress)
  | .loc o => (localBlock s e o n).map fun b => (wakeSpm s b.1 o n, localNat b.2 o n)
  | .snap o => (snapRead s e va o).bind fun _ => line e.sp
  | .table o => (tableAccess s e o n).bind line
  | .domain pkg k o =>
    if pkg = s.pkg.domain then
      match domainAt s k o n with
      | none => .error (.deny .malformed 0 va)
      | some sp =>
        match homeLine s e sp (sp.key o) with
        | .ok (t, d) => .ok (t, lineNat d (o % 128) n)
        | .error (.wait t) => .error (.wait t)
        | .error _ => .error (.deny .malformed 0 va)
    else remoteRead s e va n
  | .plain => line e.sp

/-- Write the bytes of one line of ordinary memory, given as a function of the value before; `atHome` reads the value
at the home first, as a tagged line reduction, after what the issuing slice holds of the line (R160, R164, R174, R175, R276, R324, R326);
the write comes through the operation's slice. -/
def engPutPlain (s : State) (e : Env) (sp : Space) (key : Nat) (wide atHome : Bool) (f : LineData → LineData × BitVec 128) :
    Except Miss State :=
  let va := lineVa key
  match checkWrite s e sp key with
  | .error m => .error m
  | .ok s =>
    match mappedAt s sp.tag va with
    | some (_, _, m) =>
      if mapStopped s m && e.block != some m.block then .error (.wait s)
      else
        let s := landForwards s key
        let w := f (mappedLine s m va)
        .ok (if atHome then sendAck (mappedWrite (tagged (addUnack s e.who) (homeCol s sp key) e.who 0) m va w.1 w.2 e.who) e.who false
          else mappedWrite s m va w.1 w.2 e.who)
    | none =>
      if atHome then
        match denied sp va (readHome (pushNow s sp key e.col e.who) sp key) with
        | .error m => .error m
        | .ok (s, h) =>
          let w := f h.data
          .ok (writeHome (tagged (addUnack s e.who) h.col e.who 0) key h w.1 w.2 (some e.cache) e.who e.who false)
      else
        let w := f 0#1024
        .ok (if wide then performWrite (addUnack s e.who) sp key w.1 w.2 (some e.cache) e.who e.who false else throughSlice s e sp key w.1 w.2)

/-- Write the bytes of one line at a virtual address (R25, R105, R111, R429, R472, R504). -/
def engPut (s : State) (e : Env) (va : Nat) (wide atHome : Bool) (f : LineData → LineData × BitVec 128) : Except Miss State :=
  match addrKind va with
  | .bad | .launch _ => .error (.trap cBadAddress)
  | .loc o =>
    match e.block.bind fun b => (ffind s.blocks b).map fun x => (b, x) with
    | none => .error (.trap cSpmRange)
    | some (b, x) =>
      let line := o / 128 * 128
      let w := f (BitVec.ofNat 1024 (natOfBytes ((List.range 128).map fun i => localByte x (line + i))))
      if (bitsSet w.2).all fun i => decide (line + i < x.spmBytes) then .ok (spmLineWrite s b line w.1 w.2 e.who)
      else if (bitsSet w.2).all fun i => decide (line + i < x.spmBytes + 8 * x.barCount) then .error (.trap cBarWrite)
      else .error (.trap cSpmRange)
  | .snap o => if (ffind s.regions (o / 256)).isSome then .error (.trap cProtWrite) else .error (.deny .absent e.sp.tag va)
  | .table o => (tableAccess s e o 1).bind fun sp => engPutPlain s e sp (sp.key va) wide atHome f
  | .domain pkg k o =>
    if pkg = s.pkg.domain then
      match (if (bitsSet (f 0#1024).2).any fun i => meetsPacket k (o / 128 * 128 + i) 1 then none else domainSpace s k) with
      | none => .error (.deny .malformed 0 va)
      | some sp =>
        match engPutPlain s e sp (sp.key o) true atHome f with
        | .ok s => .ok s
        | .error (.wait s) => .error (.wait s)
        | .error _ => .error (.deny .malformed 0 va)
    else if s.remote.any fun r => r.2.write && r.2.col == e.col && r.2.va / 128 == va / 128 then .error (.wait s)
    else .ok (sendRemote (addUnack s e.who) e.who e.col va true false 0#64 (popCount (f 0#1024).2))
  | .plain => engPutPlain s e e.sp (e.sp.key va) wide atHome f

/-! ### Elements and lines -/

/-- One element of an operation: its linear index, where it is read, where it is written. -/
structure Moved where
  elem : Nat
  src : Nat
  dst : Nat
  deriving DecidableEq, Repr

/-- Read n entries of an index tensor; the number of one that cannot be read. -/
def readIndex (s : State) (e : Env) (r : BitVec 1024) : Nat → Except (Nat × Miss) (State × List Int)
  | 0 => .ok (s, [])
  | n + 1 =>
    match readIndex s e r n with
    | .error m => .error m
    | .ok (s, l) =>
      let a := tidAddr r [n]
      let v := if tidSpace r = 1 then
          (localBlock s e a 4).map fun b => (s, localNat b.2 a 4)
        else engLoad s e a 4
      match v with
      | .error m => .error (n, m)
      | .ok x => .ok (x.1, l ++ [if tidFmt r = 0x2A#8 then (x.2 : Int) else intOf .i32 x.2])

/-- Elements of one part of an operation; an index outside the indexed tensor gives none (R325, R326). -/
def partMoves (op : EngOp) (d : BitVec 4096) (src dst : BitVec 1024) (idx : List Int) : List (Nat × Option Moved) :=
  let coords := boxCoords (edSizes d (tidRank dst))
  coords.zipIdx.map fun (j, e) =>
    let i := idx.getD (j.getD 1 0) 0
    let lim := tidExt (if op = .scat then dst else src) 1
    let bad := op.indexed && !(decide (0 ≤ i) && decide (i < lim))
    (e, if bad then none
      else some
        { elem := e
          src := elemAddr src (edSorg d) j (if op = .gth then some i.toNat else none)
          dst := elemAddr dst (edDorg d) j (if op = .scat then some i.toNat else none) })

/-- Parts of an operation: descriptor, source, destination, and the first linear index that its elements have in the
order of landing. -/
def IRec.pieces (s : State) (r : IRec) : List (BitVec 4096 × BitVec 1024 × BitVec 1024) :=
  if r.op = .cpColl then
    let ids := (List.range 16).flatMap fun k => r.parts.filter fun p => partId s p == k
    ids.map fun p => (p.desc, p.src.raw, p.dst.raw)
  else [(r.desc, r.src.raw, r.dst.raw)]

/-- Every element of an operation, tagged with its part. -/
def IRec.moves (s : State) (r : IRec) (idx : List Int) : List (Nat × Nat × Option Moved) :=
  (r.pieces s).zipIdx.flatMap fun (p, k) => (partMoves r.op p.1 p.2.1 p.2.2 idx).map fun m => (k, m)

/-- One step of a reduction on elements of a format (R97, R326, R328); a `dcoll` of a binary8 format, which R80 does not list
and R328 does not refuse, is rounded in that format (DESIGN CHOICE, log 95). -/
def reduceStep (f : BitVec 8) (red a b : Nat) : Nat :=
  match Fmt.ofBits f with
  | some (.int t) =>
    let x := intOf t a
    let y := intOf t b
    wrapBits t.width (if red = 0 then x + y else if red = 1 then (if y < x then y else x) else (if x < y then y else x))
  | some g =>
    match descFmt g with
    | some d => if red = 0 then (fpAdd d .rne a b).1 else (fpMinMax d (red == 2) a b).1
    | none => a
  | none => a

/-- The bits of a source element in the destination's format: RNE and `.sat`, no flag; unchanged without CONV (R324). -/
def convertElem (d : BitVec 4096) (src dst : BitVec 1024) (x : Nat) : Nat :=
  if edConv d then
    match Fmt.ofBits (tidFmt src), Fmt.ofBits (tidFmt dst) with
    | some a, some b => (fmtConvert b .rne false (fmtValue a x)).1
    | _, _ => x
  else x

/-- Chunk c of a domain collective on one element (R328): member k's contribution comes from `x`. -/
def chunkValue (f : BitVec 8) (red n c : Nat) (x : Nat → Nat) : Nat :=
  (List.range (n - 1)).foldl (fun a k => reduceStep f red a (x ((c + 2 + k) % n))) (x ((c + 1) % n))

/-- Value of element e of a domain collective (R328): `x` gives the members' contributions by rank. -/
def collectiveValue (f : BitVec 8) (red n total e : Nat) (x : Nat → Nat) : Nat := chunkValue f red n (e / ((total + n - 1) / n)) x

/-- Address under which an operation awaits what a member's package sends of a payload line of a collective (R328; DESIGN CHOICE, log
126). -/
def exchangeVa (pkg line : Nat) : Nat := 2 ^ 56 + pkg * 2 ^ 46 + line * 128 % 2 ^ 43

/-- What the other members contribute to a payload line, by rank, each a request to its package (R328, R470, R473; DESIGN CHOICE, log
126). -/
def exchangeLine (s : State) (e : Env) (r : IRec) (line : Nat) : Nat → Except Miss (State × List LineData)
  | 0 => .ok (s, [])
  | k + 1 =>
    (exchangeLine s e r line k).bind fun x =>
      if k = r.rank then .ok (x.1, x.2 ++ [0#1024])
      else (remoteRead x.1 e (exchangeVa (r.peers.getD k 0) line) 128).map fun y => (y.1, x.2 ++ [BitVec.ofNat 1024 y.2])

/-- Read a list of elements, with the index of each. -/
def readMoves (s : State) (e : Env) (src : BitVec 1024) : List Moved → Except (Nat × Miss) (State × List (Moved × Nat))
  | [] => .ok (s, [])
  | m :: t =>
    let n := tidSize src
    let v := if tidSpace src = 1 then (localBlock s e m.src n).map fun b => (s, localNat b.2 m.src n) else engLoad s e m.src n
    match v with
    | .error x => .error (m.elem, x)
    | .ok (s, x) => (readMoves s e src t).map fun r => (r.1, (m, x) :: r.2)

/-- The bytes of a line that a list of elements writes, each a function of the element's value before. -/
def lineOfMoves (n : Nat) (f : Nat → Nat → Nat) (old : LineData) : List (Moved × Nat) → LineData × BitVec 128
  | [] => (old, 0#128)
  | (m, x) :: t =>
    let o := m.dst % 128
    let v := f (lineNat old o n) x % 2 ^ (8 * n)
    let r := lineOfMoves n f (setBits old (8 * o) (8 * n) v) t
    (r.1, r.2 ||| maskRange 128 o n)

/-! ### Landing -/

/-- The operation's record, changed. -/
def modRec (s : State) (key : Nat) (f : IRec → IRec) : State := { s with irecs := fmod s.irecs key f }

/-- Blocks of the issuing region that a multicast reaches (R327). -/
def receivers (s : State) (r : IRec) : List Nat :=
  (s.blocks.filter fun b => b.2.region == r.region && b.2.run != .retired &&
    (BitVec.ofNat 32 (edCols r.desc)).getLsbD (coreCol s b.2.core)).map Prod.fst

/-- Whether a destination element lies in the issuing block's scratchpad of a number of bytes (R105, R112). -/
def elemLocal (bytes : Nat) (dst : BitVec 1024) (va : Nat) : Bool :=
  if tidSpace dst = 1 then decide (va + tidSize dst ≤ bytes)
  else decide (localBase ≤ va) && decide (va + tidSize dst ≤ localBase + bytes)

/-- Scratchpad bytes of the block of an operation. -/
def recSpm (s : State) (r : IRec) : Nat := ((ffind s.blocks r.block).map (·.spmBytes)).getD 0

/-- The first write of an operation, which counts only once it is made: the wait on EBAR is over, the destination bytes in the block's
scratchpad are added to TX, the receivers are fixed (R112, R324, R327). -/
def beginWrites (s : State) (key : Nat) (r : IRec) (local_ : Nat) : Option State :=
  if r.begun then some s
  else if edEwait r.desc && !barPassed s r.block (edEbar r.desc) (edEpar r.desc) then none
  else
    let targets := if r.op = .mcast then receivers s r else []
    let s := modRec s key fun r => { r with begun := true, targets := targets }
    let own := r.op != .mcast || targets.contains r.block
    some (if edArr r.desc && local_ != 0 && own then barAddTx s r.block (edAbar r.desc) (BitVec.ofNat 32 local_) else s)

/-- Bytes that have landed count down TX of the barriers of their blocks (R112). -/
def countDown (s : State) (r : IRec) (blocks : List Nat) (n : Nat) : State :=
  if edArr r.desc then blocks.foldl (fun s b => barAddTx s b (edAbar r.desc) (BitVec.ofInt 32 (-(n : Int)))) s else s

/-- Write one line of an operation.  A multicast writes the line in every receiving block in the same step, in the order of the
blocks, though their writes are unordered (R176; DESIGN CHOICE, log 102). -/
def putLine (s : State) (e : Env) (r : IRec) (dst : BitVec 1024) (ms : List (Moved × Nat)) (va : Nat) : Except Miss State :=
  let n := tidSize dst
  let red := r.op == .redcp
  let f (old x : Nat) : Nat := if red then reduceStep (tidFmt dst) (edRed r.desc) old x else x
  let w (old : LineData) : LineData × BitVec 128 := lineOfMoves n f old ms
  if tidSpace dst = 1 then
    let blocks := if r.op = .mcast then ((ffind s.irecs (match e.who with | .eng k => k | _ => 0)).map (·.targets)).getD [] else [r.block]
    if blocks.any fun b => (ffind s.blocks b).any fun x => x.run == .stopped then .error (.wait s)
    else if blocks.any fun b => (ffind s.blocks b).any fun x => ms.any fun m => decide (x.spmBytes < m.1.dst + n) then
      .error (.trap cSpmRange)
    else
      let put (s : State) (b : Nat) : State :=
        match ffind s.blocks b with
        | none => s
        | some x =>
          let o := va / 128 * 128
          let l := w (BitVec.ofNat 1024 (natOfBytes ((List.range 128).map fun i => localByte x (o + i))))
          spmLineWrite s b o l.1 l.2 e.who
      .ok (countDown (blocks.foldl put s) r blocks (ms.length * n))
  else
    let at_ := (ms.head?.map fun m => m.1.dst).getD va
    (accessAt at_ (engPut s e va (wideScope r.scope) red w)).map fun s =>
      if elemLocal (recSpm s r) dst at_ then countDown s r [r.block] (ms.length * n) else s

/-- The packet that a copy to a packet address sends whole, which is its first write; a packet that is dropped is ENG_RANGE (R324,
R474). -/
def landPacket (s : State) (key : Nat) (r : IRec) (pkg : Nat) : Landing :=
  let e := engEnv s key r
  let fits (x : BitVec 1024) (org : Nat → Nat) : Bool :=
    tidFmt x == 0x28#8 && tidRank x == 1 && tidExtRaw x 0 == 272 && org 0 == 0
  if r.op ≠ .cp ∨ !(r.scope = .dom ∨ r.scope = .sys) ∨ !fits r.src.raw (edSorg r.desc) ∨ !fits r.dst.raw (edDorg r.desc) ∨
      edSize r.desc 0 ≠ 272 then
    .fails s cPageFault 0#32 (tidBase r.dst.raw)
  else if 0 < r.done then .whole s
  else match readMoves s e r.src.raw ((partMoves r.op r.desc r.src.raw r.dst.raw []).filterMap (·.2)) with
    | .error (k, m) => m.landing s (BitVec.ofNat 32 k) 0
    | .ok (s, l) =>
      match beginWrites s key r 0 with
      | none => .waits s
      | some t =>
        let next (t : State) : Landing := .moved (modRec (dropReads t e.who) key fun r => { r with done := 1 })
        if pkg = s.pkg.domain then
          match admitPacket (addUnack t e.who) (packetOf s.pkg.domain (l.map fun x => BitVec.ofNat 8 x.2)) e.who with
          | (t, .value _) => next t
          | (_, .refused) => .fails s cEngRange 0#32 0
          | (t, .stale) => .fails t cAtomicStale 0#32 0
        else next (sendRemote (addUnack t e.who) e.who e.col (tidBase r.dst.raw) true false 0#64 272)

/-- Whether a destination element at an address touches the barrier words of the issuing block (R111). -/
def meetsBarriers (s : State) (r : IRec) (dst : BitVec 1024) (va : Nat) : Bool :=
  tidSpace dst != 1 && match addrKind va with
    | .loc o => (ffind s.blocks r.block).any fun b => decide (b.spmBytes < o + tidSize dst) && decide (o < b.spmBytes + 8 * b.barCount)
    | _ => false

/-- The payload line that lands next: the next in order, or for a reducing copy the first whose bit is clear (R175). -/
def IRec.nextLine (r : IRec) (lines : Nat) : Nat :=
  if r.op = .redcp then ((List.range lines).find? fun i => !r.bitmap.getLsbD i).getD lines else r.done

/-- Line n of an operation has landed (R175). -/
def IRec.landed (r : IRec) (n : Nat) : IRec :=
  { r with done := r.done + 1, bitmap := if r.op = .redcp then setBit r.bitmap n true else r.bitmap }

/-- The value that an element of an operation writes: converted, and for a domain collective combined with the other members' values
of the same bytes (R324, R328; how the members exchange them is a DESIGN CHOICE, log 126). -/
def movedValue (r : IRec) (d : BitVec 4096) (src dst : BitVec 1024) (xs : List LineData) (m : Moved) (x : Nat) : Nat :=
  let v := convertElem d src dst x
  if r.op = .dcoll then
    collectiveValue (tidFmt dst) (edRed d) r.peers.length (edCount d (tidRank dst)) m.elem fun k =>
      if k = r.rank then v else lineNat (xs.getD k 0#1024) (m.dst % 128) (tidSize dst)
  else v

/-- One payload line of an operation lands.  The elements of an operation are unordered among themselves (R164); the model lands
its destination lines one at a time in the order of its elements (DESIGN CHOICE, log 101). -/
def landLine (s : State) (key : Nat) (r : IRec) : Landing :=
  let e := engEnv s key r
  if r.arrived then .whole s
  else match packetTarget r.dst.raw with
  | some p => landPacket s key r p
  | none =>
    if !gathered s r then .waits s
    else match readIndex s e r.idx.raw (if r.op.indexed then edSize r.desc 1 else 0) with
      | .error (n, m) => m.landing s (BitVec.ofNat 32 (n * edSize r.desc 0)) 0
      | .ok (s, idx) =>
        let all := r.moves s idx
        match all.find? fun m => m.2.2.isNone with
        | some m => .fails s cEngRange (BitVec.ofNat 32 m.2.1) 0
        | none =>
          let pieces := r.pieces s
          let dstOf (k : Nat) : BitVec 1024 := (pieces[k]?.map fun p => p.2.2).getD r.dst.raw
          let ms := all.filterMap fun m => m.2.2.map fun x => (m.1, x)
          let lines := (ms.map fun m => (m.1, m.2.dst / 128)).eraseDups
          match ms.find? fun m => !r.begun && meetsBarriers s r (dstOf m.1) m.2.dst with
          | some m => .fails s cBarWrite (BitVec.ofNat 32 m.2.elem) 0
          | none =>
            match lines[r.nextLine lines.length]? with
            | none => .whole s
            | some (k, line) =>
              match pieces[k]? with
              | none => .whole s
              | some (d, src, dst) =>
                let here := (ms.filter fun m => m.1 == k && m.2.dst / 128 == line).map Prod.snd
                let first := BitVec.ofNat 32 ((here.head?.map (·.elem)).getD 0)
                match readMoves s e src here with
                | .error (i, m) => m.landing s (BitVec.ofNat 32 i) 0
                | .ok (s, vals) =>
                  match exchangeLine s e r line r.peers.length with
                  | .error m => m.landing s first 0
                  | .ok (s, xs) =>
                    let vals := vals.map fun v => (v.1, movedValue r d src dst xs v.1 v.2)
                    let local_ := ms.foldl (fun n m => if elemLocal (recSpm s r) (dstOf m.1) m.2.dst then n + tidSize (dstOf m.1) else n) 0
                    match beginWrites s key r local_ with
                    | none => .waits s
                    | some t =>
                      match putLine t e r dst vals (line * 128) with
                      | .error (.wait _) => .waits s
                      | .error m => m.landing s first 1
                      | .ok t => .moved (modRec (dropReads t e.who) key fun r => r.landed (r.nextLine lines.length))

/-! ### Faults and parks -/

/-- An operation faults (R48, R49, R324, R329): held for its issuer, or reported. -/
def failOperation (s : State) (key : Nat) (r : IRec) (c : BitVec 8) (elem : Word32) (va : Nat) : State :=
  let s := dropReads s (.eng key)
  let orphan : Bool := match r.who with
    | .grp g => ((ffind s.groups g).map fun p => p.th.run == .done).getD true
    | .host _ _ => routeOf c == .domain
    | _ => true
  if orphan then reportEngine s key r c elem va else modRec s key fun r => { r with run := .held c elem va }

/-- An operation parks (R436). -/
def parkOperation (s : State) (key : Nat) (r : IRec) (p : Park) : State :=
  let e := engEnv s key r
  announcePark (modRec s key fun r => { r with run := .parked p }) e.sp e.col (engSlot key) p

/-- The state that a landing leaves, and whether the operation can go on. -/
def Landing.settle (s0 : State) (key : Nat) (r : IRec) : Landing → State × Bool
  | .moved s => (s, true)
  | .whole s => (s, false)
  | .waits s => (s, false)
  | .parks s p => (parkOperation s key r p, false)
  | .fails s c e va => (failOperation s key ((ffind s0.irecs key).getD r) c e va, false)

/-! ### Completion (R112, R115, R324) -/

/-- The arrivals of a completed operation; none where a barrier refuses one. -/
def arriveAll (s : State) (n : Nat) : List Nat → Option State
  | [] => some s
  | b :: t =>
    match barArrive s b n with
    | .error _ => none
    | .ok s => arriveAll s n t

/-- The stamp value: of the lowest GROUP_ID in a collective copy (R325). -/
def IRec.stampValue (s : State) (r : IRec) : Word :=
  if r.op = .cpColl then
    let ids := (List.range 16).flatMap fun k => r.parts.filter fun p => partId s p == k
    ((ids.head?).map (·.stamp)).getD r.stamp
  else r.stamp

/-- Whether a stub covers nothing any more (R350). -/
def Stub.spent (x : Stub) : Bool := x.left.all (fun g => g.2 == 0) && x.recs.isEmpty && x.kept == 0

/-- Whether a group can receive what a stub forwards: not while it is held in a parking record or its block is Stopped
(R44, R350). -/
def stubOpen (s : State) (g : Nat) : Bool :=
  match ffind s.groups g with
  | some p => match p.place with
    | .parkedRecord _ _ => false
    | .resident => !((ffind s.blocks p.block).any fun b => b.run == .stopped)
    | _ => true
  | none => true

/-- A record is free again: its operation has completed or its fault has been disposed of (R48); stubs that cover it
pass the report on, or keep it for a group that cannot take it (R350). -/
def releaseRecord (s : State) (key : Nat) : State :=
  let stubs := s.stubs.map fun x =>
    if x.2.recs.contains key then
      let open_ := x.2.left.all fun g => stubOpen s g.1
      (x.1, { x.2 with recs := x.2.recs.filter (· != key), kept := if open_ then x.2.kept else x.2.kept + 1 })
    else x
  { s with irecs := fdel s.irecs key, stubs := stubs.filter fun x => !x.2.spent }

/-- Stubs deliver the reports that they have kept, to groups that can take them now (R350). -/
def sweepStubs (s : State) : State :=
  let stubs := s.stubs.map fun x => if x.2.left.all fun g => stubOpen s g.1 then (x.1, { x.2 with kept := 0 }) else x
  { s with stubs := stubs.filter fun x => !x.2.spent }

/-- The release that an operation's stamp is (R115, R162, R164): at `.die` or wider the column's dirty lines ahead of its marker
are pushed, and at every scope the acknowledgements of the payload are awaited; whether it has ended. -/
def engRelease (s : State) (key : Nat) (r : IRec) (e : Env) : State × Bool :=
  let s :=
    if r.marker || !wideScope r.scope then s
    else
      let s := pushLines s e.col e.who (fifoOf s e.col)
      let ids := (s.pushes.filter fun p => p.2.col == e.col && awaitsPush s r.scope e.col p.2).map Prod.fst
      modRec s key fun r => { r with marker := true, await := ids }
  let r := (ffind s.irecs key).getD r
  (s, r.unack == exempt s e r.scope && r.await.all (pushDone s))

/-- Whether an address lies in the domain region of another package. -/
def elsewhere (s : State) (va : Nat) : Bool :=
  match addrKind va with
  | .domain pkg _ _ => pkg != s.pkg.domain
  | _ => false

/-- The write of an operation's stamp: nobody's once it is made, but at another package, whose answer the operation awaits (R115,
R324, R472). -/
def putStamp (s : State) (r : IRec) (e : Env) : Except Miss State :=
  let va := edStamp r.desc
  let w (old : LineData) : LineData × BitVec 128 :=
    (setBits old (8 * (va % 128)) 64 (r.stampValue s).toNat, maskRange 128 (va % 128) 8)
  engPut (if r.scope = .sys then flushTier s r.part else s) (if elsewhere s va then e else { e with who := .nobody }) va
    (wideScope r.scope) false w

/-- The arrival of an operation whose payload is visible; none where its stamp cannot be written, since an operation that faults makes
no arrival (R48, R112, R324). -/
def arriveOperation (s : State) (key : Nat) (r : IRec) (e : Env) : State :=
  let blocks := if r.op = .mcast then r.targets else [r.block]
  if blocks.any fun b => edArr r.desc && (ffind s.blocks b).any fun x => x.run == .stopped then s
  else match (if edArr r.desc then arriveAll s (edAbar r.desc) blocks else some s) with
    | none => failOperation s key r cBarOverarrive noElem 0
    | some t =>
      match putStamp t r e with
      | .ok _ => modRec t key fun r => { r with arrived := true }
      | .error (.wait _) => s
      | .error m => ((m.landing s noElem 1).settle s key r).1

/-- The stamp of an operation that has arrived, and the release of its record: at once, or when another package has answered (R115,
R324, R472). -/
def stampOperation (s : State) (key : Nat) (r : IRec) (e : Env) : State :=
  if r.stamped then
    if s.remote.any fun q => q.2.who == .eng key && q.2.va == edStamp r.desc then s else releaseRecord s key
  else match putStamp s r e with
    | .ok t => if elsewhere s (edStamp r.desc) then modRec t key fun r => { r with stamped := true } else releaseRecord t key
    | .error (.wait _) => s
    | .error m => ((m.landing s noElem 1).settle s key r).1

/-- The end of an operation whose payload has landed: its release and its arrival, then its stamp, before which other agents may act
(R324, R363). -/
def finishOperation (s : State) (key : Nat) (r : IRec) (stamp : Bool) : State :=
  if !gathered s r then s
  else if r.arrived then (if stamp then stampOperation s key r (engEnv s key r) else s)
  else match beginWrites s key r 0 with
    | none => s
    | some s =>
      let e := engEnv s key r
      let x := engRelease s key ((ffind s.irecs key).getD r) e
      if !x.2 then x.1
      else
        let t := arriveOperation x.1 key ((ffind x.1.irecs key).getD r) e
        match (ffind t.irecs key).filter fun r => stamp && r.arrived with
        | some r => stampOperation t key r e
        | none => t

/-- Land up to n more payload lines, then finish. -/
def runOperation (s : State) (key : Nat) : Nat → State
  | 0 => s
  | n + 1 =>
    match ffind s.irecs key with
    | none => s
    | some r =>
      if r.run = .running then
        match landLine s key r with
        | .whole s => finishOperation s key r true
        | l =>
          let x := l.settle s key r
          if x.2 then runOperation x.1 key n else x.1
      else s

/-- Lines that an operation may still have to land, and one more. -/
def IRec.fuel (s : State) (r : IRec) : Nat := (r.pieces s).foldl (fun n p => n + edCount p.1 (tidRank p.2.2)) 2

/-! ### The steps of the table -/

/-- A payload line lands; where none is left, the arrival is made, and the stamp is still outstanding (R324, R363). -/
def execEnginePayloadLand (e : Nat) (s : State) : Out :=
  .next (match ffind s.irecs e with
    | none => s
    | some r =>
      if r.run = .running then
        match landLine s e r with
        | .whole s => finishOperation s e r false
        | l => (l.settle s e r).1
      else s)

/-- The operation's remaining lines land, then what is left of its arrival and its stamp is made and its record is released. -/
def execEngineCompletion (e : Nat) (s : State) : Out :=
  .next (match ffind s.irecs e with
    | none => s
    | some r => runOperation s e (r.fuel s))

/-- Causes that an operation may end with (R111, R112, R275, R324 to R328, R435, R472). -/
def engineCauses : List (BitVec 8) :=
  [cBadAddress, cProtWrite, cPageFault, cAliasConflict, cAtomicStale, cSpmRange, cBarWrite, cBarRange, cBarOverarrive, cEngDesc,
    cEngRange, cDcollMismatch]

/-- Address that the record of a PAGE_FAULT at an element names: the destination's where another package holds it, else
the source's. -/
def faultVa (r : IRec) (elem : Word32) : Nat :=
  match (boxCoords (edSizes r.desc (tidRank r.dst.raw)))[elem.toNat]? with
  | none => edStamp r.desc
  | some j =>
    let d := elemAddr r.dst.raw (edDorg r.desc) j none
    match addrKind d with
    | .domain _ _ _ => d
    | _ => elemAddr r.src.raw (edSorg r.desc) j none

/-- A fault that the environment decides: the mismatch of a collective, a refusal or a stale tag at another package. -/
def execEngineFault (e : Nat) (cause : BitVec 8) (elem : Word32) (s : State) : Out :=
  .next (match ffind s.irecs e with
    | none => s
    | some r => if r.run = .running && engineCauses.contains cause then
        failOperation s e r cause elem (if cause = cPageFault then faultVa r elem else 0) else s)

end Sys2Proof.Machine
end

