-- ==== Sys2Proof/Machine/Flags.lean ====
section
/-! DEFINITION. Exception flags: how scalar and lane words accrue them into FCSR (R71, R83, R232). -/

namespace Sys2Proof.Machine

/-- Flags at a bit of FCSR: NV highest (R71). -/
def accrue (fcsr : Word) (at_ : Nat) (f : FFlags) : Word := fcsr ||| (f.zeroExtend 64 <<< at_)

/-- Accrue the flags of a scalar word into SFLAGS. -/
def scalarFlags (s : State) (f : FFlags) : State := modCur s fun th => { th with fcsr := accrue th.fcsr 4 f }

/-- Accrue the flags of a lane word into LFLAGS. -/
def laneFlags (s : State) (f : FFlags) : State := modCur s fun th => { th with fcsr := accrue th.fcsr 9 f }

/-- What a write of FCSR stores: reserved bits zero, and RM zero for a mode that does not exist (R71, R230). -/
def fcsrStore (v : Word) : Word :=
  let w := v &&& 0x3FF7#64
  if 4#3 < w.extractLsb' 0 3 then w &&& ~~~7#64 else w

end Sys2Proof.Machine
end

