-- ==== Sys2Proof/Machine/Csr.lean ====
section
/-! DEFINITION. Status registers: their values, their writes, and the CSR words (R69 to R72, R117 to R119, R230, R231,
R354, R392, R408, R424, R430, R457, R459, R472, R487 to R492, R505). -/

namespace Sys2Proof.Machine

/-! ### Constants and group registers (R70) -/

/-- Registers 0x000 to 0x01D. -/
def csrConstants : List Nat :=
  [32, 4, 8, 64, 16, 16, 32, 16, 128, 8, 128, 1835008, 262144, 64, 64, 256, 24, 192, 96, 256, 2048, 524288, 32, 8192, 4,
    256, 12, 768, 3, 256]

/-- Numbers below 0x400 that R70 lists. -/
def csrListed (n : Nat) : Bool :=
  decide (n ≤ 0x1D) || (decide (0x40 ≤ n) && decide (n ≤ 0x46)) || (decide (0x60 ≤ n) && decide (n ≤ 0x62)) ||
  (decide (0x80 ≤ n) && decide (n ≤ 0x84)) || (decide (0xA0 ≤ n) && decide (n ≤ 0xA4))

/-- Field k of a trap record, in the order of 0x0A0 to 0x0A4. -/
def trapField (t : Option TrapRec) (k : Nat) : Word :=
  match t with
  | some t => [zext64 t.cause, zext64 t.lanes, t.spc, zext64 t.irec, t.elem].getD k 0#64
  | none => if k = 3 then 0xFFFF#64 else 0#64

/-- Registers 0x0A0 to 0x0A4: zero outside a handler (R70, R386). -/
def trapCsr (th : Thread) (k : Nat) : Word :=
  match th.frames with
  | [] => 0#64
  | f :: _ => trapField f.trap k

/-- Registers 0x8A0 to 0x8A4: the kernel handler's while NESTED (R387, R392). -/
def ktrapCsr (th : Thread) (k : Nat) : Word :=
  match th.frames with
  | f :: g :: _ => if f.monitor then trapField g.trap k else 0#64
  | _ => 0#64

/-- LEVEL (R392). -/
def levelCsr (th : Thread) : Word :=
  word01 th.atMonitor ||| (word01 th.inHandler <<< 1) ||| (word01 (th.atMonitor && decide (2 ≤ th.frames.length)) <<< 2)

/-- PORT_STAT (R119). -/
def portStat (g : Group) : Word := wordOf (g.rx.length + g.credits * 2 ^ 8) ||| (word01 g.drop <<< 16)

/-- Registers of a group that a host core lacks (R70, R231). -/
def groupCsr (s : State) (g : Group) (n : Nat) : Word :=
  let core := ffind s.cores g.core
  if n = 0x40 then wordOf (snapBase + 256 * g.region)
  else if n = 0x41 then wordOf g.blockId
  else if n = 0x42 then wordOf g.groupId
  else if n = 0x43 then wordOf g.core
  else if n = 0x45 then wordOf (((ffind s.regions g.region).map (·.prio)).getD 0)
  else if n = 0x46 then wordOf g.ext
  else if n = 0x60 then wordOf ((core.map (·.runForced)).getD 0)
  else if n = 0x61 then wordOf ((core.map (·.mxStalls)).getD 0)
  else if n = 0x62 then wordOf ((core.map (·.winterWakes)).getD 0)
  else if n = 0x81 then g.regStatus
  else if n = 0x82 then g.portDst
  else if n = 0x83 then g.portSrc
  else if n = 0x84 then portStat g
  else 0#64

/-! ### Power registers (R487 to R492, R505) -/

/-- MX_BUDGET of a throttle level (R487). -/
def levelBudget (l : Nat) : Nat := [128, 112, 96, 80, 64, 48, 32, 16].getD l 16

/-- Host-core clock of a throttle level, in MHz (R487). -/
def levelMhz (l : Nat) : Nat := [3200, 3000, 2800, 2600, 2400, 2000, 1600, 1200].getD l 1200

/-- Effective MX_BUDGET of a column (R487). -/
def Column.budget (c : Column) : Nat := min (levelBudget c.level) c.budgetCap

/-- FLOOR of a column (R489). -/
def Column.floorLevel (c : Column) : Nat := c.floor.toNat % 8

/-- The level last decided (R488, R490). -/
def Column.decided (c : Column) : Nat := ((c.changes.getLast?).map (·.1)).getD c.level

/-- COL_PWR (R489). -/
def colPwr (c : Column) : Word :=
  wordOf (c.level + c.floorLevel * 2 ^ 8 + c.budget * 2 ^ 16 + c.budgetCap * 2 ^ 24 + min c.temp 255 * 2 ^ 40)

/-- Clock of a host core in MHz (R505). -/
def Column.mhz (c : Column) : Nat :=
  let cap := min (levelMhz c.level) c.capMhz
  let m := if c.reqMhz = 0#16 then cap else min cap c.reqMhz.toNat
  max 400 (m / 100 * 100)

/-- HOST_CLK (R505). -/
def hostClk (c : Column) : Word := wordOf (c.reqMhz.toNat + c.capMhz * 2 ^ 16 + c.mhz * 2 ^ 32)

/-- DROOP_STAT (R492). -/
def droopStat (c : Core) : Word :=
  let remain := c.stretch + c.halve
  wordOf (remain + (if remain = 0 then 0 else 2 ^ 7) + c.alarms * 2 ^ 32)

/-- CHN_STAT of a channel group (R457). -/
def chnStat (s : State) (g : Nat) : Word :=
  match ffind s.chanStat g with
  | none => 0#64
  | some c => wordOf ((if c.hot then 1 else 0) + c.uncorr * 2 ^ 16 + c.corrected * 2 ^ 32 + c.demoted * 2 ^ 48)

/-- Whether a block holds resources of its core. -/
def Block.resident (b : Block) : Bool := b.run == .placed || b.run == .running || b.run == .stopping

/-- Whether a group holds a slot of its core: groups of resident blocks, and travellers until they are Done; a departed
one keeps its old slot until it has landed or been parked (R345). -/
def holdsSlot (s : State) (g : Group) : Bool :=
  g.place.inSlot && (g.place != .resident || (ffind s.blocks g.block).any (·.resident)) && (g.seg.isNone || g.th.run != .done)

/-- Slots of a core that travellers of a segment occupy (R354). -/
def segOcc (s : State) (core seg : Nat) : Nat :=
  (s.groups.filter fun g => g.2.core == core && g.2.seg == some seg && holdsSlot s g.2).length

/-- Whether a core holds a segment (R336, R354): a removed holder does until its block retires. -/
def holdsSegment (s : State) (core seg : Nat) : Bool :=
  s.blocks.any fun b => b.2.core == core && b.2.seg == some seg && b.2.run != .retired

/-- SEG_HOT of a core: ARRIVALS, HELD and HIGH are stored, OCC is counted; zero where the core does not hold the segment
(R354). -/
def segHotCsr (s : State) (core n : Nat) : Word :=
  if holdsSegment s core n then
    setBits ((((ffind s.cores core).map (·.segHot)).bind fun m => ffind m n).getD 0#64) 0 6 (segOcc s core n)
  else 0#64

/-- A core that comes to hold a segment starts its SEG_HOT at zero (R354). -/
def takeSegment (s : State) (core : Nat) (seg : Option Nat) : State :=
  match seg with
  | none => s
  | some n => if holdsSegment s core n then s else modCore s core fun c => { c with segHot := fdel c.segHot n }

/-- HIGH follows OCC (R354). -/
def raiseHigh (s : State) (core seg : Nat) : State :=
  modCore s core fun c =>
    let w := (ffind c.segHot seg).getD 0#64
    { c with segHot := fset c.segHot seg (setBits w 8 8 (max (bitsOf w 15 8) (segOcc s core seg))) }

/-- The clearing action of SEG_HOT[n] (R354). -/
def clearSegHot (s : State) (core n : Nat) : State :=
  modCore s core fun c =>
    { c with segHot := fset c.segHot n (setBits (setBits ((ffind c.segHot n).getD 0#64) 32 32 0) 8 8 (segOcc s core n)) }

/-- A write of FLOOR; one above the current level raises the level at once (R488).  Firmware holds the FLOOR of a column whose
monitors ask for too much at 4 at least (R496; DESIGN CHOICE, log 72). -/
def setFloor (s : State) (col v : Nat) : State :=
  let f := if s.pkg.beyond.contains col then max (v % 8) 4 else v % 8
  { s with cols := fmod s.cols col fun c =>
      let c := { c with floor := BitVec.ofNat 8 f }
      if c.decided < f then { c with changes := c.changes ++ [(f, 3)], cool := 0 } else c }

/-- A write of REQ_MHZ (R505). -/
def setReqMhz (s : State) (col : Nat) (v : BitVec 16) : State := { s with cols := fmod s.cols col fun c => { c with reqMhz := v } }

/-! ### Privileged registers (R392) -/

/-- Kinds of core that hold a privileged number: on host cores, on compute cores (R69). -/
def csrKinds (n : Nat) : Bool × Bool :=
  if (0x800 ≤ n ∧ n ≤ 0x805) ∨ n = 0x807 ∨ (0x8A0 ≤ n ∧ n ≤ 0x8A4) ∨ (0xA00 ≤ n ∧ n ≤ 0xA7F) then (true, true)
  else if n = 0x806 ∨ (0x808 ≤ n ∧ n ≤ 0x80B) ∨ (0x810 ≤ n ∧ n ≤ 0x817) then (true, false)
  else if n = 0x80C ∨ n = 0x80D ∨ (0x900 ≤ n ∧ n ≤ 0x9FF) then (false, true)
  else (false, false)

/-- Privileged registers of a host core. -/
def hostCsr (c : Column) (h : HostThread) (n : Nat) : Word :=
  if n = 0x801 then c.monVec
  else if n = 0x802 then h.curRcb
  else if n = 0x806 then h.preemptNs
  else if n = 0x809 then colPwr c
  else if n = 0x80B then hostClk c
  else if 0x810 ≤ n ∧ n ≤ 0x817 then ((ffind c.queues (n - 0x810)).map (·.cfg)).getD 0#64
  else 0#64

/-- Privileged registers of a compute core. -/
def coreCsr (s : State) (g : Group) (c : Core) (n : Nat) : Word :=
  if n = 0x801 then c.monVec
  else if n = 0x802 then ((ffind s.regions g.region).map (·.rcb)).getD 0#64
  else if n = 0x805 then wordOf (Config.stubs - (s.stubs.filter fun x => x.2.core == g.core).length)
  else if n = 0x80C then c.droopThr
  else if n = 0x80D then droopStat c
  else if 0x900 ≤ n ∧ n ≤ 0x9FF then segHotCsr s g.core (n - 0x900)
  else 0#64

/-- Free entries of a partition's capability store; entry 0 is never allocated (R389, R392). -/
def capFree (p : Partition) : Nat := Config.capEntries - 1 - (p.caps.filter fun c => c.2.valid).length

/-- A privileged register (R392). -/
def privCsr (s : State) (a : AgentId) (th : Thread) (n : Nat) : Word :=
  let p := partOf s (envOf s a).sp.part
  if n = 0x800 then levelCsr th
  else if n = 0x803 then th.scratch
  else if n = 0x804 then wordOf (capFree p)
  else if n = 0x807 then p.twCfg
  else if n = 0x808 then p.cxlCfg
  else if n = 0x80A then p.domRcb
  else if 0x8A0 ≤ n ∧ n ≤ 0x8A4 then ktrapCsr th (n - 0x8A0)
  else if 0xA00 ≤ n ∧ n ≤ 0xA7F then chnStat s (n - 0xA00)
  else match a with
    | .host c t =>
      match ffind s.cols c, ffind s.hosts (hostKey c t) with
      | some c, some h => hostCsr c h n
      | _, _ => 0#64
    | _ =>
      match (groupOf a).bind fun g => ffind s.groups g with
      | some g =>
        match ffind s.cores g.core with
        | some c => coreCsr s g c n
        | none => 0#64
      | none => 0#64

/-! ### Reads and writes (R69, R230, R231) -/

/-- Whether a register may be accessed: the trap where it may not, else whether it exists. -/
def csrCheck (s : State) (a : AgentId) (n : Nat) : Except (BitVec 8) Bool :=
  let mon := ((threadOf s a).map (·.atMonitor)).getD false
  if n < 0x400 then (if csrListed n then .ok true else if mon then .ok false else .error cIllegalCsr)
  else if n < 0x800 then (if mon then .ok false else .error cIllegalCsr)
  else if !mon then .error cPrivCsr
  else
    let k := csrKinds n
    if if isHost a then k.1 else k.2 then .ok true
    else if k.1 || k.2 then .error cIllegalCsr
    else .ok false

/-- Value of a register that exists. -/
def csrValue (s : State) (a : AgentId) (n : Nat) : Word :=
  match threadOf s a with
  | none => 0#64
  | some th =>
    if 0x800 ≤ n then privCsr s a th n
    else if n ≤ 0x1D then wordOf (csrConstants.getD n 0)
    else if n = 0x44 then wordOf (envOf s a).col
    else if n = 0x80 then th.fcsr
    else if 0xA0 ≤ n then trapCsr th (n - 0xA0)
    else match (groupOf a).bind fun g => ffind s.groups g with
      | some g => groupCsr s g n
      | none => 0#64

/-- Fields that a write of PORT_DST stores (R117). -/
def portDstStore (v : Word) : Word := v &&& 0xFFFFFFFF000FFF00#64

/-- Fields that a write of LQ_CFG stores (R408). -/
def lqCfgStore (v : Word) : Word := v &&& 0x01FFFFFFFFFFFFF3#64

/-- Write a privileged register of a host core. -/
def hostCsrWrite (s : State) (c : Nat) (t : Bool) (n : Nat) (v : Word) : State :=
  let col (f : Column → Column) : State := { s with cols := fmod s.cols c f }
  let thr (f : HostThread → HostThread) : State := { s with hosts := fmod s.hosts (hostKey c t) f }
  if n = 0x801 then col fun x => { x with monVec := v }
  else if n = 0x802 then thr fun h => { h with curRcb := v }
  else if n = 0x806 then thr fun h => { h with preemptNs := v &&& 0xFFFFFFFF#64 }
  else if n = 0x809 then setFloor s c (bitsOf v 10 8)
  else if n = 0x80A then
    { s with parts := fmod s.parts (((ffind s.cols c).map (·.part)).getD 0) fun p => { p with domRcb := v } }
  else if n = 0x80B then setReqMhz s c (v.extractLsb' 0 16)
  else if 0x810 ≤ n ∧ n ≤ 0x817 then
    col fun x => { x with queues := fmod x.queues (n - 0x810) fun q => { q with cfg := lqCfgStore v } }
  else s

/-- Write a privileged register of a compute core. -/
def coreCsrWrite (s : State) (core n : Nat) (v : Word) : State :=
  if n = 0x801 then modCore s core fun c => { c with monVec := v }
  else if n = 0x80C then modCore s core fun c => { c with droopThr := v &&& 0x3FF#64 }
  else if 0x900 ≤ n ∧ n ≤ 0x9FF then clearSegHot s core (n - 0x900)
  else s

/-- Write a register that exists: read-only and sticky fields ignore it (R7, R230). -/
def csrStore (s : State) (a : AgentId) (n : Nat) (v : Word) : State :=
  if n = 0x80 then modThread s a fun th => { th with fcsr := fcsrStore v }
  else if n = 0x803 then modThread s a fun th => { th with scratch := v }
  else match a with
    | .host c t => hostCsrWrite s c t n v
    | _ =>
      match (groupOf a).bind fun g => (ffind s.groups g).map fun p => (g, p) with
      | none => s
      | some (g, p) => if n = 0x82 then modGroup s g fun p => { p with portDst := portDstStore v } else coreCsrWrite s p.core n v

/-- Read a register, or its trap. -/
def csrRead (s : State) (n : Nat) : Except Exit Word :=
  match csrCheck s s.cur n with
  | .error c => .error (trapOf c)
  | .ok b => .ok (if b then csrValue s s.cur n else 0#64)

/-- Write a register, or its trap. -/
def csrWrite (s : State) (n : Nat) (v : Word) : Except Exit State :=
  match csrCheck s s.cur n with
  | .error c => .error (trapOf c)
  | .ok b => .ok (if b then csrStore s s.cur n v else s)

def execCsrr (d : Reg) (n : BitVec 12) (s : State) : Out :=
  scalar s [] [d] fun s => (csrRead s n.toNat).map fun v => wr s d v

def execCsrw (a : Reg) (n : BitVec 12) (s : State) : Out := scalar s [a] [] fun s => csrWrite s n.toNat (rd s a)

/-- A source of x0 makes it a read. -/
def execCsrs (d a : Reg) (n : BitVec 12) (s : State) : Out :=
  scalar s [a] [d] fun s =>
    (csrRead s n.toNat).bind fun old =>
      let t := if a = 0#5 then .ok s else csrWrite s n.toNat (old ||| rd s a)
      t.map fun t => wr t d old

/-! ### Steps of a write on its own, for the current agent -/

/-- A register effect of the current agent, apart from the word that makes it; nothing for an agent without a thread. -/
def csrStep (s : State) (f : State → Except Exit State) : Out :=
  match threadOf s s.cur with
  | none => .next s
  | some _ => .next (match f s with
    | .ok t => t
    | .error (.trap t _) => raiseTrap (dropRefused s s.cur) s.cur t
    | x => settle s x)

def execFcsrWrite (v : Word) (s : State) : Out := csrStep s fun s => csrWrite s 0x80 v
def execRegisterWrite (n : BitVec 12) (v : Word) (s : State) : Out := csrStep s fun s => csrWrite s n.toNat v
def execSegHotClear (n : BitVec 8) (s : State) : Out := csrStep s fun s => csrWrite s (0x900 + n.toNat) 0#64
def execColPwrFloorWrite (v : BitVec 3) (s : State) : Out := csrStep s fun s => csrWrite s 0x809 (v.zeroExtend 64 <<< 8)
def execHostClkReqWrite (mhz : BitVec 16) (s : State) : Out := csrStep s fun s => csrWrite s 0x80B (mhz.zeroExtend 64)

/-- One flit leaves through the send port of the current group, under the rules of a write of x28. -/
def execPortSend (v : Word) (s : State) : Out :=
  csrStep s fun s => if portsOn s then (portCheck s [] [28#5]).map fun _ => injectFlit s v else .ok s

/-- The oldest received flit is popped into a register, under the rules of a read of x29. -/
def execPortReceive (d : Reg) (s : State) : Out :=
  csrStep s fun s => if portsOn s then (portCheck s [29#5] [d]).map fun _ => popFlit (wr s d (rd s 29#5)) else .ok s

end Sys2Proof.Machine
end

