-- ==== Sys2Proof/Machine/Views.lean ====
section
/-! DEFINITION. View registers: their fields and their validity (R58 to R60, R62). -/

namespace Sys2Proof.Machine

/-- VALID of a view register. -/
def viewValid (w : Word) : Bool := w.getLsbD 63

/-- FMT of a tile view. -/
def tvFmt (w : Word) : BitVec 8 := w.extractLsb' 48 8
/-- BASE of a tile view. -/
def tvBase (w : Word) : Nat := bitsOf w 47 40
/-- ROWS of a tile view. -/
def tvRows (w : Word) : Nat := bitsOf w 39 34
/-- COLS of a tile view. -/
def tvCols (w : Word) : Nat := bitsOf w 33 24
/-- TRANS of a tile view. -/
def tvTrans (w : Word) : Bool := w.getLsbD 23
/-- ROW0 of an accumulator view. -/
def avRow0 (w : Word) : Nat := bitsOf w 44 34
/-- COL0 of an accumulator view. -/
def avCol0 (w : Word) : Nat := bitsOf w 33 26
/-- ROWS of an accumulator view. -/
def avRows (w : Word) : Nat := bitsOf w 25 20
/-- COLS of an accumulator view. -/
def avCols (w : Word) : Nat := bitsOf w 19 11
/-- BASE of a queue view. -/
def qvBase (w : Word) : Nat := bitsOf w 25 18
/-- DEPTH of a queue view. -/
def qvDepth (w : Word) : Nat := bitsOf w 17 13
/-- HEAD of a queue view. -/
def qvHead (w : Word) : Nat := bitsOf w 12 9
/-- COUNT of a queue view. -/
def qvCount (w : Word) : Nat := bitsOf w 8 4

/-- A queue view with another HEAD and COUNT. -/
def qvMove (w : Word) (head count : Nat) : Word := setBits (setBits w 9 4 head) 4 5 count

/-- Whether the bits of a tile view pass R59. -/
def tvOk (w : Word) : Bool :=
  tidFmtOk (tvFmt w) && decide (1 ≤ tvRows w) && decide (tvRows w ≤ 32) && decide (1 ≤ tvCols w) &&
  decide (4 * tvBase w + tvCols w * elemBytes (tvFmt w) ≤ 1024)

/-- Whether the bits of an accumulator view pass R60; the test of the rows is left out for a traveller. -/
def avOk (w : Word) (accCount : Option Nat) : Bool :=
  decide (1 ≤ avRows w) && decide (avRows w ≤ 32) && decide (1 ≤ avCols w) && decide (avCol0 w + avCols w ≤ Config.mxN) &&
  accCount.all fun n => decide (avRow0 w + avRows w ≤ n)

/-- Whether the bits of a queue view pass R62. -/
def qvOk (w : Word) : Bool :=
  decide (1 ≤ qvDepth w) && decide (qvDepth w ≤ 16) && decide (qvBase w + qvDepth w ≤ 256) && decide (qvHead w < qvDepth w) &&
  decide (qvCount w ≤ qvDepth w)

/-- Whether a value is legal in view register n (R58): VALID clear, or the rule of its kind. -/
def viewOk (n : Nat) (w : Word) (accCount : Option Nat) : Bool :=
  !viewValid w || (if n < 16 then tvOk w else if n < 24 then avOk w accCount else qvOk w)

/-- What a write of view register n stores: a value with VALID clear as given (R58); else its reserved bits read zero
(R7). -/
def viewStore (n : Nat) (w : Word) : Word :=
  if !viewValid w then w
  else w &&& (if n < 16 then 0x80FFFFFFFF800000#64 else if n < 24 then 0x80001FFFFFFFF800#64 else 0x8000000003FFFFF0#64)

/-- A view register loaded from entry n of a view table (R58). -/
def viewLoad (n : Nat) (w : Word) (accCount : Option Nat) : Word :=
  let w := if 24 ≤ n then qvMove w 0 0 else w
  viewStore n (if viewOk n w accCount then w else setBit w 63 false)

/-- The 32 view registers from a 256-byte view table. -/
def loadViews (table : Nat) (accCount : Option Nat) : SMap 64 :=
  (List.range 32).foldl (fun m n => sset m n (viewLoad n (wordOf (table / 2 ^ (64 * n))) accCount)) []

end Sys2Proof.Machine
end

