-- ==== Sys2Proof/Machine/Operands.lean ====
section
/-! DEFINITION. Operands of the lane words: the lane space and the handler bank, every operand class, views, queues, the
last-result latch, and the banks that an access wakes (R53 to R67, R240). -/

namespace Sys2Proof.Machine

/-! ### The lane space and the predicates (R53 to R56) -/

/-- Vector word n of a lane; in a handler v248 to v255 name its bank (R55). -/
def Group.vword (p : Group) (l n : Nat) : Word32 :=
  if p.th.inHandler && decide (248 ≤ n) then sget p.th.bank.v (8 * l + (n - 248)) else sget p.v (256 * l + n)

/-- Write vector word n of a lane. -/
def Group.setVword (p : Group) (l n : Nat) (v : Word32) : Group :=
  if p.th.inHandler && decide (248 ≤ n) then
    { p with th := p.th.modBank fun b => { b with v := sset b.v (8 * l + (n - 248)) v } }
  else { p with v := sset p.v (256 * l + n) v }

/-- Whether vector word n is backed (R55). -/
def Group.backed (p : Group) (n : Nat) : Bool :=
  decide (n < 32 + 16 * p.ext) || (p.th.inHandler && decide (248 ≤ n))

/-- The value of 1, 2, 4 or 8 bytes of a lane's space (R54). -/
def Group.spaceNat (p : Group) (l byte bytes : Nat) : Nat :=
  if bytes = 8 then (p.vword l (byte / 4)).toNat + 2 ^ 32 * (p.vword l (byte / 4 + 1)).toNat
  else (p.vword l (byte / 4)).toNat / 2 ^ (8 * (byte % 4)) % 2 ^ (8 * bytes)

/-- Write 1, 2, 4 or 8 bytes of a lane's space: the other bytes of a word stay (R57). -/
def Group.setSpace (p : Group) (l byte bytes v : Nat) : Group :=
  if bytes = 8 then (p.setVword l (byte / 4) (BitVec.ofNat 32 v)).setVword l (byte / 4 + 1) (BitVec.ofNat 32 (v / 2 ^ 32))
  else p.setVword l (byte / 4) (setBits (p.vword l (byte / 4)) (8 * (byte % 4)) (8 * bytes) v)

/-- Lanes in which a predicate is true; p0 is true, and p6 and p7 are the handler's while one runs (R53). -/
def Group.pred (p : Group) (n : BitVec 3) : LaneMask :=
  if n = 0#3 then BitVec.allOnes 32
  else if p.th.inHandler && n == 6#3 then p.th.bank.p6
  else if p.th.inHandler && n == 7#3 then p.th.bank.p7
  else sget p.p n.toNat

/-- Lanes in which a predicate, inverted or not, holds. -/
def Group.cond (p : Group) (n : BitVec 3) (neg : Bool) : LaneMask := if neg then ~~~(p.pred n) else p.pred n

/-- Write a predicate in some lanes; a write of p0 is discarded (R53). -/
def Group.setPred (p : Group) (n : BitVec 3) (m v : LaneMask) : Group :=
  let w := (p.pred n &&& ~~~m) ||| (v &&& m)
  if n = 0#3 then p
  else if p.th.inHandler && n == 6#3 then { p with th := p.th.modBank fun b => { b with p6 := w } }
  else if p.th.inHandler && n == 7#3 then { p with th := p.th.modBank fun b => { b with p7 := w } }
  else { p with p := sset p.p n.toNat w }

/-- The mask of the lanes that pass a test. -/
def maskOf (f : Nat → Bool) : LaneMask := BitVec.ofNat 32 ((List.range 32).foldl (fun m l => m + (if f l then 2 ^ l else 0)) 0)

/-! ### Where an operand lies -/

/-- Where an operand's values lie: bytes of the lane space, for lanes below a count; an accumulator column from a row on,
for rows below a count; an operand-file entry; the latch; a constant. -/
inductive Loc
  | space (byte bytes rows : Nat)
  | acc (row0 col rows : Nat)
  | opf (i : Nat)
  | lr
  | const (v : Nat)
  deriving DecidableEq, Repr

/-- A source or destination field: its operand, its element width, and the floating format that an immediate is rounded
into; none where the field holds an integer (R240). -/
structure Field where
  opd : Operand
  width : Nat
  fp : Option FpDesc
  deriving DecidableEq, Repr

/-- The format of immediates of a type. -/
def etyDesc : ETy → Option FpDesc
  | .int _ => none
  | .fp t => some (descFTy t)

/-- A field of an integer. -/
def Field.int (o : Operand) (w : Nat) : Field := { opd := o, width := w, fp := none }

/-- A field of a lane type. -/
def Field.of (t : ETy) (o : Operand) : Field := { opd := o, width := t.width, fp := etyDesc t }

/-- A field of a format. -/
def Field.fmt (f : Fmt) (o : Operand) : Field := { opd := o, width := f.width, fp := descFmt f }

/-- Bits of an immediate (R240); one beyond a binary8 format saturates, as R85 has it where no choice is written (DEDUCED,
log 89). -/
def immBits (w : Nat) (fp : Option FpDesc) (v : BitVec 10) : Nat :=
  match fp with
  | none => wrapBits w v.toInt
  | some d => (fpConvert d .rne false (fvInt v.toInt)).1

/-- The view register of a number in the numbering of R57. -/
def Group.view (p : Group) (n : Nat) : Word := sget p.views n

/-- Vector word of the queue entry a distance behind the oldest (R62). -/
def qvEntry (v : Word) (k : Nat) : Nat := qvBase v + (qvHead v + k) % qvDepth v

/-- Where an operand lies; a queue's entry is given. -/
def operandLoc (p : Group) (entry w : Nat) (fp : Option FpDesc) : Operand → Loc
  | .word n => .space (4 * n.toNat) 4 32
  | .byte n k => .space (4 * n.toNat + k.toNat) 1 32
  | .half n k => .space (4 * n.toNat + 2 * k.toNat) 2 32
  | .pair n => .space (8 * n.toNat) 8 32
  | .tile t c =>
    let v := p.view t.toNat
    .space (4 * tvBase v + c.toNat * elemBytes (tvFmt v)) (elemBytes (tvFmt v)) (tvRows v)
  | .acc a c =>
    let v := p.view (16 + a.toNat)
    .acc (avRow0 v) (avCol0 v + c.toNat) (avRows v)
  | .queue _ _ => .space (4 * entry) 4 32
  | .opf i => .opf i.toNat
  | .lr => .lr
  | .imm v => .const (immBits w fp v)

/-! ### Checks (R56, R60, R61) -/

/-- The cause with which an operand of a width fails the checks of views; the rows of an accumulator view are tested at
each use, as R60 says for a traveller (elsewhere they hold). -/
def viewFault (p : Group) (accCount w : Nat) : Operand → Option (BitVec 8)
  | .tile t c =>
    let v := p.view t.toNat
    if !viewValid v then some cBadView
    else if 8 * elemBytes (tvFmt v) ≠ w then some cViewType
    else if tvCols v ≤ c.toNat then some cViewRange else none
  | .acc a c =>
    let v := p.view (16 + a.toNat)
    if !viewValid v || decide (accCount < avRow0 v + avRows v) then some cBadView
    else if w ≠ 32 then some cViewType
    else if avCols v ≤ c.toNat then some cViewRange else none
  | .queue q _ => if !viewValid (p.view (24 + q.toNat)) then some cBadView else if w ≠ 32 then some cViewType else none
  | _ => none

/-- Vector words of the extent of an operand (R56). -/
def extent (p : Group) : Operand → List Nat
  | .word n | .byte n _ | .half n _ => [n.toNat]
  | .pair n => [2 * n.toNat, 2 * n.toNat + 1]
  | .tile t _ =>
    let v := p.view t.toNat
    (List.range ((tvCols v * elemBytes (tvFmt v) + 3) / 4)).map (tvBase v + ·)
  | .queue q _ =>
    let v := p.view (24 + q.toNat)
    (List.range (qvDepth v)).map (qvBase v + ·)
  | _ => []

/-- Whether every word of an operand's extent is backed. -/
def Group.allocated (p : Group) (o : Operand) : Bool := (extent p o).all p.backed

/-! ### Queues (R63) -/

/-- The queue that an operand names. -/
def queueNo : Operand → Option Nat
  | .queue q _ => some q.toNat
  | _ => none

/-- Pops of a queue by a list of sources. -/
def popsOf (q : Nat) (l : List Operand) : Nat :=
  (l.filter fun o => match o with
    | .queue n pk => n.toNat == q && pk == 0#2
    | _ => false).length

/-- Greatest peek distance plus one by which a list of sources names a queue; 0 where none does. -/
def reachOf (q : Nat) (l : List Operand) : Nat :=
  l.foldl (fun m o => match o with
    | .queue n pk => if n.toNat = q then max m (pk.toNat + 1) else m
    | _ => m) 0

/-- The cause with which the use of a queue fails. -/
def queueFault (v : Word) (q : Nat) (srcs : List Operand) (push : Bool) : Option (BitVec 8) :=
  let pops := popsOf q srcs
  if qvCount v < reachOf q srcs ∨ qvCount v < pops then some cQueueUnderflow
  else if push && decide (qvDepth v < qvCount v - pops + 1) then some cQueueOverflow
  else none

/-- HEAD and COUNT of a queue after its use. -/
def queueMove (v : Word) (q : Nat) (srcs : List Operand) (push : Bool) : Word :=
  let pops := popsOf q srcs
  qvMove v ((qvHead v + pops) % qvDepth v) (qvCount v - pops + (if push then 1 else 0))

/-- Entry that a source reads after the sources before it (R63). -/
def sourceEntry (p : Group) (before : List Operand) : Operand → Nat
  | .queue q pk => qvEntry (p.view (24 + q.toNat)) (if pk = 0#2 then popsOf q.toNat before else pk.toNat)
  | _ => 0

/-- Where the sources lie, in field order. -/
def sourceLocs (p : Group) (before : List Operand) : List Field → List Loc
  | [] => []
  | f :: t => operandLoc p (sourceEntry p before f.opd) f.width f.fp f.opd :: sourceLocs p (before ++ [f.opd]) t

/-- Entry that a destination pushes: the position behind the last one, which pops do not move. -/
def pushEntry (p : Group) : Operand → Nat
  | .queue q _ => let v := p.view (24 + q.toNat); qvEntry v (qvCount v)
  | _ => 0

/-- What the operands of a word resolve to: sources, destination, and the view registers after the word. -/
structure Plan where
  srcs : List Loc
  dst : Option Loc
  views : SMap 64
  deriving DecidableEq, Repr

/-- Resolve the operands of a word: the checks of views, of allocation with sources first, of queues, then the places
(R56, R61, R63).  A word that issues again reads and writes the entries of its first issue, whose views are given. -/
def resolve (p : Group) (accCount : Nat) (parted : Bool) (again : Option (SMap 64)) (srcs : List Field) (dst : Option Field) :
    Except (BitVec 8) Plan :=
  let q := match again with
    | some views => { p with views := (List.range 8).foldl (fun m k => sset m (24 + k) (sget views (24 + k))) p.views }
    | none => p
  let all := srcs ++ dst.toList
  let os := srcs.map (·.opd)
  let push (k : Nat) : Bool := (dst.bind fun f => queueNo f.opd) == some k
  let queues := (List.range 8).filter fun k => (all.filterMap fun f => queueNo f.opd).contains k
  match all.findSome? fun f => viewFault q accCount f.width f.opd with
  | some c => .error c
  | none =>
    if !(all.all fun f => p.allocated f.opd) then .error cUnallocWord
    else if parted && !queues.isEmpty then .error cQueueParted
    else match queues.findSome? fun k => queueFault (q.view (24 + k)) k os (push k) with
      | some c => .error c
      | none =>
        .ok { srcs := sourceLocs q [] srcs
              dst := dst.map fun f => operandLoc q (pushEntry q f.opd) f.width none f.opd
              views := if again.isSome then p.views
                else queues.foldl (fun m k => sset m (24 + k) (queueMove (q.view (24 + k)) k os (push k))) p.views }

/-! ### Reading and writing -/

/-- An element of a block's accumulator rows. -/
def accAt (s : State) (b i : Nat) : Word32 := ((ffind s.blocks b).map fun x => accWord x i).getD 0#32

/-- The w bits at a place in a lane; a lane at or beyond the rows of a view reads zero (R61). -/
def Loc.read (d : Loc) (s : State) (p : Group) (w l : Nat) : Nat :=
  match d with
  | .space byte bytes rows => if l < rows then p.spaceNat l byte bytes else 0
  | .acc r c rows => if l < rows then (accAt s p.block (256 * (r + l) + c)).toNat else 0
  | .opf i => (sget p.opf (8 * l + i)).toNat
  | .lr => (sget p.lr l).toNat % 2 ^ w
  | .const v => v

/-- Write a place of the group in a lane; one beyond a view's rows is not written. -/
def Loc.put (d : Loc) (l v : Nat) (p : Group) : Group :=
  match d with
  | .space byte bytes rows => if l < rows then p.setSpace l byte bytes v else p
  | .opf i => { p with opf := sset p.opf (8 * l + i) (BitVec.ofNat 32 v) }
  | _ => p

/-- Write a destination in some lanes of a group. -/
def writeLoc (s : State) (g : Nat) (d : Loc) (m : LaneMask) (f : Nat → Nat) : State :=
  match d with
  | .acc r c rows =>
    modBlock s (((ffind s.groups g).map (·.block)).getD 0) fun b =>
      { b with acc := (bitsSet m).foldl (fun a l => if l < rows then fset a (256 * (r + l) + c) (BitVec.ofNat 32 (f l)) else a) b.acc }
  | _ => modGroup s g fun p => (bitsSet m).foldl (fun p l => d.put l (f l) p) p

/-- What `lr` shows of a destination in a lane: its content, and the whole word around a narrow one (R65). -/
def Loc.latch (d : Loc) (s : State) (p : Group) (w l : Nat) : Word :=
  match d with
  | .space byte bytes rows =>
    if l < rows then (if bytes < 4 then zext64 (p.vword l (byte / 4)) else wordOf (p.spaceNat l byte bytes)) else 0#64
  | _ => wordOf (d.read s p w l)

/-- Set `lr` from a destination in some lanes (R65). -/
def latchLoc (s : State) (g : Nat) (d : Loc) (w : Nat) (m : LaneMask) : State :=
  modGroup s g fun p => { p with lr := (bitsSet m).foldl (fun r l => sset r l (d.latch s p w l)) p.lr }

/-! ### Winter (R67) -/

/-- The bank of a vector word; a chunk is named by its holder, an accumulator row by its block. -/
def wordBankOf (p : Group) (n : Nat) : Bank :=
  if p.th.inHandler && decide (248 ≤ n) then .handler p.core p.slot p.th.atMonitor
  else if n < 32 then .base p.core p.slot
  else .chunk p.core (16 * p.slot + (n - 32) / 16)

/-- Banks of accumulator rows of a block: sixteen physical rows each. -/
def accBanks (b : Block) (row n : Nat) : List Bank :=
  (((b.rows.drop row).take n).map fun i => Bank.accRows b.core (i / 16)).eraseDups

/-- Banks that an access to a place in some lanes reaches: none where no lane lies below a view's rows; of a block's accumulators,
those of the lanes' own rows. -/
def Loc.banks (d : Loc) (s : State) (p : Group) (m : LaneMask) : List Bank :=
  match d with
  | .space byte bytes rows =>
    if (bitsSet m).all fun l => decide (rows ≤ l) then []
    else wordBankOf p (byte / 4) :: (if bytes = 8 then [wordBankOf p (byte / 4 + 1)] else [])
  | .acc r _ rows =>
    ((ffind s.blocks p.block).map fun b =>
      (((bitsSet m).filter fun l => decide (l < rows)).flatMap fun l => accBanks b (r + l) 1).eraseDups).getD []
  | .opf _ => [.opfile p.core p.slot]
  | _ => []

end Sys2Proof.Machine
end

