-- ==== Sys2Proof/Machine/Place.lean ====
section
/-! DEFINITION. Resources of compute cores, the placement and the start of blocks, and the return of their resources
(R27, R34, R49, R55, R82, R333, R415, R422). -/

namespace Sys2Proof.Machine

/-- What a block takes on its core (R27, R415). -/
structure Need where
  groups : Nat
  chunks : Nat
  spm : Nat
  bars : Nat
  tids : Nat
  acc : Nat
  /-- Bytes of code that it pins (R336). -/
  code : Nat := 0
  deriving DecidableEq, Repr

/-- What a launch record asks for each block (R25). -/
def recNeed (r : BitVec 2048) : Need :=
  { groups := recNat r 0x2C 2, chunks := recNat r 0x2E 2, spm := recNat r 0x30 4, bars := recNat r 0x34 1, tids := recNat r 0x35 1
    acc := recNat r 0x36 2 }

/-- Bytes of code of a segment (R335). -/
def Segment.bytes (g : Segment) : Nat := (g.scalarHi - g.scalarLo) + 12 * (g.laneHi - g.laneLo) + (g.matrixHi - g.matrixLo)

abbrev recBlocks (r : BitVec 2048) : Nat := recNat r 0x28 4

/-- Whether a region is wholly placed (R412). -/
def Region.whole (r : Region) : Bool := decide (recBlocks r.record ≤ r.placed)

/-- What a segment asks for each of its holder blocks (R333, R335). -/
def Segment.need (g : Segment) : Need :=
  { groups := 0, chunks := g.chunks, spm := g.spmBytes, bars := g.barCount, tids := g.tidCount, acc := g.accCount, code := g.bytes }

/-- What a block holds. -/
def Block.need (b : Block) : Need :=
  { groups := if b.seg.isSome then 0 else b.groups.length, chunks := b.chunks, spm := b.spmBytes, bars := b.barCount, tids := b.tidCount
    acc := b.accCount, code := b.code }

/-- Blocks resident on a core. -/
def residentOn (s : State) (core : Nat) : List Block := (fvals s.blocks).filter fun b => b.resident && b.core == core

/-- Regions that have a holder block resident on a core. -/
def holderRegions (l : List Block) : List Nat := ((l.filter fun b => b.seg.isSome).map (·.region)).eraseDups

/-- Sum of a resource. -/
def sumOf (l : List Need) (f : Need → Nat) : Nat := l.foldl (fun n x => n + f x) 0

/-- Whether needs fit on an empty core beside the slots of a number of March regions (R14, R415). -/
def needsFit (l : List Need) (marches : Nat) : Bool :=
  decide (l.length ≤ Config.blocksPerCore) && decide (sumOf l (·.groups) + Config.arrivalSlots * marches ≤ Config.groupsPerCore) &&
  decide (sumOf l (·.chunks) ≤ Config.extPool) && decide (sumOf l (·.spm) ≤ Config.spmMax) &&
  decide (sumOf l (·.bars) ≤ Config.barriers) && decide (sumOf l (·.tids) ≤ Config.tids) && decide (sumOf l (·.acc) ≤ Config.accRows) &&
  decide (sumOf l (·.code) ≤ Config.istore)

/-- Whether further blocks of a region fit on a core beside the work resident now (R415). -/
def coreFits (s : State) (core region : Nat) (new : List Need) (march : Bool) : Bool :=
  let l := residentOn s core
  let regs := holderRegions l
  let marches := regs.length + (if march && !regs.contains region then 1 else 0)
  needsFit (l.map Block.need ++ new) marches

/-- Group slots taken on a core. -/
def slotsTaken (s : State) (core : Nat) : List Nat :=
  ((fvals s.groups).filter fun g => g.core == core && holdsSlot s g).map (·.slot)

/-- Lowest free group slot of a core (R422). -/
def freeSlot (s : State) (core : Nat) : Nat :=
  ((List.range Config.groupsPerCore).find? fun k => !(slotsTaken s core).contains k).getD 0

/-- FUSE_L1 of a record. -/
abbrev recFuse (r : BitVec 2048) : Bool := r.getLsbD 35

/-- Whether FUSE_L1 has an effect on a column: with two live compute cores (R106). -/
def fusable (s : State) (col : Nat) : Bool := (ffind s.cols col).any fun c => c.cores.length == 2

/-- Whether FUSE_L1, of a region or of the work resident, keeps a region's blocks from a column (R106, R418). -/
def fuseFree (s : State) (region : Nat) (fuse : Bool) (col : Nat) : Bool :=
  !fusable s col || (fvals s.blocks).all fun b =>
    !b.resident || coreCol s b.core != col || b.region == region ||
      !(fuse || (ffind s.regions b.region).any fun r => recFuse r.record)

/-- Whether the limits of a region's ancestors leave room for n more blocks (R415). -/
def roomFor (s : State) (r : Region) (n : Nat) : Bool :=
  r.limits.all fun x =>
    decide (((fvals s.blocks).filter fun b => b.resident && (ffind s.regions b.region).any fun g => g.chain.contains x.1).length + n ≤ x.2)

/-- Lowest free block slot of a core. -/
def freeBlockSlot (s : State) (core : Nat) : Nat :=
  ((List.range Config.blocksPerCore).find? fun k => (residentOn s core).all fun b => b.slot != k).getD 0

/-! ### Birth (R27, R82, R334) -/

/-- Seeds of a group's stochastic generators (R82). -/
def seedOf (g x : Nat) : BitVec 16 := 0xACE1#16 ^^^ (BitVec.ofNat 16 g <<< 8) ^^^ BitVec.ofNat 16 x

/-- Lane generators of a group. -/
def laneSeeds (g : Nat) : SMap 16 := (List.range 32).foldl (fun m l => sset m l (seedOf g l)) []

/-- A group with every register zero. -/
def Group.fresh (region block core slot blockId groupId : Nat) (entry : Word) : Group :=
  { th := .fresh entry (seedOf groupId 0x80)
    v := [], opf := [], p := [], lr := [], gens := laneSeeds groupId, views := [], ext := 0, task := none, regStatus := 0#64
    portEn := false, portDst := 0#64, portSrc := 0#64, drop := false, credits := Config.creditsMax, rx := []
    block := block, region := region, slot := slot, core := core, blockId := blockId, groupId := groupId, place := .resident
    seg := none, owe := 0#64, depMask := 0#96, depCol := 0, pushed := false, moves := [] }

/-- An empty weight plane. -/
def Plane.empty : Plane := { valid := false, cls := 0#2, bs := 0, org := 0, w := [], sw := [] }

/-- A sequencer at an entry; entry 0 leaves it idle at `mend` (R31). -/
def Seq.fresh (entry : Word) : Seq :=
  { mpc := entry, m := [], active := .empty, shadow := .empty, span := 1, lead := 0, ended := entry == 0#64, rows := 0
    spanned := none, tids := [], held := false, run := .running }

/-- Where the distributor of a block starts (R41, R396). -/
def firstUnit (s : State) (region blockId : Nat) : Nat :=
  ((ffind s.regions region).map fun r =>
    workStart (bitsOf r.record 735 704 * bitsOf r.record 767 736) blockId (bitsOf r.record 351 320)).getD 0

/-- Physical places for n of a core's rows or lines, of which there are so many: those that are free, from one on that is a free
choice (R27; DESIGN CHOICE, log 124). -/
def freePlaces (total : Nat) (taken : List Nat) (pick n : Nat) : List Nat :=
  let l := (List.range total).filter fun k => !taken.contains k
  ((l.rotateLeft (pick % max l.length 1))).take n

/-- What a block finds in the places that it has been given, by its own numbering: the elements that earlier uses left in units of
some size (R27). -/
def carried {α : Type} (left : FMap α) (places : List Nat) (unit : Nat) : FMap α :=
  left.foldl (fun m e => match places.findIdx? (· == e.1 / unit) with
    | some k => fset m (unit * k + e.1 % unit) e.2
    | none => m) []

/-- A block takes its physical rows and scratchpad lines on its core, and finds there what earlier uses left (R27). -/
def Block.settled (s : State) (b : Block) : Block :=
  let l := residentOn s b.core
  let rows := freePlaces Config.accRows (l.flatMap (·.rows)) (Config.choice s.freeCtr) b.accCount
  let lines := freePlaces (Config.spmMax / 128) (l.flatMap (·.lines)) (Config.choice (s.freeCtr + 1)) ((b.spmBytes + 127) / 128)
  let c := ffind s.cores b.core
  { b with
    rows := rows, lines := lines
    acc := carried ((c.map (·.accs)).getD []) rows 256, spm := carried ((c.map (·.sram)).getD []) lines 128 }

/-- A block as its placement makes it (R27). -/
def Block.fresh (s : State) (region blockId core : Nat) (n : Need) (entry : Word) (seg : Option Nat) : Block :=
  Block.settled s
  { region := region, blockId := blockId, core := core, slot := freeBlockSlot s core, groups := [], chunks := n.chunks
    spmBytes := n.spm, barCount := n.bars, tidCount := n.tids, accCount := n.acc, bars := [], tids := [], spm := [], acc := []
    code := n.code, seq := .fresh entry, cursor := if seg.isSome then 0 else firstUnit s region blockId, xq := [], run := .placed, stop := none, moves := [], seg := seg, removed := false
    discarded := false }

/-- Give a block n groups on the lowest free slots of its core (R422). -/
def giveGroups (s : State) (b : Nat) (entry : Word) : Nat → State
  | 0 => s
  | n + 1 =>
    let s := giveGroups s b entry n
    match ffind s.blocks b with
    | none => s
    | some x =>
      let k := s.nextId
      let g := Group.fresh x.region b x.core (freeSlot s x.core) x.blockId n entry
      modBlock { s with groups := fset s.groups k g, nextId := k + 1 } b fun x => { x with groups := x.groups ++ [k] }

/-- Whether a copy lies in a core's local memory: in its L1, or in its half of the column's fused L1 (R104, R106). -/
def copyInCore (s : State) (core : Nat) (key : Nat) : Bool :=
  key % 1024 == core ||
    (ffind s.cores core).any fun c => key % 1024 == 256 + c.col && lineVa (key / 1024) / 128 % 2 == c.phys % 2

/-- Lines of a core's L1 that lay in lent scratchpad units are written back and given up before its blocks start; which
lines is a free choice (R104). -/
def reclaim (s : State) (core spm : Nat) : State :=
  if spm = 0 then s
  else (s.copies.filter fun c => copyInCore s core c.1).foldl
    (fun s c =>
      let t := { s with freeCtr := s.freeCtr + 1 }
      if Config.choice s.freeCtr % 2 = 1 then settleLine (evictCopy t (c.1 % 1024) (c.1 / 1024)) (c.1 / 1024) else t) s

/-- When a FUSE_L1 region takes a column, what the two L1s hold alone is written back; when another region takes a core of it,
what the two halves of a fused L1 hold is, that of a region whose blocks have been saved too (R106). -/
def settleFusion (s : State) (region core : Nat) : State :=
  let col := coreCol s core
  let own := ((ffind s.cols col).map (·.cores)).getD []
  let fuse := fusable s col && (ffind s.regions region).any fun r => recFuse r.record
  let here := (fvals s.blocks).any fun b => b.resident && b.region == region && coreCol s b.core == col
  (s.copies.filter fun c => (fuse && own.contains (c.1 % 1024)) || (!(fuse && here) && c.1 % 1024 == 256 + col)).foldl
    (fun s c => settleLine (evictCopy s (c.1 % 1024) (c.1 / 1024)) (c.1 / 1024)) s

/-! ### Banks and power regions (R67, R485) -/

/-- Register banks of a group's slot (R67). -/
def groupBanks (p : Group) : List Bank :=
  [.base p.core p.slot, .opfile p.core p.slot, .handler p.core p.slot false, .handler p.core p.slot true] ++
    (List.range p.ext).map fun k => Bank.chunk p.core (16 * p.slot + k)

/-- Banks that a block's state lies in. -/
def blockBanks (s : State) (b : Block) : List Bank :=
  (b.groups.filterMap fun g => ffind s.groups g).flatMap groupBanks ++ accBanks b 0 b.accCount

/-- Whether a block needs a region of its core (R485). -/
def needsRegion (s : State) (b : Block) (p : PowerRegion) : Bool :=
  let slots := (b.groups.filterMap fun g => ffind s.groups g).map (·.slot)
  match p with
  | .lanePipe c k => c == b.core && (b.seg.isSome || slots.any fun n => n % 4 == k)
  | .sfu c | .opFiles c | .matrix c => c == b.core
  | .regBanks c k =>
    c == b.core && (if k < 4 then b.seg.isSome || slots.any fun n => n / 16 == k
      else if k < 8 then b.chunks != 0 else b.seg.isSome || slots.any fun n => n / 32 == k - 8)
  | .accRows c k => c == b.core && b.rows.any fun n => n / 64 == k
  | .spmUnits c k => c == b.core && b.lines.any fun n => n / 512 == k
  | .sliceWays _ _ => false

/-- The Gated regions that a block needs wait for Spring from now on (R485, R486). -/
def wantSpring (s : State) (b : Nat) : State :=
  match ffind s.blocks b with
  | none => s
  | some x => modCore s x.core fun c => { c with springs := (c.springs ++ c.gated.filter (needsRegion s x)).eraseDups }

/-- Whether a block has to wait for Spring (R485). -/
def waitsSpring (s : State) (b : Block) : Bool := ((ffind s.cores b.core).map (·.gated)).getD [] |>.any (needsRegion s b)

/-- Place a block on a core. -/
def placeBlock (s : State) (region blockId core : Nat) (n : Need) (entry matrix : Word) (seg : Option Nat) : State :=
  let s := takeSegment (settleFusion (reclaim s core n.spm) region core) core seg
  let b := s.nextId
  let s := { s with blocks := fset s.blocks b (.fresh s region blockId core n matrix seg), nextId := b + 1, freeCtr := s.freeCtr + 2 }
  wantSpring (giveGroups s b entry n.groups) b

/-! ### Pinned code (R336) -/

/-- A unit of code as an agent of a column reads it; none where it cannot be read, to be fetched later. -/
def codeAt (s : State) (e : Env) (va : Nat) : Option Word32 :=
  match homeLine s e e.sp (e.sp.key va) with
  | .ok (_, d) => some (BitVec.ofNat 32 (lineNat d (va % 128) 4))
  | .error _ => none

/-- A core pins the units of a range; one that it has pinned stays as it is. -/
def pinRange (e : Env) (s : State) (core lo n : Nat) (f : FMap Word32) : FMap Word32 :=
  (List.range n).foldl (fun f i => match ffind f (pinKey core (lo + 4 * i)), codeAt s e (lo + 4 * i) with
    | none, some w => fset f (pinKey core (lo + 4 * i)) w
    | _, _ => f) f

/-- A holder core pins the code of a segment (R336). -/
def pinSegment (s : State) (region : Nat) (e : Env) (core n : Nat) : State :=
  match ffind s.regions region with
  | none => s
  | some r =>
    modMarch s region fun m => match m.segs[n]? with
      | none => m
      | some g =>
        let f := pinRange e s core g.scalarLo ((g.scalarHi - g.scalarLo + 3) / 4) m.pinned
        let f := pinRange e s core (recNat r.record 0x18 8 + 12 * g.laneLo) (3 * (g.laneHi - g.laneLo)) f
        { m with pinned := pinRange e s core g.matrixLo ((g.matrixHi - g.matrixLo + 3) / 4) f }

/-- The pins of a segment go along with a holder block that moves to another core, where they stay as they were: pinned code is
never fetched again (R336). -/
def movePins (s : State) (region old core n : Nat) : State :=
  match ffind s.regions region with
  | none => s
  | some r =>
    modMarch s region fun m => match m.segs[n]? with
      | none => m
      | some g =>
        let mine := m.pinned.filter fun u => u.1 / 2 ^ 57 == old && g.covers (recNat r.record 0x18 8) (u.1 % 2 ^ 57)
        { m with pinned := mine.foldl (fun f u => if (ffind f (pinKey core (u.1 % 2 ^ 57))).isSome then f else fset f (pinKey core (u.1 % 2 ^ 57)) u.2)
                   m.pinned }

/-- Where the launch engine of a region's column reads memory from (R411). -/
def launchEnv (s : State) (region : Nat) (r : Region) : Env :=
  { sp := regionSpace s region, col := r.col, core := none, cache := 512 + r.col, who := .launch r.col, region := some region, block := none
    monitor := false }

/-- Read and validate n identifier records of a block from a table (R27, step 1). -/
def loadTids (s : State) (b table : Nat) : Nat → Except Miss State
  | 0 => .ok s
  | n + 1 =>
    match loadTids s b table n with
    | .error m => .error m
    | .ok s =>
      (loadBytes s (.seq b) (table + 128 * n) 128).map fun r =>
        modBlock r.1 b fun x => { x with tids := fset x.tids n (.install (BitVec.ofNat 1024 r.2) x.spmBytes) }

/-- View registers from a view table; a table at 0 leaves every view invalid (R58). -/
def tableViews (s : State) (a : AgentId) (table : Nat) (accCount : Option Nat) : Except Miss (State × SMap 64) :=
  if table = 0 then .ok (s, []) else (loadBytes s a table 256).map fun r => (r.1, loadViews r.2 accCount)

/-- The five steps of R27; none while a region of the core is Gated (R485), or while its TID_TABLE or VIEW_TABLE cannot be read: the block
stays placed and starts later (DESIGN CHOICE, log 127). -/
def startBlock (s : State) (b : Nat) : Option State :=
  match ffind s.blocks b with
  | none => none
  | some x =>
    match (if waitsSpring s x then none else ffind s.regions x.region) with
    | none => none
    | some r =>
      -- Clearing its groups' sets and files wakes their banks (R67).
      let s := wakeBanks s x.core ((x.groups.filterMap fun g => ffind s.groups g).flatMap groupBanks)
      let table := match x.seg with
        | some n => ((r.march.bind fun m => m.segs[n]?).map (·.tidTable)).getD 0
        | none => recNat r.record 0x40 8
      match loadTids s b table x.tidCount with
      | .error _ => none
      | .ok s =>
        match tableViews s (.seq b) (if x.seg.isSome then 0 else recNat r.record 0x38 8) (some x.accCount) with
        | .error _ => none
        | .ok (s, views) =>
          let s := x.groups.foldl (fun s g => modGroup s g fun p => { p with views := views }) s
          some (modBlock s b fun x => { x with run := .running, seq := { x.seq with tids := x.tids } })

/-! ### Return of resources (R49, R54, R108) -/

/-- The mappings of a block, by core and entry. -/
def blockMaps (s : State) (b : Nat) : List (Nat × Nat × MapEnt) :=
  s.cores.flatMap fun c => (c.2.maps.filter fun m => m.2.block == b).map fun m => (c.1, m.1, m.2)

/-- Write back and remove a block's mappings (R49, R108); one whose line's home cannot be reached goes without its bytes (DESIGN CHOICE,
log 128). -/
def dropMaps (s : State) (b : Nat) : State :=
  let sp := regionSpace s (((ffind s.blocks b).map (·.region)).getD 0)
  (blockMaps s b).foldl
    (fun s m => match removeMap s sp m.1 m.2.1 m.2.2 with
      | .ok s => s
      | .error _ => modCore s m.1 fun c => { c with maps := fdel c.maps m.2.1 }) s

/-- What a block's arrays hold stays behind in their physical places, for later blocks (R27). -/
def leaveResidue (s : State) (b : Nat) : State :=
  match ffind s.blocks b with
  | none => s
  | some x =>
    modCore s x.core fun c =>
      { c with
        sram := x.spm.foldl (fun m e => fset m (128 * x.lines.getD (e.1 / 128) 0 + e.1 % 128) e.2) c.sram
        accs := x.acc.foldl (fun m e => fset m (256 * x.rows.getD (e.1 / 256) 0 + e.1 % 256) e.2) c.accs }

end Sys2Proof.Machine
end

