-- ==== Sys2Proof/Machine/Image.lean ====
section
/-! DEFINITION. Group records: what masks and `safe` keep of a group, and the bytes of its image and of its full record
(R42, R66, R203, R343, R344, R396, R397). -/

namespace Sys2Proof.Machine

/-! ### Masks (R42, R66, R195, R203) -/

/-- Whether a `safe` list keeps a scalar register (R203). -/
def safeKeeps (m : BitVec 25) (k : Nat) : Bool := if k ≤ 23 then m.getLsbD (k - 1) else if k ≤ 27 then m.getLsbD 23 else m.getLsbD 24

/-- Whether a mask word keeps a vector word of a group that holds a number of chunks: its own bit, its chunk's, or that of a queue
stored there; a chunk that the group does not hold is ignored (R195).  A word of a queue whose queue bit is clear is kept when
its base or chunk bit is set: R66 has both lists, and the model takes their union (DESIGN CHOICE, log 93). -/
def maskKeepsWord (m : BitVec 96) (ext : Nat) (views : SMap 64) (n : Nat) : Bool :=
  decide (n < 32 + 16 * ext) &&
  ((if n < 32 then m.getLsbD (64 + n) else m.getLsbD (48 + (n - 32) / 16)) ||
  (List.range 8).any fun q =>
    let w := sget views (24 + q)
    m.getLsbD (40 + q) && viewValid w && decide (qvBase w ≤ n) && decide (n < qvBase w + qvDepth w))

/-- Lane state that a mask word does not name reads zero, and its views are invalid (R42, R66); the view registers of the queues stay
whatever the bits of their groups say (DESIGN CHOICE, log 129). -/
def Group.keepLanes (p : Group) (m : BitVec 96) : Group :=
  { p with
    v := p.v.filter fun w => maskKeepsWord m p.ext p.views (w.1 % 256)
    opf := p.opf.filter fun w => m.getLsbD (32 + w.1 % 8)
    p := p.p.filter fun w => m.getLsbD (24 + w.1)
    views := p.views.filter fun w => decide (24 ≤ w.1) || m.getLsbD (16 + w.1 / 4) }

/-- Scalar registers that a list does not name read zero. -/
def Group.keepScalars (p : Group) (m : BitVec 25) : Group :=
  { p with th := { p.th with x := p.th.x.filter fun w => safeKeeps m w.1 } }

/-! ### Bytes -/

/-- A number of fields at byte offsets: offset, size, value. -/
def packFields (l : List (Nat × Nat × Nat)) : Nat := l.foldl (fun a f => a + f.2.2 % 2 ^ (8 * f.2.1) * 2 ^ (8 * f.1)) 0

/-- n bytes of a number at an offset. -/
def fieldAt (x off n : Nat) : Nat := x / 2 ^ (8 * off) % 2 ^ (8 * n)

/-- An array of n fields of a size from an offset. -/
def arrayFields (off size n : Nat) (f : Nat → Nat) : List (Nat × Nat × Nat) := (List.range n).map fun i => (off + size * i, size, f i)

/-- Semantics and scope of a store-buffer entry as a byte: the scope's code, and bit 3 for a release. -/
def sbCode : Option Scope → Nat
  | none => 0
  | some .grp => 8
  | some .blk => 9
  | some .col => 10
  | some .die => 11
  | some .pkg => 12
  | some .dom => 13
  | some .sys => 14

/-- A release from its byte. -/
def sbScope (b : Nat) : Option Scope :=
  if b / 8 % 2 = 0 then none else [some Scope.grp, some .blk, some .col, some .die, some .pkg, some .dom, some .sys].getD (b % 8) none

/-- Keys of a group's incomplete issue records. -/
def groupRecords (s : State) (g : Nat) : List Nat :=
  (s.irecs.filter fun r => r.2.who == .grp g || r.2.parts.any fun p => p.group == g).map Prod.fst

/-- What an image says beside the group's own state (R397). -/
structure ImageHead where
  seg : Nat
  mask : BitVec 96
  safe : BitVec 25
  task : Bool
  full : Bool
  parkS : Nat
  deriving DecidableEq, Repr

/-- The image of a group as 8,192 bytes (R397). -/
def imageNat (s : State) (g : Nat) (p : Group) (h : ImageHead) : Nat :=
  let th := p.th
  let flags := (if p.portEn then 1 else 0) + (if h.task then 2 else 0) + (if h.full then 4 else 0)
    + (if th.run = .done then 8 else 0) + (if p.pushed then 16 else 0)
  let recs := groupRecords s g
  packFields ([(0, 8, th.pc.toNat), (8, 4, p.blockId), (0xC, 2, p.groupId), (0xE, 2, h.seg), (0x10, 8, th.fcsr.toNat),
      (0x18, 8, p.portDst.toNat), (0x20, 12, h.mask.toNat), (0x2C, 4, h.safe.toNat), (0x30, 1, flags), (0x31, 1, p.depCol),
      (0x38, 8, h.parkS)]
    ++ arrayFields 0x40 8 31 (fun i => (sget th.x (i + 1)).toNat)
    ++ arrayFields 0x138 4 1024 (fun i => (sget p.v (256 * (i / 32) + i % 32)).toNat)
    ++ arrayFields 0x1138 4 256 (fun i => (sget p.opf i).toNat)
    ++ arrayFields 0x1538 1 32 (fun l => (List.range 8).foldl (fun n k => n + if k = 0 ∨ (sget p.p k).getLsbD l then 2 ^ k else 0) 0)
    ++ arrayFields 0x1558 8 32 (fun i => (sget p.views i).toNat)
    ++ arrayFields 0x1658 8 32 (fun l => (sget p.lr l).toNat)
    ++ arrayFields 0x1758 2 32 (fun l => (sget p.gens l).toNat)
    ++ [(0x1798, 2, th.gen.toNat)]
    ++ (th.sb.zipIdx.flatMap fun (x, i) =>
      let o := 0x17A8 + 24 * i
      [(o, 8, x.va % 2 ^ 57 + 2 ^ 63), (o + 8, 8, x.data.toNat), (o + 16, 1, x.mask.toNat), (o + 17, 1, sbCode x.rel),
        (o + 18, 2, x.asid)])
    ++ [(0x1928, 8, th.unack), (0x1930, 8, recs.length)]
    ++ ((recs.take 32).zipIdx.map fun (k, i) => (0x1938 + 2 * i, 2, k)))

/-- A map of n values by key. -/
def mapOf {w : Nat} (n : Nat) (key : Nat → Nat) (f : Nat → Nat) : SMap w :=
  (List.range n).foldl (fun m i => sset m (key i) (BitVec.ofNat w (f i))) []

/-- The store-buffer entries of an image. -/
def imageStores (x : Nat) : List SbEntry :=
  (List.range 16).filterMap fun i =>
    let o := 0x17A8 + 24 * i
    if fieldAt x o 8 / 2 ^ 63 = 1 then
      some
        { va := fieldAt x o 8 % 2 ^ 57, asid := fieldAt x (o + 18) 2, data := wordOf (fieldAt x (o + 8) 8)
          mask := BitVec.ofNat 8 (fieldAt x (o + 16) 1), rel := sbScope (fieldAt x (o + 17) 1), checked := false }
    else none

/-- A group restored from its image; what the image does not hold stays. -/
def Group.loadImage (p : Group) (x : Nat) : Group :=
  { p with
    th := { p.th with
      pc := wordOf (fieldAt x 0 8), fcsr := fcsrStore (wordOf (fieldAt x 0x10 8)), gen := BitVec.ofNat 16 (fieldAt x 0x1798 2)
      x := mapOf 31 (· + 1) (fun i => fieldAt x (0x40 + 8 * i) 8), sb := imageStores x }
    portDst := portDstStore (wordOf (fieldAt x 0x18 8)), portEn := decide (fieldAt x 0x30 1 % 2 = 1), depCol := fieldAt x 0x31 1
    pushed := decide (fieldAt x 0x30 1 / 16 % 2 = 1)
    v := (p.v.filter fun w => decide (32 ≤ w.1 % 256)) ++ mapOf 1024 (fun i => 256 * (i / 32) + i % 32) (fun i => fieldAt x (0x138 + 4 * i) 4)
    opf := mapOf 256 (·) (fun i => fieldAt x (0x1138 + 4 * i) 4)
    p := mapOf 8 (·) (fun k => (List.range 32).foldl (fun n l => n + if fieldAt x (0x1538 + l) 1 / 2 ^ k % 2 = 1 ∧ 0 < k then 2 ^ l else 0) 0)
    views := mapOf 32 (·) (fun i => (viewStore i (wordOf (fieldAt x (0x1558 + 8 * i) 8))).toNat)
    lr := mapOf 32 (·) (fun l => fieldAt x (0x1658 + 8 * l) 8)
    gens := mapOf 32 (·) (fun l => fieldAt x (0x1758 + 2 * l) 2) }

/-! ### Full records (R397) -/

/-- Gang number of a slice. -/
def gangNumber (l : List Gang) (k : Nat) : Nat := ((l.findIdx? fun g => g.slices.getLsbD k)).getD 0

/-- The 40,960 bytes of a full group record. -/
def recordNat (s : State) (g : Nat) (p : Group) (h : ImageHead) : Nat :=
  let gangs := (p.task.map (·.gangs)).getD []
  let slice (k : Nat) : Nat := ((gangs.find? fun x => x.slices.getLsbD k).map fun x => x.pc % 2 ^ 24 + 2 ^ 31).getD 0
  imageNat s g p h +
  packFields (arrayFields 0x2000 4 8 slice ++ arrayFields 0x2020 1 8 (gangNumber gangs)
    ++ [(0x2028, 1, (p.task.map (·.n)).getD 0), (0x2029, 1, p.rx.length), (0x202A, 1, p.ext)]
    ++ (p.rx.zipIdx.flatMap fun (f, i) => [(0x2040 + 16 * i, 8, f.payload.toNat), (0x2048 + 16 * i, 8, f.header.toNat)])
    ++ arrayFields 0x3000 4 (512 * min p.ext 14) fun i => (sget p.v (256 * (i % 512 / 16) + 32 + 16 * (i / 512) + i % 16)).toNat)

/-- Mask word in force for a gang: that of its last safe-point word, or of the safe-point `regang` it waits at (R42). -/
def Gang.safeMask (x : Gang) : Option (BitVec 96) :=
  if x.again.isSome then none else if x.wait.isSome then x.mask else x.safe

/-- The lane task of a full record, each gang at its safe point (R42); the parts of it that a record does not hold come from the
task that was saved. -/
def recordTask (p : Group) (x : Nat) : Option Task :=
  if fieldAt x 0x30 1 / 2 % 2 = 0 then none
  else
    let live (k : Nat) : Bool := fieldAt x (0x2000 + 4 * k) 4 / 2 ^ 31 == 1
    let gangs := (List.range 8).filterMap fun n =>
      let ks := (List.range 8).filter fun k => live k && fieldAt x (0x2020 + k) 1 == n
      ks.head?.map fun k =>
        let old := (p.task.bind fun t => t.gangs.find? fun y => y.slices.getLsbD k).bind (·.safeMask)
        { Gang.start (BitVec.ofNat 8 (ks.foldl (fun m i => m + 2 ^ i) 0)) (fieldAt x (0x2000 + 4 * k) 4 % 2 ^ 24) with
          safe := some (old.getD (BitVec.ofNat 96 (fieldAt x 0x20 12))) }
    some
      { n := fieldAt x 0x2028 1, gangs := gangs, endMask := (p.task.map (·.endMask)).getD 0#96
        endSafe := (p.task.map (·.endSafe)).getD true, tids := (p.task.map (·.tids)).getD [] }

/-- A group restored from its full record (R396, R397). -/
def Group.loadRecord (p : Group) (x : Nat) : Group :=
  let q := p.loadImage x
  { q with
    v := (q.v.filter fun w => decide (w.1 % 256 < 32)).foldl (fun m w => sset m w.1 w.2)
      (mapOf 7168 (fun i => 256 * (i % 512 / 16) + 32 + 16 * (i / 512) + i % 16) (fun i => fieldAt x (0x3000 + 4 * i) 4))
    task := recordTask p x, ext := fieldAt x 0x202A 1
    rx := (List.range (min (fieldAt x 0x2029 1) 16)).map fun i =>
      { payload := wordOf (fieldAt x (0x2040 + 16 * i) 8), header := wordOf (fieldAt x (0x2048 + 16 * i) 8) &&& 0xFFFFFFFF000FFF00#64 }
    th := { q.th with run := if fieldAt x 0x30 1 / 8 % 2 = 1 then .done else .running } }

end Sys2Proof.Machine
end

