-- ==== Sys2Proof/Machine/March.lean ====
section
/-! DEFINITION. March mode: transfers between segments, departures, the choice of a holder, parking and landing
(R169, R170, R337 to R354, R443). -/

namespace Sys2Proof.Machine

/-! ### Segments and holders -/

/-- The segment whose scalar range holds an address (R340). -/
def segmentAt (m : March) (va : Nat) : Option Nat :=
  m.segs.findIdx? fun g => decide (g.scalarLo ≤ va) && decide (va < g.scalarHi)

/-- Cores of the live holders of a segment, ascending: those whose holder block is there now (R352). -/
def liveHolders (s : State) (region seg : Nat) : List Nat :=
  (List.range 64).filter fun c => (holderBlock s region seg c).isSome

/-- Whether the holder of a segment on a core is Stopped. -/
def holderStopped (s : State) (region seg core : Nat) : Bool := (holderBlock s region seg core).any fun b => b.2.run == .stopped

/-- Free arrival slots of a holder as a departing core counts them: the last broadcast, and none while it is Stopped
(R345). -/
def countedFree (s : State) (region seg : Nat) (m : March) (core : Nat) : Nat :=
  if holderStopped s region seg core then 0
  else (ffind m.known core).getD Config.arrivalSlots

/-- First core of a list with the greatest count. -/
def bestCore (f : Nat → Nat) : List Nat → Option Nat
  | [] => none
  | c :: t =>
    match bestCore f t with
    | some d => if f c < f d then some d else some c
    | none => some c

/-- The holder that a departure chooses among those that are not Stopped: the own slot of the departing core counts as free
(R345).  Where every one is Stopped it is the lowest, whose port parks the image (R352; DESIGN CHOICE, log 106). -/
def chooseHolder (s : State) (region seg : Nat) (m : March) (own : Option Nat) : Option Nat :=
  let l := liveHolders s region seg
  match bestCore (fun c => countedFree s region seg m c + (if own = some c then 1 else 0)) (l.filter fun c => !holderStopped s region seg c) with
  | some c => some c
  | none => l.head?

/-- Travellers of a region in slots of a core, one of them left out. -/
def slotsUsed (s : State) (region core : Nat) (but : Nat) : Nat :=
  (s.groups.filter fun g =>
    g.1 != but && g.2.region == region && g.2.core == core && g.2.seg.isSome && holdsSlot s g.2).length

/-- Whether a segment has held records (R346, R347). -/
def segHeld (m : March) (seg : Nat) : Bool := m.held.any fun r => r.2.1 == seg

/-! ### Stubs (R350) -/

/-- A name of an agent replaced by another. -/
def Who.swap (a b w : Who) : Who := if w = a then b else w

/-- Who awaits a message, replaced. -/
def MsgKind.swap (a b : Who) : MsgKind → MsgKind
  | .write l d m f by_ w => .write l d m f by_ (Who.swap a b w)
  | .ack w => .ack (Who.swap a b w)
  | .resp w => .resp (Who.swap a b w)
  | .fill c l cp w => .fill c l cp (Who.swap a b w)
  | .rdata l c w => .rdata l c (Who.swap a b w)
  | .spmWrite l d m w => .spmWrite l d m (Who.swap a b w)
  | k => k

/-- Every acknowledgement that an agent awaits goes to another. -/
def rewho (s : State) (a b : Who) : State :=
  { s with
    net := s.net.map fun m => { m with kind := m.kind.swap a b }
    pendw := s.pendw.map fun p => (p.1, { p.2 with who := Who.swap a b p.2.who })
    pushes := s.pushes.map fun p => (p.1, { p.2 with who := Who.swap a b p.2.who })
    remote := s.remote.map fun r => (r.1, { r.2 with who := Who.swap a b r.2.who })
    cols := s.cols.map fun c => (c.1, { c.2 with queues := c.2.queues.map fun q =>
      (q.1, { q.2 with heldPosts := q.2.heldPosts.map fun h => (h.1, Who.swap a b h.2) }) }) }

/-- Fills that an agent's prefetches await are nobody's from now on. -/
def dropPrefetches (s : State) (a : Who) : State :=
  { s with
    net := s.net.map fun m => match m.kind with
      | .fill c l cp w => { m with kind := .fill c l cp (Who.swap a .nobody w) }
      | .rdata l c w => { m with kind := .rdata l c (Who.swap a .nobody w) }
      | _ => m
    chans := s.chans.map fun c => (c.1,
      { c.2 with
        tags := c.2.tags.map fun t => (t.1, { t.2 with fillFor := t.2.fillFor.map fun f => (f.1, Who.swap a .nobody f.2) })
        waiting := c.2.waiting.map fun r => { r with fillFor := r.fillFor.map fun f => (f.1, Who.swap a .nobody f.2) } }) }

/-- Free forwarding stubs of a core (R350, R392). -/
def freeStubs (s : State) (core : Nat) : Nat := Config.stubs - (s.stubs.filter fun x => x.2.core == core).length

/-- Whether a group has something outstanding that a stub must forward. -/
def needsStub (s : State) (g : Nat) : Bool :=
  ((ffind s.groups g).any fun p => p.th.unack != 0) || !(groupRecords s g).isEmpty

/-- The incomplete operations of a group were issued before it left its place (R351). -/
def markDeparted (s : State) (g : Nat) : State :=
  (groupRecords s g).foldl (fun s k => { s with irecs := fmod s.irecs k fun r => { r with departed := true } }) s

/-- Leave one stub on a core for a list of groups, when something of theirs is outstanding. -/
def leaveStub (s : State) (core : Nat) (l : List Nat) : State :=
  let s := l.foldl (fun s g => markDeparted (dropPrefetches s (.grp g)) g) s
  if l.any (needsStub s) then
    let n := s.nextId
    let x : Stub :=
      { core := core, left := l.map fun g => (g, ((ffind s.groups g).map (·.th.unack)).getD 0)
        recs := l.flatMap (groupRecords s), kept := 0 }
    l.foldl (fun s g => rewho s (.grp g) (.stub n g)) { s with stubs := fset s.stubs n x, nextId := n + 1 }
  else s

/-! ### Pushes of a move (R170, R411) -/

/-- A column slice makes the pushes of a `.pkg` release, counted in the UNACK of the moving groups while they have room. -/
def pushFor (s : State) (col : Nat) (gs : List Nat) : State :=
  (fifoOf s col).foldl (fun s k =>
    let who := (gs.find? fun g => (ffind s.groups g).any fun p => decide (p.th.unack < Config.unackMax)).elim Who.nobody Who.grp
    pushMsg s k col who) s

/-- Pushes of a column that are not acknowledged. -/
def columnPushes (s : State) (col : Nat) : List Nat := (s.pushes.filter fun p => p.2.col == col).map Prod.fst

/-- Groups leave a column: its slice pushes, and they await every push ahead of the marker (R170). -/
def moveFrom (s : State) (col : Nat) (gs : List Nat) : State :=
  let s := pushFor s col gs
  gs.foldl (fun s g => modGroup s g fun p => { p with moves := columnPushes s col }) s

/-- A block comes from a column: its slice pushes, counted for a list of moving groups, and the block awaits every push ahead of
the marker (R170, R411). -/
def moveBlock (s : State) (col bk : Nat) (gs : List Nat) : State :=
  let s := pushFor s col gs
  modBlock s bk fun b => { b with moves := columnPushes s col }

/-! ### The cross-segment words (R338 to R345) -/

/-- Kinds of the cross-segment transfers (R338). -/
inductive CrossOp | xfer | xcall | xret
  deriving DecidableEq, Repr

/-- Whether an operation of a group keeps it from departing (R340). -/
def tiedOperation (s : State) (g : Nat) : Bool :=
  (groupRecords s g).any fun k => (ffind s.irecs k).any fun r => r.op == .cpColl || edArr r.desc || edEwait r.desc

/-- The waits of R340: a stub where one is needed, no lane task, every credit, no value awaited, at most 32 incomplete
records (R397), and room in UNACK for the pushes of a move to another column (R169, R170). -/
def departReady (s : State) (g : Nat) (p : Group) (dest : Nat) : Bool :=
  let pushes := if coreCol s dest = coreCol s p.core then 0 else (fifoOf s (coreCol s p.core)).length
  let recs := groupRecords s g
  let stub := p.th.unack != 0 || !recs.isEmpty || pushes != 0
  (!stub || decide (0 < freeStubs s p.core)) && p.task.isNone && p.credits == Config.creditsMax && p.th.loads == 0 &&
  p.th.atomics == 0 && decide (recs.length ≤ 32) && decide (p.th.unack + pushes ≤ Config.unackMax)

/-- While a departure to another column waits for room in UNACK, the old slice pushes what there is room for. -/
def pushSome (s : State) (g : Nat) (p : Group) (dest : Nat) : State :=
  let col := coreCol s p.core
  let l := fifoOf s col
  if coreCol s dest = col ∨ p.th.unack + l.length ≤ Config.unackMax then s
  else pushLines s col (.grp g) (l.take (Config.unackMax - p.th.unack))

/-- The state of a group that leaves: what the lists name, nothing else (R343). -/
def Group.ship (p : Group) (list : BitVec 25) (t : Word) : Group :=
  let q := (p.keepScalars list).keepLanes p.depMask
  let v := q.v.filter fun w => decide (w.1 % 256 < 32)
  { q with
    v := v, portSrc := 0#64, drop := false, owe := 0#64, regStatus := 0#64, rx := []
    th := { q.th with
      pc := t, prefetches := 0, watches := [], monitor := none, marker := false, await := [], scratch := 0#64
      kbank := .clear, mbank := .clear, sb := q.th.sb.map fun x => { x with checked := false } } }

/-- A departure to a segment at an address (R67, R170, R343 to R345, R350, R353): the image is read out of the slot. -/
def depart (s : State) (g : Nat) (p : Group) (link : Option Reg) (seg dest : Nat) (t : Word) : State :=
  let list := p.th.prevSafe.getD 0#25
  let ret := p.th.pc + 4#64
  let s := modGroup (wakeBanks s p.core (groupBanks p)) g fun p => p.ship list t
  let s := match link with
    | some d => wr s d ret
    | none => s
  let col := coreCol s p.core
  let cross := coreCol s dest != col
  let s := if cross then moveFrom s col [g] else s
  let s := dropCode (leaveStub s p.core [g]) (streamOf g)
  modGroup s g fun p => { p with place := .travelling dest seg, depCol := col, pushed := cross }

/-- The current group and its region. -/
def curTraveller (s : State) : Option (Nat × Group × Region) :=
  match groupOf s.cur, curGroup s with
  | some g, some p => (ffind s.regions p.region).map fun r => (g, p, r)
  | _, _ => none

/-- A cross-segment transfer in a March region (R340), with the flits that are left once its operand is read. -/
def crossMarch (s : State) (op : CrossOp) (link : Option Reg) (g : Nat) (p : Group) (m : March) (rx : List Flit) (t : Word) : Except Exit State :=
  if p.th.inHandler then .error (trapOf cDepartSafe)
  else if t.toNat % 4 ≠ 0 then .error (trapOf cBadTarget)
  else match segmentAt m t.toNat with
    | none => .error (trapOf cSegMiss)
    | some n =>
      if p.seg = some n then
        .ok (jumpTo (match link with
          | some d => wr s d (p.th.pc + 4#64)
          | none => s) t)
      else if op ≠ .xret ∧ (m.segs[n]?).any fun g => g.entryOnly && g.entry != t.toNat then .error (trapOf cSegEntry)
      else if p.th.prevSafe.isNone then .error (trapOf cDepartSafe)
      else
        let dest := (chooseHolder s p.region n m (some p.core)).getD p.core
        if !departReady s g p dest then .error (.stall (pushSome s g p dest))
        else if p.ext ≠ 0 then .error (trapOf cDepartExt)
        else if p.owe ≠ 0#64 then .error (trapOf cDepartBar)
        else if !rx.isEmpty then .error (trapOf cDepartPort)
        else if tiedOperation s g then .error (trapOf cDepartEng)
        else .ok (depart s g p link n dest t)

/-- A cross-segment word (R338 to R340): while it waits, for a port too, the group counts as being at the `safe` before it. -/
def crossWord (op : CrossOp) (link : Option Reg) (a : Reg) (s : State) : Out :=
  scalarOr (.stall s) s [a] link.toList fun s =>
    (groupOnly s).bind fun _ =>
      match curTraveller s with
      | none => .error (trapOf cIllegalInstr)
      | some (g, p, r) =>
        let t := rd s a
        match r.march with
        | some m => crossMarch s op link g p m (if p.portEn && a == 29#5 then p.rx.drop 1 else p.rx) t
        | none =>
          if t.toNat % 4 ≠ 0 then .error (trapOf cBadTarget)
          else .ok (jumpTo (match link with
            | some d => wr s d (p.th.pc + 4#64)
            | none => s) t)

def execXfer (a : Reg) (s : State) : Out := crossWord .xfer none a s
def execXcall (d a : Reg) (s : State) : Out := crossWord .xcall (some d) a s
def execXret (a : Reg) (s : State) : Out := crossWord .xret none a s

/-- The report of `seg.who` (R342). -/
def segReport (s : State) (p : Group) (m : March) (va : Nat) : Nat :=
  match segmentAt m va with
  | none => 0xFFFF
  | some n =>
    let live := liveHolders s p.region n
    let head := n + live.length * 2 ^ 16 + (if p.seg = some n then 2 ^ 20 else 0)
    match chooseHolder s p.region n m (some p.core) with
    | none => head + 0xFFFF * 2 ^ 32
    | some c => head + c * 2 ^ 32 + countedFree s p.region n m c * 2 ^ 48

def execSegWho (d a : Reg) (s : State) : Out :=
  scalar s [a] [d] fun s =>
    (groupOnly s).bind fun _ =>
      match curTraveller s with
      | none => .error (trapOf cIllegalInstr)
      | some (_, p, r) =>
        .ok (wr s d (wordOf (match r.march with
          | some m => segReport s p m (rd s a).toNat
          | none => 0xFFFF)))

/-! ### Parking and landing (R346 to R349, R443) -/

/-- The fault record of an image (R349, R395). -/
def imageFault (p : Group) (rcb seg : Nat) : FaultRec :=
  { cause := cParkFull, source := 3, blockId := p.blockId, rcb := rcb, pc := p.th.pc, lanes := 0#32, groupId := p.groupId
    core := p.core % 2 ^ 16, irec := 0xFFFF#16, seg := seg, elem := 0xFFFFFFFF#64, va := 0 }

/-- Exhaustion of the parking area: the image stays, and PARK_FULL goes to the fault domain (R349). -/
def parkFull (s : State) (g : Nat) (p : Group) (r : Region) (seg : Nat) : State :=
  let s := match recordFault s r.part (imageFault p r.rcb.toNat seg) with
    | some s => s
    | none =>
      let core := ffind s.cores p.core
      noAreaCheck s r.part ((core.map (·.col)).getD r.col) ((core.map (·.phys)).getD 0xFF) cParkFull p.th.pc
  modGroup s g fun p => { p with place := .stuck seg }

/-- Set a field of a SEG_HOT register (R354). -/
def setHot (s : State) (core seg lo len v : Nat) : State :=
  modCore s core fun c => { c with segHot := fset c.segHot seg (setBits ((ffind c.segHot seg).getD 0#64) lo len v) }

/-- Tell the holders of a segment how many of its records are held (R354). -/
def tellHeld (s : State) (region seg : Nat) : State :=
  match (ffind s.regions region).bind (·.march) with
  | none => s
  | some m =>
    let n := (m.held.filter fun r => r.2.1 == seg).length
    (liveHolders s region seg).foldl (fun s c => setHot s c seg 16 8 (min n 255)) s

/-- Park an image at a holder (R347): an atomic step at the home of the map's header line, then the record and the event;
or exhaustion. -/
def parkImage (s : State) (g : Nat) (p : Group) (r : Region) (m : March) (seg core : Nat) : State :=
  let sp := regionSpace s p.region
  match hwNat s sp (m.map + 0x18) 8 with
  | none => s
  | some q =>
    let k := q % max m.parkCount 1
    if m.parkCount = 0 ∨ (ffind m.held k).isSome then parkFull s g p r seg
    else
      let s := hwWrite (wakeBanks s p.core (groupBanks p)) sp (m.map + 0x18) 8 (q + 1) .nobody
      let s := modMarch s p.region fun m => { m with held := fset m.held k (seg, q, true) }
      let head : ImageHead := { seg := seg, mask := p.depMask, safe := p.th.prevSafe.getD 0#25, task := false, full := false, parkS := q }
      let at_ := m.parkBase + 8192 * k
      let s := hwOrdered s sp at_ 8192 (imageNat s g p head)
      let s := modGroup s g fun p => { p with place := .parkedRecord k q, moves := [] }
      let s := tellHeld (dropPins s p.region) p.region seg
      appendEvent s (coreCol s core) 0x0003 (seg + core * 2 ^ 16 + at_ * 2 ^ 64)

/-- The check of a restored store: none where its line has lost its write permission (R443). -/
def storeAllowed (s : State) (g : Nat) (x : SbEntry) : Option State :=
  let sp := { (envOf s (.group g)).sp with tag := x.asid }
  match addrKind x.va with
  | .plain => (checkWrite s (envOf s (.group g)) sp (sp.key x.va)).toOption
  | _ => some s

/-- A list of stores checked again up to the first one whose line has lost its write permission: the list as it then is, and
that store (R443). -/
def checkStores (s : State) (g : Nat) : List SbEntry → State × List SbEntry × Option SbEntry
  | [] => (s, [], none)
  | x :: t =>
    match if x.checked then some s else storeAllowed s g x with
    | none => (s, x :: t, some x)
    | some s => let r := checkStores s g t; (r.1, { x with checked := true } :: r.2.1, r.2.2)

/-- A restored store buffer is checked again; an entry without permission parks its group (R443). -/
def recheckStores (s : State) (g : Nat) : State :=
  let r := checkStores s g (((ffind s.groups g).map (·.th.sb)).getD [])
  let s := modGroup r.1 g fun p => { p with th := { p.th with sb := r.2.1 } }
  match r.2.2 with
  | none => s
  | some x => takePark s (.group g) { state := 3, asid := x.asid, lanes := 0#32, va := wordOf x.va, kind := 1, woken := false }

/-- What is in flight to the caches of a core's agents reaches them before a group that has moved there issues (R156). -/
def settleCore (s : State) (region core : Nat) : State := settleAt (settleAt s (l1Of s region core)) (512 + coreCol s core)

/-- An image lands in a slot of a holder block (R67, R341, R346, R350, R354). -/
def landImage (s : State) (g core seg blk : Nat) : State :=
  let keep := ((ffind s.groups g).map fun p => p.core == core && p.place.inSlot).getD false
  let slot := if keep then ((ffind s.groups g).map (·.slot)).getD 0 else freeSlot s core
  let s := ((ffind s.groups g).map fun p => wakeBanks s p.core (groupBanks p)).getD s
  let s := { s with blocks := s.blocks.map fun b => (b.1, { b.2 with groups := b.2.groups.filter (· != g) }) }
  let s := modBlock s blk fun b => { b with groups := b.groups ++ [g] }
  let s := modGroup s g fun p => { p with place := .resident, seg := some seg, core := core, slot := slot, block := blk, owe := 0#64, moves := [], th := { p.th with prevSafe := none } }
  let s := wakeBanks s core (((ffind s.groups g).map groupBanks).getD [])
  let s := setHot s core seg 32 32 (satInc32 (bitsOf (segHotCsr s core seg) 63 32))
  let s := dropPins (raiseHigh s core seg) (((ffind s.groups g).map (·.region)).getD 0)
  recheckStores (sweepStubs (settleCore s (((ffind s.groups g).map (·.region)).getD 0) core)) g

/-- What an arrival port decides (R346): held records, a Stopped or removed holder, or no free slot park the image. -/
def arriveImage (s : State) (g : Nat) (p : Group) (r : Region) (m : March) (core seg : Nat) : State :=
  match holderBlock s p.region seg core with
  | some (b, x) =>
    if segHeld m seg || x.run == .stopped || decide (Config.arrivalSlots ≤ slotsUsed s p.region core g) then parkImage s g p r m seg core
    else landImage s g core seg b
  | none => parkImage s g p r m seg core

/-- An image reaches its arrival port, once the pushes that it waits for are acknowledged (R170, R346). -/
def execMarchArrival (g : Nat) (s : State) : Out :=
  .next (match ffind s.groups g with
    | none => s
    | some p =>
      match p.place, (ffind s.regions p.region).bind fun r => r.march.map fun m => (r, m) with
      | .travelling core seg, some (r, m) => if movesDone s g then arriveImage s g p r m core seg else s
      | _, _ => s)

/-- A held record that a holder may admit: region, record, segment, sequence number, holder block. -/
structure Admission where
  region : Nat
  record : Nat
  seg : Nat
  seqNo : Nat
  block : Nat
  deriving DecidableEq, Repr

/-- Held and written records of the segments that a core holds in one region (R347). -/
def admissible (s : State) (core : Nat) (rk : Nat) (m : March) : List Admission :=
  m.held.filterMap fun h =>
    match holderBlock s rk h.2.1 core with
    | some (b, x) =>
      if h.2.2.2 && x.run != .stopped then some { region := rk, record := h.1, seg := h.2.1, seqNo := h.2.2.1, block := b } else none
    | none => none

/-- The oldest of a list of admissions. -/
def oldestAdmission : List Admission → Option Admission
  | [] => none
  | a :: t =>
    match oldestAdmission t with
    | some b => if b.seqNo < a.seqNo then some b else some a
    | none => some a

/-- The record that a core admits next: the lowest s in the first region that has one and a free slot (R347). -/
def nextAdmission (s : State) (core : Nat) : Option Admission :=
  s.regions.findSome? fun r => r.2.march.bind fun m =>
    if slotsUsed s r.1 core (2 ^ 64) < Config.arrivalSlots then oldestAdmission (admissible s core r.1 m) else none

/-- A holder admits a record, once the pushes that it asks of the column the group departed from are acknowledged (R170, R347,
R354). -/
def admitRecord (s : State) (core : Nat) (a : Admission) : State :=
  match s.groups.find? fun g => g.2.region == a.region && g.2.place == .parkedRecord a.record a.seqNo with
  | none => s
  | some (g, p) =>
    let base := (((ffind s.regions a.region).bind (·.march)).map (·.parkBase)).getD 0
    match hwNat s (regionSpace s a.region) (base + 8192 * a.record) 8192 with
    | none => s
    | some x =>
      let p' := p.loadImage x
      let s := if !p'.pushed && p'.depCol != coreCol s core && p.moves.isEmpty then moveFrom s p'.depCol [g] else s
      if !movesDone s g then s
      else
        let s := modGroup s g fun q => { p' with th := { p'.th with unack := q.th.unack } }
        let s := modMarch s a.region fun m => { m with held := fdel m.held a.record }
        tellHeld (landImage s g core a.seg a.block) a.region a.seg

/-- Whenever a slot is free, a holder admits one held record. -/
def execMarchAdmit (core : Nat) (s : State) : Out :=
  .next (match nextAdmission s core with
    | none => s
    | some a => admitRecord s core a)

/-- A holder's free counts reach the other cores (R345). -/
def execFreeCountBroadcast (core : Nat) (s : State) : Out :=
  .next { s with regions := s.regions.map fun r =>
    if s.blocks.any fun b => b.2.region == r.1 && b.2.seg.isSome && b.2.core == core && b.2.run != .retired then
      (r.1, { r.2 with march := r.2.march.map fun m =>
        { m with known := fset m.known core (Config.arrivalSlots - slotsUsed s r.1 core (2 ^ 64)) } })
    else r }

/-- An acknowledgement passes a stub and the later ones of its group along the chain (R350). -/
def passStub (s : State) (n g : Nat) : State :=
  let l := s.stubs.map fun y => if n ≤ y.1 then (y.1, { y.2 with left := fmod y.2.left g fun k => k - 1 }) else y
  let s := { s with stubs := l.filter fun y => !y.2.spent }
  modGroup s g fun p => { p with th := { p.th with unack := p.th.unack - 1 } }

/-- The stub and group that an acknowledged push of a group that has moved on is forwarded by and to. -/
def stubPush (s : State) (id : Nat) : Option (Nat × Nat) :=
  match ffind s.pushes id with
  | some p => match p.who with
    | .stub n g => if p.acked then some (n, g) else none
    | _ => none
  | none => none

/-- A stub forwards an acknowledgement in flight to its group's present place. -/
def execStubForward (m : Nat) (s : State) : Out :=
  .next (match s.net.find? fun x => x.id == m with
    | some msg =>
      match msg.kind with
      | .ack (.stub n g) => if stubOpen s g then passStub (takeMsg s m) n g else s
      | .ack (.push id) =>
        match stubPush s id with
        | some (n, g) => if stubOpen s g then passStub { takeMsg s m with pushes := fdel s.pushes id } n g else s
        | none => s
      | _ => s
    | none => s)

end Sys2Proof.Machine
end

