-- ==== Sys2Proof/Machine/Context.lean ====
section
/-! DEFINITION. Pre-emption: when a block can stop, what stops with it, its context area, and its restoration (R42 to
R44, R66, R109, R169, R170, R350, R396, R397, R402, R424, R425). -/

namespace Sys2Proof.Machine

/-! ### When a block can stop (R42, R43) -/

/-- Whether every gang of a group is at a safe point. -/
def lanesSafe (p : Group) : Bool := p.task.all fun t => t.gangs.all fun x => x.safeMask.isSome

/-- Union of the masks of a task's gangs. -/
def Task.safeMask (t : Task) : BitVec 96 := t.gangs.foldl (fun m x => m ||| x.safeMask.getD 0#96) 0#96

/-- Whether the scalar stream of a group is stalled at `lwait` or `lx` by its lane task. -/
def waitsForLanes (s : State) (g : Nat) (p : Group) : Bool :=
  p.task.isSome && match fetchUnit s (.group g) p.th.pc.toNat with
    | .ok (_, w) =>
      match decodeScalar w with
      | .ok .lwait | .ok (.lxImm _ _) | .ok (.lxReg _ _) => true
      | _ => false
    | .error _ => false

/-- Whether a group is Parked. -/
def Group.parked (p : Group) : Bool :=
  match p.th.run with
  | .parked _ => true
  | _ => false

/-- Whether a group is pre-emptible, or Done (R42, R169, R402): a Parked one too, since a save moves its pending fault (R437). -/
def groupStoppable (s : State) (g : Nat) (p : Group) : Bool :=
  p.th.run == .done ||
  ((p.th.run == .running || p.parked) && !p.th.inHandler && p.th.pending.isNone && p.th.loads == 0 && p.th.atomics == 0 && lanesSafe p &&
    (p.th.prevSafe.isSome || waitsForLanes s g p))

/-- Groups of a block that are in it now: a traveller that has departed belongs to no block (R352). -/
def blockGroups (s : State) (b : Block) : List (Nat × Group) :=
  b.groups.filterMap fun g => (ffind s.groups g).bind fun p => if p.place = .resident then some (g, p) else none

/-- Whether a sequencer is at `mend`, or at `mbwt`, with nothing in flight (R43). -/
def seqStoppable (s : State) (bk : Nat) (b : Block) : Bool :=
  b.seq.ended ||
  (b.seq.run == .running && b.seq.rows == 0 && match fetchUnits s (.seq bk) b.seq.mpc.toNat 2 with
    | .ok (_, l) =>
      match decodeMatrix (BitVec.ofNat 64 (leNat l)) with
      | .ok (.mbwt _ _) => true
      | _ => false
    | .error _ => false)

/-- Whether an operation binds its block: it writes the scratchpad or arrives on a barrier, and has neither completed nor
faulted (R43). -/
def IRec.binds (r : IRec) : Bool :=
  (edArr r.desc || r.toScratch) && match r.run with
    | .running | .parked _ => true
    | _ => false

/-- Whether a block is pre-emptible (R43). -/
def blockStoppable (s : State) (bk : Nat) : Bool :=
  match ffind s.blocks bk with
  | none => false
  | some b =>
    (b.run == .running || b.run == .stopping) && (blockGroups s b).all (fun g => groupStoppable s g.1 g.2) && seqStoppable s bk b &&
    !(s.irecs.any fun r => r.1 < 16384 && r.2.block == bk && r.2.binds)

/-- Span width of a region: 1, 2 or 4 (R318). -/
def spanWidth (r : Region) : Nat := 2 ^ bitsOf r.record 37 36

/-- Blocks of a block's span set, in rank order (R318). -/
def spanSet (s : State) (bk : Nat) : List Nat :=
  match ffind s.blocks bk with
  | none => []
  | some b =>
    let w := ((ffind s.regions b.region).map spanWidth).getD 1
    if b.seg.isSome then [bk]
    else (List.range w).flatMap fun k => (s.blocks.filter fun x => x.2.region == b.region && x.2.seg.isNone && x.2.blockId == b.blockId / w * w + k).map Prod.fst

/-- Number of a block for context commands and in its area: its BLOCK_ID, or for a holder block its place in the order of
placement (R396, R402). -/
def blockNumber (s : State) (bk : Nat) (b : Block) : Nat :=
  if b.seg.isSome then (s.blocks.filter fun x => x.2.region == b.region && x.2.seg.isSome && decide (x.1 < bk)).length else b.blockId

/-! ### The context area (R396, R397) -/

/-- Bytes of a block's context area. -/
def areaBytes (b : Block) : Nat :=
  0x64000 + roundUp b.spmBytes 4096 + roundUp (1024 * b.accCount) 4096 + 40960 * b.groups.length

/-- Scale blocks of each column of a plane (R307): none where it holds no weights, or weights without scales. -/
def Plane.blocks (p : Plane) : Nat :=
  if p.valid then (if p.cls = 2#2 then Config.mxK16 else Config.mxK8) / (if p.bs = 0 then 16 else p.bs) else 0

/-- A weight plane as bytes: elements, then scales; a block that the plane does not have is zero (R307, R396). -/
def planeNat (p : Plane) : Nat :=
  p.w.foldl (fun n x => n + x.2.toNat * 2 ^ (32 * x.1)) 0
    + (List.range (256 * p.blocks)).foldl (fun n i => n + ((ffind p.sw i).getD 127#8).toNat * 2 ^ (8 * (196608 + i))) 0

/-- A tensor identifier as its 128 bytes, with the reason in byte 6. -/
def tidNatOf (t : Tid) : Nat := (setBits t.raw 48 8 (t.reason.getD 0xFF)).toNat

/-- Flags of the two planes. -/
def planeFlags (q : Seq) : Nat :=
  (if q.active.valid then 1 else 0) + q.active.cls.toNat * 2 + (if q.shadow.valid then 8 else 0) + q.shadow.cls.toNat * 16

/-- What an image of a full record says beside the group's own state. -/
def fullHead (p : Group) : ImageHead :=
  { seg := p.seg.getD 0xFFFF, mask := (p.task.map Task.safeMask).getD p.depMask, safe := p.th.prevSafe.getD (BitVec.allOnes 25)
    task := p.task.isSome, full := true, parkS := 0 }

/-- The sections of a block's context area: offset, size, value. -/
def areaSections (s : State) (bk : Nat) (b : Block) (bytes : Nat) : List (Nat × Nat × Nat) :=
  let r := ffind s.regions b.region
  let recs := b.groups.flatMap (groupRecords s)
  let maps := (blockMaps s bk).map fun m => m.2.2
  let acc := 0x64000 + roundUp b.spmBytes 4096
  let grp := acc + roundUp (1024 * b.accCount) 4096
  [(0, 256, packFields [(0, 4, 1), (4, 4, blockNumber s bk b), (8, 8, (r.map (·.rcb.toNat)).getD 0), (0x10, 2, b.groups.length), (0x12, 2, b.chunks),
      (0x14, 4, b.spmBytes), (0x18, 1, b.barCount), (0x19, 1, b.tidCount), (0x1A, 2, b.accCount), (0x20, 8, b.cursor), (0x28, 8, bytes),
      (0x30, 2, b.core)]),
    (0x100, 512, packFields (arrayFields 0 8 64 fun i => (sget b.bars i).toNat)),
    (0x300, 512, packFields (maps.zipIdx.flatMap fun (m, i) =>
      [(32 * i, 8, m.base), (32 * i + 8, 8, m.len), (32 * i + 16, 8, m.off), (32 * i + 24, 1, 1)])),
    (0x500, 512, packFields (((recs.take 255).zipIdx.map fun (k, i) => (2 * i, 2, k)) ++ [(2 * min recs.length 255, 2, 0xFFFF)])),
    (0x700, 256, packFields ([(0, 8, b.seq.mpc.toNat)] ++ arrayFields 8 8 16 (fun i => (sget b.seq.m i).toNat) ++
      [(0x88, 1, b.seq.span), (0x89, 1, b.seq.lead), (0x8A, 2, planeFlags b.seq)])),
    (0x800, 8192, packFields (arrayFields 0 128 64 fun i => if i < b.tidCount then tidNatOf ((ffind b.tids i).getD .unset) else 0)),
    (0x2800, 199680, planeNat b.seq.active), (0x2800 + 199680, 199680, planeNat b.seq.shadow),
    (0x64000, roundUp b.spmBytes 4096, natOfBytes ((List.range b.spmBytes).map (spmByte b))),
    (acc, grp - acc, packFields (arrayFields 0 4 (256 * b.accCount) fun i => (accWord b i).toNat))]
  ++ b.groups.zipIdx.map fun (g, i) =>
    (grp + 40960 * i, 40960, ((ffind s.groups g).map fun p => recordNat s g p (fullHead p)).getD 0)

/-- Write sections at an address, performed at their homes and acknowledged (R399). -/
def writeSections (s : State) (sp : Space) (base : Nat) (l : List (Nat × Nat × Nat)) : State :=
  l.foldl (fun s x => hwOrdered s sp (base + x.1) x.2.1 x.2.2) s

/-- Check the lines of an area for writing, one in each unit of permission (R434). -/
def checkArea (s : State) (a : AgentId) (va n : Nat) : Except Miss State :=
  let e := envOf s a
  checkLines s e e.sp ((List.range ((n + 4095) / 4096)).map fun k => e.sp.key (va + 4096 * k))

/-- k whole lines as their homes hold them. -/
def areaLines (s : State) (sp : Space) (va : Nat) : Nat → Except Miss (State × Nat)
  | 0 => .ok (s, 0)
  | k + 1 =>
    match areaLines s sp va k with
    | .error m => .error m
    | .ok (s, x) => (denied sp (va + 128 * k) (readHome s sp (sp.key (va + 128 * k)))).map fun r =>
        (r.1, x + r.2.data.toNat * 2 ^ (1024 * k))

/-! ### Stopping (R43, R44) -/

/-- A group as pre-emption preserves it (R42, R66, R116, R121). -/
def Group.freeze (p : Group) (s : State) (g : Nat) : Group :=
  if p.th.run = .done then p
  else
    let q := match p.task with
      | some t => p.keepLanes t.safeMask
      | none => p
    let q := match p.th.prevSafe with
      | some m => if waitsForLanes s g p then q else q.keepScalars m
      | none => q
    { q with th := { q.th.loseWatch with marker := false, await := [], prefetches := 0, replays := none, sb := q.th.sb.map fun x => { x with checked := false } } }

/-- Mappings of a block are kept aside while it is Stopped (R109): keys from 16 on. -/
def setMapsAside (s : State) (bk core : Nat) : State :=
  modCore s core fun c => { c with maps := c.maps.map fun m => if m.2.block = bk then (16 + 16 * bk + m.1, m.2) else m }

/-- The pending-fault entry of an agent that is Parked, or whose replay has yet to complete, is free (R437). -/
def freeEntry (s : State) (a : AgentId) : State :=
  if isParked s a || replaying s a || (threadOf s a).any (·.replays.isSome) then freePft s (envOf s a).sp.part (pftSlot s a) else s

/-- A block stops: what the masks name is preserved, a stub is left, the resources of its core are free (R43, R350). -/
def stopBlock (s : State) (bk : Nat) : State :=
  match ffind s.blocks bk with
  | none => s
  | some b =>
    let gs := (blockGroups s b).map Prod.fst
    let s := wakeBanks s b.core (blockBanks s b)
    let s := gs.foldl (fun s g => freeEntry s (.group g)) s
    let s := gs.foldl (fun s g => modGroup s g fun p => p.freeze s g) s
    let s := leaveStub s b.core gs
    let s := leaveResidue (setMapsAside s bk b.core) bk
    let s := dropCode s fun a => a == .seq bk || gs.any fun g => streamOf g a
    modBlock s bk fun x => { x with groups := gs, run := .stopped, stop := none, xq := [], seq := { x.seq with replays := false } }

/-- The agent of a name. -/
def agentOf : Who → Option AgentId
  | .host c t => some (.host c t)
  | .grp g => some (.group g)
  | _ => none

/-- Whether every block of a set can stop now, with the stubs that this takes (R350, R402). -/
def setStoppable (s : State) (l : List Nat) : Bool :=
  l.all fun bk =>
    blockStoppable s bk && (ffind s.blocks bk).any fun b =>
      decide (0 < freeStubs s b.core) || !(b.groups.any (needsStub s))

/-- Save and stop a set of blocks, their areas back to back (R402). -/
def saveSet (s : State) (a : AgentId) (area bytes : Nat) (l : List Nat) : Except Miss State :=
  (checkArea s a area bytes).map fun s =>
    let sp := (envOf s a).sp
    let each := bytes / max l.length 1
    l.zipIdx.foldl (fun s (bk, i) =>
      let s := match ffind s.blocks bk with
        | none => s
        | some b =>
          let t := (blockGroups s b).foldl (fun t g => modGroup t g.1 fun p => p.freeze s g.1) s
          let sections := match ffind t.blocks bk with
            | some b => areaSections t bk { b with groups := (blockGroups t b).map Prod.fst } each
            | none => []
          writeSections s sp (area + each * i) sections
      stopBlock s bk) s

/-- The requester of a save learns its status (R399, R402). -/
def tellSave (s : State) (who : Who) (st : Nat) : State :=
  match agentOf who with
  | some a => modThread s a fun th => { th with saveResult := some st }
  | none => s

/-- A request is withdrawn: the blocks run on (R425). -/
def withdrawStop (s : State) (l : List Nat) : State :=
  l.foldl (fun s bk => modBlock s bk fun b => { b with stop := none, run := if b.run = .stopping then .running else b.run }) s

/-- Whether the deadline of a request has passed (R424). -/
def StopReq.late (q : StopReq) (now : Nat) : Bool := decide (q.at_ + max q.ns 1 < now)

/-! ### Restoration (R402) -/

/-- A weight plane from its bytes.  The area has no field for the size of its scale blocks and the k origin of its `mls`: they are
those that the Stopped block keeps (DESIGN CHOICE, log 109). -/
def planeOf (old : Plane) (x : Nat) (valid : Bool) (cls : Nat) : Plane :=
  let p : Plane := { old with valid := valid, cls := BitVec.ofNat 2 cls, w := mapOf 49152 (·) (fun i => fieldAt x (4 * i) 4), sw := [] }
  { p with sw := (List.range (256 * p.blocks)).map fun i => (i, BitVec.ofNat 8 (fieldAt x (196608 + i) 1)) }

/-- A tensor identifier from its bytes. -/
def tidOf (x : Nat) : Tid :=
  let r := fieldAt x 6 1
  { raw := setBits (BitVec.ofNat 1024 x) 48 8 0, reason := if r = 0xFF then none else some r }

/-- A block restored from its area on a core. -/
def Block.loadArea (b : Block) (x core slot : Nat) : Block :=
  let fl := fieldAt x 0x78A 2
  let acc := 0x64000 + roundUp b.spmBytes 4096
  { b with
    core := core, slot := slot, run := .running, cursor := fieldAt x 0x20 8
    bars := mapOf 64 (·) (fun i => fieldAt x (0x100 + 8 * i) 8)
    tids := (List.range b.tidCount).map fun i => (i, tidOf (fieldAt x (0x800 + 128 * i) 128))
    spm := (List.range b.spmBytes).map fun i => (i, BitVec.ofNat 8 (fieldAt x (0x64000 + i) 1))
    acc := (List.range (256 * b.accCount)).map fun i => (i, BitVec.ofNat 32 (fieldAt x (acc + 4 * i) 4))
    seq := { b.seq with
      mpc := wordOf (fieldAt x 0x700 8), m := mapOf 16 (·) (fun i => fieldAt x (0x708 + 8 * i) 8)
      span := fieldAt x 0x788 1, lead := fieldAt x 0x789 1
      active := planeOf b.seq.active (fieldAt x 0x2800 199680) (fl % 2 == 1) (fl / 2 % 4)
      shadow := planeOf b.seq.shadow (fieldAt x (0x2800 + 199680) 199680) (fl / 8 % 2 == 1) (fl / 16 % 4) } }

/-- Mapping entries of an area: base, length, offset. -/
def areaMaps (x : Nat) : List (Nat × Nat × Nat) :=
  (List.range 16).filterMap fun i =>
    let o := 0x300 + 32 * i
    if fieldAt x (o + 24) 1 % 2 = 1 then some (fieldAt x o 8, fieldAt x (o + 8) 8, fieldAt x (o + 16) 8) else none

/-- Free mapping entries of a core. -/
def freeMapKeys (s : State) (core : Nat) : List Nat :=
  (List.range 16).filter fun k => ((ffind s.cores core).bind fun c => ffind c.maps k).isNone

/-- Re-register a block's mappings on a core, in place of those kept aside (R109). -/
def restoreMaps (s : State) (bk core asid : Nat) (l : List (Nat × Nat × Nat)) : State :=
  let s := { s with cores := s.cores.map fun c => (c.1, { c.2 with maps := c.2.maps.filter fun m => m.2.block != bk }) }
  ((freeMapKeys s core).zip l).foldl
    (fun s (k, b, n, o) => modCore s core fun c =>
      { c with maps := fset c.maps k { base := b, len := n, off := o, block := bk, asid := asid } }) s

/-- Restore a block's groups on the lowest free slots of its core, each from its record. -/
def restoreGroups (s : State) (core at_ x : Nat) : List Nat → State
  | [] => s
  | g :: t =>
    let slot := freeSlot s core
    let s := modGroup s g fun p => { p.loadRecord (fieldAt x at_ 40960) with core := core, slot := slot }
    restoreGroups s core (at_ + 40960) x t

/-- The pending-fault entry of a Parked group is written again where the group is restored (R437). -/
def renewEntry (s : State) (g : Nat) : State :=
  let run : Option Run := (ffind s.groups g).map (·.th.run)
  match run with
  | some (.parked p) =>
    let a := AgentId.group g
    let p := { p with woken := false }
    modThread (writePft s (envOf s a).sp.part (pftSlot s a) p) a fun th => { th with run := .parked p }
  | _ => s

/-- Restore a block on a core from its area's bytes (R44, R109, R169, R170, R350, R354, R443). -/
def restoreBlock (s : State) (bk core x : Nat) : State :=
  match ffind s.blocks bk with
  | none => s
  | some b =>
    let asid := ((ffind s.regions b.region).map (·.asid)).getD 0
    let old := coreCol s b.core
    let s := takeSegment (settleFusion (reclaim s core b.spmBytes) b.region core) core b.seg
    let s := if coreCol s core = old then s else moveBlock s old bk b.groups
    let s := (b.seg.map (movePins s b.region b.core core)).getD s
    let s := modBlock { s with freeCtr := s.freeCtr + 2 } bk fun y =>
      (Block.settled s { y with core := core }).loadArea x core (freeBlockSlot s core)
    let s := restoreMaps s bk core asid (areaMaps x)
    let grp := 0x64000 + roundUp b.spmBytes 4096 + roundUp (1024 * b.accCount) 4096
    let s := b.groups.foldl (fun s g => modGroup s g fun p => { p with slot := 2 ^ 16 }) s
    let s := settleCore (restoreGroups s core grp x b.groups) b.region core
    let s := wakeBanks s core (((ffind s.blocks bk).map (blockBanks s)).getD [])
    let s := b.groups.foldl renewEntry s
    let s := match b.seg with
      | some n => raiseHigh s core n
      | none => s
    b.groups.foldl recheckStores (sweepStubs s)

end Sys2Proof.Machine
end

