-- ==== Sys2Proof/Machine/Sys.lean ====
section
/-! DEFINITION. System words: calls to the handlers, clocks, work units, arbitration, safe points and the end of a group
(R41, R42, R48, R49, R223, R233 to R238). -/

namespace Sys2Proof.Machine

/-- A trap that the current word takes after it has completed (R235, R236). -/
def trapAfter (s : State) (c : BitVec 8) : Except Exit State := .error (.trap (.of c 0#32) (some (advance s)))

def execSvc (_ : BitVec 12) (s : State) : Out := scalar s [] [] fun s => trapAfter s cSvc
def execBrk (_ : BitVec 12) (s : State) : Out := scalar s [] [] fun s => trapAfter s cBrk

/-- A reading of the timestamp counter: within one count of the package's, and never below an earlier one (R237). -/
def stampNow (s : State) : Nat := max (curThread s).lastTs (s.ns + Config.choice s.freeCtr % 2)

def execTstamp (d : Reg) (s : State) : Out :=
  scalar s [] [d] fun s =>
    let t := stampNow s
    .ok (wr (modCur { s with freeCtr := s.freeCtr + 1 } fun th => { th with lastTs := t }) d (wordOf t))

/-- The cycle counter of an agent's core (R238). -/
def cycleCount (s : State) (a : AgentId) : Nat :=
  match a with
  | .host c _ => ((ffind s.cols c).map (·.hostCyc)).getD 0
  | _ => ((((groupOf a).bind fun g => ffind s.groups g).bind fun g => ffind s.cores g.core).map (·.cyc)).getD 0

def execCyc (d : Reg) (s : State) : Out := scalar s [] [d] fun s => .ok (wr s d (wordOf (cycleCount s s.cur)))

/-! ### Work units (R41, R223) -/

/-- The unit that starts at an iteration, as the two words of R223. -/
def workUnit (k at_ stop : Nat) : Word × Word :=
  let last := min stop ((at_ / k + 1) * k)
  let lo := at_ % k
  let hi := lo + (last - at_)
  (wordOf (at_ / k % 2 ^ 32 + (if lo = 0 ∧ hi = k then 0 else 2 ^ 63)), wordOf (lo + hi * 2 ^ 32))

/-- The distributor's cursor of a group: its block's, or the launch engine's for a traveller (R334). -/
def workCursor (s : State) (r : Region) (g : Group) (first : Nat) : Nat :=
  if r.march.isSome then (ffind r.cursors g.blockId).getD first else ((ffind s.blocks g.block).map (·.cursor)).getD first

/-- Move the distributor's cursor of a group. -/
def setWorkCursor (s : State) (r : Region) (g : Group) (c : Nat) : State :=
  if r.march.isSome then { s with regions := fmod s.regions g.region fun r => { r with cursors := fset r.cursors g.blockId c } }
  else modBlock s g.block fun b => { b with cursor := c }

/-- The next unit of a group's block (R41); the exhausted indication after the last. -/
def nextUnit (s : State) (g : Group) : State × Word × Word :=
  let none_ := (s, BitVec.allOnes 64, 0#64)
  match ffind s.regions g.region with
  | none => none_
  | some r =>
    let k := bitsOf r.record 767 736
    let i := bitsOf r.record 735 704 * k
    let n := bitsOf r.record 351 320
    let stop := workStart i (g.blockId + 1) n
    let at_ := max (workCursor s r g (workStart i g.blockId n)) (workStart i g.blockId n)
    if at_ < stop then
      (setWorkCursor s r g (min stop ((at_ / k + 1) * k)), (workUnit k at_ stop).1, (workUnit k at_ stop).2)
    else none_

def execWkGet (d e : Reg) (s : State) : Out :=
  scalar s [] (if d = e then [] else [d, e]) fun s =>
    (groupOnly s).bind fun _ =>
      if d = e ∧ d ≠ 0#5 then .error (trapOf cIllegalInstr)
      else match curGroup s with
        | none => .error (trapOf cIllegalInstr)
        | some g =>
          let u := nextUnit s g
          .ok (wr (wr u.1 d u.2.1) e u.2.2)

/-! ### Arbitration, safe points, the end of a group -/

def execNop (s : State) : Out := scalar s [] [] .ok

/-- Every promotion of the group's runs is cancelled (R234). -/
def execYieldGroup (s : State) : Out :=
  scalar s [] [] fun s =>
    (groupOnly s).map fun _ => modCurGroup s fun g =>
      { g with task := g.task.map fun t => { t with gangs := t.gangs.map fun x => { x with promoted := false } } }

/-- The scalar half of a safe point; it takes a held fault, and acts as `nop` while a handler runs (R233). -/
def execSafe (m : BitVec 25) (s : State) : Out :=
  scalarJump s [] [] fun s =>
    (groupOnly s).bind fun _ =>
      if (curThread s).inHandler then .ok (advance s)
      else (deliverHeld s fun _ => true).map fun _ => modCur (advance s) fun th => { th with prevSafe := some m }

/-- Faults that a group has taken as traps and not returned from are disposed of with it. -/
def dropDelivered (s : State) (g : Nat) : State :=
  s.irecs.foldl (fun s r =>
    if r.2.op = .cpColl then
      { s with irecs := fset s.irecs r.1 { r.2 with parts := r.2.parts.filter fun p => !(p.group == g && r.2.told.contains g) } }
    else if r.2.who = .grp g ∧ r.2.run = .delivered then releaseRecord s r.1
    else s) s

/-- Records of collective copies whose fault every group of the block has disposed of are free (R48, R325). -/
def freeCollectives (s : State) : State :=
  (s.irecs.filter fun r => r.2.op == .cpColl && r.2.parts.isEmpty && gathered s r.2).foldl (fun s r => releaseRecord s r.1) s

/-- A group enters Done (R49): handlers and chunks go, faults held for it go to the fault domain, and a removed holder that it
leaves last drops its pin (R336). -/
def endGroup (s : State) (g : Nat) : State :=
  let s := modGroup (dropDelivered s g) g fun p =>
    { p with th := { p.th.loseWatch with run := .done, frames := [], prevSafe := none }, task := none, ext := 0 }
  dropPins (freeCollectives (reportOrphans s g)) (((ffind s.groups g).map (·.region)).getD 0)

def execDone (s : State) : Out :=
  scalarJump s [] [] fun s =>
    match s.cur with
    | .host _ _ => trapAfter s cHostDone
    | .group g => (waitTask s).map fun _ => endGroup s g
    | _ => .error (trapOf cIllegalInstr)

end Sys2Proof.Machine
end

