-- ==== Sys2Proof/Machine/Priv.lean ====
section
/-! DEFINITION. Privileged words: returns from handlers, context commands, capabilities and the objects that they guard
(R386 to R390, R398 to R404, R424, R425, R437, R441 to R443). -/

namespace Sys2Proof.Machine

/-! ### Levels (R386, R398 to R401) -/

/-- A privileged word: PRIV_INSTR at kernel level, before anything else (R198, R399). -/
def privileged (s : State) (srcs dsts : List Reg) (body : State → Except Exit State) : Out :=
  if (curThread s).atMonitor then scalar s srcs dsts body else scalarJump s [] [] fun _ => .error (trapOf cPrivInstr)

/-- The issue record that a handler releases (R48): the agent's delivered one of that name. -/
def releaseNamed (s : State) (a : AgentId) (name : BitVec 16) : State :=
  let mine (r : IRec) : Bool :=
    match a with
    | .host c t => r.who == .host c t && r.run == .delivered
    | .group g | .gang g _ => if r.op = .cpColl then r.told.contains g && r.parts.any fun p => p.group == g else r.who == .grp g && r.run == .delivered
    | .seq _ => false
  match s.irecs.find? fun r => mine r.2 && irecName s a r.1 == name with
  | none => s
  | some (k, r) =>
    match r.op, groupOf a with
    | .cpColl, some g => freeCollectives { s with irecs := fset s.irecs k { r with parts := r.parts.filter fun p => p.group != g } }
    | _, _ => releaseRecord s k

/-- Return from a handler to a scalar address (R387, R400): the interrupted level's lane task and `lr` come back. -/
def leaveHandler (s : State) (f : Frame) (rest : List Frame) (pc : Word) : State :=
  let s := modCur s fun th => { th with frames := rest, pc := pc, prevSafe := none }
  modCurGroup s fun p => { p with task := f.task, lr := f.lr }

/-- A misaligned target traps at the transfer, before the handler is left (R177). -/
def execTret (a : Reg) (s : State) : Out :=
  match (curThread s).frames with
  | [] => scalarJump s [] [] fun _ => .error (trapOf cPrivInstr)
  | f :: rest =>
    scalarJump s [a] [] fun s =>
      let t := rd s a
      if t.toNat % 4 ≠ 0 then .error (trapOf cBadTarget)
      else match f.trap with
      | none => if a = 0#5 then .error (trapOf cIllegalInstr) else .ok (leaveHandler s f rest t)
      | some r =>
        let s := if r.irec = 0xFFFF#16 then s else releaseNamed s s.cur r.irec
        .ok (leaveHandler s f rest (if a = 0#5 then r.spc else t))

/-- Whether an asynchronous fault waits for the current agent. -/
def faultPending (s : State) : Bool := s.irecs.any fun r => r.2.ownedBy s.cur && r.2.heldFault.isSome

def execIdle (s : State) : Out :=
  privileged s [] [] fun s => if faultPending s then .ok s else monitorWait s

def execHalt (s : State) : Out :=
  privileged s [] [] fun s =>
    if isHost s.cur then .ok (modCur s fun th => { th with run := .halted }) else .error (trapOf cIllegalInstr)

/-! ### Requests and handles (R389, R390, R399) -/

/-- Rights of capabilities (R389). -/
abbrev rMint : Nat := 0
abbrev rCtx : Nat := 1
abbrev rMap : Nat := 2
abbrev rSeg : Nat := 3
abbrev rTrans : Nat := 4
abbrev rEvq : Nat := 5
abbrev rAct : Nat := 6
abbrev rLaunch : Nat := 7

/-- Index of a handle. -/
def capIndex (h : Nat) : Nat := h % 4096

/-- The entry that a handle names, when it is valid, of the handle's generation, and held by a region or one of its
ancestors (R390). -/
def capOf (s : State) (part rcb h : Nat) : Option Cap :=
  match ffind (partOf s part).caps (capIndex h) with
  | none => none
  | some c =>
    if c.valid && c.gen.toNat == h / 4096 && (rcb :: rcbChain s part rcb 16).contains c.holder.toNat then some c else none

/-- Status of a handle for an instruction (R390, R399): its type, its right and the object it must cover. -/
def capStatus (s : State) (part rcb h type right : Nat) (inside : Cap → Bool) : Nat :=
  match capOf s part rcb h with
  | none => 1
  | some c => if c.type ≠ type then 1 else if !c.rights.getLsbD right then 2 else if inside c then 0 else 3

/-- Whether a region control block lies inside a REGION capability: the object or a descendant of it. -/
def capRegion (s : State) (part rcb : Nat) (c : Cap) : Bool := (rcbChain s part rcb 16).contains c.object.toNat

/-- Whether a number lies inside an ASID or PEER capability. -/
def capRange (n : Nat) (c : Cap) : Bool := decide (c.object.toNat ≤ n) && decide (n < c.object.toNat + c.limit.toNat)

/-- Whether a column lies inside a COLUMNS capability. -/
def capColumn (n : Nat) (c : Cap) : Bool := decide (n < 32) && c.object.getLsbD n

/-- A status as a result. -/
def statusWord (n : Nat) : Word := wordOf n

/-- A privileged operation on a request (R399): the fence, the request, the act, whose accesses are of a kind (R436); a misaligned
request is malformed. -/
def privWord (d a : Reg) (align n kind : Nat) (bad : Word) (act : State → Nat → Except Miss (State × Word)) (s : State) : Out :=
  privileged s [a] [d] fun s =>
    (lift 0 (fullFence s .pkg)).bind fun s =>
      let va := (rd s a).toNat
      if 2 ^ 57 ≤ va then .error (trapOf cBadAddress)
      else if va % align ≠ 0 then .ok (wr s d bad)
      else (lift 0 (loadBytes s s.cur va n)).bind fun r => (lift kind (act r.1 r.2)).map fun t => wr t.1 d t.2

/-- Partition and current region of the issuing agent. -/
def ownPart (s : State) : Nat := (envOf s s.cur).sp.part

/-! ### Capabilities (R403) -/

/-- A failure of `cap.mint` or `cap.drop`. -/
def capFail (n : Nat) : Word := wordOf (2 ^ 63 + n)

/-- Whether a child's object lies inside its parent's (R403). -/
def capInside (s : State) (part : Nat) (c : Cap) (object limit : Nat) : Bool :=
  match c.type with
  | 1 => capRegion s part object c
  | 2 => decide (object < 2 ^ 32) && (BitVec.ofNat 64 object &&& ~~~c.object) == 0#64
  | _ => decide (c.object.toNat ≤ object) && decide (object + limit ≤ c.object.toNat + c.limit.toNat)

/-- Lowest free entry of a partition's store. -/
def freeCap (p : Partition) : Option Nat :=
  (List.range Config.capEntries).find? fun i => 0 < i && ((ffind p.caps i).map fun c => !c.valid).getD true

/-- The step of `cap.mint`. -/
def mintCap (s : State) (x : Nat) : State × Word :=
  let part := ownPart s
  let type := fieldAt x 4 1
  let rights := BitVec.ofNat 16 (fieldAt x 6 2)
  let object := fieldAt x 8 8
  let limit := fieldAt x 0x10 8
  match capOf s part (rcbOf s s.cur) (fieldAt x 0 4) with
  | none => (s, capFail 1)
  | some c =>
    if type ≠ c.type then (s, capFail 1)
    else if !c.rights.getLsbD rMint || rights &&& ~~~c.rights != 0#16 then (s, capFail 2)
    else if !capInside s part c object limit then (s, capFail 3)
    else if fieldAt x 5 1 ≠ 0 ∨ rights.extractLsb' 8 8 ≠ 0#8 then (s, capFail 4)
    else match freeCap (partOf s part) with
      | none => (s, capFail 6)
      | some i =>
        let gen := (((ffind (partOf s part).caps i).map (·.gen)).getD 0#20) + 1#20
        let e : Cap :=
          { valid := true, gen := gen, type := type, rights := rights, object := wordOf object, limit := wordOf limit
            holder := wordOf (fieldAt x 0x18 8), origin := capIndex (fieldAt x 0 4) }
        ({ s with parts := fmod s.parts part fun p => { p with caps := fset p.caps i e } }, wordOf (gen.toNat * 4096 + i))

def execCapMint (d a : Reg) (s : State) : Out := privWord d a 32 32 0 (capFail 4) (fun s x => .ok (mintCap s x)) s

/-- Valid entries minted from a list of entries, transitively, the entries themselves among them. -/
def capTree (caps : FMap Cap) (l : List Nat) : Nat → List Nat
  | 0 => l
  | n + 1 =>
    let more := (caps.filter fun c => c.2.valid && l.contains c.2.origin && !l.contains c.1).map Prod.fst
    if more.isEmpty then l else capTree caps (l ++ more) n

/-- Whether a pending request to stop a block has passed a handle of a list of entries (R399). -/
def capInUse (s : State) (part : Nat) (l : List Nat) : Bool :=
  (fvals s.blocks).any fun b => b.stop.any fun q => q.part == part && l.contains q.cap

/-- The step of `cap.drop` on a handle: it waits for the operations that have passed a handle it revokes (R399). -/
def dropCap (s : State) (h : Nat) : Except Miss (State × Word) :=
  let part := ownPart s
  match (if h < 2 ^ 32 then capOf s part (rcbOf s s.cur) h else none) with
  | none => .ok (s, capFail 1)
  | some _ =>
    let l := capTree (partOf s part).caps [capIndex h] (partOf s part).caps.length
    if capInUse s part l then .error (.wait s)
    else .ok ({ s with parts := fmod s.parts part fun p =>
        { p with caps := p.caps.map fun c => if l.contains c.1 then (c.1, { c.2 with valid := false, gen := c.2.gen + 1#20 }) else c } },
      wordOf l.length)

def execCapDrop (d a : Reg) (s : State) : Out :=
  privileged s [a] [d] fun s =>
    (lift 0 (fullFence s .pkg)).bind fun s => (lift 0 (dropCap s (rd s a).toNat)).map fun r => wr r.1 d r.2

/-! ### Context commands (R402, R424, R425) -/

/-- A context command. -/
structure CtxCmd where
  cap : Nat
  blockId : Nat
  rcb : Nat
  area : Nat
  bytes : Nat
  core : Nat
  group : Nat
  flags : Nat
  resv : Nat
  deriving DecidableEq, Repr

/-- A context command from its 64 bytes. -/
def CtxCmd.of (x : Nat) : CtxCmd :=
  { cap := fieldAt x 0 4, blockId := fieldAt x 4 4, rcb := fieldAt x 8 8, area := fieldAt x 0x10 8, bytes := fieldAt x 0x18 8
    core := fieldAt x 0x20 2, group := fieldAt x 0x22 2, flags := fieldAt x 0x24 4, resv := fieldAt x 0x28 24 }

/-- The region of a partition whose control block is at an address. -/
def regionAt (s : State) (part rcb : Nat) : Option Nat :=
  (s.regions.find? fun r => r.2.part == part && r.2.rcb.toNat == rcb && !r.2.finished).map Prod.fst

/-- The block that a command names. -/
def cmdBlock (s : State) (region n : Nat) : Option (Nat × Block) :=
  s.blocks.find? fun x => x.2.region == region && x.2.run != .retired && blockNumber s x.1 x.2 == n

/-- The traveller that a command names. -/
def cmdTraveller (s : State) (region blockId group : Nat) : Option (Nat × Group) :=
  s.groups.find? fun g => g.2.region == region && g.2.blockId == blockId && g.2.groupId == group &&
    ((ffind s.regions region).bind (·.march)).isSome

/-- Held and reported faults of a group are dropped, and their records released (R402). -/
def dropFaults (s : State) (g : Nat) : State :=
  (groupRecords s g).foldl (fun s k =>
    if (ffind s.irecs k).any fun r => r.heldFault.isSome || r.run == .reported || r.run == .delivered then releaseRecord s k else s) s

/-- DISCARD of one group: it is Done (R402). -/
def discardGroup (s : State) (g : Nat) : State :=
  match ffind s.groups g with
  | none => s
  | some p =>
    let s := dropFaults (freeEntry (dropRequest s g) (.group g)) g
    let s := match p.place, (ffind s.regions p.region).bind (·.march) with
      | .parkedRecord k _, some m =>
        let seg := ((ffind m.held k).map Prod.fst).getD 0
        tellHeld (modMarch s p.region fun m => { m with held := fdel m.held k }) p.region seg
      | _, _ => s
    let s := modGroup s g fun p =>
      { p with place := .resident, task := none, ext := 0
               th := { p.th.loseWatch with run := .done, frames := [], prevSafe := none, sb := [], pending := none, replays := none } }
    dropPins (freeCollectives s) p.region

/-- DISCARD of a block (R402): every group Done, the sequencer at `mend`, faults dropped. -/
def discardBlock (s : State) (bk : Nat) : State :=
  match ffind s.blocks bk with
  | none => s
  | some b =>
    let s := freeEntry s (.seq bk)
    let s := (blockGroups s b).foldl (fun s g => discardGroup s g.1) s
    let s := modBlock s bk fun b =>
      { b with discarded := true, stop := none, xq := [], run := if b.run = .stopping then .running else b.run
               seq := { b.seq with ended := true, run := .running, replays := false } }
    { s with regions := fmod s.regions b.region fun r => { r with discarded := true } }

/-- RETRY of a stuck image (R347, R402): status 7 where no image of the traveller is stuck. -/
def retryImage (s : State) (g : Nat) (p : Group) : State × Nat :=
  match p.place, (ffind s.regions p.region).bind fun r => r.march.map fun m => (r, m) with
  | .stuck seg, some (r, m) =>
    (parkImage s g p r m seg (((chooseHolder s p.region seg m none)).getD 0), 0)
  | _, _ => (s, 7)

/-- Whether another agent's save of a block is pending (R399). -/
def savedByOther (s : State) (b : Block) : Bool := b.stop.any fun q => q.who != (envOf s s.cur).who

/-- DISCARD of a block, or of the whole span set that a rank-0 block names (R402). -/
def discardSet (s : State) (bk : Nat) (b : Block) : State × Nat :=
  let l := spanSet s bk
  if l.head? ≠ some bk then (s, 4)
  else if savedByOther s b then (s, 5)
  else (l.foldl discardBlock s, 0)

/-- A `ctx.save` with FLAGS 0: its request, its wait, and its end (R402, R424, R425). -/
def saveBlock (s : State) (c : CtxCmd) (bk : Nat) (b : Block) : Except Miss (State × Nat) :=
  let me := (envOf s s.cur).who
  let l := spanSet s bk
  let need := (l.filterMap fun k => ffind s.blocks k).foldl (fun n b => max n (areaBytes b)) 0
  let ns := match s.cur with
    | .host h t => ((ffind s.hosts (hostKey h t)).map (·.preemptNs.toNat)).getD 100000
    | _ => 100000
  if !b.resident ∨ b.run = .placed then .ok (s, 7)
  else if l.head? ≠ some bk then .ok (s, 4)
  else if c.bytes / max l.length 1 < need then .ok (s, 6)
  else if savedByOther s b then .ok (s, 5)
  else
    let q := b.stop.getD { who := me, part := ownPart s, cap := capIndex c.cap, at_ := s.ns, ns := ns, area := wordOf c.area, bytes := wordOf c.bytes }
    if q.late s.ns then .ok (withdrawStop s l, 8)
    else if setStoppable s l then (saveSet s s.cur c.area c.bytes l).map fun s => (s, 0)
    else .error (.wait (l.foldl (fun s k => modBlock s k fun b => { b with stop := some q, run := .stopping }) s))

/-- Whether the current agent's own save of the block that a command names is pending: its handle has passed (R399). -/
def savePending (s : State) (part : Nat) (c : CtxCmd) : Bool :=
  ((regionAt s part c.rcb).bind fun r => cmdBlock s r c.blockId).any fun b => b.2.stop.any fun q => q.who == (envOf s s.cur).who

/-- The step of `ctx.save`. -/
def ctxSave (s : State) (x : Nat) : Except Miss (State × Word) :=
  let c := CtxCmd.of x
  let part := ownPart s
  let st := capStatus s part (rcbOf s s.cur) c.cap 1 rCtx (capRegion s part c.rcb)
  match (curThread s).saveResult with
  | some n => .ok (modCur s fun th => { th with saveResult := none }, statusWord n)
  | none =>
    if st ≠ 0 ∧ !savePending s part c then .ok (s, statusWord st)
    else if c.resv ≠ 0 ∨ ¬ [0, 1, 5, 6].contains c.flags ∨ (c.flags = 0 ∧ (c.area % 4096 ≠ 0 ∨ addrKind c.area ≠ .plain)) then .ok (s, statusWord 4)
    else match regionAt s part c.rcb with
      | none => .ok (s, statusWord 7)
      | some r =>
        if 4 ≤ c.flags then
          match cmdTraveller s r c.blockId c.group with
          | none => .ok (s, statusWord 7)
          | some (g, p) =>
            if c.flags = 5 then
              if p.th.run = .done then .ok (s, statusWord 7)
              else .ok ({ discardGroup s g with regions := fmod (discardGroup s g).regions r fun r => { r with discarded := true } }, statusWord 0)
            else let t := retryImage s g p; .ok (t.1, statusWord t.2)
        else match cmdBlock s r c.blockId with
          | none => .ok (s, statusWord 7)
          | some (bk, b) =>
            if c.flags = 1 then let t := discardSet s bk b; .ok (t.1, statusWord t.2)
            else (saveBlock s c bk b).map fun t => (t.1, statusWord t.2)

/-- The black box of the issuer's column records a context command that has ended (R497). -/
def noteCommand (x : Nat) (t : State × Word) : State × Word :=
  (blackBox t.1 (envOf t.1 t.1.cur).col 7 (Config.noUnit % 256) 0xFF (wordOf (fieldAt x 8 8)) 0#64, t.2)

def execCtxSave (d a : Reg) (s : State) : Out :=
  privWord d a 64 64 1 (statusWord 4) (fun s x => (ctxSave s x).map (noteCommand x)) s

/-- Live cores of the columns that a region may use (R391, R415). -/
def regionCores (s : State) (r : Region) : List Nat :=
  (s.cores.filter fun c =>
    (partOf s r.part).cols.contains c.2.col && (r.columns.getLsbD c.2.col)).map Prod.fst

/-- The core of a list that has the fewest resident blocks, lowest first (R416). -/
def leastLoaded (s : State) (l : List Nat) : Option Nat :=
  bestCore (fun c => 1024 - (residentOn s c).length) l

/-- Restore the blocks of a set one after another on their cores, each from its own part of the area. -/
def loadBlocks (s : State) (sp : Space) (area each : Nat) : List (Nat × Nat) → Nat → Except Miss State
  | [], _ => .ok s
  | (bk, core) :: t, i =>
    match ffind s.blocks bk with
    | none => loadBlocks s sp area each t (i + 1)
    | some b =>
      match areaLines s sp (area + each * i) (areaBytes b / 128) with
      | .error m => .error m
      | .ok (s, x) => loadBlocks (restoreBlock s bk core x) sp area each t (i + 1)

/-- Cores for the ranks of a set: columns with the same physical die and quadrant and consecutive places (R418). -/
def spanPlaces (s : State) (l : List Nat) (w : Nat) : List (List Nat) :=
  if w ≤ 1 then l.map fun c => [c]
  else
    let colAt (p : Nat) : List Nat := (s.cols.filter fun c => c.2.phys == p).flatMap fun c => c.2.cores.filter l.contains
    (List.range (32 / w)).flatMap fun k => (List.range w).foldl (fun acc i => acc.flatMap fun x => (colAt (w * k + i)).map fun c => x ++ [c]) [[]]

/-- Whether each of a list of blocks of a region fits on its core with the work resident now, under MAX_BLOCKS and FUSE_L1 as in
any placement (R415, R418). -/
def setFits (s : State) (rk : Nat) (l : List Nat) (cores : List Nat) : Bool :=
  ((ffind s.regions rk).any fun r => roomFor s r l.length && cores.all fun c => fuseFree s rk (recFuse r.record) (coreCol s c)) &&
  (l.zip cores).all fun (bk, c) => (ffind s.blocks bk).any fun b =>
    coreFits s c b.region [b.need] b.seg.isSome && decide ((blockMaps s bk).length ≤ (freeMapKeys s c).length)

/-- Whether the area of each block of a set begins with its header (R402). -/
def headersOk (s : State) (sp : Space) (rcb area each : Nat) : List Nat → Except Miss (State × Bool)
  | [] => .ok (s, true)
  | bk :: t =>
    match areaLines s sp area 1 with
    | .error m => .error m
    | .ok (s, h) =>
      let ok := fieldAt h 0 4 == 1 && (ffind s.blocks bk).any (fun b => fieldAt h 4 4 == blockNumber s bk b) && fieldAt h 8 8 == rcb
      (headersOk s sp rcb (area + each) each t).map fun r => (r.1, ok && r.2)

/-- The step of `ctx.load`. -/
def ctxLoad (s : State) (x : Nat) : Except Miss (State × Word) :=
  let c := CtxCmd.of x
  let part := ownPart s
  let sp := (envOf s s.cur).sp
  let st := capStatus s part (rcbOf s s.cur) c.cap 1 rCtx (capRegion s part c.rcb)
  let own (k : Nat) : Bool := (ffind s.cores k).any fun y => (partOf s part).cols.contains y.col
  if st ≠ 0 then .ok (s, statusWord st)
  else if c.resv ≠ 0 ∨ c.flags ≠ 0 ∨ c.area % 4096 ≠ 0 ∨ addrKind c.area ≠ .plain ∨ (c.core ≠ 0xFFFF ∧ !own c.core) then .ok (s, statusWord 4)
  else match (regionAt s part c.rcb).bind fun r => (cmdBlock s r c.blockId).map fun b => (r, b) with
    | none => .ok (s, statusWord 7)
    | some (rk, bk, b) =>
      let l := spanSet s bk
      let each := c.bytes / max l.length 1
      if b.run ≠ .stopped ∨ b.discarded then .ok (s, statusWord 7)
      else if l.head? ≠ some bk then .ok (s, statusWord 4)
      else if l.any fun k => (ffind s.blocks k).any fun b => decide (each < areaBytes b) then .ok (s, statusWord 6)
      else match headersOk s sp c.rcb c.area each l with
        | .error m => .error m
        | .ok (s, ok) =>
          if !ok then .ok (s, statusWord 7)
          else
            let allowed := ((ffind s.regions rk).map (regionCores s)).getD []
            let cores := if c.core = 0xFFFF then allowed else [c.core]
            let places := if l.length = 1 then cores.map fun k => [k]
              else (spanPlaces s (s.cores.map Prod.fst) l.length).filter fun p => (p.head?.any cores.contains) && (p.drop 1).all allowed.contains
            let fits := places.filter fun p => setFits s rk l p
            match (if l.length = 1 then (leastLoaded s (fits.filterMap List.head?)).map fun k => [k] else fits.head?) with
            | none => .ok (s, statusWord 6)
            | some p =>
              if p.any fun k => (ffind s.cores k).any fun y => !y.gated.isEmpty then
                .error (.wait (p.foldl (fun s k => modCore s k fun y => { y with springs := y.gated }) s))
              else (loadBlocks s sp c.area each (l.zip p) 0).map fun s => (s, statusWord 0)

def execCtxLoad (d a : Reg) (s : State) : Out :=
  privWord d a 64 64 0 (statusWord 4) (fun s x => (ctxLoad s x).map (noteCommand x)) s

/-! ### Invalidation of translations (R437, R441 to R443) -/

/-- Whether a line lies in a range of an ASID. -/
def lineIn (asid lo hi key : Nat) : Bool := lineTag key == asid && decide (lo ≤ lineVa key) && decide (lineVa key < hi)

/-- Deliver every write in flight to the lines that pass a test. -/
def landWrites (s : State) (f : Nat → Bool) : State :=
  s.net.foldl (fun s m => match m.kind with
    | .write line d k from_ by_ who => if f line then landWrite (takeMsg s m.id) m.id line d k from_ by_ who else s
    | _ => s) s

/-- Number of a buffer's oldest stores up to the last one to a line that passes a test. -/
def throughTest (f : SbEntry → Bool) : List SbEntry → Nat
  | [] => 0
  | x :: t =>
    let n := throughTest f t
    if 0 < n then n + 1 else if f x then 1 else 0

/-- Every agent that has a store buffer. -/
def storeAgents (s : State) : List AgentId :=
  s.hosts.map (fun h => AgentId.host (h.1 / 2) (h.1 % 2 == 1)) ++ s.groups.map fun g => .group g.1

/-- Stores that have passed their check for a line of the range leave their buffers (R441, step 2); those that a restore has yet to
check stay (R443). -/
def drainRange (s : State) (f : Nat → Bool) : List AgentId → Except Miss State
  | [] => .ok s
  | a :: t =>
    match drainN s a (throughTest (fun x => f (lineKey x.asid x.va)) ((sbOf s a).takeWhile (·.checked))) with
    | none => .error (.wait s)
    | some s => drainRange s f t

/-- Lines of the range that any cache, slice or home holds. -/
def heldLines (s : State) (f : Nat → Bool) : List Nat :=
  ((s.home.map Prod.fst) ++ (s.copies.map fun (c : Nat × Copy) => c.1 / 1024) ++ (s.priv.map fun (p : Nat × Priv) => p.1 / 32)).eraseDups.filter f

/-- Push, write back and purge one line everywhere (R441, step 3). -/
def purgeLine (s : State) (key : Nat) : State :=
  let s := (s.cols.map Prod.fst).foldl (fun s c => pushNow s (spaceOfLine s key) key c .nobody) s
  evictHome s key

/-- Watches and monitors on lines of a range are gone (R116, R121, R441). -/
def loseLines (s : State) (f : Nat → Bool) : State :=
  modThreads s fun _ _ th =>
    { th with watches := th.watches.filter (fun w => !f w.line)
              monitor := th.monitor.map fun m => if f m.line then { m with fired := true } else m }

/-- The instruction caches of a partition lose the code of a range (R440, R441, step 3). -/
def forgetCode (s : State) (part asid lo hi : Nat) : State :=
  let left (l : List CodeUnit) : List CodeUnit := l.filter fun u => !(u.asid == asid && decide (lo ≤ u.va) && decide (u.va < hi))
  { s with
    cols := s.cols.map fun c => if c.2.part = part then (c.1, { c.2 with icache := left c.2.icache }) else c
    cores := s.cores.map fun c =>
      if ((ffind s.cols c.2.col).map (·.part)) = some part then (c.1, { c.2 with icaches := left c.2.icaches }) else c }

/-- A park that an invalidation covers is woken (R437). -/
def Park.wake (p : Park) (asid lo hi : Nat) : Park :=
  if p.asid = asid ∧ lo ≤ p.va.toNat ∧ p.va.toNat < hi then { p with woken := true } else p

/-- A stream whose park an invalidation covers is woken. -/
def Run.wake (r : Run) (asid lo hi : Nat) : Run :=
  match r with
  | .parked p => .parked (p.wake asid lo hi)
  | r => r

/-- An engine operation whose park an invalidation covers is woken. -/
def EngRun.wake (r : EngRun) (asid lo hi : Nat) : EngRun :=
  match r with
  | .parked p => .parked (p.wake asid lo hi)
  | r => r

/-- Every agent whose park an invalidation covers is woken (R437, R441, step 5). -/
def wakeRange (s : State) (asid lo hi : Nat) : State :=
  { s with
    hosts := s.hosts.map fun h => (h.1, { h.2 with th := { h.2.th with run := h.2.th.run.wake asid lo hi } })
    groups := s.groups.map fun g => (g.1, { g.2 with th := { g.2.th with run := g.2.th.run.wake asid lo hi } })
    blocks := s.blocks.map fun b => (b.1, { b.2 with seq := { b.2.seq with run := b.2.seq.run.wake asid lo hi } })
    irecs := s.irecs.map fun r => (r.1, { r.2 with run := r.2.run.wake asid lo hi })
    cols := s.cols.map fun c => (c.1, { c.2 with launchPark := c.2.launchPark.map fun p => (p.1, p.2.wake asid lo hi) }) }

/-- Prefetch reads of a range lose their fills: their walks are discarded (R442). -/
def dropFills (s : State) (f : Nat → Bool) : State :=
  let lost := s.chans.flatMap fun c => (c.2.tags.map Prod.snd ++ c.2.waiting).filterMap fun r => if f r.line then r.fillFor.map Prod.snd else none
  let cut (r : ChanReq) : ChanReq := if f r.line then { r with fillFor := none } else r
  let s := { s with chans := s.chans.map fun c => (c.1, { c.2 with tags := c.2.tags.map (fun t => (t.1, cut t.2)), waiting := c.2.waiting.map cut }) }
  lost.foldl (fun s w => modWho s w fun th => { th with prefetches := th.prefetches - 1 }) s

/-- What the targets and the columns know of a range's translations is discarded (R441, step 4). -/
def forgetRange (s : State) (asid lo hi : Nat) : State :=
  { s with
    tlb := s.tlb.filter fun e => !(e.asid == asid && decide (e.base < hi) && decide (lo < e.base + e.size))
    aliases := s.aliases.filter fun e => !(e.asid == asid && decide (lo ≤ e.unit * 4096) && decide (e.unit * 4096 < hi))
    cols := s.cols.map fun c => (c.1, { c.2 with perms := c.2.perms.filter fun p =>
      !(p.asid == asid && decide (lo ≤ p.unit * 4096) && decide (p.unit * 4096 < hi)) }) }

/-- The steps of R441. -/
def invalidateRange (s : State) (part asid lo hi : Nat) : Except Miss State :=
  let f := lineIn asid lo hi
  (drainRange s f (storeAgents s)).map fun s =>
    let s := landWrites s f
    let s := forgetCode ((heldLines s f).foldl purgeLine s) part asid lo hi
    wakeRange (forgetRange (loseLines (dropFills s f) f) asid lo hi) asid lo hi

/-- The step of `tlb.inv`. -/
def tlbInv (s : State) (x : Nat) : Except Miss (State × Word) :=
  let part := ownPart s
  let asid := fieldAt x 4 2
  let va := fieldAt x 8 8
  let len := fieldAt x 0x10 8
  let lo := if len = 0 then 0 else va
  let hi := if len = 0 then 2 ^ 57 else va + len
  let st := capStatus s part (rcbOf s s.cur) (fieldAt x 0 4) 3 rTrans (capRange asid)
  if st ≠ 0 then .ok (s, statusWord st)
  else if fieldAt x 6 2 ≠ 0 ∨ fieldAt x 0x18 40 ≠ 0 ∨ va % 4096 ≠ 0 ∨ len % 4096 ≠ 0 ∨ 2 ^ 57 < hi then .ok (s, statusWord 4)
  else if meetsMap s asid lo (hi - lo) || meetsRange s asid lo (hi - lo) || (len != 0 && decide (tableBase < hi)) then .ok (s, statusWord 7)
  else (invalidateRange s part asid lo hi).map fun s => (s, statusWord 0)

def execTlbInv (d a : Reg) (s : State) : Out := privWord d a 64 64 0 (statusWord 4) tlbInv s

/-! ### Homing maps (R100, R102, R404) -/

/-- A homing descriptor from its 16 bytes, and whether it is legal in a partition. -/
def homeDescOf (p : Partition) (x : Nat) : HomeDesc × Bool :=
  let d : HomeDesc := { base := fieldAt x 0 8, granules := fieldAt x 8 4, mode := fieldAt x 0xC 1, column := fieldAt x 0xD 1 }
  (d, decide (d.base % 2 ^ 21 = 0) && decide (1 ≤ d.granules) && decide (d.mode ≤ 2) && (d.mode != 1 || p.cols.contains d.column) &&
    fieldAt x 0xE 2 == 0)

/-- Whether descriptors are sorted and do not overlap. -/
def homingSorted : List HomeDesc → Bool
  | [] | [_] => true
  | a :: b :: t => decide (a.base + a.granules * 2 ^ 21 ≤ b.base) && homingSorted (b :: t)

/-- Read n descriptors with plain loads. -/
def readHoming (s : State) (map : Nat) : Nat → Except Miss (State × List Nat)
  | 0 => .ok (s, [])
  | n + 1 =>
    match readHoming s map n with
    | .error m => .error m
    | .ok (s, l) => (loadBytes s s.cur (map + 16 * n) 16).map fun r => (r.1, l ++ [r.2])

/-- Every region of a partition follows the homing map now in force for it. -/
def followHoming (s : State) (part : Nat) : State :=
  { s with regions := s.regions.map fun r =>
      if r.2.part = part then (r.1, { r.2 with homing := rcbHoming s part r.2.rcb.toNat }) else r }

/-- Control blocks of a partition whose address spaces agents use: the regions', the host threads', the domain region's, the roots of
the launch queues. -/
def rcbsInUse (s : State) (part : Nat) : List Nat :=
  let cols := s.cols.filter fun c => c.2.part == part
  ((s.regions.filter fun r => r.2.part == part).map fun r => r.2.rcb.toNat) ++
  ((s.hosts.filter fun h => cols.any fun c => c.1 == h.1 / 2).map fun h => h.2.curRcb.toNat) ++
  [(partOf s part).domRcb.toNat] ++ cols.flatMap fun c => c.2.queues.map fun q => bitsOf q.2.cfg 56 8 * 256

/-- Tags of the address spaces that use the homing map of a control block (R102). -/
def homingTags (s : State) (part rcb : Nat) : List Nat :=
  (rcbAsid s part rcb :: ((rcbsInUse s part).filter fun r => (rcbChain s part r 16).contains rcb).map (rcbAsid s part) ++
    (s.regions.filter fun r => r.2.part == part && (rcbChain s part r.2.rcb.toNat 16).contains rcb).map fun r => r.2.asid).eraseDups

/-- Put a homing map in force: each granule whose home changes is drained first (R102). -/
def putHoming (s : State) (part rcb : Nat) (new : Option (List HomeDesc)) : Except Miss State :=
  let old := rcbHoming s part rcb
  let now := new.getD (rcbHoming { s with homings := fdel s.homings (homingKey part rcb) } part rcb)
  let tags := homingTags s part rcb
  let f (key : Nat) : Bool := tags.contains (lineTag key) &&
    (homeDesc old (lineVa key)).map (fun (d : HomeDesc) => (d.mode, d.column)) !=
      (homeDesc now (lineVa key)).map (fun (d : HomeDesc) => (d.mode, d.column))
  (drainRange s f (storeAgents s)).map fun s =>
    let s := landWrites s f
    let s := (heldLines s f).foldl purgeLine s
    followHoming { s with homings := match new with
      | some l => fset s.homings (homingKey part rcb) l
      | none => fdel s.homings (homingKey part rcb) } part

/-- The step of `hmt.set`. -/
def hmtSet (s : State) (x : Nat) : Except Miss (State × Word) :=
  let part := ownPart s
  let n := fieldAt x 4 4
  let rcb := fieldAt x 8 8
  let map := fieldAt x 0x10 8
  let st := capStatus s part (rcbOf s s.cur) (fieldAt x 0 4) 1 rMap (capRegion s part rcb)
  if st ≠ 0 then .ok (s, statusWord st)
  else if 256 < n ∨ fieldAt x 0x18 40 ≠ 0 ∨ (n ≠ 0 ∧ addrKind map ≠ .plain) then .ok (s, statusWord 4)
  else match readHoming s map n with
    | .error m => .error m
    | .ok (s, l) =>
      let ds := l.map (homeDescOf (partOf s part))
      if !(ds.all Prod.snd) || !homingSorted (ds.map Prod.fst) then .ok (s, statusWord 4)
      else (putHoming s part rcb (if n = 0 then none else some (ds.map Prod.fst))).map fun s =>
        let s := hwOrdered s (hwSpace s part) (rcb + 0x20) 8 (if n = 0 then 0 else map)
        (hwOrdered s (hwSpace s part) (rcb + 0x28) 2 n, statusWord 0)

def execHmtSet (d a : Reg) (s : State) : Out := privWord d a 64 64 0 (statusWord 4) hmtSet s

/-! ### Segment holders (R333, R335, R336, R404) -/

/-- Holder cores from four 2-byte numbers; none where a named one follows 0xFFFF, one is named twice, or there is none. -/
def holderList (x : Nat) : Option (List Nat) :=
  let l := (List.range 4).map fun i => fieldAt x (2 * i) 2
  let named := l.takeWhile (· != 0xFFFF)
  if (l.drop named.length).all (· == 0xFFFF) && !named.isEmpty && named.eraseDups.length == named.length then some named else none

/-- Whether a core can hold every segment that a list of segments places on it, were it empty (R335). -/
def holderFits (segs : List Segment) (core : Nat) : Bool :=
  needsFit ((segs.filter fun g => g.holders.contains core).map Segment.need) 1

/-- Whether the holders of a list of segments are live cores of a partition that can hold them. -/
def holdersOk (s : State) (part : Nat) (segs : List Segment) : Bool :=
  (segs.flatMap (·.holders)).eraseDups.all fun c =>
    ((ffind s.cores c).any fun x => (partOf s part).cols.contains x.col) && holderFits segs c

/-- Place and start the holder block of a segment on a core, its code pinned (R333, R336). -/
def placeHolder (s : State) (region n core : Nat) (g : Segment) : State :=
  let k := s.nextId
  let s := placeBlock s region n core g.need 0#64 (wordOf g.matrixEntry) (some n)
  let s := pinSegment s region { envOf s s.cur with sp := regionSpace s region } core n
  (startBlock s k).getD s

/-- The step of `seg.map`. -/
def segMap (s : State) (x : Nat) : Except Miss (State × Word) :=
  let part := ownPart s
  let n := fieldAt x 4 2
  let rcb := fieldAt x 8 8
  let st := capStatus s part (rcbOf s s.cur) (fieldAt x 0 4) 1 rSeg (capRegion s part rcb)
  if st ≠ 0 then .ok (s, statusWord st)
  else if fieldAt x 6 2 ≠ 0 ∨ fieldAt x 0x18 40 ≠ 0 then .ok (s, statusWord 4)
  else match (regionAt s part rcb).bind fun r => (ffind s.regions r).bind fun y => y.march.map fun m => (r, m), holderList (x / 2 ^ 128) with
    | some (rk, m), some l =>
      match m.segs[n]? with
      | none => .ok (s, statusWord 4)
      | some g =>
        let g' := { g with holders := l }
        let segs := m.segs.set n g'
        if !holdersOk s part segs then .ok (s, statusWord 4)
        else
          -- A launch that has yet to be placed places its holders by the new map (R333).
          let placed := (ffind s.regions rk).any fun r => r.whole
          let fresh := if placed then l.filter fun c => !g.holders.contains c else []
          if !((ffind s.regions rk).any fun r => roomFor s r fresh.length && fresh.all fun c =>
              coreFits s c rk [g.need] true && fuseFree s rk (recFuse r.record) (coreCol s c)) then .ok (s, statusWord 6)
          else
            let s := modMarch s rk fun m => { m with segs := segs }
            let s := { s with blocks := s.blocks.map fun b =>
              if b.2.region = rk ∧ b.2.seg = some n ∧ !l.contains b.2.core then (b.1, { b.2 with removed := true }) else b }
            let s := fresh.foldl (fun s c => placeHolder s rk n c g') (dropPins s rk)
            let s := hwOrdered s (regionSpace s rk) (m.map + 0x40 + 128 * n + 0x28) 8 (fieldAt x 0x10 8)
            .ok (s, statusWord 0)
    | _, _ => .ok (s, statusWord 4)

def execSegMap (d a : Reg) (s : State) : Out := privWord d a 64 64 0 (statusWord 4) segMap s

/-! ### The access-control table and event queues (R404, R420) -/

/-- The step of `act.set`. -/
def actSet (s : State) (x : Nat) : State × Word :=
  let src := fieldAt x 4 2
  let st := capStatus s (ownPart s) (rcbOf s s.cur) (fieldAt x 0 4) 4 rAct (capRange src)
  if st ≠ 0 then (s, statusWord st)
  else if fieldAt x 6 2 ≠ 0 ∨ fieldAt x 0x28 24 ≠ 0 ∨ 1024 ≤ src then (s, statusWord 4)
  else ({ s with act := fset s.act src (BitVec.ofNat 256 (fieldAt x 8 32)) }, statusWord 0)

def execActSet (d a : Reg) (s : State) : Out := privWord d a 64 64 0 (statusWord 4) (fun s x => .ok (actSet s x)) s

/-- Whether a header may be installed (R124). -/
def headerOk (s : State) (part hdr : Nat) : Bool :=
  decide (hdr % 64 = 0) && addrKind hdr == .plain && (readHdr s (hwSpace s part) hdr).any fun q => q.ok 32

/-- The step of `evq.set`: records dropped before set OVF in the new header. -/
def evqSet (s : State) (x : Nat) : State × Word :=
  let part := ownPart s
  let col := fieldAt x 4 1
  let hdr := fieldAt x 8 8
  let st := capStatus s part (rcbOf s s.cur) (fieldAt x 0 4) 2 rEvq (capColumn col)
  if st ≠ 0 then (s, statusWord st)
  else if fieldAt x 5 3 ≠ 0 ∨ fieldAt x 0x10 48 ≠ 0 ∨ !(partOf s part).cols.contains col ∨ (hdr ≠ 0 ∧ !headerOk s part hdr) then (s, statusWord 4)
  else
    let lost := ((ffind s.cols col).map (·.evqDropped)).getD false
    let s := { s with cols := fmod s.cols col fun c =>
      { c with evq := wordOf hdr, evqDropped := if hdr = 0 then c.evqDropped else false } }
    let fl := ((readHdr s (hwSpace s part) hdr).map (·.flags)).getD 0
    (if lost && hdr != 0 then hwOrdered s (hwSpace s part) (hdr + 0x19) 1 (fl / 2 * 2 + 1) else s, statusWord 0)

def execEvqSet (d a : Reg) (s : State) : Out := privWord d a 64 64 0 (statusWord 4) (fun s x => .ok (evqSet s x)) s

end Sys2Proof.Machine
end

