-- ==== Sys2Proof/Machine/Launch.lean ====
section
/-! DEFINITION. Launch queues: posts, the reading and the checks of launch records, acceptance and refusal (R25, R332,
R335, R390, R391, R405 to R414, R419 to R421, R436, R437, R439). -/

namespace Sys2Proof.Machine

/-! ### Posts (R406, R420) -/

/-- A post reaches the slice of its queue; nothing says that it is, or follows, a release (R171). -/
def execLaunchPost (col q : Nat) (v : Word) (s : State) : Out :=
  .next (if v = 0#64 then s else postTo s col q v (.store v none [] col) .nobody)

/-- A launch packet of another package: the link's response status tells its sender what became of it (R419 to R421). -/
def execPeerLaunchPacket (p : LaunchPacket) (s : State) : Out :=
  let r := admitPacket s p .nobody
  .next { r.1 with reply := some { source := packetSource p.src.toNat, seq := p.seq.toNat, answer := r.2 } }

/-- Apply a function to a launch queue of a column. -/
def modQueue (s : State) (col q : Nat) (f : LaunchQueue → LaunchQueue) : State :=
  { s with cols := fmod s.cols col fun c => { c with queues := fset c.queues q (f ((ffind c.queues q).getD .reset)) } }

/-- A launch queue of a column. -/
def queueAt (s : State) (col q : Nat) : LaunchQueue := ((ffind s.cols col).bind fun c => ffind c.queues q).getD .reset

/-- The head entry of a FIFO is freed: the next post is the head, and the oldest held post is performed. -/
def popPost (s : State) (col q : Nat) : State :=
  let l := queueAt s col q
  let rest := match l.fifo.drop 1 with
    | [] => []
    | p :: t => { p with headAt := s.ns, cfg := some l.cfg } :: t
  match l.heldPosts with
  | [] => modQueue s col q fun l => { l with fifo := rest }
  | (p, w) :: held =>
    let now := { p with headAt := s.ns, cfg := if rest.isEmpty then some l.cfg else none }
    sendAck (modQueue s col q fun l =>
      { l with fifo := rest ++ [now], heldPosts := held, post := if now.packet.isSome then l.post else now.post }) w false

/-! ### Launch records (R25) -/

abbrev recGroups (r : BitVec 2048) : Nat := recNat r 0x2C 2
abbrev recSpan (r : BitVec 2048) : Nat := bitsOf r 37 36
abbrev recCores (r : BitVec 2048) : Bool := r.getLsbD 32
abbrev recOverlap (r : BitVec 2048) : Bool := r.getLsbD 33
abbrev recMarch (r : BitVec 2048) : Bool := r.getLsbD 34
abbrev recPrio (r : BitVec 2048) : Nat := bitsOf r 43 40
abbrev recParent (r : BitVec 2048) : Nat := recNat r 0x08 8
abbrev recEntry (r : BitVec 2048) : Nat := recNat r 0x10 8
abbrev recMap (r : BitVec 2048) : Nat := recNat r 0x48 8
abbrev recStamp (r : BitVec 2048) : Nat := recNat r 0x50 8
abbrev recMask (r : BitVec 2048) : Nat := recNat r 0x60 4

/-- VERSION and the reserved bits and bytes of a record. -/
def recVersionOk (r : BitVec 2048) : Bool :=
  recNat r 0 4 == 1 && bitsOf r 39 38 == 0 && bitsOf r 63 44 == 0 && recNat r 0x64 28 == 0

/-- Limits of a block's resources (R25). -/
def Need.inLimits (n : Need) : Bool :=
  decide (n.chunks ≤ Config.extPool) && n.spm % 128 == 0 && decide (n.spm ≤ Config.spmMax) && decide (n.bars ≤ Config.barriers) &&
  decide (n.tids ≤ Config.tids) && decide (n.acc ≤ Config.accRows)

/-- The limits of R25, but for those of a segment map. -/
def recLimitsOk (r : BitVec 2048) : Bool :=
  recSpan r != 3 && recEntry r % 4 == 0 && recNat r 0x18 8 % 16 == 0 && recNat r 0x20 8 % 8 == 0 && recBlocks r != 0 &&
  recBlocks r % 2 ^ recSpan r == 0 && decide (1 ≤ recGroups r) && decide (recGroups r ≤ Config.groupsPerBlock) &&
  (recNeed r).inLimits && recStamp r % 8 == 0 && (recMarch r || recMap r == 0)

/-- What R332 asks of a MARCH record beside its map. -/
def recMarchOk (r : BitVec 2048) : Bool :=
  recMap r != 0 && recSpan r == 0 && recNat r 0x2E 2 == 0 && recNat r 0x30 4 == 0 && recNat r 0x34 1 == 0 && recNat r 0x35 1 == 0 &&
  recNat r 0x36 2 == 0 && recNat r 0x20 8 == 0

/-! ### Segment maps (R335) -/

/-- A segment entry from its 128 bytes; none where the entry alone is invalid. -/
def segmentOf (x : Nat) : Option Segment :=
  let f := fieldAt x
  match holderList (f 0x28 8) with
  | none => none
  | some l =>
    let g : Segment :=
      { scalarLo := f 0 8, scalarHi := f 8 8, matrixLo := f 0x10 8, matrixHi := f 0x18 8, laneLo := f 0x20 4, laneHi := f 0x24 4
        holders := l, entryOnly := f 0x30 2 % 2 == 1, chunks := f 0x32 2, spmBytes := f 0x34 4, barCount := f 0x38 1
        tidCount := f 0x39 1, accCount := f 0x3A 2, entry := f 0x40 8, matrixEntry := f 0x48 8, tidTable := f 0x50 8 }
    if f 0x30 2 < 2 ∧ f 0x3C 4 = 0 ∧ f 0x58 40 = 0 ∧ g.scalarLo % 4 = 0 ∧ g.scalarLo < g.scalarHi ∧ g.matrixLo % 8 = 0 ∧
        g.matrixLo ≤ g.matrixHi ∧ g.laneLo ≤ g.laneHi ∧ g.need.inLimits = true ∧ g.scalarLo ≤ g.entry ∧ g.entry < g.scalarHi ∧
        (g.matrixEntry = 0 ∨ (g.matrixEntry % 8 = 0 ∧ g.matrixLo ≤ g.matrixEntry ∧ g.matrixEntry < g.matrixHi)) then some g
    else none

/-- The first n entries of a map. -/
def readSegments (s : State) (sp : Space) (map : Nat) : Nat → Option (List Segment)
  | 0 => some []
  | n + 1 =>
    match readSegments s sp map n, (hwNat s sp (map + 0x40 + 128 * n) 128).bind segmentOf with
    | some l, some g => some (l ++ [g])
    | _, _ => none

/-- Whether ranges overlap nowhere; an empty one overlaps nothing. -/
def rangesApart : List (Nat × Nat) → Bool
  | [] => true
  | (lo, hi) :: t => (t.all fun x => decide (hi ≤ lo) || decide (x.2 ≤ x.1) || decide (hi ≤ x.1) || decide (x.2 ≤ lo)) && rangesApart t

/-- A segment map that R335 accepts. -/
def readMap (s : State) (sp : Space) (map : Nat) : Option March :=
  match hwNat s sp map 64 with
  | none => none
  | some h =>
    let n := fieldAt h 0 2
    if map % 64 ≠ 0 ∨ n = 0 ∨ 256 < n ∨ fieldAt h 2 6 ≠ 0 ∨ fieldAt h 8 8 % 8192 ≠ 0 ∨ 65536 < fieldAt h 0x10 4 ∨ fieldAt h 0x14 4 ≠ 0 ∨
        fieldAt h 0x20 32 ≠ 0 then none
    else match readSegments s sp map n with
      | none => none
      | some l =>
        if rangesApart (l.map fun g => (g.scalarLo, g.scalarHi)) && rangesApart (l.map fun g => (g.matrixLo, g.matrixHi)) &&
            rangesApart (l.map fun g => (g.laneLo, g.laneHi)) && holdersOk s sp.part l then
          some { map := map, parkBase := fieldAt h 8 8, parkCount := fieldAt h 0x10 4, segs := l, held := [], born := 0, pinned := []
                 known := [] }
        else none

/-! ### The parent (R391) -/

/-- Space of the regions launched under a parent. -/
def parentSpace (s : State) (part parent : Nat) : Space :=
  { part := part, tag := rcbAsid s part parent, homing := rcbHoming s part parent }

/-- Mask of a partition's columns. -/
def partMask (s : State) (part : Nat) : Nat := ((partOf s part).cols.foldl (fun m c => m + 2 ^ c) 0)

/-- Effective COLUMNS of a parent; the default is the partition. -/
def parentColumns (s : State) (part parent : Nat) : Nat :=
  match rcbEffective s part parent 0x54 4 with
  | 0 => partMask s part
  | m => m

/-- Columns that a record's launch may use (R415). -/
def launchColumns (s : State) (part : Nat) (r : BitVec 2048) : BitVec 32 :=
  let eff := parentColumns s part (recParent r)
  BitVec.ofNat 32 ((if recMask r = 0 then partMask s part else recMask r) &&& eff)

/-- Lowest free slot of a child pool from slot k on. -/
def firstChild (s : State) (part pool : Nat) (k : Nat) : Nat → Option Nat
  | 0 => none
  | n + 1 =>
    if hwNat s (hwSpace s part) (pool + 256 * k) 8 = some 0 then some (pool + 256 * k) else firstChild s part pool (k + 1) n

/-- The child slot that a launch takes. -/
def childSlot (s : State) (part parent : Nat) : Option Nat :=
  let n := rcbSource s part parent 0x48 8
  if n = 0 then none
  else firstChild s part (rcbField s part n 0x48 8) 0 (rcbField s part n 0x50 4)

/-- Control blocks of a chain with an effective MAX_BLOCKS, and their limits (R415). -/
def blockLimits (s : State) (part : Nat) (chain : List Nat) : List (Nat × Nat) :=
  (chain.map fun n => (n, rcbEffective s part n 0x2C 4)).filter fun x => x.2 != 0

/-- The check of reason 6 (R390, R409, R439). -/
def launchAllowed (s : State) (part col : Nat) (r : BitVec 2048) : Bool :=
  let parent := recParent r
  let want := 2 ^ col ||| recMask r
  let inside (m : Nat) : Bool := want &&& m == want
  let asid := rcbAsid s part parent
  let p := partOf s part
  capStatus s part parent (rcbEffective s part parent 0x1C 4) 2 rLaunch (fun c => inside (c.object.toNat % 2 ^ 32)) == 0 &&
  inside (parentColumns s part parent) && decide (p.asidLo ≤ asid) && decide (asid < p.asidLo + p.asidCount)

/-! ### Choices of cores (R415 to R418) -/

/-- What the placement of a launch asks: its region's number (none has it before acceptance), the needs of each block, the
width of its span sets, FUSE_L1, and the allowed cores. -/
structure Ask where
  region : Nat
  need : Need
  width : Nat
  fuse : Bool
  cores : List Nat
  deriving DecidableEq, Repr

/-- Live cores of a list of columns. -/
def coresOf (s : State) (part : Nat) (cols : BitVec 32) : List Nat :=
  (s.cores.filter fun c => (partOf s part).cols.contains c.2.col && cols.getLsbD c.2.col).map Prod.fst

/-- Whether k more blocks of a launch may go to a core. -/
def Ask.fits (a : Ask) (s : State) (spare : Nat → List Need → Bool) (c k : Nat) : Bool :=
  let l := List.replicate k a.need
  coreFits s c a.region l false && fuseFree s a.region a.fuse (coreCol s c) && spare c l

/-- Cores of the next block or span set, beside those picked already (R416, R418). -/
def pickSet (s : State) (a : Ask) (spare : Nat → List Need → Bool) (picked : List Nat) : Option (List Nat) :=
  let ok (c : Nat) : Bool := a.fits s spare c (picked.count c + 1)
  if a.width ≤ 1 then
    (bestCore (fun c => 4096 - (residentOn s c).length - picked.count c) (a.cores.filter ok)).map fun c => [c]
  else (spanPlaces s a.cores a.width).find? fun p => p.all ok

/-- Cores of n sets at once. -/
def pickSets (s : State) (a : Ask) (spare : Nat → List Need → Bool) : Nat → Option (List Nat)
  | 0 => some []
  | n + 1 =>
    match pickSets s a spare n with
    | none => none
    | some l => (pickSet s a spare l).map fun p => l ++ p

/-- Cores of a whole launch; there is never room for more blocks than all cores hold. -/
def pickAll (s : State) (a : Ask) (spare : Nat → List Need → Bool) (blocks : Nat) : Option (List Nat) :=
  if Config.blocksPerCore * s.cores.length < blocks then none else pickSets s a spare (blocks / max a.width 1)

/-- No claim. -/
def allSpare (_ : Nat) (_ : List Need) : Bool := true

/-- Holder blocks of a map: core, segment. -/
def marchHolders (m : March) : List (Nat × Nat) := m.segs.zipIdx.flatMap fun (g, n) => g.holders.map fun c => (c, n)

/-- Whether a launch that is placed all or nothing, or in span sets, can ever be placed (R409, reason 9). -/
def everFits (s : State) (part : Nat) (r : BitVec 2048) (m : Option March) : Bool :=
  let limits := blockLimits s part (rcbChain s part (recParent r) 16)
  let a : Ask :=
    { region := s.nextId, need := recNeed r, width := 2 ^ recSpan r, fuse := recFuse r
      cores := coresOf s part (launchColumns s part r) }
  let empty := { s with blocks := [] }
  match m with
  | some m => limits.all fun x => decide ((marchHolders m).length ≤ x.2)
  | none =>
    if recCores r then (limits.all fun x => decide (recBlocks r ≤ x.2)) && (pickAll empty a allSpare (recBlocks r)).isSome
    else recSpan r == 0 || ((limits.all fun x => decide (a.width ≤ x.2)) && (pickSet empty a allSpare []).isSome)

/-! ### Acceptance (R409, R410) -/

/-- The reason that refuses a launch, 0 where there is none; the map of a MARCH record; the child slot. -/
def launchReason (s : State) (part col : Nat) (cfg : Word) (p : Post) (rc : Option (BitVec 2048)) : Nat × Option March × Nat :=
  if !cfg.getLsbD 0 then (1, none, 0)
  else match rc with
    | none => (3, none, 0)
    | some r =>
      let parent := recParent r
      let chain := rcbChain s part parent 16
      let map := if recMarch r then readMap s (parentSpace s part parent) (recMap r) else none
      let prioMax := match rcbEffective s part parent 0x1A 1 with
        | 0 => 16
        | n => n
      if !recVersionOk r then (2, none, 0)
      else if p.badPacket || (p.packet.isNone && bitsOf p.post 6 1 != 0) then (3, none, 0)
      else if !recLimitsOk r || (recMarch r && !(recMarchOk r && map.any fun m => (segmentAt m (recEntry r)).isSome)) then (4, none, 0)
      else if 15 < chain.length || !chain.contains (bitsOf cfg 56 8 * 256) then (5, none, 0)
      else if !launchAllowed s part col r then (6, none, 0)
      else if prioMax ≤ recPrio r then (7, none, 0)
      else match childSlot s part parent with
        | none => (8, none, 0)
        | some slot => if everFits s part r map then (0, map, slot) else (9, none, 0)

/-- The launch engine of a column writes a completion stamp (R410): in memory, or in a domain region, here or at another package (R472);
an address of another kind is none that it can write, and gets nothing (DESIGN CHOICE, log 140). -/
def writeStamp (s : State) (col : Nat) (sp : Space) (va status reason : Nat) : State :=
  let v := status * 2 ^ 62 + reason * 2 ^ 56 + s.ns % 2 ^ 56
  if va = 0 ∨ va % 8 ≠ 0 then s
  else match addrKind va with
    | .plain => hwWrite s sp va 8 v .nobody
    | .domain pkg k o =>
      if pkg = s.pkg.domain then
        match domainAt s k o 8 with
        | some d => hwWrite s d o 8 v .nobody
        | none => s
      else sendRemote s .nobody col va true false (wordOf v) 8
    | _ => s

/-- A count that saturates (R407). -/
def satCount (w : Word) : Word := if w = BitVec.allOnes 64 then w else w + 1#64

/-- LQ_CFG under which a queue's head launch is considered: what it was when the launch reached the head (R408). -/
def headCfg (l : LaunchQueue) : Word := (l.fifo.head?.bind (·.cfg)).getD l.cfg

/-- Refuse the head launch; its stamp is written in the address space of the queue's root. -/
def refuseLaunch (s : State) (part col q reason : Nat) (rc : Option (BitVec 2048)) : State :=
  let root := bitsOf (headCfg (queueAt s col q)) 56 8 * 256
  let s := modQueue s col q fun l => { l with refused := satCount l.refused, lastReason := reason }
  let s := blackBox s col 6 (Config.noUnit % 256) 0xFF (wordOf ((rc.map recParent).getD 0)) 0#64
  popPost (match rc with
    | some r => writeStamp s col (parentSpace s part root) (recStamp r) 2 reason
    | none => s) col q

/-- Accept the head launch: its child slot, its region with the snapshot, and the count (R25, R391). -/
def acceptLaunch (s : State) (part col q : Nat) (cfg : Word) (p : Post) (r : BitVec 2048) (m : Option March) (slot : Nat) : State :=
  let parent := recParent r
  let chain := rcbChain s part parent 16
  let sp := parentSpace s part parent
  let g : Region :=
    { rcb := wordOf slot, part := part, asid := sp.tag, col := col, queue := q, record := r, prio := recPrio r, headAt := p.headAt
      qprio := bitsOf cfg 7 4, waiting := false, chain := slot :: chain, limits := blockLimits s part chain
      vecTable := rcbEffective s part parent 0x08 8, notify := rcbEffective s part parent 0x30 8
      columns := launchColumns s part r, homing := sp.homing, placed := 0, retired := 0, march := m, cursors := [], discarded := false
      marker := false, await := [], finished := false }
  let s := hwOrdered s (hwSpace s part) slot 256 (parent + recMap r * 2 ^ (8 * 0x40))
  let k := s.nextId
  let s := { s with regions := fset s.regions k g, homings := fdel s.homings (homingKey part slot), nextId := k + 1 }
  let s := modQueue s col q fun l => { l with accepted := satCount l.accepted, regions := l.regions ++ [k] }
  popPost (blackBox s col 5 (Config.noUnit % 256) 0xFF (wordOf slot) 0#64) col q

/-- Whether the order of its queue and BARRIER keep the head launch waiting (R412, R414). -/
def launchHeld (s : State) (col : Nat) (l : LaunchQueue) (p : Post) (r : BitVec 2048) : Bool :=
  (p.barrier && (fvals s.regions).any fun g => g.col == col && !g.finished) ||
  (if recOverlap r then l.regions.any fun k => (ffind s.regions k).any fun g => !g.whole else !l.regions.isEmpty)

/-- Whether the instance of a release by an agent of a column contains the agent and the slice of a line homed in a column (R150,
R171). -/
def releaseReaches (s : State) (launcher home : Nat) : Scope → Bool
  | .grp | .blk => false
  | .col => launcher == home
  | .die => colDie s launcher == colDie s home
  | _ => true

/-- Whether a post makes a line homed in a column visible to the launch engine (R171). -/
def Post.shows (p : Post) (s : State) (key home : Nat) : Bool :=
  p.rel.any (releaseReaches s p.launcher home) || p.fences.any fun f => releaseReaches s p.launcher home f.1 && !f.2.contains key

/-- Bytes of a line chosen one by one among three (R171). -/
def mixBytes (c : Nat) (a b d : LineData) : Nat :=
  natOfBytes ((List.range 128).map fun i =>
    byteAt (match Config.choice (c + i) % 3 with
      | 0 => a
      | 1 => b
      | _ => d) i)

/-- A line of a record as the launch engine reads it at its home; of one that the post does not show, each byte is any of what the
line's home, its backing memory and the launcher's slice hold, the values of its location that the machine still has (R171;
DESIGN CHOICE, log 107). -/
def recordLine (s : State) (sp : Space) (p : Post) (va : Nat) : Except Miss (State × Nat) :=
  let key := sp.key va
  match denied sp va (readHome s sp key) with
  | .error m => .error m
  | .ok (s, h) =>
    if p.shows s key h.col then .ok (s, h.data.toNat)
    else
      let old := match lineCell s sp.part key h.cxl with
        | .ok (_, cell, _) => Memory.readLine s.mem cell
        | .error _ => h.data
      let new := match privAt s key p.launcher with
        | some d => mergeLine h.data d.data d.mask
        | none => h.data
      .ok ({ s with freeCtr := s.freeCtr + 128 }, mixBytes s.freeCtr h.data old new)

/-- The record of a post, read at its home in the address space of the queue's root; none where its address can hold
none. -/
def readRecord (s : State) (part root : Nat) (p : Post) : Except Miss (State × Option (BitVec 2048)) :=
  match p.packet with
  | some r => .ok (s, some r)
  | none =>
    let va := p.post.toNat / 128 * 128
    let sp := parentSpace s part root
    if addrKind va = .plain then
      match recordLine s sp p va with
      | .error m => .error m
      | .ok (s, x) => (recordLine s sp p (va + 128)).map fun r => (r.1, some (BitVec.ofNat 2048 (x + r.2 * 2 ^ 1024)))
    else .ok (s, none)

/-- The record of a head launch: what the engine has read of it, or reads now (R409, R412). -/
def headRecord (s : State) (part root : Nat) (p : Post) : Except Miss (State × Option (BitVec 2048)) :=
  match p.record with
  | some r => .ok (s, some r)
  | none => readRecord s part root p

/-- The engine keeps the record that it has read of a head launch (R409, R412). -/
def keepRecord (s : State) (col q : Nat) (r : BitVec 2048) : State :=
  modQueue s col q fun l => { l with fifo := match l.fifo with
      | [] => []
      | p :: t => { p with record := some r } :: t }

/-- The launch engine's pending-fault slot (R436). -/
def launchSlotOf (col : Nat) : Nat × Nat := (64 + col, 2)

/-- The launch engine stops or goes on being parked. -/
def setLaunchPark (s : State) (col : Nat) (p : Option (Nat × Park)) : State :=
  { s with cols := fmod s.cols col fun c => { c with launchPark := p } }

/-- The head launch of a queue is read, and held, accepted or refused: a record whose translation is missing or whose line is poisoned
parks the engine, one that no wake can make readable is refused at once (R409, R433, R435, R436). -/
def considerHead (s : State) (part col q : Nat) (l : LaunchQueue) (p : Post) : State :=
  let cfg := p.cfg.getD l.cfg
  let free (t : State) : State :=
    if ((ffind s.cols col).bind (·.launchPark)).isSome then setLaunchPark (freePft t part (launchSlotOf col)) col none else t
  match headRecord s part (bitsOf cfg 56 8 * 256) p with
  | .error (.deny .malformed _ _) | .error (.deny .conflict _ _) | .error (.deny .prot _ _) | .error (.trap _) =>
    refuseLaunch (free s) part col q (launchReason s part col cfg p none).1 none
  | .error (.wait _) => s
  | .error (.deny d tag va) =>
    let park : Park :=
      { state := if d = .poisoned then 2 else 1, asid := tag, lanes := 0#32, va := wordOf va, kind := 0, woken := false }
    announcePark (setLaunchPark s col (some (q, park))) { part := part, tag := tag, homing := [] } col (launchSlotOf col) park
  | .ok (t, rc) =>
    let t := free t
    match rc with
    | some r =>
      if launchHeld t col l p r then keepRecord t col q r
      else
        match launchReason t part col cfg p rc with
        | (0, m, slot) => acceptLaunch t part col q cfg p r m slot
        | (n, _, _) => refuseLaunch t part col q n rc
    | none => refuseLaunch t part col q (launchReason t part col cfg p none).1 none

/-- One turn of a column's launch engine at the head of a queue. -/
def execLaunchAccept (col q : Nat) (s : State) : Out :=
  .next (match ffind s.cols col with
    | none => s
    | some c =>
      let l := queueAt s col q
      match l.fifo with
      | [] => s
      | p :: _ =>
        match c.launchPark with
        | none => considerHead s c.part col q l p
        | some (k, w) =>
          if k ≠ q ∨ !w.woken then s
          else if pftDispose s c.part (launchSlotOf col) then
            refuseLaunch (setLaunchPark (freePft s c.part (launchSlotOf col)) col none) c.part col q 3 none
          else considerHead s c.part col q l p)

/-! ### The head launches (R413) -/

/-- The launch of a queue that is accepted and not wholly placed. -/
def headRegion (s : State) (l : LaunchQueue) : Option (Nat × Region) :=
  l.regions.findSome? fun k => (ffind s.regions k).bind fun r => if r.whole then none else some (k, r)

/-- A head launch that has waited 1,000,000 counts takes queue priority 15. -/
def execLaunchAgePromotion (col q : Nat) (s : State) : Out :=
  .next (match headRegion s (queueAt s col q) with
    | none => s
    | some (k, r) => if r.headAt + 1000000 ≤ s.ns then { s with regions := fset s.regions k { r with qprio := 15 } } else s)

/-- Queue priority that a head launch counts as. -/
def Region.headPrio (r : Region) (now : Nat) : Nat := if r.headAt + 1000000 ≤ now then 15 else r.qprio

/-- Head launches of a column in the order of their turn: by priority, then after the queue served last. -/
def headOrder (s : State) (c : Column) : List (Nat × Nat × Region) :=
  let turn := (List.range 8).filterMap fun i =>
    let q := (c.served + 1 + i) % 8
    (headRegion s ((ffind c.queues q).getD .reset)).map fun (k, r) => (q, k, r)
  (List.range 16).reverse.flatMap fun p => turn.filter fun (_, _, r) => r.headPrio s.ns == p

end Sys2Proof.Machine
end

