-- ==== Sys2Proof/Machine/Birth.lean ====
section
/-! DEFINITION. The life of blocks and regions: placement, start, birth of travellers, retirement, and the end of
pre-emption requests (R27, R28, R49, R50, R106, R170, R333, R334, R410 to R418, R424, R425). -/

namespace Sys2Proof.Machine

/-! ### Claims (R417) -/

/-- What a launch asks. -/
def Region.ask (r : Region) (s : State) (k : Nat) : Ask :=
  { region := k, need := recNeed r.record, width := spanWidth r, fuse := recFuse r.record, cores := coresOf s r.part r.columns }

/-- Needs of a March region's holder blocks on a core. -/
def marchNeeds (m : March) (core : Nat) : List Need :=
  ((marchHolders m).filter fun h => h.1 == core).filterMap fun h => (m.segs[h.2]?).map Segment.need

/-- The same, with the slots that the region reserves on the core counted in the first one (R415). -/
def reserving : List Need → List Need
  | [] => []
  | n :: t => { n with groups := Config.arrivalSlots } :: t

/-- The waiting all-or-nothing launch of a partition whose post reached its head first. -/
def claimant (s : State) (part : Nat) : Option (Nat × Region) :=
  (s.regions.filter fun r => r.2.part == part && r.2.waiting).foldl
    (fun best r => match best with
      | some b => if r.2.headAt < b.2.headAt then some r else best
      | none => some r) none

/-- The chosen placement of a launch that is not a March launch: its cores in the order of its blocks. -/
def chosenCores (s : State) (k : Nat) (r : Region) : List Nat :=
  (pickAll { s with blocks := [] } (r.ask s k) allSpare (recBlocks r.record)).getD []

/-- What the chosen placement of a launch needs on a core. -/
def chosenNeeds (s : State) (k : Nat) (r : Region) (core : Nat) : List Need :=
  match r.march with
  | some m => reserving (marchNeeds m core)
  | none => List.replicate ((chosenCores s k r).count core) (recNeed r.record)

/-- Columns that the chosen placement of a FUSE_L1 launch takes whole. -/
def chosenFused (s : State) (k : Nat) (r : Region) (col : Nat) : Bool :=
  recFuse r.record && fusable s col && s.cores.any fun c => c.2.col == col && !(chosenNeeds s k r c.1).isEmpty

/-- Whether new blocks on a core leave a claim alone: of each resource they take none, or leave what is claimed, beside the blocks
resident and the group slots that March regions reserve. -/
def leavesClaim (l : List Need) (slots : Nat) (new claim : List Need) : Bool :=
  let ok (f : Need → Nat) (most : Nat) : Bool := sumOf new f == 0 || decide (sumOf l f + sumOf new f + sumOf claim f ≤ most)
  claim.isEmpty ||
    (decide (l.length + new.length + claim.length ≤ Config.blocksPerCore) && ok (·.groups) (Config.groupsPerCore - slots) &&
      ok (·.chunks) Config.extPool && ok (·.spm) Config.spmMax && ok (·.bars) Config.barriers && ok (·.tids) Config.tids &&
      ok (·.acc) Config.accRows && ok (·.code) Config.istore)

/-- Whether new blocks of a region on a core leave the claims of its partition alone. -/
def spare (s : State) (k : Nat) (r : Region) (core : Nat) (new : List Need) : Bool :=
  match claimant s r.part with
  | none => true
  | some (j, c) =>
    let l := residentOn s core
    let slots := Config.arrivalSlots * (holderRegions l).length
    j == k || (!chosenFused s j c (coreCol s core) && leavesClaim (l.map Block.need) slots new (chosenNeeds s j c core))

/-! ### Placement (R412 to R418) -/

/-- Place the next blocks of a region, one on each core of a list. -/
def placeOn (s : State) (k : Nat) (r : Region) : List Nat → State
  | [] => s
  | c :: t =>
    let id := ((ffind s.regions k).map (·.placed)).getD 0
    let s := placeBlock s k id c (recNeed r.record) (wordOf (recEntry r.record)) (wordOf (recNat r.record 0x20 8)) none
    placeOn { s with regions := fmod s.regions k fun r => { r with placed := id + 1 } } k r t

/-- Place every holder block of a March region in one step (R333, R336). -/
def placeMarch (s : State) (k : Nat) (r : Region) (m : March) : State :=
  let s := (marchHolders m).foldl
    (fun s (c, n) => match m.segs[n]? with
      | some g => placeBlock s k n c g.need 0#64 (wordOf g.matrixEntry) (some n)
      | none => s) s
  let e := launchEnv s k r
  let s := (marchHolders m).foldl (fun s (c, n) => pinSegment s k e c n) s
  { s with regions := fmod s.regions k fun r => { r with placed := recBlocks r.record, waiting := false } }

/-- Whether each core of a list has room for the blocks that the list puts on it. -/
def listFits (s : State) (k : Nat) (r : Region) (l : List Nat) : Bool :=
  !l.isEmpty && l.eraseDups.all fun c => (r.ask s k).fits s (spare s k r) c (l.count c)

/-- What a head launch places now: one block, one span set, or everything; none where it must wait. -/
def tryPlace (s : State) (k : Nat) (r : Region) : Option State :=
  match r.march with
  | some m =>
    let cores := (m.segs.flatMap (·.holders)).eraseDups
    let ok (c : Nat) : Bool :=
      coreFits s c k (marchNeeds m c) true && fuseFree s k (recFuse r.record) (coreCol s c) && spare s k r c (reserving (marchNeeds m c))
    if roomFor s r (marchHolders m).length && cores.all ok then some (placeMarch s k r m) else none
  | none =>
    if recCores r.record then
      let chosen := if (claimant s r.part).any fun x => x.1 == k then some (chosenCores s k r) else pickAll s (r.ask s k) (spare s k r) (recBlocks r.record)
      match chosen with
      | none => none
      | some l =>
        if roomFor s r l.length && listFits s k r l then
          some (placeOn { s with regions := fmod s.regions k fun r => { r with waiting := false } } k r l)
        else none
    else if roomFor s r (spanWidth r) then (pickSet s (r.ask s k) (spare s k r) []).map fun l => placeOn s k r l
    else none

/-- Whether a launch is placed all or nothing (R417). -/
def Region.whollyOrNot (r : Region) : Bool := recCores r.record || r.march.isSome

/-- All-or-nothing launches that do not fit wait from now on. -/
def markWaiting (s : State) (l : List (Nat × Nat × Region)) : State :=
  l.foldl (fun t (_, k, r) =>
    if r.whollyOrNot && (tryPlace s k r).isNone then { t with regions := fmod t.regions k fun r => { r with waiting := true } } else t) s

/-- A column's launch engine places what it chooses among its head launches. -/
def execBlockPlace (col : Nat) (s : State) : Out :=
  .next (match ffind s.cols col with
    | none => s
    | some c =>
      let l := headOrder s c
      let s := markWaiting s l
      match l.findSome? fun (q, k, _) => ((ffind s.regions k).bind fun r => tryPlace s k r).map fun t => (q, t) with
      | none => s
      | some (q, t) => { t with cols := fmod t.cols col fun c => { c with served := q } })

/-- A block starts; from another column, after the launching column's push (R27, R411). -/
def execBlockStart (b : Nat) (s : State) : Out :=
  .next (match ffind s.blocks b with
    | none => s
    | some x =>
      if x.run ≠ .placed then s
      else
        let home := ((ffind s.regions x.region).map (·.col)).getD 0
        let t := if coreCol s x.core = home ∨ !x.moves.isEmpty then s else moveBlock s home b []
        if blockArrived t b then (startBlock t b).getD t else t)

/-! ### Travellers (R334) -/

/-- Travellers of a March region. -/
def travellerCount (r : Region) : Nat := recBlocks r.record * recGroups r.record

/-- View registers of a region's travellers at birth. -/
def birthViews (s : State) (k : Nat) (r : Region) : Option (SMap 64) :=
  let table := recNat r.record 0x38 8
  if table = 0 then some [] else (hwNat s (regionSpace s k) table 256).map fun x => loadViews x none

/-- The next traveller is born Departed, on its way to a holder of the segment of its entry. -/
def bearTraveller (s : State) (k : Nat) (r : Region) (m : March) (seg dest : Nat) (views : SMap 64) : State :=
  let n := recGroups r.record
  let cross := coreCol s dest != r.col
  let k' := s.nextId
  let g := Group.fresh k (2 ^ 64) 0xFFFF 0 (m.born / n) (m.born % n) (wordOf (recEntry r.record))
  let g := { g with views := views, place := .travelling dest seg, depCol := r.col, pushed := cross }
  let s := { s with groups := fset s.groups k' g, nextId := k' + 1 }
  let s := if cross then
      let t := pushFor s r.col []
      modGroup t k' fun g => { g with moves := columnPushes t r.col }
    else s
  modMarch s k fun m => { m with born := m.born + 1 }

def execTravellerBirth (r : Nat) (s : State) : Out :=
  .next (match (ffind s.regions r).bind fun g => g.march.map fun m => (g, m) with
    | none => s
    | some (g, m) =>
      if g.finished || !g.whole || decide (travellerCount g ≤ m.born) then s
      else match segmentAt m (recEntry g.record), birthViews s r g with
        | some seg, some views =>
          match chooseHolder s r seg m none with
          | some dest => bearTraveller s r g m seg dest views
          | none => s
        | _, _ => s)

/-! ### Retirement (R49, R50) -/

/-- Whether a group is Done. -/
def groupDone (s : State) (g : Nat) : Bool := (ffind s.groups g).all fun p => p.th.run == .done

/-- Whether every traveller of a region has been born and is Done. -/
def travellersDone (s : State) (k : Nat) (r : Region) (m : March) : Bool :=
  decide (travellerCount r ≤ m.born) && (s.groups.all fun g => g.2.region != k || g.2.th.run == .done)

/-- The group condition of a block's retirement; a holder block waits for every traveller, or, once it is removed, for the
last one it holds (R334, R336). -/
def groupsOver (s : State) (bk : Nat) (b : Block) : Bool :=
  match b.seg, (ffind s.regions b.region).bind fun r => r.march.map fun m => (r, m) with
  | some _, some (r, m) =>
    travellersDone s b.region r m || (b.removed && s.groups.all fun g => g.2.block != bk || !g.2.place.inSlot || g.2.th.run == .done)
  | _, _ => b.groups.all (groupDone s)

/-- Whether a block meets R49. -/
def canRetire (s : State) (bk : Nat) (b : Block) : Bool :=
  (b.run == .running || b.run == .stopping || (b.run == .stopped && b.discarded)) && groupsOver s bk b && b.seq.ended &&
  !(s.irecs.any fun r => r.1 < 16384 && r.2.block == bk)

/-- The two halves of a fused L1 are written back when the region's last block leaves the column (R106). -/
def unfuse (s : State) (region core : Nat) : State :=
  let col := coreCol s core
  if (fvals s.blocks).any fun b => b.resident && b.region == region && coreCol s b.core == col then s
  else (s.copies.filter fun c => c.1 % 1024 == 256 + col).foldl (fun s c => evictCopy s (256 + col) (c.1 / 1024)) s

/-- A save request for a block that retires ends with status 7 (R425). -/
def endRequest (s : State) (bk : Nat) (b : Block) : State :=
  match b.stop with
  | none => s
  | some q => tellSave (withdrawStop s (spanSet s bk)) q.who 7

def execBlockRetire (b : Nat) (s : State) : Out :=
  .next (match ffind s.blocks b with
    | none => s
    | some x =>
      if !canRetire s b x then s
      else
        let s := dropMaps (endRequest s b x) b
        let s := if x.run = .stopped then s else leaveResidue s b
        let s := dropCode s fun a => a == .seq b || x.groups.any fun g => streamOf g a
        let s := modBlock s b fun x => { x with run := .retired, stop := none, xq := [] }
        let s := { s with regions := fmod s.regions x.region fun r => { r with retired := r.retired + 1 } }
        if (ffind s.regions x.region).any fun r => recFuse r.record then unfuse s x.region x.core else s)

/-- Blocks of a region. -/
def regionBlocks (s : State) (k : Nat) : List (Nat × Block) := s.blocks.filter fun b => b.2.region == k

/-- Groups of a region. -/
def regionGroups (s : State) (k : Nat) : List Nat := (s.groups.filter fun g => g.2.region == k).map Prod.fst

/-- Whether everything of a region has retired. -/
def regionOver (s : State) (k : Nat) (r : Region) : Bool :=
  !r.finished && r.whole && ((regionBlocks s k).all fun b => b.2.run == .retired) &&
  (match r.march with
    | some m => travellersDone s k r m
    | none => true)

/-- The buffers of a list of groups drain; none where a store has to wait. -/
def drainGroups (s : State) : List Nat → Option State
  | [] => some s
  | g :: t =>
    match drainAll s (.group g) with
    | .ok s => drainGroups s t
    | .error _ => none

/-- Whether an agent is a group or a sequencer of a region. -/
def ofRegion (s : State) (k : Nat) : Who → Bool
  | .grp g => (ffind s.groups g).any fun p => p.region == k
  | .seq b => (ffind s.blocks b).any fun x => x.region == k
  | _ => false

/-- Who awaits the acknowledgement of a message. -/
def MsgKind.awaiting : MsgKind → Who
  | .write _ _ _ _ _ w | .ack w | .spmWrite _ _ _ w => w
  | _ => .nobody

/-- Whether every store of a region's agents has been acknowledged, its sequencers' included (R50, R162). -/
def regionQuiet (s : State) (k : Nat) : Bool :=
  ((regionGroups s k).all fun g => (ffind s.groups g).all fun p => p.th.unack == 0) &&
  !(s.net.any fun m => ofRegion s k m.kind.awaiting) && !(s.pendw.any fun p => ofRegion s k p.2.who) && !(s.remote.any fun r => ofRegion s k r.2.who)

/-- Columns that blocks of a region run in. -/
def regionCols (s : State) (k : Nat) : List Nat := ((regionBlocks s k).map fun b => coreCol s b.2.core).eraseDups

/-- The markers of a region's release: its columns push what they hold dirty, and every push ahead of them is awaited (R50,
R162). -/
def markRegion (s : State) (k : Nat) : State :=
  let cols := regionCols s k
  let s := cols.foldl (fun s c => pushFor s c []) s
  { s with regions := fmod s.regions k fun r => { r with marker := true, await := cols.flatMap (columnPushes s) } }

/-- The region's stamp, its record, and its end. -/
def finishRegion (s : State) (k : Nat) (r : Region) : State :=
  let s := writeStamp s r.col (regionSpace s k) (recStamp r.record) (if r.discarded then 3 else 1) 0
  let s := if r.notify = 0 then s else queueAppend s (hwSpace s r.part) r.notify (eventRecord 0x0002 r.col s.ns r.rcb.toNat)
  let s := modQueue s r.col r.queue fun l => { l with regions := l.regions.filter (· != k) }
  { s with
    blocks := s.blocks.filter fun b => b.2.region != k
    groups := s.groups.filter fun g => g.2.region != k
    regions := fmod s.regions k fun r => { r with finished := true, march := r.march.map fun m => { m with pinned := [] } } }

/-- A region retires once its package-scope release has completed: its groups' buffers have drained, its agents' stores are
acknowledged, and so are its columns' pushes ahead of the markers (R50, R162). -/
def execRegionRetire (r : Nat) (s : State) : Out :=
  .next (match ffind s.regions r with
    | none => s
    | some g =>
      if !regionOver s r g then s
      else match drainGroups s (regionGroups s r) with
        | none => s
        | some t =>
          if !regionQuiet t r then t
          else
            let t := if g.marker then t else markRegion t r
            if (ffind t.regions r).any fun g => g.await.all (pushDone t) then finishRegion t r g else t)

/-! ### Requests to stop (R43, R402, R424, R425) -/

/-- A block under a request, with its span set, stops once all of them are pre-emptible, and is saved. -/
def execPreemptStop (b : Nat) (s : State) : Out :=
  .next (match (ffind s.blocks b).bind (·.stop) with
    | none => s
    | some q =>
      let l := spanSet s b
      match agentOf q.who with
      | none => s
      | some a =>
        if q.late s.ns || !setStoppable s l then s
        else match saveSet s a q.area.toNat q.bytes.toNat l with
          | .ok t => tellSave t q.who 0
          | .error _ => s)

/-- A request whose deadline has passed is withdrawn with status 8. -/
def execPreemptDeadlineMiss (b : Nat) (s : State) : Out :=
  .next (match (ffind s.blocks b).bind (·.stop) with
    | none => s
    | some q => if q.late s.ns then tellSave (withdrawStop s (spanSet s b)) q.who 8 else s)

end Sys2Proof.Machine
end

