-- ==== Sys2Proof/Machine/Coherent.lean ====
section
/-! DEFINITION. Events of the memory system: stores on their way, coherence messages, evictions, flits, responses
(R108, R120, R123, R137, R138, R160 to R162, R301, R463, R472, R473). -/

namespace Sys2Proof.Machine

/-- A message in flight. -/
def msgOf (s : State) (m : Nat) : Option MsgKind := (s.net.find? fun x => x.id == m).map (·.kind)

/-- The oldest store of an agent leaves its buffer, if it need not wait (R160). -/
def execStoreDrain (a : AgentId) (s : State) : Out := .next ((drainOne s a).getD s)

/-- A write in flight takes effect at its home, in the order of what its column sends there (R467). -/
def execWriteAtHome (m : Nat) (s : State) : Out :=
  .next (match s.net.find? fun x => x.id == m with
    | some x =>
      match x.kind with
      | .write line d k from_ by_ who =>
        if inOrder s x && !waitsAtHome s x.kind then landWrite (takeMsg s m) m line d k from_ by_ who else s
      | _ => s
    | none => s)

/-- Name of the agent that a request's response is for. -/
def whoAgent : Who → Option AgentId
  | .host c t => some (.host c t)
  | .grp g => some (.group g)
  | .seq b => some (.seq b)
  | _ => none

/-- Linear index of the first element that an operation writes in the line of an address; none for its stamp (R324). -/
def elemOfLine (s : State) (r : IRec) (va : Nat) : Word32 :=
  if r.stamped then noElem
  else (((r.moves s []).find? fun m => m.2.2.any fun x => x.dst / 128 == va / 128).map fun m => BitVec.ofNat 32 m.2.1).getD noElem

/-- A write of an operation that another package refuses ends it through its issue record: a packet that was dropped with ENG_RANGE
(R474), any other with PAGE_FAULT (R472). -/
def refuseEngine (s : State) (k va : Nat) : State :=
  match ffind s.irecs k with
  | none => s
  | some r =>
    if (packetTarget r.dst.raw).isSome && va == tidBase r.dst.raw && !r.stamped then failOperation s k r cEngRange 0#32 0
    else failOperation s k r cPageFault (elemOfLine s r va) va

/-- A write that another package refuses ends with PAGE_FAULT at its requester: an operation through its issue record, a
running agent by a trap (R472). -/
def refuseWrite (s : State) (w : Who) (va : Nat) : State :=
  let t : TrapInfo := { (TrapInfo.of cPageFault 0#32) with va := va }
  match w with
  | .eng k => refuseEngine s k va
  | _ =>
    match whoAgent w with
    | none => s
    | some a =>
      let runs : Bool := match a with
        | .seq b => (ffind s.blocks b).any fun x => x.seq.run == .running
        | _ => (threadOf s a).any fun th => th.run == .running
      if runs then raiseTrap s a t else s

/-- The response to a write at another package: done, or refused as the environment chooses (R472). -/
def remoteAck (s : State) (n : Nat) (r : RemoteReq) : State :=
  let refused := r.answer.isSome || Config.choice s.freeCtr % 2 == 1
  let s := ackTo { s with remote := fdel s.remote n, freeCtr := s.freeCtr + 1 } r.who
  if refused then refuseWrite s r.who r.va else s

/-- An acknowledgement of a write or push reaches its writer; one for a stub is the stub's to forward. -/
def execWriteAck (m : Nat) (s : State) : Out :=
  .next (match msgOf s m with
    | some (.ack (.stub _ _)) => s
    | some (.ack (.push id)) => if (stubPush s id).isSome then s else ackTo (takeMsg s m) (.push id)
    | some (.ack w) => ackTo (takeMsg s m) w
    | some (.remote n) =>
      match ffind s.remote n with
      | some r => if r.write then remoteAck (takeMsg s m) n r else s
      | none => takeMsg s m
    | _ => s)

/-- A message of a kind from a home to a cache is applied if it is the first of its home, cache and line (R137). -/
def applyFirst (s : State) (m : Nat) (f : MsgKind → Bool) : State :=
  match s.net.find? fun x => x.id == m with
  | some x => if f x.kind && isFirst s x && inOrder s x then deliverToCache s x else s
  | none => s

/-- A fill reaches its cache, or the data of a prefetch its home, which then sends the fill (R285). -/
def execFillReceive (m : Nat) (s : State) : Out :=
  .next (match msgOf s m with
    | some (.rdata line sharer who) => servePrefetch (takeMsg s m) line sharer who
    | _ => applyFirst s m fun k => match k with | .fill _ _ _ _ => true | _ => false)

def execInvalidationReceive (m : Nat) (s : State) : Out :=
  .next (applyFirst s m fun k => match k with | .inval _ _ _ => true | _ => false)

def execUpdateReceive (m : Nat) (s : State) : Out :=
  .next (applyFirst s m fun k => match k with | .update _ _ _ _ => true | _ => false)

/-- Whether a cache is an L1 or host-core cache of a column whose slice holds a line column-private dirty: it reads the
line through the slice. -/
def readsPrivate (s : State) (hd line : Nat) : Bool :=
  s.cols.any fun c => (colL1s s c.1).contains hd && (privAt s line c.1).isSome

/-- A cache, named by its sharer code, evicts its copy of a line; one that its slice holds column-private dirty leaves the
L1 alone, and the monitors on it are lost (R116, R145). -/
def execCacheEviction (hd line : Nat) (s : State) : Out :=
  .next (if readsPrivate s hd line then triggerIn s line hd else evictCopy s hd line)

/-- A notice frees its entry, unless the cache has been given the line again since. -/
def execEvictionNotice (m : Nat) (s : State) : Out :=
  .next (match msgOf s m with
    | some (.notice c line) =>
      let s := takeMsg s m
      if (ffind s.copies (copyKey line c)).isSome || s.net.any fun x => match x.kind with
          | .fill c' l _ _ => c' == c && l == line
          | _ => false
      then s
      else { s with home := fmod s.home line fun h => if h.coarse then h else h.free c }
    | _ => s)

/-- A slice evicts a column-private dirty line: its bytes leave for the home (R161). -/
def execSliceEvictionPush (col line : Nat) (s : State) : Out := .next (pushMsg s line col .nobody)

/-- The home gives up a line's directory state (R137). -/
def execDirectoryEviction (line : Nat) (s : State) : Out := .next (evictHome s line)

/-- A core's partial of a line is folded into the home (R123). -/
def execPartialEviction (core line : Nat) (s : State) : Out := .next (combineLine s (spaceOfLine s line) line (some core))

/-- Whether a forwarded store is the oldest of its line. -/
def firstForward (s : State) (m line : Nat) : Bool :=
  ((s.net.find? fun x => match x.kind with
    | .spmWrite l _ _ _ => l == line
    | _ => false).map (·.id)) == some m

/-- A store forwarded to a scratchpad is performed there; it waits while the owner is Stopped (R108, R109). -/
def execSpmForward (m : Nat) (s : State) : Out :=
  .next (match msgOf s m with
    | some (.spmWrite line d k who) =>
      if !firstForward s m line then s
      else match mappedAt s (lineTag line) (lineVa line) with
        | some (_, _, mp) =>
          if mapStopped s mp then s else sendAck (mappedWrite (takeMsg s m) mp (lineVa line) d k who) who false
        | none => performWrite (takeMsg s m) (spaceOfLine s line) line d k none who who false
    | _ => s)

/-! ### Flits (R120) -/

/-- Whether a flit is the oldest of its sender and target. -/
def firstFlit (s : State) (m f r b g : Nat) : Bool :=
  ((s.net.find? fun x => match x.kind with
    | .flit f' r' b' g' _ _ => f' == f && r' == r && b' == b && g' == g
    | _ => false).map (·.id)) == some m

/-- The group with a BLOCK_ID and a GROUP_ID of a region. -/
def flitTarget (s : State) (r b g : Nat) : Option (Nat × Group) :=
  s.groups.find? fun p => p.2.region == r && p.2.blockId == b && p.2.groupId == g

/-- Set whether a flit in flight has been refused. -/
def markFlit (s : State) (m : Nat) (refused : Bool) : State :=
  { s with net := s.net.map fun x => if x.id = m then
      match x.kind with
      | .flit f r b g fl _ => { x with kind := .flit f r b g fl refused }
      | _ => x
    else x }

/-- The sender of a flit gets its credit back, and DROP where the flit was dropped (R119, R120). -/
def creditBack (s : State) (f : Nat) (dropped : Bool) : State :=
  modGroup s f fun p => { p with credits := min (p.credits + 1) Config.creditsMax, drop := p.drop || dropped }

/-- Whether a group that is not Done can take a flit: resident, of a block that has started and is not Stopped, with room. -/
def flitRoom (s : State) (p : Group) : Bool :=
  p.place == .resident && p.th.run != .stopped && decide (p.rx.length < 16) &&
  (ffind s.blocks p.block).any fun b => b.run == .running || b.run == .stopping

/-- A flit reaches its target: accepted, refused, or dropped where the target is Done. -/
def execFlitDelivery (m : Nat) (s : State) : Out :=
  .next (match msgOf s m with
    | some (.flit f r b g fl refused) =>
      if refused || !firstFlit s m f r b g then s
      else match flitTarget s r b g with
        | some (k, p) =>
          if p.th.run = .done then creditBack (takeMsg s m) f true
          else if flitRoom s p then creditBack (modGroup (takeMsg s m) k fun p => { p with rx := p.rx ++ [fl] }) f false
          else markFlit s m true
        | none =>
          if (ffind s.regions r).any fun x => !x.finished && (x.march.isSome || decide (x.placed ≤ b)) then markFlit s m true
          else creditBack (takeMsg s m) f true
    | _ => s)

/-- A refused flit is sent again, in its order. -/
def execFlitResend (m : Nat) (s : State) : Out :=
  .next (match msgOf s m with
    | some (.flit f r b g _ true) => if firstFlit s m f r b g then markFlit s m false else s
    | _ => s)

/-! ### Responses (R301, R472, R473) -/

/-- A line of n fresh words. -/
def freshLine (c : Nat) : Nat → Nat
  | 0 => 0
  | n + 1 => freshLine c n + (Config.fresh (c + n)).toNat * 2 ^ (64 * n)

/-- The answer of another package, which the environment chooses. -/
def remoteAnswer (s : State) (n : Nat) (r : RemoteReq) : State :=
  let c := Config.choice s.freeCtr % 3
  let x : RemoteAnswer :=
    if c = 1 then .refused else if c = 2 ∧ r.atomic then .stale else .value (freshLine s.freeCtr 16)
  modWho { s with remote := fset s.remote n { r with answer := some x }, freeCtr := s.freeCtr + 16 } r.who fun th =>
    if r.atomic then { th with atomics := th.atomics - 1 } else { th with loads := th.loads - 1 }

/-- Whether a message is a response for an agent. -/
def isResponse (s : State) (w : Who) (m : Msg) : Bool :=
  match m.kind with
  | .resp x => x == w
  | .remote n => (ffind s.remote n).any fun r => r.who == w && !r.write
  | _ => false

/-- The oldest response for an agent reaches it. -/
def execHomeResponse (a : AgentId) (s : State) : Out :=
  let w := (envOf s a).who
  .next (match s.net.find? (isResponse s w) with
    | none => s
    | some m =>
      match m.kind with
      | .remote n =>
        match ffind s.remote n with
        | some r => remoteAnswer (takeMsg s m.id) n r
        | none => s
      | _ => modWho (takeMsg s m.id) w fun th => { th with atomics := th.atomics - 1 })

/-- The message that carries a request. -/
def dropRemote (s : State) (n : Nat) : State :=
  { s with net := s.net.filter fun m => match m.kind with
      | .remote k => k != n
      | _ => true }

/-- Quadrant of a UALink port (R12). -/
def portQuad (i : Nat) : Nat := if i < 5 then 0 else if i < 9 then 3 else if i < 14 then 4 else 7

/-- Whether an agent waits for acknowledgements: a release of its has placed its marker (R162, R473). -/
def awaitsAck (s : State) (w : Who) : Bool := ((whoAgent w).bind (threadOf s)).any (·.marker)

/-- An unreachable request (R473): the machine check, and the end of whoever waits. -/
def unreachable (s : State) (n : Nat) (r : RemoteReq) : State :=
  let e := match whoAgent r.who with
    | some a => some (envOf s a)
    | none => match r.who with
      | .eng k => (ffind s.irecs k).map fun x => engEnv s k x
      | _ => none
  let part := (e.map fun e => e.sp.part).getD 0
  let s := (machineCheck (dropRemote s n) part
    { kind := 10, unit := 10, col := none, quad := portQuad r.port, core := 0xFF, index := r.port, asid := 0xFFFF, va := r.va
      info := Config.syndrome s.freeCtr }).1
  if r.write then
    let s := ackTo { s with remote := fdel s.remote n } r.who
    match r.who with
    | .eng k =>
      match ffind s.irecs k with
      | some x => failOperation s k x cPageFault (elemOfLine s x r.va) r.va
      | none => s
    | w => if awaitsAck s w then refuseWrite s w r.va else s
  else
    modWho { s with remote := fset s.remote n { r with answer := some .refused } } r.who fun th =>
      if r.atomic then { th with atomics := th.atomics - 1 } else { th with loads := th.loads - 1 }

/-- A request without a response is sent again on the next live port, up to three times; then it is unreachable. -/
def execRemoteRetry (n : Nat) (s : State) : Out :=
  .next (match ffind s.remote n with
    | none => s
    | some r =>
      if r.answer.isSome then s
      else if r.attempts < 4 then
        { s with remote := fset s.remote n { r with attempts := r.attempts + 1, port := remotePort s (r.va / 2 ^ 46 % 2 ^ 10) r.attempts } }
      else unreachable s n r)

/-! ### Requests of other packages (R174, R472, R473) -/

/-- Source of a request: its package's domain number and its agent's context number (R174). -/
def requestSource (r : DomainReq) : Nat := tagSource r.src.toNat (r.tag.toNat / 2 ^ 16)

/-- Bytes that a request reaches. -/
def actSize : DomainAct → Nat
  | .read n => n
  | .write n _ => n
  | .atomic _ w64 _ => if w64 then 8 else 4
  | .cas w64 _ _ => if w64 then 8 else 4
  | .clean _ => 1

/-- The element's new value under an atomic act. -/
def actValue (a : DomainAct) (old : Nat) : Nat :=
  match a with
  | .atomic op w64 v => amoValue op (if w64 then 64 else 32) old v.toNat
  | .cas w64 x y => if old = x.toNat % 2 ^ (if w64 then 64 else 32) then y.toNat else old
  | _ => old

/-- Where the home performs what another package asks for (R149, R472). -/
def peerEnv (sp : Space) : Env :=
  { sp := sp, col := 0, core := none, cache := 0, who := .nobody, region := none, block := none, monitor := false }

/-- A clean that another package asks for: the home writes the line back, and of a read-only name every copy goes (R286, R464, R472). -/
def cleanForPeer (s : State) (sp : Space) (key : Nat) (persist : Bool) : Option State :=
  (cleanHome s (peerEnv sp) sp key persist).toOption.map fun r => if r.2.w then r.1 else evictHome r.1 key

/-- Perform a request at the home of an offset, its write acknowledged by every copy (R162, R472); none where it is refused: what a
read or an atomic reads. -/
def actAtHome (s : State) (sp : Space) (off : Nat) (a : DomainAct) : Option (State × Nat) :=
  let key := sp.key off
  let n := actSize a
  let bytes (v : Nat) : LineData := BitVec.ofNat 1024 (v % 2 ^ (8 * n) * 2 ^ (8 * (off % 128)))
  let mask := maskRange 128 (off % 128) n
  match a, mappedAt s sp.tag off with
  | .clean p, _ => (cleanForPeer s sp key p).map fun s => (s, 0)
  | a, some (_, _, m) =>
    let s := landForwards s key
    let old := lineNat (mappedLine s m off) (off % 128) n
    let put (v : Nat) : State := mappedWrite s m off (bytes v) mask .nobody
    some (match a with
      | .read _ => (s, old)
      | .write _ v => (put v.toNat, 0)
      | a => (put (actValue a old), old))
  | a, none =>
    match a with
    | .read _ => (readHome s sp key).toOption.map fun r => (r.1, lineNat r.2.data (off % 128) n)
    | .write _ v =>
      match reachHome s sp key none with
      | .ok (s, h) => if h.w then some (settleLine (writeHome s key h (bytes v.toNat) mask none .nobody .nobody false) key, 0) else none
      | .error _ => none
    | a =>
      match readHome s sp key with
      | .ok (s, h) =>
        if h.w then
          let r := changeHome s key h (off % 128) n (actValue a) none .nobody
          some (settleLine r.1 key, r.2)
        else none
      | .error _ => none

/-- Whether a request is well formed: inside one line, and aligned where it is atomic. -/
def actOk (off : Nat) (a : DomainAct) : Bool :=
  decide (1 ≤ actSize a) && decide (off % 128 + actSize a ≤ 128) &&
  match a with
  | .read _ | .write _ _ | .clean _ => true
  | a => off % actSize a == 0

/-- The response to a request of another package. -/
def respond (s : State) (r : DomainReq) (a : RemoteAnswer) : State :=
  { s with reply := some { source := requestSource r, seq := r.tag.toNat % 2 ^ 16, answer := a } }

/-- A request that has no result yet is performed in a domain region, or refused (R472): a write or an atomic once for its tag, its
result cached (R174, R473). -/
def performRequest (s : State) (sp : Space) (off : Nat) (r : DomainReq) : State :=
  match actAtHome s sp off r.act, r.act with
  | none, _ => respond s r .refused
  | some x, .read _ => respond x.1 r (.value x.2)
  | some x, _ => respond (keepFresh x.1 (homeCol s sp (sp.key off)) (requestSource r) (r.tag.toNat % 2 ^ 16) (2 ^ 16) (wordOf x.2)) r (.value x.2)

/-- Whether a request carries a tag (R174, R473). -/
def tagsRequest : DomainAct → Bool
  | .read _ => false
  | _ => true

/-- A request of another package, performed in the domain region of the partition it names, or refused; a duplicate returns the
cached result (R174, R472); one for a line that a Stopped block maps waits (R109). -/
def execDomainRequest (r : DomainReq) (s : State) : Out :=
  .next (match addrKind r.va.toNat with
    | .domain pkg k off =>
      if pkg ≠ s.pkg.domain || !actOk off r.act then s
      else match domainAt s k off (actSize r.act) with
        | none => respond s r .refused
        | some sp =>
          if (mappedAt s sp.tag off).any fun x => mapStopped s x.2.2 then s
          else if !tagsRequest r.act then performRequest s sp off r
          else match tagState s (homeCol s sp (sp.key off)) (requestSource r) (r.tag.toNat % 2 ^ 16) (2 ^ 16) with
            | .fresh => performRequest s sp off r
            | .duplicate v => respond s r (.value v.toNat)
            | .stale => respond (staleCheck s k (homeCol s sp (sp.key off)) (sp.tag % 2 ^ 16) off) r .stale
    | _ => s)

/-- Whether a line lies in a SHARED extent (R460). -/
def sharedLine (s : State) (line : Nat) : Bool :=
  (homeState s (spaceOfLine s line) line).cxl && (lineExtent s (spaceOfLine s line).part line true).any (·.shared)

/-- A snoop of a device on a SHARED extent: the home gives the line up, and what the other device then leaves there is a
free value (R463). -/
def execBackInvalidate (line : Nat) (s : State) : Out :=
  .next (if sharedLine s line then
      let t := evictHome s line
      match lineCell t (spaceOfLine t line).part line true with
      | .ok (t, cell, _) =>
        { t with mem := Memory.writeLine t.mem cell (BitVec.ofNat 1024 (freshLine t.freeCtr 16)) (BitVec.allOnes 128)
                 freeCtr := t.freeCtr + 16 }
      | .error _ => t
    else s)

end Sys2Proof.Machine
end

