-- ==== Sys2Proof/Machine/Power.lean ====
section
/-! DEFINITION. Power, throttle levels, the droop detector, ageing, and the capacity tier's events (R173, R460 to R463,
R484, R487 to R497). -/

namespace Sys2Proof.Machine

/-- Apply a function to a column. -/
def modCol (s : State) (c : Nat) (f : Column → Column) : State := { s with cols := fmod s.cols c f }

/-! ### Throttle levels (R488, R490) -/

/-- A level is decided; the count of cool samples starts again. -/
def Column.decide (c : Column) (level cause : Nat) : Column := { c with changes := c.changes ++ [(level, cause)], cool := 0 }

/-- The governor's rules on one sample of a column: its temperature, and whether the module's power has been too high. -/
def Column.govern (c : Column) (t : Nat) (hot : Bool) : Column :=
  let c := { c with temp := t, cool := if t ≤ 92 then c.cool + 1 else 0 }
  let l := c.decided
  if 110 ≤ t then (if l < 7 then c.decide 7 1 else c)
  else if 100 ≤ t ∧ l < 7 then c.decide (l + 1) 1
  else if hot = true ∧ l < 7 then c.decide (l + 1) 4
  else if 20 ≤ c.cool ∧ c.floorLevel < l then c.decide (l - 1) 2
  else c

/-- HOT of the channel groups of each stack whose sensor a sample gives (R454, R457; DESIGN CHOICE, log 121). -/
def sampleStacks (s : State) (l : List Nat) : State :=
  ((List.range 128).zip (l.flatMap (List.replicate 16))).foldl (fun s (g, t) => bumpChan s g fun x => { x with hot := decide (85 < t) }) s

/-- A sample of every column; the temperatures are given in the order of the logical columns, those of the stacks by their
number. -/
def execGovernorSample (s_ : PowerSample) (s : State) : Out :=
  let s := sampleStacks s s_.stackTemps
  .next { s with cols := s.cols.map fun c =>
    match s_.temps[c.1]? with
    | none => c
    | some t =>
      let n := if 2400 < s_.watts then min (c.2.hotSamples + 1) 20 else 0
      (c.1, { c.2 with hotSamples := n }.govern t (decide (20 ≤ n))) }

/-- A column's level changes, with its records (R490, R497). -/
def changeLevel (s : State) (col : Nat) (c : Column) (l cause : Nat) (rest : List (Nat × Nat)) : State :=
  let x := c.level + l * 2 ^ 8 + cause * 2 ^ 16
  let s := modCol s col fun c => { c with level := l, changes := rest }
  appendEvent (blackBox s col 1 (Config.noUnit % 256) 0xFF (wordOf x) 0#64) col 0x0001 x

/-- The oldest decided change takes effect; where further ones of the same cause have been decided meanwhile, they may take effect with
it, as one step (R371, R490; DEDUCED, log 143). -/
def execThrottleChange (col : Nat) (s : State) : Out :=
  .next (match ffind s.cols col with
    | none => s
    | some c =>
      match c.changes with
      | [] => s
      | (l, cause) :: rest =>
        let more := rest.takeWhile fun x => x.2 == cause
        match more.getLast? with
        | none => changeLevel s col c l cause rest
        | some x =>
          let t := { s with freeCtr := s.freeCtr + 1 }
          if Config.choice s.freeCtr % 2 = 1 then changeLevel t col c x.1 cause (rest.drop more.length) else changeLevel t col c l cause rest)

/-! ### The droop detector (R491 to R493) -/

/-- A supply sample of a compute core, in millivolts below its setpoint. -/
def execDroopAlarm (core mv : Nat) (s : State) : Out :=
  .next (match ffind s.cores core with
    | none => s
    | some c =>
      let most := bitsOf c.droopThr 9 0
      if most = 0 ∨ mv ≤ most then s
      else
        let s := modCore s core fun c => { c with stretch := 6, halve := 64, alarms := satInc32 c.alarms }
        blackBoxFree s c.col 2 c.phys)

/-- The six stretched cycles are over: those that are left have passed. -/
def execDroopStretchEnd (core : Nat) (s : State) : Out :=
  .next (match ffind s.cores core with
    | none => s
    | some c => modCore s core fun x => { x with stretch := 0, cyc := (x.cyc + c.stretch) % 2 ^ 64 })

/-- The 64 halved cycles are over: those that are left have passed. -/
def execDroopHalvingEnd (core : Nat) (s : State) : Out :=
  .next (match ffind s.cores core with
    | none => s
    | some c => if c.stretch = 0 then modCore s core fun x => { x with halve := 0, cyc := (x.cyc + c.halve) % 2 ^ 64 } else s)

/-! ### Ageing (R496) -/

/-- The hourly reading: columns whose monitors have slowed by more than 1.5 % make a re-plan due, as 720 hours do. -/
def execAgeingRead (slow : List Nat) (s : State) : Out :=
  .next { s with pkg := { s.pkg with hours := s.pkg.hours + 1, due := s.pkg.due || !slow.isEmpty || decide (720 ≤ s.pkg.hours + 1) } }

/-- Whether a plan takes every column, in ascending order: Autumn runs for the package (R496). -/
def planSorted (s : State) (l : List AutumnStep) : Bool :=
  l.map (·.col) == (List.range 32).filter fun c => (ffind s.cols c).isSome

/-- Whether a step of a plan is one that R496 allows. -/
def stepOk (s : State) (a : AutumnStep) : Bool :=
  (ffind s.cols a.col).any fun c =>
    decide (a.setpoint ≤ 30) && decide (1 ≤ a.cap) && decide (a.cap ≤ 128) && a.mv.length == c.cores.length && a.mv.all fun m => decide (m < 1024)

def execAutumn (plan : List AutumnStep) (s : State) : Out :=
  .next (if s.pkg.due && s.pkg.autumn.isEmpty && planSorted s plan && plan.all (stepOk s) then
      { s with pkg := { s.pkg with hours := 0, due := false, autumn := plan } }
    else s)

/-- A column's re-plan ends: its thresholds, its cap, and FLOOR 4 where the monitors ask for too much. -/
def endColumn (s : State) (a : AutumnStep) : State :=
  let cores := ((ffind s.cols a.col).map (·.cores)).getD []
  let s := (cores.zip a.mv).foldl (fun s (c, m) => modCore s c fun x => { x with droopThr := setBits x.droopThr 0 10 m }) s
  let s := modCol s a.col fun c => { c with budgetCap := a.cap }
  let s := { s with pkg := { s.pkg with
      beyond := if a.beyond then (s.pkg.beyond.filter (· != a.col)) ++ [a.col] else s.pkg.beyond.filter (· != a.col)
      autumn := s.pkg.autumn.drop 1 } }
  if a.beyond then setFloor s a.col (((ffind s.cols a.col).map (·.floorLevel)).getD 0) else s

/-- One step of 2 mV; the last one of a column applies the rest of its plan. -/
def execAutumnStep (s : State) : Out :=
  .next (match s.pkg.autumn with
    | [] => s
    | a :: _ =>
      match ffind s.cols a.col with
      | none => { s with pkg := { s.pkg with autumn := s.pkg.autumn.drop 1 } }
      | some c =>
        let v := if c.setpoint < a.setpoint then min (c.setpoint + 2) a.setpoint else max (c.setpoint - 2) a.setpoint
        let s := modCol s a.col fun c => { c with setpoint := v }
        let s := blackBox s a.col 9 (Config.noUnit % 256) 0xFF (wordOf v) 0#64
        if v = a.setpoint then endColumn s a else s)

/-! ### Loss of power (R173, R484) -/

/-- Stores that a store buffer holds for lines of a port's device, as stores that have yet to reach anything else. -/
def bufferedStores (s : State) (port : Nat) : List LooseStore :=
  (storeAgents s).flatMap fun a => (sbOf s a).filterMap fun x =>
    (deviceCell s (lineKey x.asid x.va)).bind fun c =>
      if c / 2 ^ 64 = port + 1 then
        some { cell := c, line := lineKey x.asid x.va, data := BitVec.ofNat 1024 (x.data.toNat * 2 ^ (8 * (x.va % 128)))
               mask := BitVec.ofNat 128 (x.mask.toNat * 2 ^ (x.va % 128)), by_ := .nobody, place := .msg 0, placed := false, durable := false }
      else none

/-- Every store of a port that its device has not made durable for sure: in the order of their locations, those that have yet to reach
their homes last (R173). -/
def looseStores (s : State) (port : Nat) (p : CxlPort) : List LooseStore :=
  p.stores.filter (·.place == .home) ++ p.stores.filter (·.place != .home) ++ bufferedStores s port

/-- A line after a loss of power: each store that is not durable is there or not, independently of every other (R173). -/
def survivor (ctr : Nat) (base : LineData) : List LooseStore → LineData
  | [] => base
  | x :: t => survivor (ctr + 1) (if x.durable || Config.choice ctr % 2 == 1 then mergeLine base x.data x.mask else base) t

/-- What a persistent device holds after a loss of power (R173, R464). -/
def losePort (s : State) (port : Nat) (p : CxlPort) : State :=
  let loose := looseStores s port p
  (loose.map (·.cell)).eraseDups.foldl
    (fun s c =>
      let base := ((p.bases.find? fun b => b.1 == c).map (·.2)).getD (Memory.readLine s.mem c)
      let l := loose.filter fun x => x.cell == c
      { s with mem := Memory.writeLine s.mem c (survivor s.freeCtr base l) (BitVec.allOnes 128), freeCtr := s.freeCtr + l.length }) s

/-- A reset loses the stores that have not reached a port's device. -/
def CxlPort.keepReceived (p : CxlPort) (s : State) : CxlPort :=
  let l := p.stores.filter fun x => x.place == .home && (ffind s.home x.line).all fun h => h.dirty &&& x.mask == 0#128
  { p with stores := l, bases := p.bases.filter fun b => l.any fun x => x.cell == b.1 }

/-- Memory cells that outlive a reset: those of CXL ports that pass a test. -/
def keptCells (s : State) (f : CxlPort → Bool) : List Host.Cell :=
  s.mem.filter fun m => !inStack m.1 && (ffind s.cxl (m.1 / 2 ^ 64 - 1)).any f

/-- The package held in reset: every unit off, waiting for boot.  What its environment holds stays. -/
def heldInReset (s : State) (mem : List Host.Cell) : State :=
  { State.reset with
    hosts := [], groups := [], blocks := [], regions := [], cores := [], cols := [], parts := []
    mem := mem, hostMem := s.hostMem
    cxl := s.cxl.map fun p => (p.1, { p.2.keepReceived s with pending := [] })
    pkg := { s.pkg with halted := true, linkUp := false, meas := [], identity := [], beyond := [], hours := 0, due := false, autumn := [] }
    cur := s.cur, sched := s.sched, freeCtr := s.freeCtr, nextId := s.nextId }

/-- Both feeds are lost: of memory, persistent capacity alone remains, and its stores that were not made durable may be lost. -/
def powerLoss (s : State) : State :=
  let s := s.cxl.foldl (fun t p => if p.2.persistent then losePort { s with mem := t.mem, freeCtr := t.freeCtr } p.1 p.2 else t) s
  let t := heldInReset s (keptCells s (·.persistent))
  { t with cxl := t.cxl.map fun p => (p.1, { p.2 with stores := [], bases := [] }) }

/-- A feed is lost or restored: a change is recorded in every column's black box. -/
def execFeedChange (feed ok : Bool) (s : State) : Out :=
  let k := if feed then 1 else 0
  let told := if s.pkg.feeds[k]? = some ok then [] else s.cols.map Prod.fst
  let s := { s with pkg := { s.pkg with feeds := s.pkg.feeds.set k ok } }
  let s := told.foldl (fun s c => blackBoxFree s c 10 0xFF) s
  .next (if s.pkg.feeds.any id then s else powerLoss s)

/-! ### Dynamic capacity (R461, R462) -/

/-- Offset of a capacity-log record in the table window. -/
def dcOff (p : Partition) (seq : Nat) : Nat :=
  (p.cxlCfg.extractLsb' 16 16).toNat * 65536 + 64 * (seq % 2 ^ (p.cxlCfg.extractLsb' 8 8).toNat)

/-- A record of the capacity log, with RESULT 0. -/
def dcRecord (e : DcEvent) (seq : Nat) : Nat :=
  seq + (if e.release then 2 else 1) * 2 ^ 64 + e.port * 2 ^ 72 + ((if e.shared then 1 else 0) + if e.persist then 2 else 0) * 2 ^ 80
    + e.region.toNat * 2 ^ 96 + e.base * 2 ^ 128 + e.len * 2 ^ 192 + e.tag.toNat * 2 ^ 256

/-- The management core logs an offer, or a request to release. -/
def execDcCapacityEvent (e : DcEvent) (s : State) : Out :=
  .next (match ffind s.parts e.part with
    | none => s
    | some p =>
      if e.port < 2 ∧ e.base < 2 ^ 64 ∧ e.len < 2 ^ 64 then
        let seq := p.dcSeq + 1
        let s := { s with parts := fset s.parts e.part { p with dcSeq := seq }
                          cxl := fmod s.cxl e.port fun x =>
                            { x with pending := x.pending ++ [(e.part, seq, if e.release then 2 else 1, e.base, e.len, e.persist)] } }
        if twReady p then hwWrite s (tableSpace e.part) (tableBase + dcOff p seq) 64 (dcRecord e seq) .nobody else s
      else s)

/-- The oldest record of a port, once software has answered it: the device is told; an accepted persistent offer makes its
device one that keeps its contents, and capacity that is offered again after a withdrawal is there again. -/
def execDcResponse (port : Nat) (s : State) : Out :=
  .next (match (ffind s.cxl port).map fun x => (x, x.pending) with
    | some (_, (part, seq, kind, base, len, persist) :: rest) =>
      let p := partOf s part
      let result := (hwNat s (tableSpace part) (tableBase + dcOff p seq + 0x0B) 1).getD 0
      if result = 0 then s
      else { s with cxl := fmod s.cxl port fun x =>
          { x with pending := rest
                   persistent := x.persistent || (kind == 1 && result == 1 && persist)
                   withdrawn := if kind = 1 ∧ result = 1 then x.withdrawn.filter fun w => !(decide (base ≤ w.1) && decide (w.1 + w.2 ≤ base + len)) else x.withdrawn } }
    | _ => s)

/-- A device withdraws capacity: lines there read as poison from now on. -/
def execCapacityWithdrawal (port base len : Nat) (s : State) : Out :=
  .next { s with cxl := fmod s.cxl port fun x => { x with withdrawn := x.withdrawn ++ [(base, len)] } }

end Sys2Proof.Machine
end

