-- ==== Sys2Proof/Machine/Boot.lean ====
section
/-! DEFINITION. Cold reset: the boot sequence, the verification of firmware, partitions and the enumeration table
(R386, R389, R430, R439, R455, R459, R478, R480 to R483, R499, R500). -/

namespace Sys2Proof.Machine

/-! ### What boot checks (R499, R500) -/

/-- A firmware image without the 64 bytes of its signature (R500). -/
def signedPart (i : BootImage) : List Byte := i.image.take (i.image.length - 64)

/-- The signature that ends a firmware image (R500). -/
def signatureOf (i : BootImage) : List Byte := i.image.drop (i.image.length - 64)

/-- The ROM accepts a firmware image. -/
def bootVerified (i : BootImage) : Bool :=
  let key := Config.imageKey (signedPart i)
  decide (64 ≤ i.image.length) && Config.sm2Verify key (Config.sm3 (signedPart i)) (signatureOf i) && Config.sm3 key == i.fusedDigest &&
  decide (i.rollback ≤ Config.imageVersion (signedPart i))

/-- Physical columns, or compute cores, that are live. -/
def liveCols (i : BootImage) : List Nat := (List.range 32).filter fun c => !i.fusedCols.contains c

def liveCores (i : BootImage) : List Nat := (List.range 64).filter fun c => !i.fusedCores.contains c && (liveCols i).contains (c / 2)

/-- An ordering code as the enumeration table holds it: its letters as bytes. -/
def orderWord (l : List Nat) : Word := wordOf (l.foldr (fun x n => x + 256 * n) 0)

/-- Live columns and compute cores of the grade that an ordering code names (R2). -/
def gradeUnits (order : Word) : Option (Nat × Nat) :=
  let vmy (a b c : Nat) : Word := orderWord [0x56, 0x4D, 0x59, 0x2D, a, b, c]
  if order = vmy 0x36 0x34 0x50 ∨ order = vmy 0x36 0x34 0x4D then some (32, 64)
  else if order = vmy 0x35 0x36 0x4D then some (32, 56)
  else if order = vmy 0x34 0x38 0x4D then some (28, 48)
  else none

/-- Whether the fuses are those of the grade, and leave every live column a compute core (R2, R13). -/
def gradeOk (i : BootImage) : Bool :=
  gradeUnits i.order == some ((liveCols i).length, (liveCores i).length) &&
  (liveCols i).all fun c => (liveCores i).any fun k => k / 2 == c

/-- Whether what boot finds fused is this part, whose live units never change (R2, R4, R482); the first boot finds what the part is
(DESIGN CHOICE, log 117). -/
def samePart (s : State) (i : BootImage) : Bool :=
  !s.pkg.fused ||
  (i.order == s.pkg.order &&
    (List.range 32).all (fun c => i.fusedCols.contains c == s.pkg.fusedCols.contains c) &&
    (List.range 64).all (fun k => i.fusedCores.contains k == s.pkg.fusedCores.contains k) &&
    (List.range 25).all fun n => i.fusedLinks.contains n == s.pkg.fusedLinks.contains n)

/-- Whether the values that firmware sets are legal, bits marked resv zero (R7, R430, R459, R489, R491, R505). -/
def bootValuesOk (i : BootImage) : Bool :=
  (i.droopMv.all fun n => decide (n < 1024)) && (i.budgetCap.all fun n => decide (1 ≤ n) && decide (n ≤ 128)) &&
  (i.capMhz.all fun n => decide (400 ≤ n) && decide (n ≤ 3200)) &&
  (decide (i.domain < 768) || i.domain == 0xFFFF) &&
  i.parts.all fun p =>
    decide (24 ≤ bitsOf p.twCfg 7 0) && decide (bitsOf p.twCfg 7 0 ≤ 32) && decide (6 ≤ bitsOf p.twCfg 15 8) && decide (bitsOf p.twCfg 15 8 ≤ 16) &&
    bitsOf p.twCfg 63 48 == 0 && bitsOf p.cxlCfg 63 48 == 0 && bitsOf p.cxlCfg 7 0 == 0 && decide (4 ≤ bitsOf p.cxlCfg 15 8) && decide (bitsOf p.cxlCfg 15 8 ≤ 12)

/-- Whether ASID ranges are apart. -/
def asidsApart : List BootPart → Bool
  | [] => true
  | p :: t => (t.all fun q => decide (p.asidLo + p.asidCount ≤ q.asidLo) || decide (q.asidLo + q.asidCount ≤ p.asidLo)) && asidsApart t

/-- Whether the partitions are ones that R478 and R439 allow: every live column in exactly one, ASIDs divided, one root ASID
capability for each covering its range. -/
def bootPartsOk (i : BootImage) : Bool :=
  let all := i.parts.flatMap (·.cols)
  decide (1 ≤ i.parts.length) && decide (i.parts.length ≤ 8) && all.eraseDups.length == all.length && all.length == (liveCols i).length &&
  (all.all fun c => decide (c < (liveCols i).length)) && asidsApart i.parts &&
  i.parts.all fun p =>
    !p.cols.isEmpty && decide (1 ≤ p.asidCount) && decide (p.asidLo + p.asidCount ≤ 256) &&
    (p.roots.any fun r => r.type == 3 && r.object == wordOf p.asidLo && r.limit == wordOf p.asidCount) &&
    p.roots.all fun r => decide (1 ≤ r.index) && decide (r.index < Config.capEntries)

/-- The step of R499 at which boot fails; 0 where it succeeds. -/
def bootFailure (feeds : List Bool) (i : BootImage) : Nat :=
  if !(feeds.any id) || !i.romOk then 1
  else if i.image.isEmpty then 2
  else if !bootVerified i then 3
  else if !i.trainingOk then 4
  else if !i.selfTestOk || !bootValuesOk i then 5
  else if !bootPartsOk i then 6
  else if !i.linkOk then 7
  else 0

/-! ### Enumeration (R480 to R483) -/

/-- Physical quadrant of a die link: 4 × die + quadrant. -/
def linkQuad (n : Nat) : Nat :=
  if n < 4 then 1 + n / 2 else if n < 22 then portQuad (n - 4) else if n = 22 then 0 else if n = 23 then 3 else 7

/-- Whether a die link is live, as its fuses say (R481, R482). -/
def linkLive (s : State) (n : Nat) : Bool := !s.pkg.fusedLinks.contains n

/-- Bytes of an entry: type, logical number and partition of a live unit, quadrant, column in it, physical index. -/
def unitEntry (type : Nat) (live : Option (Nat × Nat)) (quad col index : Nat) : Nat :=
  let l := match live with
    | some (n, part) => (1 + part * 16) * 2 ^ 8 + n * 2 ^ 16
    | none => 0xFFFF * 2 ^ 16
  type + l + quad / 4 * 2 ^ 32 + quad % 4 * 2 ^ 40 + col * 2 ^ 48 + index * 2 ^ 56

/-- Logical number and partition of a physical column. -/
def colLive (s : State) (p : Nat) : Option (Nat × Nat) := (s.cols.find? fun c => c.2.phys == p).map fun c => (c.1, c.2.part)

/-- Logical number and partition of a physical compute core. -/
def coreLive (s : State) (p : Nat) : Option (Nat × Nat) :=
  (s.cores.find? fun c => c.2.phys == p).map fun c => (c.1, ((ffind s.cols c.2.col).map (·.part)).getD 0)

/-- Entries of every unit, in order. -/
def unitEntries (s : State) : List Nat :=
  let cols (type : Nat) : List Nat := (List.range 32).map fun p => unitEntry type (colLive s p) (p / 4) (p % 4) p
  let rank (n : Nat) : Nat := ((List.range n).filter (linkLive s)).length
  cols 1 ++ cols 2 ++ ((List.range 64).map fun p => unitEntry 3 (coreLive s p) (p / 8) (p / 2 % 4) p) ++ cols 4 ++
    ((List.range 8).map fun k => unitEntry 5 (some (k, 0)) k 0xFF k) ++
    (List.range 25).map fun n => unitEntry 6 (if linkLive s n then some (rank n, 0) else none) (linkQuad n) 0xFF n

/-- Latency class between two of the ten places (R483). -/
def latClass (i j : Nat) : Nat :=
  if i = 9 ∨ j = 9 then 5 else if i = 8 ∨ j = 8 then 4 else if i = j then 1 else if i / 4 = j / 4 then 2 else 3

/-- The enumeration table of a partition, 2,048 bytes. -/
def enumTable (s : State) (part : Nat) : Nat :=
  packFields ([(0, 4, 1), (4, 2, 193), (6, 1, s.parts.length), (7, 1, part), (8, 8, s.pkg.order.toNat), (0x10, 2, s.pkg.domain),
      (0x12, 1, s.cols.length), (0x13, 1, s.cores.length), (0x14, 1, 8), (0x15, 1, ((List.range 25).filter (linkLive s)).length),
      (0x18, 8, s.pkg.serial.toNat)]
    ++ arrayFields 0x20 4 8 (fun k => ((ffind s.parts k).map (·.cols)).getD [] |>.foldl (fun m c => m + 2 ^ c) 0)
    ++ arrayFields 0x40 1 100 (fun k => latClass (k / 10) (k % 10))
    ++ (unitEntries s).zipIdx.map fun (e, k) => (0xC0 + 8 * k, 8, e))

/-! ### The part after boot -/

/-- A root capability as boot mints it. -/
def rootCap (r : RootCap) : Cap :=
  { valid := true, gen := 0#20, type := r.type, rights := r.rights, object := r.object, limit := r.limit, holder := r.holder, origin := 0 }

/-- A partition as boot forms it, its columns in ascending order (R479). -/
def bootPartition (p : BootPart) : Partition :=
  { Partition.reset ((List.range 32).filter p.cols.contains) p.asidLo p.asidCount with
    twCfg := p.twCfg, cxlCfg := p.cxlCfg, caps := p.roots.foldl (fun m r => fset m r.index (rootCap r)) [] }

/-- Columns with their logical numbers; a register that the image sets no value of keeps its reset value. -/
def bootColumns (i : BootImage) : FMap Column :=
  (liveCols i).zipIdx.map fun (p, c) =>
    let part := (i.parts.findIdx? fun x => x.cols.contains c).getD 0
    let cores := ((liveCores i).zipIdx.filter fun x => x.1 / 2 == p).map Prod.snd
    (c, { Column.reset p part cores with
      monVec := i.hostVec.getD c 0#64, budgetCap := i.budgetCap.getD c 128, capMhz := i.capMhz.getD c 3200 })

/-- Compute cores with their logical numbers. -/
def bootCores (i : BootImage) : FMap Core :=
  (liveCores i).zipIdx.map fun (p, k) =>
    (k, { Core.reset p (((liveCols i).findIdx? fun c => c == p / 2).getD 0) with
      monVec := i.coreVec.getD k 0#64, droopThr := wordOf (i.droopMv.getD k 45) })

/-- A host thread released at a MON_VEC. -/
def releasedThread (vec : Word) : HostThread := { HostThread.reset with th := { HostThread.reset.th with pc := vec } }

/-- The part in service, its enumeration tables written. -/
def bootedState (s : State) (i : BootImage) : State :=
  let s : State :=
    { s with
      hosts := (List.range (2 * (liveCols i).length)).map fun k => (k, releasedThread (i.hostVec.getD (k / 2) 0#64))
      cores := bootCores i, cols := bootColumns i, parts := i.parts.zipIdx.map fun (p, k) => (k, bootPartition p)
      mem := i.memory.foldl (fun (m : List Host.Cell) (x : Nat × Byte) => Memory.write m x.1 x.2) s.mem
      chans := i.profile.foldl (fun (m : FMap Chan) (x : Nat × List Nat × List Nat) => fset m x.1 { Chan.idle with b0 := x.2.1, b1 := x.2.2 }) []
      cxl := s.cxl.map fun (p : Nat × CxlPort) => (p.1, { p.2 with linkUp := i.cxlUp.getD p.1 false && !i.fusedLinks.contains (23 + p.1), persistent := i.persistent.getD p.1 false })
      pkg := { s.pkg with
        bootFail := 0, linkUp := true, halted := false, version := Config.imageVersion (signedPart i), secret := i.secret, order := i.order, domain := i.domain
        serial := i.serial
        meas := [Config.sm3 i.rom, Config.sm3 i.image, Config.sm3 i.config] }
      cur := .host 0 false }
  let s := (s.parts.map Prod.fst).foldl (fun s k => hwWrite s (tableSpace k) (tableBase + 0x800) 2048 (enumTable s k) .nobody) s
  let key := Config.sm3 (i.secret ++ Config.sm3 i.image)
  { s with pkg := { s.pkg with meas := s.pkg.meas ++ [Config.sm3 (leBytes 2048 (enumTable s 0))], identity := Config.sm2Public key } }

/-- Cold reset and the boot sequence: the part enters service, or stays held in reset with the step that failed.  An image
of another part, or of a part of no grade, is one that this part never finds, and changes nothing (DESIGN CHOICE, log 117). -/
def execColdReset (i_ : BootImage) (s : State) : Out :=
  if !samePart s i_ || !gradeOk i_ then .next s
  else
  let u := heldInReset s (keptCells s fun _ => true)
  let t := { u with pkg := { u.pkg with fused := true, order := i_.order, fusedCols := i_.fusedCols, fusedCores := i_.fusedCores, fusedLinks := i_.fusedLinks } }
  let n := bootFailure s.pkg.feeds i_
  .next (if n = 0 then bootedState t i_ else { t with pkg := { t.pkg with bootFail := n, linkUp := i_.linkOk } })

end Sys2Proof.Machine
end

