-- ==== Sys2Proof/Machine/Channels.lean ====
section
/-! DEFINITION. Events of the memory channels, hardware errors, and die-link errors (R68, R445, R449 to R457, R469). -/

namespace Sys2Proof.Machine

/-! ### Requests at a controller (R449 to R453) -/

/-- Whether an earlier request of the same line is still to be performed (R451). -/
def heldBack (c : Chan) (r : ChanReq) : Bool :=
  c.tags.any fun x => x.2.addr == r.addr && x.2.performed.isNone && decide (x.2.order < r.order)

/-- Whether a response has to follow that of an earlier write of the same line (R451). -/
def answerHeld (c : Chan) (r : ChanReq) : Bool :=
  c.tags.any fun x => x.2.addr == r.addr && x.2.op != 1 && decide (x.2.order < r.order)

/-- The row key of a local address (R447). -/
def rowKey (loc : Nat) : Nat := loc / 2 ^ 16 % 16 * 4096 + loc / 2 ^ 20 % 4096

/-- The four bits of a refresh filter that a row key tests (R455). -/
def filterBits (x : Nat) : List Nat := [0x9E37, 0x85EB, 0xC2B3, 0x27D5].map fun m => x * m % 65536 / 8

/-- Whether a row key is present in a filter (R455). -/
def inFilter (f : List Nat) (x : Nat) : Bool := (filterBits x).all f.contains

/-- A filter with a row key inserted. -/
def addFilter (f : List Nat) (x : Nat) : List Nat := f ++ ((filterBits x).eraseDups.filter fun b => !f.contains b)

/-- Demote a row of a pseudo-channel, and count it (R456, R457). -/
def demote (s : State) (k loc : Nat) : State :=
  let c := chanAt s k
  let x := rowKey loc
  if inFilter c.b0 x then s
  else
    let c := if inFilter c.b1 x then { c with b0 := addFilter c.b0 x } else { c with b1 := addFilter c.b1 x }
    bumpChan { s with chans := fset s.chans k c } (k / 32) fun x => { x with demoted := satInc16 x.demoted }

/-- The machine check of a channel error (R445, R456): KIND 6 or 7 of UNIT 9, in the partition of a line, or of the column
that is told where no line is known. -/
def channelCheck (s : State) (kind cell : Nat) (line : Option Nat) : State :=
  let quad := cellGroup cell / 16
  let part := match line with
    | some l => (spaceOfLine s l).part
    | none => ((ffind s.cols (quadColumn s quad)).map (·.part)).getD 0
  (machineCheck s part
    { kind := kind, unit := 9, col := none, quad := quad, core := 0xFF, index := chanIndex cell
      asid := (line.map fun l => lineTag l % 2 ^ 16).getD 0xFFFF, va := (line.map lineVa).getD 0
      info := Config.syndrome s.freeCtr }).1

/-- What the error-correcting code finds in a read of a line's cell: counts, demotion, poison and records (R456, R457). -/
def flawFound (s : State) (cell : Nat) (line : Option Nat) : EccFlaw → State
  | .none | .malformed => s
  | .corrected =>
    let s := bumpChan s (cellGroup cell) fun x => { x with corrected := satInc16 x.corrected }
    channelCheck (demote s (chanKey cell) (cell % 2 ^ 32)) 6 cell line
  | .uncorrectable =>
    let s := bumpChan s (cellGroup cell) fun x => { x with uncorr := satInc16 x.uncorr }
    channelCheck (poisonCell s cell) 7 cell line

/-- Whether a write mask touches an ECC word that it does not fill (R453). -/
def partialWord (m : BitVec 128) : Bool :=
  (List.range 4).any fun i => m.extractLsb' (32 * i) 32 != 0#32 && m.extractLsb' (32 * i) 32 != BitVec.allOnes 32

/-- What the read step of a masked write finds (R453): a corrected word counts in CORRECTED (R457), and demotes no row, which a
patrol read or an RD alone does (R456). -/
def stepFlaw (s : State) (cell line : Nat) : EccFlaw → State
  | .corrected => bumpChan s (cellGroup cell) fun x => { x with corrected := satInc16 x.corrected }
  | f => flawFound s cell (some line) f

/-- Perform the request of a tag, of an operation, if nothing earlier of its line is outstanding. -/
def performTag (s : State) (g pc tag op : Nat) (flaw : EccFlaw) : State :=
  let k := 32 * g + pc
  let c := chanAt s k
  match ffind c.tags tag with
  | none => s
  | some r =>
    if r.op ≠ op ∨ r.performed.isSome ∨ heldBack c r then s
    else
      let cell := hbmCell g r.addr
      let flaw := if flaw = .malformed ∨ op = 1 ∨ (op = 3 ∧ partialWord r.mask) then flaw else .none
      let x := performReq s cell r flaw
      let s := { x.1 with chans := fset x.1.chans k { c with tags := fset c.tags tag { r with performed := some x.2 } } }
      if op = 3 then stepFlaw s cell r.line flaw else flawFound s cell (some r.line) flaw

def execHbmRd (g pc tag : Nat) (flaw : EccFlaw) (s : State) : Out := .next (performTag s g pc tag 1 flaw)
def execHbmWr (g pc tag : Nat) (flaw : EccFlaw) (s : State) : Out := .next (performTag s g pc tag 2 flaw)
def execHbmWrm (g pc tag : Nat) (flaw : EccFlaw) (s : State) : Out := .next (performTag s g pc tag 3 flaw)

/-- A line is poisoned at its home (R445). -/
def poisonHome (s : State) (line : Nat) : State :=
  match installHome s (spaceOfLine s line) line with
  | .ok (s, h) => setHome s line { h with poison := some 0#128 }
  | .error _ => s

/-- Status 3: the port treats the line as poisoned (R449). -/
def malformedReply (s : State) (cell line : Nat) : State := channelCheck (poisonHome s line) 7 cell (some line)

/-- A response reaches the port. -/
def answerTag (s : State) (g pc tag : Nat) (read : Bool) : State :=
  let k := 32 * g + pc
  let c := chanAt s k
  match ffind c.tags tag with
  | none => s
  | some r =>
    if r.performed.isNone ∨ (r.op == 1) ≠ read ∨ answerHeld c r then s
    else
      let s := releaseTag s k tag
      let s := if r.performed.any fun x => x.1 == 3 then malformedReply s (hbmCell g r.addr) r.line else s
      match r.fillFor with
      | none => s
      | some (sharer, who) => servePrefetch s r.line sharer who

def execHbmRdata (g pc tag : Nat) (s : State) : Out := .next (answerTag s g pc tag true)
def execHbmWack (g pc tag : Nat) (s : State) : Out := .next (answerTag s g pc tag false)

/-- A refresh keeps the contents of its row and changes nothing that the state holds (R454). -/
def execRefresh (_g _pc _row : Nat) (s : State) : Out := .next s

/-- A patrol read of the ECC word at a local address; it uses no tag (R456). -/
def execPatrolRead (g addr : Nat) (flaw : EccFlaw) (s : State) : Out :=
  .next (flawFound s (hbmCell g (addr / 128 * 128)) none flaw)

/-! ### Hardware errors (R68, R445) -/

/-- Partition of a column. -/
def colPart (s : State) (col : Nat) : Nat := ((ffind s.cols col).map (·.part)).getD 0

/-- Physical index of a core, 0xFF for none. -/
def physOf (s : State) (core : Option Nat) : Nat := ((core.bind fun c => ffind s.cores c).map (·.phys)).getD 0xFF

/-- The machine check of an error in an array of a column (R445). -/
def arrayCheck (s : State) (kind unit col : Nat) (core : Option Nat) (at_ : Nat) (line : Option Nat) : State :=
  (machineCheck s (colPart s col)
    { kind := kind, unit := unit, col := some col, quad := 0, core := physOf s core, index := if unit = 2 then sliceSet at_ else Config.setIndex at_
      asid := (line.map fun l => lineTag l % 2 ^ 16).getD 0xFFFF, va := (line.map lineVa).getD 0
      info := Config.syndrome s.freeCtr }).1

/-- UNIT of a cache by its sharer code: L1 or slice. -/
def cacheUnit (sharer : Nat) : Nat := if 512 ≤ sharer ∧ sharer < 768 then 2 else 1

/-- The core of an L1 by its sharer code. -/
def cacheCore (sharer : Nat) : Option Nat := if sharer < 256 then some sharer else none

/-- Column and core of a group. -/
def groupPlace (s : State) (g : Nat) : Nat × Option Nat :=
  match ffind s.groups g with
  | some p => (coreCol s p.core, some p.core)
  | none => (0, none)

/-- A dirty line held by a cache is lost: a copy held exclusively and dirty, or a slice's column-private dirty bytes. -/
def loseDirty (s : State) (sharer line : Nat) : State :=
  let col := sharerCol s sharer
  if 512 ≤ sharer ∧ sharer < 768 ∧ (privAt s line col).isSome then poisonHome (dropPriv s line col) line
  else if (ffind s.copies (copyKey line sharer)).any fun c => c.excl && c.dirty != 0#128 then
    let s := dropCopy s line sharer
    poisonHome { s with home := fmod s.home line fun h => h.free sharer } line
  else s

/-- Whether a cache holds a line dirty. -/
def heldDirty (s : State) (sharer line : Nat) : Bool :=
  (512 ≤ sharer && decide (sharer < 768) && (privAt s line (sharerCol s sharer)).isSome) ||
  (ffind s.copies (copyKey line sharer)).any fun c => c.excl && c.dirty != 0#128

/-- The 128 bytes of a scratchpad line are lost: they are free values, and the lines mapped onto them are poisoned at their
homes. -/
def loseScratch (s : State) (b o : Nat) : State :=
  let o := o / 128 * 128
  let d : LineData := BitVec.ofNat 1024 ((List.range 16).foldl (fun n i => n + (Config.fresh (s.freeCtr + i)).toNat * 2 ^ (64 * i)) 0)
  let t := spmLineWrite { s with freeCtr := s.freeCtr + 16 } b o d (BitVec.allOnes 128) .nobody
  (mappedNames t b o).foldl poisonHome t

/-- A hardware error. -/
def softError (s : State) : SoftErr → State
  | .corrected unit col core =>
    if [1, 2, 3, 4, 5, 7, 8].contains unit then arrayCheck s 1 unit col (if core < 256 then some core else none) s.freeCtr none else s
  | .cleanCopy sharer line =>
    if (ffind s.copies (copyKey line sharer)).isSome && !heldDirty s sharer line then
      let s := arrayCheck s 2 (cacheUnit sharer) (sharerCol s sharer) (cacheCore sharer) line (some line)
      let s := dropCopy s line sharer
      send s (.notice sharer line)
    else s
  | .code col core => arrayCheck s 2 5 col (if core < 256 then some core else none) s.freeCtr none
  | .dirtyCopy sharer line =>
    if heldDirty s sharer line then
      arrayCheck (loseDirty s sharer line) 3 (cacheUnit sharer) (sharerCol s sharer) (cacheCore sharer) line (some line)
    else s
  | .dirtyHome line =>
    match ffind s.home line with
    | some h => if h.dirty = 0#128 then s else arrayCheck (poisonHome s line) 3 2 h.col none line (some line)
    | none => s
  | .scratch block off =>
    match ffind s.blocks block with
    | some b =>
      if off < b.spmBytes then
        let names := mappedNames s block (off / 128 * 128)
        arrayCheck (loseScratch s block off) 3 4 (coreCol s b.core) (some b.core) off names.head?
      else s
    | none => s
  | .parityPassed group =>
    if (ffind s.groups group).isSome then
      let p := groupPlace s group
      arrayCheck s 4 6 p.1 p.2 group none
    else s
  | .parityFailed group unit lanes =>
    match ffind s.groups group with
    | some g =>
      if [6, 7, 8].contains unit && g.th.run == .running && g.place == .resident then
        let p := groupPlace s group
        raiseTrap (arrayCheck s 5 unit p.1 p.2 group none) (.group group) (.of cRegParity lanes)
      else s
    | none => s
  | .seqParity block =>
    match ffind s.blocks block with
    | some b =>
      if (b.run == .running || b.run == .stopping) && b.seq.run == .running && !b.seq.ended then
        takeTrap (arrayCheck s 5 7 (coreCol s b.core) (some b.core) block none) (.seq block) (.of cRegParity 0#32)
      else s
    | none => s
  | .deviceHalf line =>
    let sp := spaceOfLine s line
    if (homeState s sp line).cxl then
      match lineCell s sp.part line true with
      | .ok (s, cell, _) => poisonCell s cell
      | .error _ => s
    else s
  | .deviceFlush port ok => { s with cxl := fmod s.cxl port fun p => { p with flushOk := ok } }

def execSoftError (e : SoftErr) (s : State) : Out := .next (softError s e)

/-! ### Die links (R469) -/

/-- An error of UCIe module m that retry cannot correct: a machine check, every black box frozen, every column stopped. -/
def execDieLinkError (m : BitVec 2) (s : State) : Out :=
  let quad := 1 + m.toNat / 2
  let s := (machineCheck s (colPart s (quadColumn s quad))
    { kind := 10, unit := 10, col := none, quad := quad, core := 0xFF, index := m.toNat, asid := 0xFFFF, va := 0
      info := Config.syndrome s.freeCtr }).1
  let s := s.cols.foldl (fun s c => freezeBox s c.1) s
  .next { s with pkg := { s.pkg with halted := true } }

end Sys2Proof.Machine
end

