-- ==== Sys2Proof/Machine/Turns.lean ====
section
/-! DEFINITION. Turns: which agents can issue, and the fetch and decoding of the word an agent issues (R34 to R39,
R177, R195 to R198, R337). -/

namespace Sys2Proof.Machine

/-- Whether a block's streams may issue (R43). -/
def blockRuns (s : State) (b : Nat) : Bool :=
  (ffind s.blocks b).any fun x => x.run == .running || x.run == .stopping

/-- Whether a group may issue (R39). -/
def groupRuns (s : State) (g : Nat) : Bool :=
  (ffind s.groups g).any fun p => p.place == .resident && p.th.run == .running && blockRuns s p.block

/-- Whether an agent's stream may issue a word while the columns run (R39). -/
def streamRuns (s : State) : AgentId → Bool
  | .host c t => (ffind s.hosts (hostKey c t)).any fun h => h.th.run == .running
  | .group g => groupRuns s g
  | .gang g k => groupRuns s g && ((ffind s.groups g).bind fun p => gangOf p k).any fun x => x.wait.isNone
  | .seq b => blockRuns s b && (ffind s.blocks b).any fun x => x.seq.run == .running && !x.seq.ended

/-- Whether a group is held at a safe point for a request to stop its block (R43, R425). -/
def heldAtSafePoint (s : State) (g : Nat) : Bool :=
  (ffind s.groups g).any fun p => ((ffind s.blocks p.block).any fun b => b.run == .stopping) && groupStoppable s g p

/-- Whether a thread's streams let an agent issue: while a word replays, its own stream alone (R47); while a trap is pending, a gang
that has a word issued in part, and the scalar stream to take it (R45). -/
def itsTurn (s : State) (a : AgentId) : Bool :=
  ((threadOf s a).bind (·.replays)).all (· == a) && match a with
    | .gang g k => (dueTrap s a).isNone || ((ffind s.groups g).bind fun p => gangOf p k).any fun x => x.again.isSome && !x.traps
    | _ => true

/-- Whether an agent's stream may issue a word (R39, R43, R170, R469). -/
def canIssue (s : State) (a : AgentId) : Bool :=
  !s.pkg.halted && streamRuns s a && itsTurn s a && match a with
    | .group g | .gang g _ => !heldAtSafePoint s g && movesDone s g && (ffind s.groups g).all fun p => blockArrived s p.block
    | .seq b => blockArrived s b
    | _ => true

/-- What the fetch of an agent's word gives: an instruction to execute, or the state in which the turn ends. -/
inductive Issue
  | run (s : State) (i : Instr)
  | ended (s : State)
  deriving DecidableEq, Repr

/-- A fetch or a decoding that ends in a trap, a park or a wait. -/
def failIssue (s : State) (e : Exit) : Issue := .ended (settle s (.error e))

/-- Fetch and decode a scalar word (R177, R198, R337). -/
def issueScalar (s : State) (a : AgentId) : Issue :=
  let pc := ((threadOf s a).map (·.pc.toNat)).getD 0
  if !inScalarSeg s pc then failIssue s (trapOf cSegLeave)
  else if pc % 4 ≠ 0 then failIssue s (trapOf cBadTarget)
  else match fetchUnit s a pc with
    | .error m => failIssue s (m.exit 3 0#32)
    | .ok (s, w) =>
      match decodeScalar w with
      | .ok i => .run s i
      | .error r => failIssue s (trapOf (rejectCause r))

/-- A run reaches its RUN_MAX-th word without a boundary bit (R35). -/
def forcedEnd (s : State) (g k : Nat) : State :=
  let core := ((ffind s.groups g).map (·.core)).getD 0
  modCore (modGroup s g fun p => p.modGang k fun x => { x with runLen := 0 }) core fun c => { c with runForced := satInc32 c.runForced }

/-- Fetch and decode a lane word of a gang with its mask word (R177, R195, R198, R337); one that falls through past the last index goes
on fetching at the next (DESIGN CHOICE, log 135). -/
def issueLane (s : State) (g k : Nat) : Issue :=
  match (ffind s.groups g).bind fun p => (p.task.bind fun t => (gangOf p k).map fun x => (t, x)) with
  | none => .ended s
  | some (t, x) =>
    let lanes := gangLanes t x
    if !inLaneSeg s x.pc then failIssue s (.trap (.of cSegLeave lanes) none)
    else match fetchLane s (.gang g k) x.pc with
      | .error m => failIssue s (m.exit 3 lanes)
      | .ok (s, l) =>
        match decode .lane l with
        | .ok (m, i, _) => .run (modGroup s g fun p => p.modGang k fun y => { y with mask := m }) i
        | .error r => failIssue s (.trap (.of (rejectCause r) lanes) none)

/-- Whether a sequencer's address lies in the matrix code of its block's segment, where it has one (R335, R337). -/
def inMatrixSeg (s : State) (x : Block) (pc : Nat) : Bool :=
  (x.seg.bind fun n => ((ffind s.regions x.region).bind (·.march)).bind fun m => m.segs[n]?).all fun g =>
    decide (g.matrixLo ≤ pc) && decide (pc < g.matrixHi)

/-- Fetch and decode a matrix word (R177, R198); a holder block's sequencer that runs past its segment faults, since code of no
segment is never executed (R335; the cause is DEDUCED from R337, log 104). -/
def issueMatrix (s : State) (b : Nat) : Issue :=
  match ffind s.blocks b with
  | none => .ended s
  | some x =>
    if !inMatrixSeg s x x.seq.mpc.toNat then failIssue s (trapOf cBadTarget)
    else match fetchUnits s (.seq b) x.seq.mpc.toNat 2 with
    | .error m => failIssue s (m.exit 3 0#32)
    | .ok (s, l) =>
      match decodeMatrix (BitVec.ofNat 64 (leNat l)) with
      | .ok i => .run s i
      | .error r => failIssue s (trapOf (rejectCause r))

/-- A host thread takes a fault held for it before its next word (R329). -/
def issueHost (s : State) (a : AgentId) : Issue :=
  match deliverHeld s fun _ => true with
  | .error e => failIssue s e
  | .ok _ => issueScalar s a

/-- The word an agent issues next, if it can issue one; a pending trap is taken first, a run that has reached RUN_MAX ends first. -/
def issueWord (s : State) (a : AgentId) : Issue :=
  if !canIssue s a then .ended s
  else match a, dueTrap s a with
    | .host _ _, some t | .group _, some t => .ended (takePending s a t)
    | .seq b, _ => issueMatrix s b
    | .gang g k, _ =>
      if Config.runMax ≤ (((ffind s.groups g).bind fun p => gangOf p k).map (·.runLen)).getD 0 then .ended (forcedEnd s g k)
      else issueLane s g k
    | .host _ _, none => issueHost s a
    | .group _, none => issueScalar s a

/-- Every agent, in a fixed order. -/
def allAgents (s : State) : List AgentId :=
  s.hosts.map (fun h => AgentId.host (h.1 / 2) (h.1 % 2 == 1)) ++
  s.groups.flatMap (fun p => AgentId.group p.1 :: ((p.2.task.map (·.gangs)).getD []).filterMap fun x =>
    (bitsSet x.slices).head?.map fun k => AgentId.gang p.1 k) ++
  s.blocks.map fun b => AgentId.seq b.1

/-- Issue port of a group's stream: its core, its pipe, and whether it is the scalar one (R34, R37). -/
def portOf (s : State) (a : AgentId) : Option (Nat × Nat × Bool) :=
  ((groupOf a).bind fun g => ffind s.groups g).map fun p => (p.core, p.slot % 4, match a with
    | .gang _ _ => false
    | _ => true)

/-- Words that an agent's port has issued for others while it was ready. -/
def lostOf (s : State) : AgentId → Nat
  | .gang g k => ((ffind s.groups g).bind fun p => gangOf p k).elim 0 (·.lost)
  | .group g => (ffind s.groups g).elim 0 (·.lost)
  | _ => 0

/-- Standing of a ready stream at its port (R34, R36): a run that has begun, then a promoted one, then the region's priority; among
equals the one that has been ready for longest.  A run that has lost 2,048 words is promoted. -/
def standing (s : State) (a : AgentId) : Nat :=
  let gang := match a with
    | .gang g k => (ffind s.groups g).bind fun p => gangOf p k
    | _ => none
  let prio := (((groupOf a).bind fun g => ffind s.groups g).bind fun p => ffind s.regions p.region).elim 0 (·.prio)
  if gang.any fun x => x.runLen != 0 then 2 ^ 64
  else if 2048 ≤ lostOf s a ∨ gang.any (·.promoted) then 2 ^ 32 + lostOf s a
  else prio * 2 ^ 12 + lostOf s a

/-- Whether one of a list of ready streams has a better standing at a stream's port. -/
def outranked (s : State) (l : List AgentId) (a : AgentId) : Bool :=
  (portOf s a).any fun p => l.any fun b => portOf s b == some p && decide (standing s a < standing s b)

/-- The agent that an empty schedule lets issue: the first one after the current agent, in cyclic order, that can and that no other of
its port comes before (R36, R422). -/
def nextAgent (s : State) : Option AgentId :=
  let ready := (allAgents s).filter (canIssue s)
  let l := (allAgents s).filter fun a => (canIssue s a && !outranked s ready a) || a == s.cur
  let after := (l.dropWhile (· != s.cur)).drop 1
  (after ++ l).find? fun a => canIssue s a && !outranked s ready a

/-- Set the count of words that a stream has lost. -/
def setLost (s : State) (n : Nat) : AgentId → State
  | .gang g k => modGroup s g fun p => p.modGang k fun x => { x with lost := n }
  | .group g => modGroup s g fun p => { p with lost := n }
  | _ => s

/-- A stream issues: the others that are ready at its port have lost one more word (R36). -/
def tally (s : State) (a : AgentId) : State :=
  let mates := (allAgents s).filter fun b => b != a && canIssue s b && (portOf s b).isSome && portOf s b == portOf s a
  setLost (mates.foldl (fun s b => setLost s (lostOf s b + 1) b) s) 0 a

/-- While time passes each target may evict translations that it has cached; which ones is a free choice (R432). -/
def evictWalks (s : State) : State :=
  { s with tlb := (s.tlb.zipIdx.filter fun x => Config.choice (s.freeCtr + x.2) % 2 == 0).map Prod.fst
           freeCtr := s.freeCtr + s.tlb.length }

/-- Counts of the timestamp pass (R18). -/
def passTime (s : State) (n : Nat) : State := evictWalks { s with ns := s.ns + n }

/-- The state that an outcome leaves. -/
def outState (s : State) : Out → State
  | .next t => t
  | _ => s

/-- Whether a message can be delivered now: it is the first of its order, and its target can take it. -/
def deliverable (s : State) (m : Msg) : Bool :=
  match m.kind with
  | .write _ _ _ _ _ _ => inOrder s m && !waitsAtHome s m.kind
  | .ack (.stub _ g) => stubOpen s g
  | .ack (.push id) => (stubPush s id).all fun x => stubOpen s x.2
  | .fill _ _ _ _ | .inval _ _ _ | .update _ _ _ _ => isFirst s m && inOrder s m
  | .spmWrite line _ _ _ => firstForward s m.id line && !((mappedAt s (lineTag line) (lineVa line)).any fun x => mapStopped s x.2.2)
  | .flit f r b g _ _ =>
    firstFlit s m.id f r b g && match flitTarget s r b g with
      | some (_, p) => p.th.run == .done || flitRoom s p
      | none => !((ffind s.regions r).any fun x => !x.finished && (x.march.isSome || decide (x.placed ≤ b)))
  | .ack _ | .resp _ | .notice _ _ | .remote _ | .rdata _ _ _ => true

/-- Deliver a message; a refused flit is sent again first. -/
def deliverMsg (s : State) (m : Msg) : State :=
  match m.kind with
  | .write _ _ _ _ _ _ => outState s (execWriteAtHome m.id s)
  | .ack (.stub _ _) => outState s (execStubForward m.id s)
  | .ack (.push id) => if (stubPush s id).isSome then outState s (execStubForward m.id s) else outState s (execWriteAck m.id s)
  | .ack _ => outState s (execWriteAck m.id s)
  | .fill _ _ _ _ | .inval _ _ _ | .update _ _ _ _ => deliverToCache s m
  | .notice _ _ => outState s (execEvictionNotice m.id s)
  | .rdata line sharer who => servePrefetch (takeMsg s m.id) line sharer who
  | .spmWrite _ _ _ _ => outState s (execSpmForward m.id s)
  | .flit _ _ _ _ _ _ => let s := markFlit s m.id false; outState s (execFlitDelivery m.id s)
  | .resp w => modWho (takeMsg s m.id) w fun th => { th with atomics := th.atomics - 1 }
  | .remote n =>
    match ffind s.remote n with
    | none => takeMsg s m.id
    | some r => if r.write then remoteAck (takeMsg s m.id) n r else remoteAnswer (takeMsg s m.id) n r

/-- The oldest message in flight that can be delivered, delivered; none once the columns have stopped (R469). -/
def nextMessage (s : State) : Option State := if s.pkg.halted then none else (s.net.find? (deliverable s)).map (deliverMsg s)

/-- The first channel that holds requests answers the one that its controller received first (R451). -/
def nextAnswer (s : State) : Option State :=
  if s.pkg.halted then none
  else (s.chans.find? fun c => !c.2.tags.isEmpty).bind fun c => (oldestTag c.2 fun _ => true).map (finishReq s c.1)

/-- Whether an event takes place while every column is stopped: those of the environment and of the management core
(R469). -/
def outsideColumns : Instr → Bool
  | .feedChange _ _ | .coldReset _ | .hostFrameWrite _ _ _ | .doorbell _ _ | .launchFrame | .copyFrame | .queryFrame | .attestFrame
  | .healthRead | .blackBoxRead | .blackBoxUnfreeze | .hostThreadRestart | .blackBoxFreezeAll | .packageReset | .dcCapacityEvent _
  | .capacityWithdrawal _ _ _ | .governorSample _ | .throttleChange _ => true
  | _ => false

/-- Whether a row of the opcode table is a part of what some word does: it happens in that word's step. -/
def partOfWord : Instr → Bool
  | .portSend _ | .portReceive _ | .fcsrWrite _ | .segHotClear _ | .colPwrFloorWrite _ | .hostClkReqWrite _ | .registerWrite _ _ => true
  | _ => false

/-- Whether a row of the opcode table happens as an event of its own: it is no word and no part of a word, and the
machine is in a state to take it. -/
def eventRuns (s : State) (i : Instr) : Bool :=
  (encode none i).isNone && !partOfWord i && (!s.pkg.halted || outsideColumns i)

end Sys2Proof.Machine
end

