-- ==== Sys2Proof/Machine/Events.lean ====
section
/-! DEFINITION. Events of the cores: the debugger, faults that wait, replays, runs, chunks, Winter and power gating
(R35, R36, R40, R47, R56, R67, R72, R395, R437, R443, R485, R486). -/

namespace Sys2Proof.Machine

/-! ### The debugger (R56, R67, R72) -/

/-- A debugger's access to word n of a group: an unbacked word and a bank in Winter are told in REG_STATUS. -/
def debugTouch (s : State) (g n : Nat) (p : Group) : State :=
  if !p.backed n then modGroup s g fun p => { p with regStatus := setBit p.regStatus 0 true }
  else
    let b := wordBankOf p n
    let cold := (ffind s.cores p.core).any fun c => c.winter.contains b
    let s := wakeBanks s p.core [b]
    if cold then modGroup s g fun p => { p with regStatus := setBit p.regStatus 1 true } else s

/-- Whether a group has its registers on a core. -/
def onCore (p : Group) : Bool := p.place.inSlot

/-- The debugger is given the word of the lane, zero where the word is not backed. -/
def execDebuggerRead (g : Nat) (l : BitVec 5) (n : BitVec 8) (s : State) : Out :=
  .next (match ffind s.groups g with
    | some p =>
      if onCore p then
        { debugTouch s g n.toNat p with debugValue := if p.backed n.toNat then p.vword l.toNat n.toNat else 0#32 }
      else s
    | none => s)

def execDebuggerWrite (g : Nat) (l : BitVec 5) (n : BitVec 8) (v : Word32) (s : State) : Out :=
  .next (match ffind s.groups g with
    | some p =>
      if !onCore p then s
      else
        let s := debugTouch s g n.toNat p
        if p.backed n.toNat then modGroup s g fun p => p.setVword l.toNat n.toNat v else s
    | none => s)

/-! ### Fault records that wait (R395) -/

def execFaultRecordRetry (n : Nat) (s : State) : Out :=
  .next (match ffind s.faultWait n with
    | none => s
    | some w =>
      match areaAppend s w.part w.hdr w.data.toNat with
      | some t => { t with faultWait := fdel t.faultWait n }
      | none => s)

/-! ### Replays (R47, R437, R443) -/

/-- What still keeps a parked access from its line, if anything: the state and the pending fault that it parks with. -/
def stillMissing (s : State) (e : Env) (p : Park) : Option Park :=
  let sp := { e.sp with tag := p.asid }
  let key := sp.key p.va.toNat
  let again (d : Deny) : Option Park :=
    match d with
    | .absent => some { p with state := if p.state = 3 then 3 else 1, woken := false }
    | .poisoned => some { p with state := 2, woken := false }
    | _ => none
  if p.kind = 1 then
    match checkWrite s e sp key with
    | .ok _ => none
    | .error (.deny .prot _ _) => if p.state = 3 then some { p with woken := false } else none
    | .error (.deny d _ _) => again d
    | .error _ => none
  else
    match readHome s sp key with
    | .ok _ => none
    | .error d => again d

/-- The trap of a fault that software has disposed of. -/
def disposedTrap (p : Park) : TrapInfo := { (TrapInfo.of cPageFault p.lanes) with va := p.va.toNat }

/-- Number of a buffer's oldest entries up to the first one at an address of an address space. -/
def throughEntry (asid va : Nat) : List SbEntry → Nat
  | [] => 0
  | x :: t => if x.asid = asid ∧ x.va = va then 1 else throughEntry asid va t + 1

/-- A store that was restored without permission is performed, with those ahead of it; then the rest is checked. -/
def replayStore (s : State) (g : Nat) (p : Park) : State :=
  let n := throughEntry p.asid p.va.toNat (sbOf s (.group g))
  let s := modThread s (.group g) fun th => { th with sb := th.sb.zipIdx.map fun x => if x.2 < n then { x.1 with checked := true } else x.1 }
  recheckStores ((drainN s (.group g) n).getD s) g

/-- Such a store is dropped, it alone; the rest is checked, and one of them that parks the group does so after the trap. -/
def dropStore (s : State) (a : AgentId) (p : Park) : State :=
  modThread s a fun th =>
    let n := throughEntry p.asid p.va.toNat th.sb
    { th with sb := th.sb.take (n - 1) ++ th.sb.drop n }

/-- A woken thread's word issues again, or the thread takes PAGE_FAULT; a restored store is performed or dropped. -/
def replayThread (s : State) (a : AgentId) (p : Park) : State :=
  let e := envOf s a
  let free (s : State) : State :=
    modThread (freePft s e.sp.part (pftSlot s a)) a fun th => { th with run := .running, replays := none }
  if pftDispose s e.sp.part (pftSlot s a) then
    let s := ((threadOf s a).bind (·.replays)).elim s (unlatch s)
    takeTrap (if p.state = 3 then dropStore (free s) a p else free s) a (disposedTrap p)
  else match p.state, a with
    | 3, .group g =>
      match stillMissing s e p with
      | some q => takePark s a q
      | none => replayStore (free s) g p
    | _, _ => modThread s a fun th => { th with run := .running }

/-- A woken sequencer's word issues again, or it takes PAGE_FAULT. -/
def replaySeq (s : State) (b : Nat) (p : Park) : State :=
  let a := AgentId.seq b
  let e := envOf s a
  let go (s : State) (more : Bool) : State := modBlock s b fun x => { x with seq := { x.seq with run := .running, replays := more } }
  if pftDispose s e.sp.part (pftSlot s a) then takeTrap (go (freePft s e.sp.part (pftSlot s a)) false) a (disposedTrap p)
  else go s true

/-- First element of an operation whose source or destination lies in the line of an address. -/
def parkElem (r : IRec) (va : Nat) : Word32 :=
  match (boxCoords (edSizes r.desc (tidRank r.dst.raw))).findIdx? fun j =>
      elemAddr r.dst.raw (edDorg r.desc) j none / 128 == va / 128 || elemAddr r.src.raw (edSorg r.desc) j none / 128 == va / 128 with
  | some i => BitVec.ofNat 32 i
  | none => noElem

/-- A woken operation goes on, or ends with PAGE_FAULT. -/
def replayOperation (s : State) (key : Nat) (r : IRec) (p : Park) : State :=
  let part := r.part
  let dispose := pftDispose s part (engSlot key)
  let s := freePft s part (engSlot key)
  if dispose then failOperation s key r cPageFault (parkElem r p.va.toNat) p.va.toNat
  else
    let r := { r with run := .running }
    let s := modRec s key fun _ => r
    ((landLine s key r).settle s key r).1

/-- Every woken operation that an agent issued. -/
def replayOperations (s : State) (a : AgentId) : State :=
  let w := (envOf s a).who
  s.irecs.foldl (fun s r => match r.2.run with
    | .parked p => if p.woken && (r.2.who == w || r.2.parts.any fun x => Who.grp x.group == w) then replayOperation s r.1 r.2 p else s
    | _ => s) s

/-- The access that an agent, or an operation of its, has parked on replays once it has been woken. -/
def execPageFaultReplay (a : AgentId) (s : State) : Out :=
  let run : Option Run := match a with
    | .seq b => (ffind s.blocks b).map (·.seq.run)
    | a => (threadOf s a).map (·.run)
  let t := match run, a with
    | some (.parked p), .seq b => if p.woken then replaySeq s b p else s
    | some (.parked p), a => if p.woken then replayThread s a p else s
    | _, _ => s
  .next (replayOperations t a)

/-! ### Runs (R35, R36) and chunks (R40) -/

/-- Apply a function to a gang. -/
def modGangAt (s : State) (g k : Nat) (f : Gang → Gang) : State := modGroup s g fun p => p.modGang k f

def execRunForcedEnd (g k : Nat) (s : State) : Out :=
  .next (if ((ffind s.groups g).bind fun p => gangOf p k).any fun x => decide (Config.runMax ≤ x.runLen) then forcedEnd s g k else s)

/-- The rest of a run enters arbitration as a new run. -/
def execRunSplit (g k : Nat) (s : State) : Out := .next (modGangAt s g k fun x => { x with runLen := 0, promoted := false })

def execRunPromotion (g k : Nat) (s : State) : Out :=
  .next (if streamRuns s (.gang g k) then modGangAt s g k fun x => { x with promoted := true } else s)

def execXacqGrant (b : Nat) (s : State) : Out := .next (retryChunks s b)

/-! ### Winter and power gating (R67, R485, R486) -/

/-- Core of a bank. -/
def bankCore : Bank → Nat
  | .base c _ | .chunk c _ | .opfile c _ | .handler c _ _ | .accRows c _ => c
  | .array p => match p with
    | .lanePipe c _ | .sfu c | .matrix c | .regBanks c _ | .opFiles c | .accRows c _ | .spmUnits c _ => c
    | .sliceWays col _ => 256 + col

def execWinterEntry (b : Bank) (s : State) : Out :=
  .next (modCore s (bankCore b) fun c => if c.winter.contains b then c else { c with winter := b :: c.winter })

/-- Regions of one core, in ascending order of their numbers. -/
def coreRegions (c : Nat) : List PowerRegion :=
  (List.range 4).map (.lanePipe c) ++ [.sfu c, .matrix c] ++ (List.range 10).map (.regBanks c) ++ [.opFiles c] ++
    (List.range 32).map (.accRows c) ++ (List.range 28).map (.spmUnits c)

/-- Whether an amount that the blocks of a core hold leaves one more part of an array free: its parts, those gated, the
amount a part holds. -/
def leavesPart (l : List Block) (f : Block → Nat) (parts gated size : Nat) : Bool :=
  decide (l.foldl (fun n b => n + f b) 0 + size * (gated + 1) ≤ size * parts)

/-- Whether a region of a core holds no allocated state. -/
def regionFree (s : State) (c : Core) (core : Nat) (p : PowerRegion) : Bool :=
  let l := residentOn s core
  let count (f : PowerRegion → Bool) : Nat := (c.gated.filter f).length
  match p with
  | .regBanks _ k =>
    if 4 ≤ k ∧ k < 8 then
      leavesPart l (·.chunks) 4 (count fun q => match q with | .regBanks _ k => decide (4 ≤ k) && decide (k < 8) | _ => false) 32
    else l.all fun b => !needsRegion s b p
  | p => l.all fun b => !needsRegion s b p

/-- Zero in every word of a region's array (R27, R485, R486). -/
def Core.zeroed (c : Core) (p : PowerRegion) : Core :=
  match p with
  | .accRows _ k => { c with accs := c.accs.filter fun e => e.1 / (256 * 64) != k }
  | .spmUnits _ k => { c with sram := c.sram.filter fun e => e.1 / 65536 != k }
  | _ => c

/-- Lines that lie in the ways of a slice that are gated leave it; which ones is a free choice. -/
def emptyWays (s : State) (col : Nat) : State :=
  let pick (f : State → Nat → State) (s : State) (k : Nat) : State :=
    let t := { s with freeCtr := s.freeCtr + 1 }
    if Config.choice s.freeCtr % 2 = 1 then f t k else t
  let s := (fifoOf s col).foldl (pick fun s k => pushNow s (spaceOfLine s k) k col .nobody) s
  ((s.home.filter fun h => h.2.col == col).map Prod.fst).foldl (pick evictHome) s

/-- A region that has been idle for 100 µs and holds nothing allocated is gated, and loses what it holds. -/
def execPowerGate (p : PowerRegion) (s : State) : Out :=
  .next (match p with
    | .sliceWays col k =>
      match ffind s.cols col with
      | none => s
      | some c =>
        if 8 ≤ k ∨ c.gatedWays.contains k = true then s
        else
          let s := emptyWays s col
          { s with cols := fmod s.cols col fun c => { c with gatedWays := k :: c.gatedWays } }
    | .lanePipe c _ | .sfu c | .matrix c | .regBanks c _ | .opFiles c | .accRows c _ | .spmUnits c _ =>
      match ffind s.cores c with
      | none => s
      | some x =>
        if (coreRegions c).contains p && !x.gated.contains p && regionFree s x c p then
          modCore s c fun x => ({ x with gated := p :: x.gated } : Core).zeroed p
        else s)

/-- A region wakes, its array zero, in the ascending order of its core's: one that work waits for after those of them with lower
numbers, any other after every Gated one with a lower number; stage 5 is held while the core's detector alarms. -/
def execSpring (p : PowerRegion) (s : State) : Out :=
  .next (match p with
    | .sliceWays col k => { s with cols := fmod s.cols col fun c => { c with gatedWays := c.gatedWays.filter (· != k) } }
    | .lanePipe c _ | .sfu c | .matrix c | .regBanks c _ | .opFiles c | .accRows c _ | .spmUnits c _ =>
      match ffind s.cores c with
      | none => s
      | some x =>
        let first := ((coreRegions c).takeWhile (· != p)).all fun q => !x.gated.contains q || (x.springs.contains p && !x.springs.contains q)
        if !x.gated.contains p || !first then s
        else if x.stretch != 0 || x.halve != 0 then blackBox s x.col 8 (Config.noUnit % 256) x.phys 5#64 0#64
        else modCore s c fun x => ({ x with gated := x.gated.filter (· != p), springs := x.springs.filter (· != p) } : Core).zeroed p)

end Sys2Proof.Machine
end

