-- ==== Sys2Proof/Machine/Frames.lean ====
section
/-! DEFINITION. The message port of the external host and the frames that the management core serves (R475 to R477, R501,
R502). -/

namespace Sys2Proof.Machine

/-! ### The message port (R475) -/

/-- Bytes that land in a slot. -/
def landBytes (l : Link) (slot off : Nat) (d : List Byte) : Link :=
  { l with bytes := d.zipIdx.foldl (fun m x => if off + x.2 < 4096 then fset m (4096 * slot + off + x.2) x.1 else m) l.bytes }

/-- n bytes of a slot as a number. -/
def slotNat (l : Link) (slot off n : Nat) : Nat :=
  natOfBytes ((List.range n).map fun i => (ffind l.bytes (4096 * slot + off + i)).getD 0#8)

/-- A posted write to a slot that the host owns; one that covers its first 8 bytes with a non-zero value submits the
frame. -/
def frameWrite (s : State) (slot off : Nat) (d : List Byte) : State :=
  if !s.pkg.linkUp || decide (256 ≤ slot) || s.link.owned.contains slot then s
  else
    let l := landBytes s.link slot off d
    if off = 0 ∧ 8 ≤ d.length ∧ slotNat l slot 0 8 ≠ 0 then
      { s with link := { l with owned := slot :: l.owned, bells := l.bells ++ [slot] } }
    else { s with link := l }

def execHostFrameWrite (slot off : Nat) (d : List Byte) (s : State) : Out := .next (frameWrite s slot off d)

def execDoorbell (slot : Nat) (v : Word) (s : State) : Out := .next (frameWrite s slot 0 (leBytes 8 v.toNat))

/-! ### Frames and replies (R476) -/

abbrev frKind (x : Nat) : Nat := fieldAt x 8 1
abbrev frPart (x : Nat) : Nat := fieldAt x 9 1
abbrev frLength (x : Nat) : Nat := fieldAt x 0xC 4
/-- A field of a frame's payload. -/
def frField (x off n : Nat) : Nat := fieldAt x (0x40 + off) n

/-- Bytes of payload of a kind. -/
def kindPayload (k : Nat) : Nat := [0, 264, 24, 0, 32, 8].getD k 0

/-- Whether a frame is malformed; while no partition is formed, the management core still answers MANAGE frames. -/
def frameBad (s : State) (x : Nat) : Bool :=
  let k := frKind x
  fieldAt x 0xA 2 != 0 || fieldAt x 0x19 39 != 0 || k == 0 || decide (5 < k) || decide (kindPayload k < frLength x) ||
  !((ffind s.parts (frPart x)).isSome || (k == 5 && s.parts.isEmpty)) ||
  (k == 5 && (frField x 0 1 == 0 || decide (6 < frField x 0 1)))

/-- Bytes written to host memory. -/
def hostWrite (s : State) (at_ : Nat) (d : List Byte) : State :=
  { s with hostMem := d.zipIdx.foldl (fun m x => fset m (at_ + x.2) x.1) s.hostMem }

/-- The reply: the payload, then the header with its STATUS, SEQ last; the slot is the host's again. -/
def answerFrame (s : State) (slot x status : Nat) (payload : List Byte) : State :=
  let head := packFields [(0, 0x18, x % 2 ^ (8 * 0x18)), (0x18, 1, status), (0x19, 39, fieldAt x 0x19 39)]
  let s := hostWrite (hostWrite s (fieldAt x 0x10 8 + 0x40) (payload.take 4032)) (fieldAt x 0x10 8) (leBytes 64 head)
  { s with link := { s.link with owned := s.link.owned.filter (· != slot), bells := s.link.bells.filter (· != slot) } }

/-- The oldest submitted frame is served: a malformed one is answered with status 1, one that passes a test is acted on. -/
def serveFrame (s : State) (mine : Nat → Bool) (act : State → Nat → State × Nat × List Byte) : State :=
  match s.link.bells with
  | [] => s
  | slot :: _ =>
    let x := slotNat s.link slot 0 4096
    if frameBad s x then answerFrame s slot x 1 []
    else if mine x then
      let r := act s x
      answerFrame r.1 slot x r.2.1 r.2.2
    else s

/-- A frame of a kind other than MANAGE. -/
def ofKind (k : Nat) (x : Nat) : Bool := frKind x == k

/-- A MANAGE frame of an operation. -/
def ofOp (n : Nat) (x : Nat) : Bool := frKind x == 5 && frField x 0 1 == n

/-! ### LAUNCH, COPY, QUERY, ATTEST (R477, R501) -/

/-- The launch packet of a LAUNCH frame. -/
def framePacket (x : Nat) : LaunchPacket :=
  { src := 1023#16, column := BitVec.ofNat 8 (frField x 0 1), queue := BitVec.ofNat 8 (frField x 1 1), flags := BitVec.ofNat 8 (frField x 2 1)
    resv := 0#24, seq := wordOf (fieldAt x 0 8), record := leBytes 256 (frField x 8 256) }

def execLaunchFrame (s : State) : Out :=
  .next (serveFrame s (ofKind 1) fun s x =>
    if frField x 3 5 ≠ 0 then (s, 1, [])
    else match admitPacket s (framePacket x) .nobody with
      | (t, .value _) => (t, 0, [])
      | (t, _) => (t, 2, []))

/-- Status of an access of the management core that did not complete (R477). -/
def denyStatus : Deny → Nat
  | .absent => 4
  | _ => 2

/-- A line as the management core reads it. -/
def frameRead (s : State) (sp : Space) (va : Nat) : Except Nat (State × LineData) :=
  match mappedAt s sp.tag va with
  | some (_, _, m) => let s := landForwards s (sp.key va); .ok (s, mappedLine s m (va / 128 * 128))
  | none =>
    match readHome s sp (sp.key va) with
    | .ok (s, h) => .ok (s, h.data)
    | .error d => .error (denyStatus d)

/-- Bytes of a line as the management core writes them, acknowledged by every copy (R477). -/
def framePut (s : State) (sp : Space) (va : Nat) (d : LineData) (k : BitVec 128) : Except Nat State :=
  match mappedAt s sp.tag va with
  | some (_, _, m) => .ok (mappedWrite (landForwards s (sp.key va)) m (va / 128 * 128) d k .nobody)
  | none =>
    match reachHome s sp (sp.key va) none with
    | .ok (s, h) => if h.w then .ok (settleLine (writeHome s (sp.key va) h d k none .nobody .nobody false) (sp.key va)) else .error 2
    | .error d => .error (denyStatus d)

/-- Move bytes, a line of the package's side at a time; what has moved before a failure stays moved. -/
def moveBytes (s : State) (sp : Space) (out : Bool) (host va len : Nat) : Nat → State × Nat
  | 0 => (s, 0)
  | n + 1 =>
    if len = 0 then (s, 0)
    else
      let k := min len (128 - va % 128)
      let r : Except Nat State :=
        if out then (frameRead s sp va).map fun t => hostWrite t.1 host (bytesFrom t.2 (va % 128) k)
        else
          let v := natOfBytes ((List.range k).map fun i => (ffind s.hostMem (host + i)).getD 0#8)
          framePut s sp va (BitVec.ofNat 1024 (v * 2 ^ (8 * (va % 128)))) (maskRange 128 (va % 128) k)
      match r with
      | .ok s => moveBytes s sp out (host + k) (va + k) (len - k) n
      | .error e => (s, e)

def execCopyFrame (s : State) : Out :=
  .next (serveFrame s (ofKind 2) fun s x =>
    let len := frField x 4 4
    let va := frField x 16 8
    let sp := spaceOfLine s (lineKey (frField x 2 2) va)
    if 1 < frField x 0 1 ∨ frField x 1 1 ≠ 0 ∨ 2 ^ 24 < len then (s, 1, [])
    else if sp.part ≠ frPart x ∨ 256 ≤ frField x 2 2 ∨ addrKind va ≠ .plain ∨ (len ≠ 0 ∧ addrKind (va + len - 1) ≠ .plain) then (s, 2, [])
    else
      let r := moveBytes s sp (frField x 0 1 == 1) (frField x 8 8) va len (len / 128 + 2)
      (flushTier r.1 sp.part, r.2, []))

def execQueryFrame (s : State) : Out :=
  .next (serveFrame s (ofKind 3) fun s x =>
    (s, 0, leBytes 2048 ((hwNat s (tableSpace (frPart x)) (tableBase + 0x800) 2048).getD 0)))

/-- A list of bytes cut or filled with zeros to a length. -/
def sized (n : Nat) (l : List Byte) : List Byte := (List.range n).map fun i => l.getD i 0#8

/-- A measurement; of a part that has not been booted since `State.reset`, a free value (R500; DESIGN CHOICE,
log 142). -/
def measOf (s : State) (k : Nat) : List Byte := sized 32 (s.pkg.meas.getD k (Config.measure k))

/-- The secret from which the identity keys are derived (R500). -/
def identitySecret (s : State) : List Byte :=
  Config.sm3 ((if s.pkg.meas.isEmpty then Config.fusedSecret else s.pkg.secret) ++ measOf s 1)

/-- Reply payload of an ATTEST frame. -/
def attestPayload (s : State) (nonce : Nat) : List Byte :=
  let body := leBytes 32 nonce ++ (List.range 4).flatMap (measOf s) ++ sized 64 (Config.sm2Public (identitySecret s)) ++
    leBytes 4 s.pkg.version ++ sized 28 []
  body ++ sized 64 (Config.sm2Sign (identitySecret s) (Config.sm3 body))

def execAttestFrame (s : State) : Out :=
  .next (serveFrame s (ofKind 4) fun s x => if frLength x ≠ 32 then (s, 1, []) else (s, 0, attestPayload s (frField x 0 32)))

/-! ### MANAGE (R502) -/

def execHealthRead (s : State) : Out :=
  .next (serveFrame s (ofOp 1) fun s _ =>
    (s, 0, Config.healthReply (s.cols.map fun c => (c.2.level, min c.2.temp 255, c.2.floorLevel)) ((List.range 128).map fun g => (chnStat s g).toNat)
      s.pkg.feeds s.pkg.bootFail s.pkg.beyond))

/-- A black-box record as 32 bytes. -/
def boxBytes (r : BoxRec) : Nat :=
  packFields [(0, 8, r.time), (8, 1, r.kind), (9, 1, r.unit), (0xA, 1, r.core), (0xC, 4, r.seq), (0x10, 8, r.data0.toNat), (0x18, 8, r.data1.toNat)]

/-- An operation on the black box of the column ARG[0]. -/
def boxOp (s : State) (n : Nat) (act : State → Nat → Column → State × List Byte) : State :=
  serveFrame s (ofOp n) fun s x =>
    let c := frField x 1 1
    match ffind s.cols c with
    | none => (s, 1, [])
    | some col => let r := act s c col; (r.1, 0, r.2)

def execBlackBoxRead (s : State) : Out := .next (boxOp s 2 fun s _ c => (s, Config.boxReply (c.box.map boxBytes) c.frozen))

def execBlackBoxUnfreeze (s : State) : Out :=
  .next (boxOp s 3 fun s k _ => (modCol s k fun c => { c with box := [], frozen := false }, []))

/-- A thread that has stopped for good starts again at its monitor entry, as boot releases it, its registers kept. -/
def restartThread (s : State) (c : Nat) (t : Bool) : State :=
  let vec := ((ffind s.cols c).map (·.monVec)).getD 0#64
  modThread s (.host c t) fun th =>
    { th.loseWatch with run := .running, pc := vec, prevSafe := none, frames := [{ monitor := true, trap := none, task := none, lr := [] }] }

def execHostThreadRestart (s : State) : Out :=
  .next (serveFrame s (ofOp 4) fun s x =>
    let c := frField x 1 1
    let t := frField x 2 1 == 1
    match (if frField x 2 1 < 2 then ffind s.hosts (hostKey c t) else none) with
    | none => (s, 1, [])
    | some h => match h.th.run with
      | .halted | .dead _ _ => (restartThread s c t, 0, [])
      | _ => (s, 2, []))

def execBlackBoxFreezeAll (s : State) : Out :=
  .next (serveFrame s (ofOp 5) fun s _ => ((s.cols.map Prod.fst).foldl freezeBox s, 0, []))

/-- The package is reset once the reply is written; boot follows as a cold reset. -/
def execPackageReset (s : State) : Out :=
  let t := serveFrame s (ofOp 6) fun s _ => (s, 0, [])
  .next (match s.link.bells with
    | slot :: _ =>
      let x := slotNat s.link slot 0 4096
      if !frameBad s x && ofOp 6 x then { heldInReset t (keptCells t fun _ => true) with hostMem := t.hostMem } else t
    | [] => t)

end Sys2Proof.Machine
end

