-- ==== Sys2Proof/Machine/Lane.lean ====
section
/-! DEFINITION. What the lane words share: the issue of a word by a gang, its active lanes, its results, flags and
retirement (R34, R35, R42, R53, R65, R239, R242). -/

namespace Sys2Proof.Machine

/-- A lane word at issue: its group and gang, the lanes of the gang that are active in the task, and those active for the
word. -/
structure LaneCx where
  g : Nat
  k : Nat
  grp : Group
  task : Task
  gang : Gang
  live : LaneMask
  act : LaneMask

/-- The word that the current gang issues under a predicate; a word some of whose lanes have completed has the rest active
(R47, R435). -/
def laneCx (s : State) (pred : BitVec 3) (neg : Bool) : Option LaneCx :=
  match s.cur with
  | .gang g k =>
    match ffind s.groups g with
    | none => none
    | some p =>
      match p.task, gangOf p k with
      | some t, some x =>
        let live := gangLanes t x
        some { g := g, k := k, grp := p, task := t, gang := x, live := live
               act := live &&& (match x.again with
                 | some r => r.lanes
                 | none => p.cond pred neg) }
      | _, _ => none
  | _ => none

/-- A trap of a word with its active lanes. -/
def LaneCx.trap (c : LaneCx) (cause : BitVec 8) : Exit := .trap (.of cause c.act) none

/-- Whether the gang lacks a live slice of its group (R63, R242). -/
def LaneCx.parted (c : LaneCx) : Bool := c.task.gangs.length != 1

/-- The check of a gang-wide word (R242). -/
def LaneCx.whole (c : LaneCx) : Except Exit Unit := if c.parted then .error (c.trap cXlaneParted) else .ok ()

/-- Every lane of the gang's slices. -/
def LaneCx.sliceMask (c : LaneCx) : LaneMask := maskOf fun l => c.gang.slices.getLsbD (l / 4)

/-- Words that the issue covers: one, or two with a mask word (R195). -/
def Gang.span (x : Gang) : Nat := if x.mask.isSome then 2 else 1

/-- A gang after a word that ends its run or not, at a word of the section (R34, R42). -/
def Gang.retire (x : Gang) (boundary : Bool) (pc : Nat) : Gang :=
  { x with pc := pc, runLen := if boundary then 0 else x.runLen + 1, promoted := x.promoted && !boundary, safe := x.mask
           mask := none, again := none, wait := none, traps := false }

/-- The next lane word follows. -/
def retireLane (s : State) (c : LaneCx) (boundary : Bool) : State :=
  modGroup s c.g fun p => p.modGang c.k fun x => x.retire boundary (x.pc + x.span)

/-- At a safe-point word a held fault is delivered first (R48). -/
def LaneCx.atSafePoint (c : LaneCx) (s : State) : Except Exit Unit :=
  if c.gang.mask.isSome then deliverHeld s fun _ => true else .ok ()

/-- Outcome of a lane word whose body sets the program counter itself. -/
def laneJump (s : State) (pred : BitVec 3) (neg : Bool) (body : LaneCx → Except Exit State) : Out :=
  match laneCx s pred neg with
  | none => .fault .wrongStream
  | some c =>
    .next (settle s (
      match c.atSafePoint s with
      | .error x => .error x
      | .ok _ => body c))

/-- Outcome of a lane word after which the next one follows. -/
def laneWord (s : State) (h : LaneHdr) (body : LaneCx → Except Exit State) : Out :=
  laneJump s h.pred h.neg fun c => (body c).map fun t => retireLane t c h.boundary

/-- The operands of a word, resolved; a failing check traps with the active lanes. -/
def LaneCx.plan (c : LaneCx) (s : State) (srcs : List Field) (dst : Option Field) : Except Exit Plan :=
  match resolve c.grp (((ffind s.blocks c.grp.block).map (·.accCount)).getD 0) c.parted (c.gang.again.map (·.views)) srcs dst with
  | .ok p => .ok p
  | .error x => .error (c.trap x)

/-- Values of the sources in a lane, by their widths. -/
def LaneCx.values (c : LaneCx) (s : State) (pl : Plan) (srcs : List Field) (l : Nat) : List Nat :=
  (pl.srcs.zip srcs).map fun (d, f) => d.read s c.grp f.width l

/-- The banks that some places reach in some lanes are woken; without a lane none is. -/
def LaneCx.wakeIn (c : LaneCx) (s : State) (ds : List Loc) (m : LaneMask) : State :=
  if m = 0#32 then s else wakeBanks s c.grp.core (ds.flatMap fun d => d.banks s c.grp m)

/-- The banks that the word's operands reach in its active lanes are woken. -/
def LaneCx.wake (c : LaneCx) (s : State) (pl : Plan) : State := c.wakeIn s (pl.srcs ++ pl.dst.toList) c.act

/-- The views after a word: HEAD and COUNT of the queues that it names have moved (R63). -/
def LaneCx.moveViews (c : LaneCx) (s : State) (pl : Plan) : State := modGroup s c.g fun p => { p with views := pl.views }

/-- The views after a word, its results in some lanes, and `lr` in every lane of the gang's slices (R57, R63, R65). -/
def LaneCx.commit (c : LaneCx) (s : State) (pl : Plan) (w : Nat) (m : LaneMask) (f : Nat → Nat) : State :=
  let s := c.moveViews (c.wake s pl) pl
  match pl.dst with
  | none => s
  | some d => latchLoc (writeLoc s c.g d m f) c.g d w c.sliceMask

/-- Flags of some lanes, joined. -/
def flagsOf (m : LaneMask) (f : Nat → FFlags) : FFlags := (bitsSet m).foldl (fun a l => a ||| f l) 0#5

/-- A word that computes each active lane's result from the lane's sources. -/
def laneOp (s : State) (h : LaneHdr) (srcs : List Field) (dst : Field) (f : LaneCx → Nat → List Nat → Nat × FFlags) : Out :=
  laneWord s h fun c =>
    (c.plan s srcs (some dst)).map fun pl =>
      let r (l : Nat) : Nat × FFlags := f c l (c.values s pl srcs l)
      laneFlags (c.commit s pl dst.width c.act fun l => (r l).1) (flagsOf c.act fun l => (r l).2)

/-- A word that writes a predicate in each active lane (R249). -/
def laneTest (s : State) (h : LaneHdr) (srcs : List Field) (p : BitVec 3) (f : LaneCx → Nat → List Nat → Bool × FFlags) : Out :=
  laneWord s h fun c =>
    (c.plan s srcs none).map fun pl =>
      let r (l : Nat) : Bool × FFlags := f c l (c.values s pl srcs l)
      let t := modGroup (c.commit s pl 0 0#32 fun _ => 0) c.g fun g => g.setPred p c.act (maskOf fun l => (r l).1)
      laneFlags t (flagsOf c.act fun l => (r l).2)

/-- The first, second and third of a lane's values. -/
def arg (l : List Nat) (i : Nat) : Nat := l.getD i 0

/-- A result without flags. -/
def plainResult (x : Nat) : Nat × FFlags := (x, 0#5)

end Sys2Proof.Machine
end

