-- ==== Sys2Proof/Machine/LaneInt.lean ====
section
/-! DEFINITION. Lane integer words: arithmetic, shifts, bit counts, fields, compares, moves and width changes (R245 to
R252). -/

namespace Sys2Proof.Machine

/-! ### Results (R245 to R248) -/

/-- Addition modulo 2^w. -/
def ivAdd (t : ITy) (x y : Nat) : Nat := wrapBits t.width (intOf t x + intOf t y)
/-- Subtraction modulo 2^w. -/
def ivSub (t : ITy) (x y : Nat) : Nat := wrapBits t.width (intOf t x - intOf t y)
/-- Low half of the product. -/
def ivMul (t : ITy) (x y : Nat) : Nat := wrapBits t.width (intOf t x * intOf t y)
/-- High half of the exact product. -/
def ivMulh (t : ITy) (x y : Nat) : Nat := wrapBits t.width (intOf t x * intOf t y / 2 ^ t.width)
/-- Low half of the product plus an addend. -/
def ivMad (t : ITy) (x y z : Nat) : Nat := wrapBits t.width (intOf t x * intOf t y + intOf t z)
/-- Absolute difference as an unsigned value. -/
def ivAbsd (t : ITy) (x y : Nat) : Nat := (intOf t x - intOf t y).natAbs
/-- The smaller value. -/
def ivMin (t : ITy) (x y : Nat) : Nat := wrapBits t.width (min (intOf t x) (intOf t y))
/-- The larger value. -/
def ivMax (t : ITy) (x y : Nat) : Nat := wrapBits t.width (max (intOf t x) (intOf t y))
/-- Saturating addition. -/
def ivAdds (t : ITy) (x y : Nat) : Nat := wrapBits t.width (clampTo t (intOf t x + intOf t y))
/-- Saturating subtraction. -/
def ivSubs (t : ITy) (x y : Nat) : Nat := wrapBits t.width (clampTo t (intOf t x - intOf t y))
/-- x AND NOT y. -/
def ivAndn (x y : Nat) : Nat := x ^^^ (x &&& y)
/-- Left shift by an unsigned amount (R246). -/
def ivShl (w x y : Nat) : Nat := if y < w then x * 2 ^ y % 2 ^ w else 0
/-- Logical right shift (R246). -/
def ivShr (w x y : Nat) : Nat := if y < w then x / 2 ^ y else 0
/-- Arithmetic right shift: every bit the sign from the width up (R246). -/
def ivSra (w x y : Nat) : Nat :=
  let v : Int := if 2 ^ (w - 1) ≤ x then (x : Int) - 2 ^ w else x
  wrapBits w (v / 2 ^ min y (w - 1))
/-- Leading zeros of w bits (R247). -/
def ivClz (w x : Nat) : Nat := if x = 0 then w else w - 1 - Nat.log2 x
/-- Trailing zeros of w bits (R247). -/
def ivCtz (w x : Nat) : Nat := if x = 0 then w else ((List.range w).find? fun i => x.testBit i).getD w
/-- Bits set (R247). -/
def ivPopc (w x : Nat) : Nat := ((List.range w).filter fun i => x.testBit i).length
/-- The w bits in reverse order (R247). -/
def ivBrev (w x : Nat) : Nat := (List.range w).foldl (fun a i => a + (if x.testBit i then 2 ^ (w - 1 - i) else 0)) 0
/-- A bit field: width in bits 14 to 8 of the descriptor, position in bits 5 to 0 (R248). -/
def ivBext (t : ITy) (x y : Nat) : Nat :=
  let w := t.width
  let f := min (y / 2 ^ 8 % 2 ^ 7) w
  let p := y % 2 ^ 6
  let v := (if p < w then x / 2 ^ p else 0) % 2 ^ f
  if t.signed && decide (0 < f) && v.testBit (f - 1) then wrapBits w ((v : Int) - 2 ^ f) else v

/-- A comparison of integers (R249). -/
def ivCmp (k : Cond) (x y : Int) : Bool :=
  match k with
  | .eq => x == y
  | .ne => x != y
  | .lt => decide (x < y)
  | .le => decide (x ≤ y)
  | .gt => decide (y < x)
  | .ge => decide (y ≤ x)

/-- All ones for true, zero for false. -/
def ones (w : Nat) (b : Bool) : Nat := if b then 2 ^ w - 1 else 0

/-! ### Words -/

/-- A word of one source. -/
def intOp1 (s : State) (h : LaneHdr) (t : ITy) (d a : Operand) (f : Nat → Nat) : Out :=
  laneOp s h [.int a t.width] (.int d t.width) fun _ _ v => plainResult (f (arg v 0))

/-- A word of two sources. -/
def intOp2 (s : State) (h : LaneHdr) (t : ITy) (d a b : Operand) (f : Nat → Nat → Nat) : Out :=
  laneOp s h [.int a t.width, .int b t.width] (.int d t.width) fun _ _ v => plainResult (f (arg v 0) (arg v 1))

def execVadd (h : LaneHdr) (t : ITy) (d a b : Operand) (s : State) : Out := intOp2 s h t d a b (ivAdd t)
def execVsub (h : LaneHdr) (t : ITy) (d a b : Operand) (s : State) : Out := intOp2 s h t d a b (ivSub t)
def execVmul (h : LaneHdr) (t : ITy) (d a b : Operand) (s : State) : Out := intOp2 s h t d a b (ivMul t)
def execVmulh (h : LaneHdr) (t : ITy) (d a b : Operand) (s : State) : Out := intOp2 s h t d a b (ivMulh t)
def execVmad (h : LaneHdr) (t : ITy) (d a b c : Operand) (s : State) : Out :=
  laneOp s h [.int a t.width, .int b t.width, .int c t.width] (.int d t.width) fun _ _ v =>
    plainResult (ivMad t (arg v 0) (arg v 1) (arg v 2))
def execVabsd (h : LaneHdr) (t : ITy) (d a b : Operand) (s : State) : Out := intOp2 s h t d a b (ivAbsd t)
def execVmin (h : LaneHdr) (t : ITy) (d a b : Operand) (s : State) : Out := intOp2 s h t d a b (ivMin t)
def execVmax (h : LaneHdr) (t : ITy) (d a b : Operand) (s : State) : Out := intOp2 s h t d a b (ivMax t)
def execVadds (h : LaneHdr) (t : ITy) (d a b : Operand) (s : State) : Out := intOp2 s h t d a b (ivAdds t)
def execVsubs (h : LaneHdr) (t : ITy) (d a b : Operand) (s : State) : Out := intOp2 s h t d a b (ivSubs t)
def execVand (h : LaneHdr) (t : ITy) (d a b : Operand) (s : State) : Out := intOp2 s h t d a b (· &&& ·)
def execVor (h : LaneHdr) (t : ITy) (d a b : Operand) (s : State) : Out := intOp2 s h t d a b (· ||| ·)
def execVxor (h : LaneHdr) (t : ITy) (d a b : Operand) (s : State) : Out := intOp2 s h t d a b (· ^^^ ·)
def execVandn (h : LaneHdr) (t : ITy) (d a b : Operand) (s : State) : Out := intOp2 s h t d a b ivAndn
def execVshl (h : LaneHdr) (t : ITy) (d a b : Operand) (s : State) : Out := intOp2 s h t d a b (ivShl t.width)
def execVshr (h : LaneHdr) (t : ITy) (d a b : Operand) (s : State) : Out := intOp2 s h t d a b (ivShr t.width)
def execVsra (h : LaneHdr) (t : ITy) (d a b : Operand) (s : State) : Out := intOp2 s h t d a b (ivSra t.width)
def execVclz (h : LaneHdr) (t : ITy) (d a : Operand) (s : State) : Out := intOp1 s h t d a (ivClz t.width)
def execVctz (h : LaneHdr) (t : ITy) (d a : Operand) (s : State) : Out := intOp1 s h t d a (ivCtz t.width)
def execVpopc (h : LaneHdr) (t : ITy) (d a : Operand) (s : State) : Out := intOp1 s h t d a (ivPopc t.width)
def execVbrev (h : LaneHdr) (t : ITy) (d a : Operand) (s : State) : Out := intOp1 s h t d a (ivBrev t.width)
def execVbext (h : LaneHdr) (t : ITy) (d a b : Operand) (s : State) : Out := intOp2 s h t d a b (ivBext t)

/-- The result goes to a predicate or, as all ones or zero, to an element (R249). -/
def execVcmp (h : LaneHdr) (t : ITy) (k : Cond) (d : CmpDst) (a b : Operand) (s : State) : Out :=
  let r (v : List Nat) : Bool := ivCmp k (intOf t (arg v 0)) (intOf t (arg v 1))
  match d with
  | .pred p => laneTest s h [.int a t.width, .int b t.width] p fun _ _ v => (r v, 0#5)
  | .elem d => laneOp s h [.int a t.width, .int b t.width] (.int d t.width) fun _ _ v => plainResult (ones t.width (r v))

/-- The first source where the predicate, inverted or not, is true (R250). -/
def execVsel (h : LaneHdr) (t : ETy) (d a b : Operand) (p : BitVec 3) (n : Bool) (s : State) : Out :=
  laneOp s h [.of t a, .of t b] (.of t d) fun c l v =>
    plainResult (if (c.grp.cond p n).getLsbD l then arg v 0 else arg v 1)

def execVmov (h : LaneHdr) (t : ETy) (d a : Operand) (s : State) : Out :=
  laneOp s h [.of t a] (.of t d) fun _ _ v => plainResult (arg v 0)

/-- The constant is written unchanged (R251). -/
def execVli (h : LaneHdr) (_ : LiTy) (d : Operand) (k : Word32) (s : State) : Out :=
  laneOp s h [] (.int d 32) fun _ _ _ => plainResult k.toNat

/-- Widening by the source's signedness (R252). -/
def execVext (h : LaneHdr) (t src : ITy) (d a : Operand) (s : State) : Out :=
  laneOp s h [.int a src.width] (.int d t.width) fun _ _ v => plainResult (wrapBits t.width (intOf src (arg v 0)))

/-- Narrowing, which wraps or saturates (R252). -/
def execVnrw (h : LaneHdr) (t src : ITy) (sat : Bool) (d a : Operand) (s : State) : Out :=
  laneOp s h [.int a src.width] (.int d t.width) fun _ _ v =>
    let x := intOf src (arg v 0)
    plainResult (wrapBits t.width (if sat then clampTo t x else x))

end Sys2Proof.Machine
end

