-- ==== Sys2Proof/Machine/LaneFp.lean ====
section
/-! DEFINITION. Lane floating-point words and conversions, and the paired form (R191 to R193, R253 to R260). -/

namespace Sys2Proof.Machine

/-- The rounding mode of a word that is no conversion (R81). -/
def LaneCx.mode (c : LaneCx) (r : Rnd) : RM := modeOf r c.grp.th.fcsr 0#16

/-- A word of one source of a type. -/
def fpOp1 (s : State) (h : LaneHdr) (t : FTy) (d a : Operand) (f : Nat → Nat × FFlags) : Out :=
  laneOp s h [.of (.fp t) a] (.of (.fp t) d) fun _ _ v => f (arg v 0)

/-- A word of two sources of a type. -/
def fpOp2 (s : State) (h : LaneHdr) (t : FTy) (r : Rnd) (d a b : Operand) (f : RM → Nat → Nat → Nat × FFlags) : Out :=
  laneOp s h [.of (.fp t) a, .of (.fp t) b] (.of (.fp t) d) fun c _ v => f (c.mode r) (arg v 0) (arg v 1)

def execVfadd (h : LaneHdr) (t : FTy) (r : Rnd) (d a b : Operand) (s : State) : Out := fpOp2 s h t r d a b (fpAdd (descFTy t))
def execVfsub (h : LaneHdr) (t : FTy) (r : Rnd) (d a b : Operand) (s : State) : Out := fpOp2 s h t r d a b (fpSub (descFTy t))
def execVfmul (h : LaneHdr) (t : FTy) (r : Rnd) (d a b : Operand) (s : State) : Out := fpOp2 s h t r d a b (fpMul (descFTy t))
def execVffma (h : LaneHdr) (t : FTy) (r : Rnd) (d a b c : Operand) (s : State) : Out :=
  laneOp s h [.of (.fp t) a, .of (.fp t) b, .of (.fp t) c] (.of (.fp t) d) fun x _ v =>
    fpFma (descFTy t) (x.mode r) (arg v 0) (arg v 1) (arg v 2)
def execVfmin (h : LaneHdr) (t : FTy) (d a b : Operand) (s : State) : Out :=
  fpOp2 s h t .rne d a b fun _ => fpMinMax (descFTy t) false
def execVfmax (h : LaneHdr) (t : FTy) (d a b : Operand) (s : State) : Out :=
  fpOp2 s h t .rne d a b fun _ => fpMinMax (descFTy t) true

/-- A comparison of floating elements (R254). -/
def fvCmp (t : FTy) (k : Cond) (x y : Nat) : Bool × FFlags := fpCompare k (fvOf (descFTy t) x) (fvOf (descFTy t) y)

/-- The result goes to a predicate or, as all ones or zero, to an element (R254). -/
def execVfcmp (h : LaneHdr) (t : FTy) (k : Cond) (d : CmpDst) (a b : Operand) (s : State) : Out :=
  let r (v : List Nat) : Bool × FFlags := fvCmp t k (arg v 0) (arg v 1)
  match d with
  | .pred p => laneTest s h [.of (.fp t) a, .of (.fp t) b] p fun _ _ v => r v
  | .elem d => laneOp s h [.of (.fp t) a, .of (.fp t) b] (.of (.fp t) d) fun _ _ v => (ones t.width (r v).1, (r v).2)

def execVfrcp (h : LaneHdr) (t : FTy) (d a : Operand) (s : State) : Out := fpOp1 s h t d a (sfuOf t .rcp)
def execVfrsq (h : LaneHdr) (t : FTy) (d a : Operand) (s : State) : Out := fpOp1 s h t d a (sfuOf t .rsq)
def execVfex2 (h : LaneHdr) (t : FTy) (d a : Operand) (s : State) : Out := fpOp1 s h t d a (sfuOf t .ex2)
def execVflg2 (h : LaneHdr) (t : FTy) (d a : Operand) (s : State) : Out := fpOp1 s h t d a (sfuOf t .lg2)
def execVfsin (h : LaneHdr) (t : FTy) (d a : Operand) (s : State) : Out := fpOp1 s h t d a (sfuOf t .sin)
def execVfcos (h : LaneHdr) (t : FTy) (d a : Operand) (s : State) : Out := fpOp1 s h t d a (sfuOf t .cos)
def execVftnh (h : LaneHdr) (t : FTy) (d a : Operand) (s : State) : Out := fpOp1 s h t d a (sfuOf t .tnh)

/-- The mask of R227 (R256). -/
def execVfcls (h : LaneHdr) (t : FTy) (d a : Operand) (s : State) : Out :=
  fpOp1 s h t d a fun x => plainResult (fpClass (descFTy t) x)

/-- A scale from the low eight bits of b (R257). -/
def execVfscl (h : LaneHdr) (t : FTy) (r : Rnd) (d a b : Operand) (s : State) : Out :=
  laneOp s h [.of (.fp t) a, .int b t.width] (.of (.fp t) d) fun c _ v =>
    fpScale (descFTy t) (c.mode r) (arg v 0) (arg v 1 % 256)

/-- The generators of the lanes of a mask step once (R82). -/
def stepGens (s : State) (g : Nat) (m : LaneMask) : State :=
  modGroup s g fun p => { p with gens := (bitsSet m).foldl (fun x l => sset x l (srStep (sget x l))) p.gens }

/-- Conversion of one element in each active lane (R259). -/
def execVfcvt (h : LaneHdr) (ovf : Bool) (r : Rnd) (f t : Fmt) (d a : Operand) (s : State) : Out :=
  laneWord s h fun c =>
    (c.plan s [.fmt f a] (some (.fmt t d))).map fun pl =>
      let x (l : Nat) : Nat × FFlags :=
        fmtConvert t (modeOf r c.grp.th.fcsr (sget c.grp.gens l)) ovf (fmtValue f (arg (c.values s pl [.fmt f a] l) 0))
      let s := laneFlags (c.commit s pl t.width c.act fun l => (x l).1) (flagsOf c.act fun l => (x l).2)
      if r = .sr then stepGens s c.g c.act else s

/-- Elements of width n of a 32-bit word as values. -/
def packed (d : FpDesc) (k n x : Nat) : List FV := (List.range k).map fun i => fvOf d (x / 2 ^ (n * i) % 2 ^ n)

/-- A packed dot product into binary32 (R260); an immediate source is extended to the 32 bits of its packed elements (DESIGN CHOICE,
log 136). -/
def laneDot (s : State) (h : LaneHdr) (d : FpDesc) (k : Nat) (r : Rnd) (dst a b c : Operand) : Out :=
  laneOp s h [.int a 32, .int b 32, .of (.fp .f32) c] (.int dst 32) fun x _ v =>
    fpDot descF32 (x.mode r) ((packed d k d.width (arg v 0)).zip (packed d k d.width (arg v 1))) (fvOf descF32 (arg v 2))

def execVfdot2 (h : LaneHdr) (bf : Bool) (r : Rnd) (d a b c : Operand) (s : State) : Out :=
  laneDot s h (if bf then descBf16 else descF16) 2 r d a b c
def execVfdot4 (h : LaneHdr) (f : B8Var) (p : BitVec 3) (r : Rnd) (d a b c : Operand) (s : State) : Out :=
  laneDot s h (descB8 f p.toNat) 4 r d a b c

/-! ### The paired form (R191 to R193) -/

/-- Rounding of a half's mod2 (R192). -/
def halfRnd (m : BitVec 2) : Rnd := [.dyn, .rne, .rtz, .rdn].getD m.toNat .dyn

/-- Condition of a half's mod2 (R192). -/
def halfCond (m : BitVec 2) : Cond := [.eq, .ne, .lt, .le].getD m.toNat .eq

/-- The result of a half: its single form's, with an addend from its own destination for `vmad` and `vffma` (R192). -/
def halfResult (x : HalfOp) (mode : Rnd → RM) (a b d : Nat) : Nat × FFlags :=
  let rm := mode (halfRnd x.mod2)
  match x.op with
  | .vadd => plainResult (ivAdd .i32 a b)
  | .vsub => plainResult (ivSub .i32 a b)
  | .vand => plainResult (a &&& b)
  | .vor => plainResult (a ||| b)
  | .vxor => plainResult (a ^^^ b)
  | .vandn => plainResult (ivAndn a b)
  | .vshl => plainResult (ivShl 32 a b)
  | .vshr => plainResult (ivShr 32 a b)
  | .vsra => plainResult (ivSra 32 a b)
  | .vminI => plainResult (ivMin .i32 a b)
  | .vminN => plainResult (ivMin .n32 a b)
  | .vmaxI => plainResult (ivMax .i32 a b)
  | .vmaxN => plainResult (ivMax .n32 a b)
  | .vmov => plainResult a
  | .vcmpI => plainResult (ones 32 (ivCmp (halfCond x.mod2) (intOf .i32 a) (intOf .i32 b)))
  | .vcmpN => plainResult (ones 32 (ivCmp (halfCond x.mod2) (intOf .n32 a) (intOf .n32 b)))
  | .vfadd => fpAdd descF32 rm a b
  | .vfsub => fpSub descF32 rm a b
  | .vfmin => fpMinMax descF32 false a b
  | .vfmax => fpMinMax descF32 true a b
  | .vfcmp => let r := fvCmp .f32 (halfCond x.mod2) a b; (ones 32 r.1, r.2)
  | .vmul => plainResult (ivMul .i32 a b)
  | .vmulhI => plainResult (ivMulh .i32 a b)
  | .vmulhN => plainResult (ivMulh .n32 a b)
  | .vmad => plainResult (ivMad .i32 a b d)
  | .vfmul => fpMul descF32 rm a b
  | .vffma => fpFma descF32 rm a b d

/-- Both halves read before either writes; `lr` shows the second half's result (R65, R193). -/
def execPairedWord (h : LaneHdr) (x y : HalfOp) (s : State) : Out :=
  let srcs (z : HalfOp) : List Field :=
    [.int z.a 32, .int (if z.op = .vmov then .imm 0#10 else z.b) 32, .int (if z.op.accumulates then z.d else .imm 0#10) 32]
  laneWord s h fun c =>
    match c.plan s (srcs x ++ srcs y) none, c.plan s (srcs x) (some (.int x.d 32)), c.plan s (srcs y) (some (.int y.d 32)) with
    | .ok _, .ok p, .ok q =>
      let r (z : HalfOp) (pl : Plan) (l : Nat) : Nat × FFlags :=
        let v := c.values s pl (srcs z) l
        halfResult z c.mode (arg v 0) (arg v 1) (arg v 2)
      let t := c.commit s p 32 c.act fun l => (r x p l).1
      let t := c.commit t q 32 c.act fun l => (r y q l).1
      .ok (laneFlags t (flagsOf c.act fun l => (r x p l).2 ||| (r y q l).2))
    | .error e, _, _ | _, .error e, _ | _, _, .error e => .error e

end Sys2Proof.Machine
end

