-- ==== Sys2Proof/Machine/LaneCross.lean ====
section
/-! DEFINITION. Cross-lane words and predicate words (R96, R242, R261 to R266). -/

namespace Sys2Proof.Machine

/-- A gang-wide word: from the sources of every lane, the result of each lane that receives one, and the flags.  `idle`
gives the whole effect of a word that has none of this.
DEDUCED (log 92): `vbcast` with no active lane has no effect at all (R262), so that it moves no queue and leaves `lr`
too; `vlred` with none writes nothing (R263), so that it leaves `lr`, while its queues move (R63). -/
def crossOp (s : State) (h : LaneHdr) (srcs : List Field) (dst : Field) (idle : LaneCx → Plan → Option State)
    (f : LaneCx → (Nat → List Nat) → (Nat → Option Nat) × FFlags)
    (after : LaneCx → Plan → (Nat → List Nat) → State → State) : Out :=
  laneWord s h fun c =>
    c.whole.bind fun _ =>
      (c.plan s srcs (some dst)).map fun pl =>
        let v (l : Nat) : List Nat := c.values s pl srcs l
        let r := f c v
        let m := c.act &&& maskOf fun l => (r.1 l).isSome
        (idle c pl).getD (after c pl v (laneFlags (c.commit s pl dst.width m fun l => (r.1 l).getD 0) r.2))

/-- No such case. -/
def neverIdle (_ : LaneCx) (_ : Plan) : Option State := none

/-- The banks of the lanes that a word reads from are woken (R67). -/
def wakeSources (c : LaneCx) (pl : Plan) (ls : List Nat) (s : State) : State :=
  c.wakeIn s (pl.srcs.take 1) (maskOf fun l => ls.contains l)

/-- Source lane of a shuffle (R261). -/
def shuffleLane (m : ShMode) (l o : Nat) : Int :=
  match m with
  | .up => (l : Int) - o
  | .down => (l : Int) + o
  | .xor => ((l ^^^ o : Nat) : Int)
  | .idx => (o : Int)

/-- The lane a shuffle reads: a lane out of task leaves the lane its own element (R261). -/
def shuffleFrom (m : ShMode) (n l o : Nat) : Nat :=
  let k := shuffleLane m l o
  if 0 ≤ k ∧ k < (n : Int) then k.toNat else l

def execVshfl (h : LaneHdr) (t : ETy) (m : ShMode) (d a b : Operand) (s : State) : Out :=
  crossOp s h [.of t a, .int b t.width] (.of t d) neverIdle
    (fun c v => (fun l => some (arg (v (shuffleFrom m c.task.n l (arg (v l) 1))) 0), 0#5))
    fun c pl v s => wakeSources c pl ((bitsSet c.act).map fun l => shuffleFrom m c.task.n l (arg (v l) 1)) s

/-- The index comes from the lowest active lane (R262). -/
def execVbcast (h : LaneHdr) (t : ETy) (d a b : Operand) (s : State) : Out :=
  crossOp s h [.of t a, .int b t.width] (.of t d) (fun c _ => if c.act = 0#32 then some s else none)
    (fun c v =>
      let k := arg (v ((bitsSet c.act).headD 0)) 1
      (fun l => some (arg (v (if k < c.task.n then k else l)) 0), 0#5))
    fun c pl v s => wakeSources c pl [arg (v ((bitsSet c.act).headD 0)) 1] s

/-! ### Reductions (R96, R263) -/

/-- One combination of two elements; the lower lane is on the left. -/
def redOf (t : ETy) (o : RedOp) (rm : RM) (x y : Nat) : Nat × FFlags :=
  match t with
  | .int t =>
    plainResult (match o with
      | .add => ivAdd t x y
      | .min => ivMin t x y
      | .max => ivMax t x y
      | .and => x &&& y
      | .or => x ||| y
      | .xor => x ^^^ y)
  | .fp t =>
    match o with
    | .min => fpMinMax (descFTy t) false x y
    | .max => fpMinMax (descFTy t) true x y
    | _ => fpAdd (descFTy t) rm x y

/-- A combination in which an empty lane supplies no operand. -/
def joinOf (f : Nat → Nat → Nat × FFlags) (x y : Option Nat) : Option Nat × FFlags :=
  match x, y with
  | some a, some b => let r := f a b; (some r.1, r.2)
  | some a, none => (some a, 0#5)
  | none, y => (y, 0#5)

/-- One step over all lanes: each lane's new element, and the flags. -/
def stepLanes (g : Nat → Option Nat × FFlags) (fl : FFlags) : List (Option Nat) × FFlags :=
  (List.range 32).foldl (fun a l => let r := g l; (a.1 ++ [r.1], a.2 ||| r.2)) ([], fl)

/-- The step of a reduction at distance d. -/
def laneReduceStep (f : Nat → Nat → Nat × FFlags) (x : List (Option Nat) × FFlags) (d : Nat) : List (Option Nat) × FFlags :=
  stepLanes (fun l =>
    if l % (2 * d) = 0 then joinOf f (x.1.getD l none) (x.1.getD (l + d) none) else (x.1.getD l none, 0#5)) x.2

/-- The step of a scan at distance d. -/
def laneScanStep (f : Nat → Nat → Nat × FFlags) (x : List (Option Nat) × FFlags) (d : Nat) : List (Option Nat) × FFlags :=
  stepLanes (fun l =>
    if d ≤ l then joinOf f (x.1.getD (l - d) none) (x.1.getD l none) else (x.1.getD l none, 0#5)) x.2

/-- Distances of the steps. -/
def redDistances : List Nat := [1, 2, 4, 8, 16]

/-- The elements of the active lanes; other lanes are empty. -/
def redInput (m : LaneMask) (v : Nat → List Nat) : List (Option Nat) :=
  (List.range 32).map fun l => if m.getLsbD l then some (arg (v l) 0) else none

def execVlred (h : LaneHdr) (t : ETy) (o : RedOp) (r : Rnd) (d a : Operand) (s : State) : Out :=
  crossOp s h [.of t a] (.of t d) (fun c pl => if c.act = 0#32 then some (c.moveViews s pl) else none)
    (fun c v =>
      let x := redDistances.foldl (laneReduceStep (redOf t o (c.mode r))) (redInput c.act v, 0#5)
      (fun _ => x.1.getD 0 none, x.2))
    fun _ _ _ s => s

def execVscan (h : LaneHdr) (t : ETy) (o : RedOp) (r : Rnd) (d a : Operand) (s : State) : Out :=
  crossOp s h [.of t a] (.of t d) neverIdle
    (fun c v =>
      let x := redDistances.foldl (laneScanStep (redOf t o (c.mode r))) (redInput c.act v, 0#5)
      (fun l => x.1.getD l none, x.2))
    fun _ _ _ s => s

/-- Active lanes of a lane's key set, rising. -/
def keySet (m : LaneMask) (v : Nat → List Nat) (l : Nat) : List Nat :=
  (bitsSet m).filter fun k => arg (v k) 1 == arg (v l) 1

/-- Whether an active lane leads its key set. -/
def leads (m : LaneMask) (v : Nat → List Nat) (l : Nat) : Bool := (keySet m v l).head? == some l

/-- The combination of the elements of a list of lanes, in its order. -/
def foldLanes (f : Nat → Nat → Nat × FFlags) (v : Nat → List Nat) (ls : List Nat) : Option Nat × FFlags :=
  ls.foldl (fun a l => let r := joinOf f a.1 (some (arg (v l) 0)); (r.1, a.2 ||| r.2)) (none, 0#5)

/-- Leaders receive their set's combination, and the predicate shows them (R263). -/
def execVmred (h : LaneHdr) (t : ETy) (o : RedOp) (r : Rnd) (p : BitVec 3) (d a b : Operand) (s : State) : Out :=
  crossOp s h [.of t a, .int b t.width] (.of t d) neverIdle
    (fun c v =>
      let x (l : Nat) : Option Nat × FFlags := foldLanes (redOf t o (c.mode r)) v (keySet c.act v l)
      (fun l => if leads c.act v l then (x l).1 else none, flagsOf (c.act &&& maskOf (leads c.act v)) fun l => (x l).2))
    fun c _ v s => modGroup s c.g fun g => g.setPred p c.act (maskOf (leads c.act v))

/-! ### Ballots, votes, lane numbers (R264, R265) -/

def execVballot (h : LaneHdr) (w64 : Bool) (p : BitVec 3) (d : Operand) (s : State) : Out :=
  crossOp s h [] (.int d (if w64 then 64 else 32)) neverIdle
    (fun c _ => (fun _ => some (c.act &&& c.grp.pred p).toNat, 0#5)) fun _ _ _ s => s

/-- Value of a vote over the active lanes. -/
def voteOf (m : VoteMode) (act v : LaneMask) : Bool :=
  match m with
  | .any => act &&& v != 0#32
  | .all => act &&& v == act
  | .uni => act &&& v == act || act &&& v == 0#32

def execVvote (h : LaneHdr) (m : VoteMode) (p q : BitVec 3) (s : State) : Out :=
  laneWord s h fun c =>
    c.whole.map fun _ =>
      modGroup s c.g fun g => g.setPred q c.act (if voteOf m c.act (c.grp.pred p) then BitVec.allOnes 32 else 0#32)

def execVlid (h : LaneHdr) (d : Operand) (s : State) : Out :=
  laneOp s h [] (.int d 32) fun _ l _ => plainResult l

/-! ### Predicates (R266) -/

/-- A predicate word. -/
def predOp (s : State) (h : LaneHdr) (pd : BitVec 3) (f : Group → LaneMask) : Out :=
  laneWord s h fun c => .ok (modGroup s c.g fun g => g.setPred pd c.act (f c.grp))

def execPand (h : LaneHdr) (pd pa pb : BitVec 3) (na nb : Bool) (s : State) : Out :=
  predOp s h pd fun g => g.cond pa na &&& g.cond pb nb
def execPor (h : LaneHdr) (pd pa pb : BitVec 3) (na nb : Bool) (s : State) : Out :=
  predOp s h pd fun g => g.cond pa na ||| g.cond pb nb
def execPxor (h : LaneHdr) (pd pa pb : BitVec 3) (na nb : Bool) (s : State) : Out :=
  predOp s h pd fun g => g.cond pa na ^^^ g.cond pb nb
def execPnot (h : LaneHdr) (pd pa : BitVec 3) (na : Bool) (s : State) : Out :=
  predOp s h pd fun g => ~~~(g.cond pa na)
def execPmov (h : LaneHdr) (pd pa : BitVec 3) (na : Bool) (s : State) : Out :=
  predOp s h pd fun g => g.cond pa na

end Sys2Proof.Machine
end

