-- ==== Sys2Proof/Machine/LaneCtl.lean ====
section
/-! DEFINITION. Lane control words and view writes (R30, R32, R33, R267 to R271, R337, R344). -/

namespace Sys2Proof.Machine

/-- Word index of a transfer from a word: SEG_LEAVE outside a traveller's segment, then BAD_TARGET (R267, R337). -/
def laneTarget (s : State) (pc : Nat) (o : BitVec 25) : Except (BitVec 8) Nat :=
  let k : Int := (pc : Int) + o.toInt
  let n := if k < 0 then 2 ^ 64 else k.toNat
  if !inLaneSeg s n then .error cSegLeave else if laneTargetOk s n then .ok n else .error cBadTarget

/-- Insert a gang by its lowest slice (R36). -/
def insertGang (x : Gang) : List Gang → List Gang
  | [] => [x]
  | y :: t =>
    if (bitsSet x.slices).headD 8 < (bitsSet y.slices).headD 8 then x :: y :: t else y :: insertGang x t

/-- A task with one gang replaced by others. -/
def Task.replace (t : Task) (k : Nat) (l : List Gang) : Task :=
  { t with gangs := l.foldl (fun gs x => insertGang x gs) (t.gangs.filter fun x => (bitsSet x.slices).head? != some k) }

/-- The slices of a gang that take a branch (R32). -/
def LaneCx.taken (c : LaneCx) (v : LaneMask) (all : Bool) : BitVec 8 :=
  BitVec.ofNat 8 ((List.range 8).foldl (fun m k =>
    let lanes := (List.range 4).filter fun i => c.live.getLsbD (4 * k + i)
    let yes := fun i => v.getLsbD (4 * k + i)
    m + (if c.gang.slices.getLsbD k && (if all then lanes.all yes else lanes.any yes) then 2 ^ k else 0)) 0)

/-- Slices part when they decide differently (R32). -/
def execLbr (p : BitVec 3) (n : Bool) (all : Bool) (o : BitVec 25) (s : State) : Out :=
  laneJump s 0#3 false fun c =>
    let go := c.taken (c.grp.cond p n) all
    let stay := c.gang.retire true (c.gang.pc + c.gang.span)
    let set (l : List Gang) : State := modGroup s c.g fun g => { g with task := g.task.map fun t => t.replace c.k l }
    if go = 0#8 then .ok (set [stay])
    else match laneTarget s c.gang.pc o with
      | .error x => .error (c.trap x)
      | .ok k =>
        let jump := c.gang.retire true k
        .ok (set (if go = c.gang.slices then [jump]
          else [{ stay with slices := c.gang.slices &&& ~~~go }, { jump with slices := go }]))

def execLjmp (o : BitVec 25) (s : State) : Out :=
  laneJump s 0#3 false fun c =>
    match laneTarget s c.gang.pc o with
    | .error x => .error (c.trap x)
    | .ok k => .ok (modGroup s c.g fun p => p.modGang c.k fun x => x.retire true k)

/-- The gang that waiting gangs form; a safe point where each of their words was one (R33, R42). -/
def mergeGangs (l : List Gang) : Option Gang :=
  l.head?.map fun x =>
    let safe := if l.all fun y => y.mask.isSome then some (l.foldl (fun m y => m ||| y.mask.getD 0#96) 0#96) else none
    { (x.retire true (x.pc + x.span)) with slices := l.foldl (fun m y => m ||| y.slices) 0#8, safe := safe }

/-- Once every live slice waits at a `regang`, the gangs merge, or the group traps and each waiting word counts as not
retired (R33). -/
def mergeWaiting (s : State) (g : Nat) : Except Exit State :=
  match (ffind s.groups g).bind (·.task) with
  | none => .ok s
  | some t =>
    if t.gangs.any fun x => x.wait.isNone then .ok s
    else
      let put (l : List Gang) : State := modGroup s g fun p => { p with task := some { t with gangs := l } }
      match mergeGangs t.gangs with
      | none => .ok s
      | some m =>
        if t.gangs.all fun x => x.wait == (t.gangs.head?.bind (·.wait)) && some x.pc == t.gangs.head?.map (·.pc) then
          .ok (put [m])
        else
          .error (.trap (.of cRegangMismatch (gangLanes t m))
            (some (put (t.gangs.map fun x => { x with wait := none, mask := none }))))

/-- A group that has not parted completes at once (R33). -/
def execRegang (k : BitVec 4) (s : State) : Out :=
  laneJump s 0#3 false fun c =>
    if !c.parted then .ok (modGroup s c.g fun p => p.modGang c.k fun x => x.retire true (x.pc + x.span))
    else mergeWaiting (modGroup s c.g fun p => p.modGang c.k fun x => { x with wait := some k, runLen := 0, promoted := false }) c.g

/-- The gang's slices end; with the last of them the task ends and sets the departure mask (R30, R344). -/
def execLend (s : State) : Out :=
  laneJump s 0#3 false fun c =>
    let t := c.task.replace c.k []
    let t := { t with endMask := t.endMask ||| c.gang.mask.getD 0#96, endSafe := t.endSafe && c.gang.mask.isSome }
    if t.gangs.isEmpty then
      .ok (modGroup s c.g fun p => { p with task := none, depMask := if t.endSafe then t.endMask else 0#96 })
    else mergeWaiting (modGroup s c.g fun p => { p with task := some t }) c.g

def execLnop (h : LaneHdr) (s : State) : Out := laneWord s h fun _ => .ok s

/-- ACC_COUNT that a view of a group is tested against when written; none for a traveller (R60). -/
def viewLimit (s : State) (p : Group) : Option Nat :=
  if p.seg.isSome then none else (ffind s.blocks p.block).map (·.accCount)

/-- A view from the lowest active lane; a word without active lanes does nothing and raises no trap (R271). -/
def execVwSet (h : LaneHdr) (v : BitVec 5) (a : Operand) (s : State) : Out :=
  laneWord s h fun c =>
    match (bitsSet c.act).head? with
    | none => .ok s
    | some l =>
      c.whole.bind fun _ =>
        (c.plan s [.int a 64] none).bind fun pl =>
          let x := wordOf (arg (c.values s pl [.int a 64] l) 0)
          if viewOk v.toNat x (viewLimit s c.grp) then
            .ok (modGroup (c.wake s pl) c.g fun g => { g with views := sset g.views v.toNat (viewStore v.toNat x) })
          else .error (c.trap cBadView)

end Sys2Proof.Machine
end

