-- ==== Sys2Proof/Machine/LaneMem.lean ====
section
/-! DEFINITION. Lane memory, tile, fence, contribution and barrier words (R47, R63, R65, R275 to R277, R279, R284, R287 to
R289, R293, R297, R435). -/

namespace Sys2Proof.Machine

/-! ### One word's lanes (R47, R275, R277, R435) -/

/-- What one lane of a memory word does. -/
structure LanePart where
  lane : Nat
  run : State → Except Miss State

/-- The checks at issue, in their order (R275). -/
def partChecks : List (BitVec 8) := [cBadAddress, cMisaligned, cSpmRange, cBarWrite]

/-- The cause with which a lane's part fails the checks made at issue; a denied write is none. -/
def issueCause (s : State) (x : LanePart) : Option (BitVec 8) :=
  match x.run s with
  | .error (.trap c) => if c = cProtWrite then none else some c
  | _ => none

/-- Lanes of a list as a mask. -/
def lanesIn (l : List Nat) : LaneMask := maskOf fun i => l.contains i

/-- The first check at issue that any lane fails, with the lanes that fail it (R275). -/
def issueFault (s : State) (l : List LanePart) : Option (BitVec 8 × LaneMask) :=
  let bad := l.filterMap fun x => (issueCause s x).map fun c => (x.lane, c)
  ((partChecks ++ bad.map (·.2)).find? fun c => bad.any fun b => b.2 == c).map fun c =>
    (c, lanesIn ((bad.filter fun b => b.2 == c).map (·.1)))

/-- Run the lanes' parts: the state, the lanes that a denial kept, and those that wait.  The lanes of one instruction are unordered
among themselves (R153); the model runs them in rising order within one step (DESIGN CHOICE, log 99). -/
def runParts (s : State) : List LanePart → State × List (Nat × Miss) × List Nat
  | [] => (s, [], [])
  | x :: t =>
    match x.run s with
    | .ok u => runParts u t
    | .error (.wait u) => (u, [], (x :: t).map (·.lane))
    | .error m => let r := runParts s t; (r.1, (x.lane, m) :: r.2.1, r.2.2)

/-- Row of a denial in the order of R435: PAGE_FAULT, ALIAS_CONFLICT, PROT_WRITE, parking. -/
def Miss.row : Miss → Nat
  | .deny .malformed _ _ => 3
  | .deny .conflict _ _ => 2
  | .deny .prot _ _ | .trap _ => 1
  | _ => 0

/-- An exit that keeps a state. -/
def Exit.keep (s : State) : Exit → Exit
  | .trap t _ => .trap t (some s)
  | .park p _ => .park p (some s)
  | .stall u => .stall u

/-- The lanes that have yet to complete, the view registers whose queue entries they use, and the lanes whose `lr` is set. -/
def LaneCx.remain (c : LaneCx) (s : State) (m latched : LaneMask) : State :=
  let r := c.gang.again.getD { lanes := m, views := c.grp.views, lr := c.grp.lr }
  let r : Reissue := { r with lanes := m, latched := r.latched ||| latched, lr := if r.latched = 0#32 then c.grp.lr else r.lr }
  modGroup s c.g fun p => p.modGang c.k fun x => { x with again := some r, traps := false }

/-- The word with its release steps done: its lanes act; those that complete have their effect, and the word ends, parks,
traps or waits with the others (R47, R435).  HEAD and COUNT move at the first issue that completes a lane or parks; `lr` is set
by an issue that parks in the lanes that have completed, and by a replay in the others (R63, R65); a word that waits with no lane
complete has had no issue yet. -/
def LaneCx.perform (c : LaneCx) (s : State) (pl : Plan) (w kind : Nat) (parts : List LanePart) : Except Exit State :=
  let r := runParts (c.wake s pl) parts
  let missed := r.2.1.map (·.1)
  let rest := lanesIn (missed ++ r.2.2)
  let some_ := missed.length + r.2.2.length < parts.length || c.gang.again.isSome
  let moved (s : State) : State := c.moveViews s pl
  let old : LaneMask := (c.gang.again.map (·.latched)).getD 0#32
  let latch (s : State) (m : LaneMask) : State :=
    match pl.dst with
    | some d => latchLoc s c.g d w (m &&& ~~~old)
    | none => s
  if !r.2.2.isEmpty then .error (.stall (if some_ then c.remain (moved r.1) rest 0#32 else r.1))
  else
    let top := r.2.1.foldl (fun m x => max m x.2.row) 0
    match r.2.1.find? fun x => x.2.row == top with
    | none => .ok (latch (moved r.1) c.sliceMask)
    | some (_, m) =>
      let mask := lanesIn ((r.2.1.filter fun x => x.2.row == top).map (·.1))
      let done := if pl.dst.isSome then c.sliceMask &&& ~~~rest else 0#32
      if top = 0 then .error ((m.exit kind mask).keep (c.remain (latch (moved r.1) done) rest done))
      else .error ((m.exit kind mask).keep (if some_ then c.remain (moved r.1) rest 0#32 else r.1))

/-- Lane memory words of a group that are in flight: those of its gangs with lanes yet to complete (R301). -/
def Group.wordsInFlight (p : Group) : Nat := ((p.task.map (·.gangs)).getD [] |>.filter fun x => x.again.isSome).length

/-- A memory word: the checks at issue, the observation of completion objects, the release steps once, the lanes (R48,
R275, R279). -/
def LaneCx.access (c : LaneCx) (s : State) (pl : Plan) (w kind : Nat) (rel : Option Scope) (sees : List (Nat × Nat))
    (parts : List LanePart) : Except Exit State :=
  match issueFault s parts with
  | some (cause, m) => .error (.trap (.of cause m) none)
  | none =>
    (deliverHeld s fun r => sees.any fun x => decide (r.stampVa < x.1 + x.2) && decide (x.1 < r.stampVa + 8)).bind fun _ =>
      if c.gang.again.isNone && decide (12 ≤ c.grp.wordsInFlight) then .error (.stall s)
      else match (if parts.isEmpty then none else rel) with
      | none => c.perform s pl w kind parts
      | some sc =>
        match releaseSteps s s.cur sc with
        | .error m => .error (m.exit kind c.act)
        | .ok t => c.perform t pl w kind parts

/-- A store that cannot leave room waits without effect. -/
def waitWhole (s : State) (r : Except Miss State) : Except Miss State :=
  match r with
  | .error (.wait _) => .error (.wait s)
  | x => x

/-! ### Loads, stores, atomics (R279, R284) -/

/-- Address of a lane: its pair plus the offset. -/
def laneVa (v : List Nat) (o : BitVec 12) : Nat := (arg v 0 + (sext64 o).toNat) % 2 ^ 64

/-- The scope of the release steps of a semantics. -/
def relScope (sem : Sem) (sc : Scope) : Option Scope := if semReleases sem then some sc else none

/-- A word whose lanes each write what they read to the destination. -/
def laneFetch (s : State) (h : LaneHdr) (srcs : List Field) (d : Field) (kind n : Nat) (rel : Option Scope) (o : BitVec 12)
    (f : List Nat → Nat → State → Except Miss (State × Nat)) : Out :=
  laneWord s h fun c =>
    (c.plan s srcs (some d)).bind fun pl =>
      let v (l : Nat) : List Nat := c.values s pl srcs l
      let lanes := bitsSet c.act
      c.access s pl d.width kind rel (lanes.map fun l => (laneVa (v l) o, n))
        (lanes.map fun l =>
          { lane := l
            run := fun s => (f (v l) (laneVa (v l) o) s).map fun r =>
              match pl.dst with
              | some x => writeLoc r.1 c.g x (lanesIn [l]) fun _ => r.2
              | none => r.1 })

/-- Loads copy bits; a narrow element writes only its own bytes. -/
def execVld (h : LaneHdr) (t : ETy) (_ : Scope) (_ : Bool) (o : BitVec 12) (d a : Operand) (s : State) : Out :=
  laneFetch s h [.int a 64] (.of t d) 0 (t.width / 8) none o fun _ va s => loadBytes s s.cur va (t.width / 8)

def execVst (h : LaneHdr) (t : ETy) (sc : Scope) (rel : Bool) (o : BitVec 12) (a b : Operand) (s : State) : Out :=
  let srcs : List Field := [.int a 64, .of t b]
  laneWord s h fun c =>
    (c.plan s srcs none).bind fun pl =>
      let v (l : Nat) : List Nat := c.values s pl srcs l
      c.access s pl 0 1 (if rel then some sc else none) []
        ((bitsSet c.act).map fun l =>
          { lane := l
            run := fun s => waitWhole s (storeBytes s s.cur (laneVa (v l) o) (t.width / 8) (arg (v l) 1)
              (if rel then some sc else none)) })

/-- Field of an atomic's operand. -/
def atField (t : AtTy) (o : Operand) : Field := { opd := o, width := t.width, fp := if t = .f32 then some descF32 else none }

def execVamo (h : LaneHdr) (t : AtTy) (op : AmoOp) (sc : Scope) (sem : Sem) (o : BitVec 12) (d a b : Operand) (s : State) : Out :=
  laneFetch s h [.int a 64, atField t b] (atField t d) 2 (t.width / 8) (relScope sem sc) o fun v va s =>
    atomicBytes s s.cur va (t.width / 8) fun old => amoValue op t.width old (arg v 1)

/-- b is the new value and c the compare value. -/
def execVcas (h : LaneHdr) (t : AtTy) (sc : Scope) (sem : Sem) (o : BitVec 12) (d a b c : Operand) (s : State) : Out :=
  laneFetch s h [.int a 64, atField t b, atField t c] (atField t d) 2 (t.width / 8) (relScope sem sc) o fun v va s =>
    atomicBytes s s.cur va (t.width / 8) fun old => if old = arg v 2 then arg v 1 else old

/-! ### Tiles (R288, R289) -/

/-- Address of an element of a tensor: in its block's scratchpad, or global (R91). -/
def tileVa (r : BitVec 1024) (c : List Nat) : Nat := (if tidSpace r = 1 then localBase else 0) + tidAddr r c

/-- Coordinates of a lane with element j along the walking dimension. -/
def tileCoord (p : Group) (k rank : Nat) (trans : Bool) (l j : Nat) : List Nat :=
  (List.range 5).map fun i =>
    (if i < rank then (p.vword l (k + i)).toNat else 0) + (if i = (if trans then 1 else 0) then j else 0)

/-- Elements of a lane's row: the address of each, none outside the tensor. -/
def tileRow (p : Group) (r : BitVec 1024) (v : Word) (k l : Nat) : List (Option Nat) :=
  (List.range (tvCols v)).map fun j =>
    let c := tileCoord p k (tidRank r) (tvTrans v) l j
    if tidInside r c then some (tileVa r c) else none

/-- Load the elements at a list of addresses, each address once. -/
def loadEach (n : Nat) : List Nat → State → Except Miss (State × FMap Nat)
  | [], s => .ok (s, [])
  | va :: t, s =>
    (loadEach n t s).bind fun r =>
      if (ffind r.2 va).isSome then .ok r
      else (loadBytes r.1 r.1.cur va n).map fun x => (x.1, fset r.2 va x.2)

/-- Requests to other packages for every element of a row, so that their answers can be awaited together (R472). -/
def askEach (n : Nat) (l : List Nat) (s : State) : Except Miss State :=
  let e := envOf s s.cur
  let far := l.eraseDups.filter fun va => match addrKind va with
    | .domain pkg _ _ => pkg != s.pkg.domain && !((remoteOf s e.who va false).any fun r => r.2.answer.isSome)
    | _ => false
  if far.isEmpty then .ok s
  else .error (.wait (far.foldl (fun s va => match remoteOf s e.who va false with
    | some _ => s
    | none => match remoteValue s e.who e.col va n false with
      | .error (.wait u) => u
      | _ => s) s))

/-- The checks of a tile word: the record, its view register and its coordinate words (R289). -/
def tileCheck (s : State) (c : LaneCx) (v : BitVec 4) (k : BitVec 8) (n : BitVec 6) (store : Bool) :
    Except Exit (BitVec 1024 × Word) :=
  let count := ((ffind s.blocks c.grp.block).map (·.tidCount)).getD 0
  let view := c.grp.view v.toNat
  match validTid c.task.tids count n.toNat with
  | none => .error (c.trap cBadTid)
  | some r =>
    if 255 < k.toNat + tidRank r - 1 then .error (c.trap cIllegalOperand)
    else if !viewValid view then .error (c.trap cBadView)
    else if tvFmt view ≠ tidFmt r then .error (c.trap cViewType)
    else if store && tidRo r then .error (c.trap cTidReadonly)
    else if !((List.range (tidRank r)).all fun i => c.grp.backed (k.toNat + i)) || !c.grp.allocated (.tile v 0#5) then
      .error (c.trap cUnallocWord)
    else .ok (r, view)

/-- Places of the words that a tile word reads or writes, for the banks it wakes. -/
def tileLocs (r : BitVec 1024) (k : BitVec 8) (v : Word) : List Loc :=
  (List.range (tidRank r)).map (fun i => Loc.space (4 * (k.toNat + i)) 4 32) ++
  (List.range ((tvCols v * elemBytes (tvFmt v) + 3) / 4)).map fun i => Loc.space (4 * (tvBase v + i)) 4 (tvRows v)

/-- Lanes of a tile word that act: below the view's rows. -/
def tileLanes (c : LaneCx) (v : Word) : List Nat := (bitsSet c.act).filter fun l => decide (l < tvRows v)

/-- Elements outside the tensor read as zero; `lr` shows element 0. -/
def execVtld (h : LaneHdr) (v : BitVec 4) (k : BitVec 8) (n : BitVec 6) (s : State) : Out :=
  laneWord s h fun c =>
    (tileCheck s c v k n false).bind fun x =>
      let size := tidSize x.1
      let row (l : Nat) : List (Option Nat) := tileRow c.grp x.1 x.2 k.toNat l
      let lanes := tileLanes c x.2
      let pl : Plan :=
        { srcs := tileLocs x.1 k x.2, dst := some (.space (4 * tvBase x.2) size (tvRows x.2)), views := c.grp.views }
      c.access s pl (8 * size) 0 none (lanes.flatMap fun l => (row l).filterMap fun a => a.map fun va => (va, size))
        (lanes.map fun l =>
          { lane := l
            run := fun s =>
              let vas := (row l).filterMap id
              (askEach size vas s).bind fun s =>
                (loadEach size vas s).map fun r =>
                  (row l).zipIdx.foldl (fun t (a, j) =>
                    writeLoc t c.g (.space (4 * tvBase x.2 + j * size) size 32) (lanesIn [l]) fun _ =>
                      (a.bind fun va => ffind r.2 va).getD 0) r.1 })

/-- Elements outside the tensor are never written. -/
def execVtst (h : LaneHdr) (v : BitVec 4) (k : BitVec 8) (n : BitVec 6) (s : State) : Out :=
  laneWord s h fun c =>
    (tileCheck s c v k n true).bind fun x =>
      let size := tidSize x.1
      let pl : Plan := { srcs := tileLocs x.1 k x.2, dst := none, views := c.grp.views }
      c.access s pl 0 1 none []
        ((tileLanes c x.2).map fun l =>
          { lane := l
            run := fun s =>
              waitWhole s ((tileRow c.grp x.1 x.2 k.toNat l).zipIdx.foldl (fun r (a, j) =>
                match r, a with
                | .ok t, some va => storeBytes t t.cur va size (c.grp.spaceNat l (4 * tvBase x.2 + j * size) size) none
                | r, _ => r) (.ok s)) })

/-! ### Fences and contributions (R287, R293) -/

/-- A fence of every active lane, once for the gang (R287). -/
def execLaneFence (h : LaneHdr) (sc : Scope) (k : FenceKind) (s : State) : Out :=
  laneWord s h fun c =>
    if c.act = 0#32 then .ok s
    else
      let r : Except Miss State := match k with
        | .full => fullFence s sc
        | .acq => .ok (refetch s sc)
        | .rel => (releaseSteps s s.cur sc).map fun s => fenceDone (refetch s sc) sc
      match r with
      | .ok t => .ok t
      | .error m => .error (m.exit 1 c.act)

/-- Lanes fold in ascending order. -/
def execLaneRadd (h : LaneHdr) (t : CrTy) (a b : Operand) (s : State) : Out :=
  let srcs : List Field := [.int a 64, { opd := b, width := t.width, fp := match t with
    | .f32 => some descF32
    | .bf16 => some descBf16
    | .i32 => none }]
  laneWord s h fun c =>
    (c.plan s srcs none).bind fun pl =>
      let v (l : Nat) : List Nat := c.values s pl srcs l
      c.access s pl 0 2 none []
        ((bitsSet c.act).map fun l =>
          { lane := l, run := fun s => contribute s s.cur t (arg (v l) 0) (arg (v l) 1) })

/-! ### Barriers (R297) -/

def execLaneBarArr (h : LaneHdr) (n : BitVec 6) (s : State) : Out :=
  laneWord s h fun c => if c.act = 0#32 then .ok s else arriveWord s n.toNat c.act

/-- The value of the lowest active lane. -/
def execLaneBarExp (h : LaneHdr) (n : BitVec 6) (b : Operand) (s : State) : Out :=
  laneWord s h fun c =>
    match (bitsSet c.act).head? with
    | none => .ok s
    | some l =>
      (c.plan s [.int b 32] none).bind fun pl =>
        (postWord s n.toNat (arg (c.values s pl [.int b 32] l) 0) c.act).map fun t => c.commit t pl 0 0#32 fun _ => 0

/-- A gang that stalls in the wait is not at a safe point. -/
def execLaneBarWait (h : LaneHdr) (n : BitVec 6) (q : Bool) (s : State) : Out :=
  laneWord s h fun c =>
    if c.act = 0#32 then .ok s
    else (waitWord s n.toNat q c.act).bind fun p =>
      if p then .ok s else .error (.stall (modGroup s c.g fun p => p.modGang c.k fun x => { x with safe := none }))

def execLaneBarTry (h : LaneHdr) (n : BitVec 6) (q : Bool) (p : BitVec 3) (s : State) : Out :=
  laneWord s h fun c =>
    if c.act = 0#32 then .ok s
    else (waitWord s n.toNat q c.act).map fun r =>
      modGroup s c.g fun g => g.setPred p c.act (if r then BitVec.allOnes 32 else 0#32)

end Sys2Proof.Machine
end

