-- ==== Sys2Proof/Machine/Matrix.lean ====
section
/-! DEFINITION. The matrix sequencer (R94, R303 to R320). -/

namespace Sys2Proof.Machine

/-! ### The sequencer and its words -/

/-- Apply a function to a block's sequencer. -/
def modSeq (s : State) (k : Nat) (f : Seq → Seq) : State := modBlock s k fun b => { b with seq := f b.seq }

/-- A sequencer goes on at an address. -/
def seqJump (s : State) (k : Nat) (pc : Word) : State :=
  modSeq s k fun q => { q with mpc := pc, rows := 0, held := false, spanned := none }

/-- The next matrix word follows. -/
def seqNext (s : State) (k : Nat) : State :=
  modSeq s k fun q => { q with mpc := q.mpc + 8#64, rows := 0, held := false, spanned := none }

/-- Outcome of a matrix word whose body sets MPC itself; the body is given the block and its number. -/
def matrixJump (s : State) (body : Nat → Block → Except Exit State) : Out :=
  match s.cur with
  | .seq k =>
    match ffind s.blocks k with
    | some b => .next (settle s (body k b))
    | none => .fault .wrongStream
  | _ => .fault .wrongStream

/-- Outcome of a matrix word after which the next one follows. -/
def matrixWord (s : State) (body : Nat → Block → Except Exit State) : Out :=
  matrixJump s fun k b => (body k b).map fun t => seqNext t k

/-- m[i].lo (R303). -/
def Seq.lo (q : Seq) (i : BitVec 4) : Nat := bitsOf (sget q.m i.toNat) 31 0
/-- m[i].hi (R303). -/
def Seq.hi (q : Seq) (i : BitVec 4) : Nat := bitsOf (sget q.m i.toNat) 63 32

/-- Write a half of an index register. -/
def Seq.setHalf (q : Seq) (i : BitVec 4) (hi : Bool) (v : Nat) : Seq :=
  { q with m := sset q.m i.toNat (setBits (sget q.m i.toNat) (if hi then 32 else 0) 32 v) }

/-- Class of a format (R304). -/
def planeClass (c : BitVec 8) : Option (BitVec 2) :=
  match Fmt.ofBits c with
  | some (.b8 _ _) => some 0#2
  | some (.int .i8) => some 1#2
  | some (.int .n8) => some 1#2
  | some f => if c = 2#8 ∨ c = 3#8 then (descFmt f).map fun _ => 2#2 else none
  | none => none

/-- Elements of K per pass of a class (R304). -/
def classK (c : BitVec 2) : Nat := if c = 2#2 then Config.mxK16 else Config.mxK8

/-! ### Reads of tensors (R305, R307, R309) -/

/-- A read of an agent in which the answers of other packages stay until its word is complete. -/
def peekBytes (s : State) (a : AgentId) (va n : Nat) : Except Miss (State × Nat) :=
  match (remoteOf s (envOf s a).who va false).bind fun r => r.2.answer with
  | some (.value x) => .ok (s, x % 2 ^ (8 * n))
  | _ => loadBytes s a va n

/-- The answers that an agent's word has used. -/
def dropAnswers (s : State) (a : AgentId) : State :=
  { s with remote := s.remote.filter fun r => !(r.2.who == (envOf s a).who && !r.2.write) }

/-- Bits of n elements of a row from coordinates on. -/
def loadRow (a : AgentId) (r : BitVec 1024) (c0 c1 : Nat) : Nat → State → Except Miss (State × List Nat)
  | 0, s => .ok (s, [])
  | n + 1, s =>
    (loadRow a r c0 c1 n s).bind fun x =>
      (peekBytes x.1 a (tileVa r [c0 + n, c1]) (tidSize r)).map fun y => (y.1, x.2 ++ [y.2])

/-- Elements of a row that lie inside the tensor. -/
def rowLength (r : BitVec 1024) (c0 c1 k : Nat) : Nat := if c1 < tidExt r 1 then min k (tidExt r 0 - c0) else 0

/-- Address of a row's scale stream, or its offset in the scratchpad (R90, R91). -/
def scaleRow (r : BitVec 1024) (c1 : Nat) : Nat := tidNat r 0x48 8 + c1 * tidNat r 0x50 8

/-- Scratchpad bytes of a sequencer's block. -/
def seqSpm (s : State) (a : AgentId) : Nat :=
  match a with
  | .seq b => ((ffind s.blocks b).map (·.spmBytes)).getD 0
  | _ => 0

/-- One byte of a scale stream (R91); a word that has begun, and so no longer faults (R316), is given a free byte beyond
SPM_BYTES, which it reaches only where another agent has changed the stream since its check. -/
def loadScaleByte (s : State) (a : AgentId) (r : BitVec 1024) (begun : Bool) (off : Nat) : Except Miss (State × Nat) :=
  if tidSpace r = 1 then
    if off < seqSpm s a then peekBytes s a (localBase + off) 1
    else if begun then .ok ({ s with freeCtr := s.freeCtr + 1 }, (Config.fresh s.freeCtr).toNat % 256)
    else .error (.trap cSpmRange)
  else peekBytes s a off 1

/-- The bytes of a row's stream as far as its block 0 and n further blocks take them; at most the given number are still
to be read. -/
def loadStream (a : AgentId) (r : BitVec 1024) (begun : Bool) (base n : Nat) : Nat → State → List Byte → Except Miss (State × List Byte)
  | 0, s, l => .ok (s, l)
  | k + 1, s, l =>
    if scaleLength l 2 n < 2 * l.length + 1 then .ok (s, l)
    else (loadScaleByte s a r begun (base + l.length)).bind fun x => loadStream a r begun base n k x.1 (l ++ [BitVec.ofNat 8 x.2])

/-- Scales of a row from the block of coordinate c0 on, for k elements; none where the row is outside the tensor or the
tensor has none. -/
def loadScales (s : State) (a : AgentId) (r : BitVec 1024) (begun : Bool) (c0 c1 k : Nat) : Except Miss (State × List (BitVec 8)) :=
  let bs := tidBlock r
  if bs = 0 ∨ tidExt r 1 ≤ c1 ∨ tidExt r 0 ≤ c0 then .ok (s, [])
  else
    let n := min (c0 / bs + k / bs) ((tidExt r 0 + bs - 1) / bs)
    (loadStream a r begun (scaleRow r c1) (n - 1) (2 * n + 2) s []).map fun x => (x.1, (scalesOf x.2 n).drop (c0 / bs))

/-- A value under a block scale (R89). -/
def underScale (s : BitVec 8) (v : FV) : FV := if s = 0xFF#8 then .nan false else v.scale ((s.toNat : Int) - 127)

/-! ### `mls` (R307) -/

/-- Bits in FP32 of an element's value. -/
def f32Of (c : BitVec 8) (x : Nat) : Word32 :=
  match Fmt.ofBits c with
  | some f => BitVec.ofNat 32 (fpConvert descF32 .rne true (fmtValue f x)).1
  | none => 0#32

/-- Weight rows and their scales for the first n columns. -/
def loadWeights (a : AgentId) (r : BitVec 1024) (c0 c1 k : Nat) : Nat → State → Except Miss (State × List (List Nat × List (BitVec 8)))
  | 0, s => .ok (s, [])
  | n + 1, s =>
    (loadWeights a r c0 c1 k n s).bind fun x =>
      (loadRow a r c0 (c1 + n) (rowLength r c0 (c1 + n) k) x.1).bind fun w =>
        (loadScales w.1 a r false c0 (c1 + n) k).map fun z => (z.1, x.2 ++ [(w.2, z.2)])

/-- The plane of loaded columns. -/
def planeFrom (r : BitVec 1024) (cls : BitVec 2) (c0 : Nat) (cols : List (List Nat × List (BitVec 8))) : Plane :=
  let at_ (k : Nat) : List (Nat × Word32) :=
    (cols.zipIdx.map fun (c, n) => (256 * k + n, f32Of (tidFmt r) (c.1.getD k 0))).filter fun x => x.2 != 0#32
  let scales (b : Nat) : List (Nat × BitVec 8) :=
    (cols.zipIdx.map fun (c, n) => (256 * b + n, c.2.getD b 127#8)).filter fun x => x.2 != 127#8
  { valid := true, cls := cls, bs := tidBlock r, org := c0, w := (List.range (classK cls)).flatMap at_
    sw := (List.range (if tidBlock r = 0 then 0 else classK cls / tidBlock r)).flatMap scales }

/-- A valid identifier of a sequencer (R316, R330). -/
def seqTid (b : Block) (n : BitVec 6) : Except Exit (BitVec 1024) :=
  match validTid b.seq.tids b.tidCount n.toNat with
  | some r => .ok r
  | none => .error (trapOf cBadTid)

/-- The class of a tensor's format, or MX_FORMAT. -/
def seqClass (r : BitVec 1024) : Except Exit (BitVec 2) :=
  match planeClass (tidFmt r) with
  | some c => .ok c
  | none => .error (trapOf cMxFormat)

/-- The alignment of an origin to a block size (R305). -/
def alignedTo (c0 bs : Nat) : Bool := bs == 0 || c0 % bs == 0

def execMls (ta : BitVec 6) (mi : BitVec 4) (dk dn : BitVec 16) (s : State) : Out :=
  matrixWord s fun k b =>
    let c0 := (b.seq.lo mi + dk.toNat) % 2 ^ 32
    let c1 := (b.seq.hi mi + dn.toNat) % 2 ^ 32
    (seqTid b ta).bind fun r =>
      (seqClass r).bind fun cls =>
        (need (alignedTo c0 (tidBlock r)) cMxAlign).bind fun _ =>
          (need (!tensorInWindow r) cBadAddress).bind fun _ =>
            (lift 0 (loadWeights (.seq k) r c0 c1 (classK cls) Config.mxN s)).map fun x =>
              modSeq (dropAnswers x.1 (.seq k)) k fun q => { q with shadow := planeFrom r cls c0 x.2 }

def execMswp (s : State) : Out :=
  matrixWord s fun k _ => .ok (modSeq s k fun q => { q with active := q.shadow, shadow := q.active })

/-! ### Passes (R94, R309, R320) -/

/-- Scale of an element of a plane. -/
def Plane.scaleAt (p : Plane) (k n : Nat) : BitVec 8 :=
  if p.bs = 0 then 127#8 else (ffind p.sw (256 * (k / p.bs) + n)).getD 127#8

/-- Weight of an element of a plane. -/
def Plane.weight (p : Plane) (k n : Nat) : FV := fvOf descF32 (sget p.w (256 * k + n)).toNat

/-- Products that a zero total is told from: only BF16 and FP16 reach a total of −0 (R94), and a row wholly outside its
tensor adds +0 (R309), so that elsewhere a product +0 stands among them. -/
def zeroTerm (p : Plane) (out : Bool) : List (FV × FV) :=
  if p.cls = 2#2 ∧ out = false then [] else [(.fin false 0 0, .fin false 0 0)]

/-- One column of a pass into FP32 (R94); `out` where the activation row lies wholly outside the tensor. -/
def passFloat (p : Plane) (act : List FV) (out : Bool) (n : Nat) (acc : Word32) : Word32 :=
  BitVec.ofNat 32 (fpDot descF32 .rne
    (zeroTerm p out ++ act.zipIdx.map fun (a, k) => (a, underScale (p.scaleAt k n) (p.weight k n)))
    (fvOf descF32 acc.toNat)).1

/-- A finite value that is an integer. -/
def FV.integer (v : FV) : Int := fvInteger (-256) v / 2 ^ 256

/-- One column of an integer pass (R304). -/
def passInt (p : Plane) (act : List FV) (n : Nat) (acc : Word32) : Word32 :=
  acc + BitVec.ofInt 32 ((act.zipIdx.map fun (a, k) => a.integer * (p.weight k n).integer).foldl (· + ·) 0)

/-- The activations of a row under their scales (R309). -/
def loadActs (s : State) (a : AgentId) (r : BitVec 1024) (begun : Bool) (c0 c1 k : Nat) : Except Miss (State × List FV) :=
  (loadRow a r c0 c1 (rowLength r c0 c1 k) s).bind fun x =>
    (loadScales x.1 a r begun c0 c1 k).map fun z =>
      (z.1, (List.range k).map fun i =>
        underScale (if tidBlock r = 0 then 127#8 else z.2.getD (i / tidBlock r) 127#8)
          (((Fmt.ofBits (tidFmt r)).map fun f => fmtValue f (x.2.getD i 0)).getD (.fin false 0 0)))

/-- Write the 256 columns of an accumulator row. -/
def Block.setRow (b : Block) (row : Nat) (f : Nat → Word32) : Block :=
  { b with acc := (List.range Config.mxN).foldl (fun m n => fset m (256 * row + n) (f n)) b.acc }

/-- A row of accumulators is reached: its bank wakes, and the matrix engine does (R67, R485). -/
def wakeRow (s : State) (b : Block) (row : Nat) : State :=
  wakeBanks (wakeArray s b.core (.matrix b.core)) b.core (accBanks b row 1)

/-- One pass of a block into an accumulator row. -/
def passRow (s : State) (k row : Nat) (acct out : Bool) (act : List FV) : State :=
  match ffind s.blocks k with
  | none => s
  | some b =>
    let p := b.seq.active
    let cell (n : Nat) : Word32 :=
      if acct then passInt p act n (accWord b (256 * row + n)) else passFloat p act out n (accWord b (256 * row + n))
    let s := modBlock (wakeRow s b row) k fun b =>
      let b := b.setRow row cell
      { b with seq := { b.seq with rows := b.seq.rows + 1, held := false } }
    modCore s b.core fun c => { c with passes := c.passes + 1 }

/-- Whether the issue budget holds a block's next pass (R320). -/
def passHeld (s : State) (k : Nat) : Bool :=
  match (ffind s.blocks k).bind fun b => ffind s.cores b.core with
  | none => false
  | some c => (ffind s.cols c.col).any fun x => decide (x.budget < 128) && decide (x.budget ≤ c.passes)

/-- A held pass is counted once in MX_STALLS (R320). -/
def holdPass (s : State) (k : Nat) : State :=
  match ffind s.blocks k with
  | none => s
  | some b =>
    if b.seq.held then s
    else modCore (modSeq s k fun q => { q with held := true }) b.core fun c => { c with mxStalls := satInc32 c.mxStalls }

/-- The end of a matrix word some of whose rows are done. -/
def Miss.kept (s : State) (kind : Nat) (m : Miss) : Exit :=
  match m.exit kind 0#32 with
  | .trap t _ => .trap t (some s)
  | .park p _ => .park p (some s)
  | .stall t => .stall t

/-- What stands in the way of the rows that an `mst` reads, before the first row: the fault of any of them, or else the first translation
that is missing, so that the word has no effect before all of them are there (R91, R316). -/
def actsFault (s : State) (a : AgentId) (r : BitVec 1024) (c0 c1 k count : Nat) : Except Exit Unit :=
  let exits := (List.range count).filterMap fun i => match loadActs s a r false c0 (c1 + i) k with
    | .ok _ => none
    | .error m => some (m.exit 0 0#32)
  let trap := exits.findSome? fun x => match x with
    | .trap t _ => some (.trap t none)
    | _ => none
  let park := exits.findSome? fun x => match x with
    | .park p _ => some (.park p none)
    | _ => none
  match trap <|> park with
  | some x => .error x
  | none => .ok ()

/-- The remaining n passes of an `mst` (R309). -/
def passRows (k : Nat) (r : BitVec 1024) (c0 c1 row count kk : Nat) (acct : Bool) : Nat → State → Except Exit State
  | 0, s => .ok s
  | n + 1, s =>
    if passHeld s k then .error (.stall (holdPass s k))
    else match loadActs s (.seq k) r true c0 (c1 + (count - (n + 1))) kk with
      | .error m => .error (m.kept s 0)
      | .ok (t, act) =>
        passRows k r c0 c1 row count kk acct n
          (passRow t k (row + (count - (n + 1))) acct (rowLength r c0 (c1 + (count - (n + 1))) kk == 0) act)

/-- Whether activations suit a plane (R304, R305). -/
def passFormat (p : Plane) (r : BitVec 1024) (acct : Bool) : Bool :=
  planeClass (tidFmt r) == some p.cls && (!acct || (p.cls == 1#2 && p.bs == 0 && tidBlk r == 0)) &&
  (p.bs == 0 || tidBlk r == 0 || p.bs == tidBlock r)

/-- The k origins of a pass against the block sizes of weights and activations, whichever has them (R305). -/
def originsOk (p : Plane) (r : BitVec 1024) (c0 : Nat) : Bool :=
  alignedTo c0 (tidBlock r) && alignedTo c0 p.bs && alignedTo p.org (tidBlock r)

/-- The checks of an `mst` against its own tensor and plane, in an order of the model's own (DESIGN CHOICE, log 138). -/
def mstCheck (b : Block) (q : SpanReq) : Except Exit (BitVec 1024) :=
  (need b.seq.active.valid cMxNoplane).bind fun _ =>
    (seqTid b q.ta).bind fun r =>
      (need (passFormat b.seq.active r q.acct) cMxFormat).bind fun _ =>
        (need (originsOk b.seq.active r (b.seq.lo q.mi)) cMxAlign).bind fun _ =>
          (need (decide (q.row + q.count ≤ b.accCount)) cMxAcc).bind fun _ =>
            (need (!tensorInWindow r) cBadAddress).map fun _ => r

/-- The checks of a partner that does not lead: it does not read its own TA and MI (R319). -/
def partnerCheck (b : Block) (q : SpanReq) : Except Exit Unit :=
  (need b.seq.active.valid cMxNoplane).bind fun _ =>
    (need (!q.acct || (b.seq.active.cls == 1#2 && b.seq.active.bs == 0)) cMxFormat).bind fun _ =>
      need (decide (q.row + q.count ≤ b.accCount)) cMxAcc

/-- Rank of a block in its span set (R318). -/
def spanRank (s : State) (k : Nat) : Nat := (spanSet s k).findIdx (· == k)

/-- An `mst`: passes of its own, or the wait for its partners (R309, R319). -/
def execMst (ta : BitVec 6) (mi : BitVec 4) (row count : BitVec 11) (acct : Bool) (s : State) : Out :=
  matrixWord s fun k b =>
    let q : SpanReq := { ta := ta, mi := mi, row := row.toNat, count := count.toNat, acct := acct }
    if 1 < b.seq.span then
      let checked := if spanRank s k % b.seq.span = b.seq.lead then (mstCheck b q).map fun _ => () else partnerCheck b q
      checked.bind fun _ => .error (.stall (modSeq s k fun x => { x with spanned := some q }))
    else
      (mstCheck b q).bind fun r =>
        (if b.seq.rows = 0 then actsFault s (.seq k) r (b.seq.lo mi) (b.seq.hi mi) (classK b.seq.active.cls) q.count
          else .ok ()).bind fun _ =>
        (passRows k r (b.seq.lo mi) (b.seq.hi mi) q.row q.count (classK b.seq.active.cls) acct (q.count - b.seq.rows) s).map fun t =>
          dropAnswers t (.seq k)

/-! ### Spans (R318, R319) -/

/-- Partners of a block: the subset of its span set, by SPAN, in rank order. -/
def spanPartners (s : State) (k : Nat) : List Nat :=
  let w := ((ffind s.blocks k).map (·.seq.span)).getD 1
  ((spanSet s k).drop (spanRank s k / w * w)).take w

/-- Whether a sequencer waits in a spanned step. -/
def spanWaits (s : State) (k : Nat) : Bool := (ffind s.blocks k).any fun b => b.seq.spanned.isSome

/-- A fault in every partner of a list (R319). -/
def faultAll (s : State) (c : BitVec 8) (l : List Nat) : State :=
  l.foldl (fun s k => seqFault (modSeq s k fun q => { q with spanned := none }) k (.of c 0#32)) s

/-- A block reaches `mend` or an `mspn` while partners of it wait in a step: every partner of that step faults (R319). -/
def strandCheck (s : State) (k : Nat) : Except Exit Unit :=
  match (spanSet s k).find? fun x => x != k && spanWaits s x && (spanPartners s x).contains k with
  | none => .ok ()
  | some x => .error (.trap (.of cMxSpan 0#32) (some (faultAll s cMxSpan ((spanPartners s x).filter (· != k)))))

def execMspn (n : BitVec 8) (lead : BitVec 2) (s : State) : Out :=
  matrixWord s fun k b =>
    let w := if b.seg.isSome then 1 else ((ffind s.regions b.region).map spanWidth).getD 1
    (need ((n == 1#8 || n == 2#8 || n == 4#8) && decide (n.toNat ≤ w) && decide (lead.toNat < n.toNat)) cMxSpan).bind fun _ =>
      (strandCheck s k).map fun _ => modSeq s k fun q => { q with span := n.toNat, lead := lead.toNat }

/-- One row of a spanned step: every partner's budget, the lead's activations, every partner's pass. -/
def spanRows (lead : Nat) (r : BitVec 1024) (c0 c1 kk : Nat) (l : List (Nat × SpanReq)) (count : Nat) : Nat → State → Except Exit State
  | 0, s => .ok s
  | n + 1, s =>
    let late := l.filter fun p => passHeld s p.1
    if !late.isEmpty then .error (.stall (late.foldl (fun s p => holdPass s p.1) s))
    else match loadActs s (.seq lead) r true c0 (c1 + (count - (n + 1))) kk with
      | .error m => .error (m.kept s 0)
      | .ok (t, act) =>
        let out := rowLength r c0 (c1 + (count - (n + 1))) kk == 0
        spanRows lead r c0 c1 kk l count n (l.foldl (fun s p => passRow s p.1 (p.2.row + (count - (n + 1))) p.2.acct out act) t)

/-- A spanned step of waiting partners (R319). -/
def spanStep (s : State) (l : List (Nat × SpanReq)) (lead : Nat) : State :=
  match ffind s.blocks lead, (l.find? fun p => p.1 == lead).map Prod.snd with
  | some b, some q =>
    if l.any fun p => p.2.count != q.count || p.2.acct != q.acct then faultAll s cMxSpan (l.map Prod.fst)
    else match validTid b.seq.tids b.tidCount q.ta.toNat with
      | none => faultAll s cBadTid [lead]
      | some r =>
        let c0 := b.seq.lo q.mi
        let suits (f : Plane → Bool) (p : Nat × SpanReq) : Bool := (ffind s.blocks p.1).any fun x => f x.seq.active
        let other := l.filter fun p => !suits (fun x => passFormat x r q.acct) p
        let askew := l.filter fun p => !suits (fun x => originsOk x r c0) p
        if !other.isEmpty then faultAll s cMxFormat (other.map Prod.fst)
        else if !askew.isEmpty then faultAll s cMxAlign (askew.map Prod.fst)
        else
          let t := { s with cur := .seq lead }
          let kk := classK b.seq.active.cls
          let checked := if b.seq.rows = 0 then actsFault t (.seq lead) r c0 (b.seq.hi q.mi) kk q.count else .ok ()
          let u := settle t (checked.bind fun _ =>
            (spanRows lead r c0 (b.seq.hi q.mi) kk l q.count (q.count - b.seq.rows) t).map fun t =>
              l.foldl (fun s p => seqNext s p.1) (dropAnswers t (.seq lead)))
          { u with cur := s.cur }
  | _, _ => s

/-- A spanned step runs once every partner has issued its `mst`; the lead is the one that the lowest rank names. -/
def execSpannedStep (b : Nat) (s : State) : Out :=
  let parts := spanPartners s b
  let ready := parts.all fun k => (ffind s.blocks k).any fun x =>
    (x.run == .running || x.run == .stopping) && x.seq.run == .running && x.seq.spanned.isSome && spanPartners s k == parts
  let lead := parts.getD (((parts.head?.bind fun k => ffind s.blocks k).map (·.seq.lead)).getD 0) b
  .next (if ready then
      spanStep s (parts.filterMap fun k => ((ffind s.blocks k).bind (·.seq.spanned)).map fun q => (k, q)) lead
    else s)

/-- A new window of 128 core cycles (R320). -/
def execMxBudgetWindow (core : Nat) (s : State) : Out := .next (modCore s core fun c => { c with passes := 0 })

/-! ### `mzr` and `mdr` (R310 to R312) -/

def execMzr (row count : BitVec 11) (s : State) : Out :=
  matrixWord s fun k b =>
    (need (decide (row.toNat + count.toNat ≤ b.accCount)) cMxAcc).map fun _ =>
      (List.range count.toNat).foldl (fun s i => modBlock (wakeRow s b (row.toNat + i)) k fun x => x.setRow (row.toNat + i) fun _ => 0#32) s

/-- What an `mdr` was issued with: tensor, origin, first row, rounding, OVF, CLR, SH. -/
structure Drain where
  dst : BitVec 1024
  c0 : Nat
  c1 : Nat
  row : Nat
  rm : RM
  ovf : Bool
  clr : Bool
  sh : Int

/-- Whether a format is an integer one. -/
def isIntCode (c : BitVec 8) : Bool := (Fmt.ofBits c).any fun f => match f with | .int _ => true | _ => false

/-- Largest finite magnitude of a format (R312). -/
def maxFinite (c : BitVec 8) : Nat × Int :=
  match Fmt.ofBits c with
  | some (.int t) => ((ITy.max t).toNat, 0)
  | some f => ((descFmt f).map fun d => magValue d d.maxMag).getD (1, 0)
  | none => (1, 0)

/-- An accumulator read as FP32, times 2^SH. -/
def Drain.value (d : Drain) (acc : Word32) : FV := (fvOf descF32 acc.toNat).scale d.sh

/-- The bits that an accumulator is drained to under a scale (R311). -/
def Drain.bits (d : Drain) (scale : BitVec 8) (acc : Word32) : Nat :=
  match Fmt.ofBits (tidFmt d.dst) with
  | some (.int t) =>
    if tidBlk d.dst = 0 then wrapBits t.width (clampTo t acc.toInt)
    else match d.value acc with
      | .nan _ => 0
      | v => (fpToInt t d.rm (v.scale (127 - (scale.toNat : Int)))).1
  | some f => (fmtConvert f d.rm d.ovf ((d.value acc).scale (127 - (scale.toNat : Int)))).1
  | none => 0

/-- Columns of row r that lie inside the destination. -/
def Drain.cols (d : Drain) (r : Nat) : List Nat := List.range (rowLength d.dst d.c0 (d.c1 + r) Config.mxN)

/-- Scale blocks of a row's columns, each with its scale (R312). -/
def Drain.scales (d : Drain) (b : Block) (r : Nat) : List (Nat × BitVec 8) :=
  let bs := tidBlock d.dst
  if bs = 0 then []
  else (((d.cols r).map fun n => (d.c0 + n) / bs).eraseDups).map fun k =>
    (k, scaleFor (maxFinite (tidFmt d.dst)) (finiteMags (((d.cols r).filter fun n => (d.c0 + n) / bs == k).map fun n =>
      d.value (accWord b (256 * (d.row + r) + n)))))

/-- Nibbles of a block's scale in its row's stream (R312). -/
def scaleNibbles (k : Nat) (s : BitVec 8) : List (Nat × Nat) :=
  if k = 0 then [(0, s.toNat % 16), (1, s.toNat / 16)]
  else [(3 * k - 1, 8), (3 * k, s.toNat % 16), (3 * k + 1, s.toNat / 16)]

/-- The bytes of a row's stream that a drain updates, with their nibbles. -/
def nibbleBytes (l : List (Nat × Nat)) : List (Nat × List (Nat × Nat)) :=
  ((l.map fun x => x.1 / 2).eraseDups).map fun o => (o, l.filter fun x => x.1 / 2 == o)

/-- A line with some nibbles of one byte replaced. -/
def putNibbles (o : Nat) (l : List (Nat × Nat)) (old : LineData) : LineData × BitVec 128 :=
  (l.foldl (fun d x => setBits d (8 * o + 4 * (x.1 % 2)) 4 x.2) old, maskRange 128 o 1)

/-- Address of byte o of a row's scale stream. -/
def Drain.scaleVa (d : Drain) (r o : Nat) : Nat := (if tidSpace d.dst = 1 then localBase else 0) + scaleRow d.dst (d.c1 + r) + o

/-- The scale bytes of a row. -/
def Drain.scaleBytes (d : Drain) (b : Block) (r : Nat) : List (Nat × List (Nat × Nat)) :=
  (nibbleBytes ((d.scales b r).flatMap fun x => scaleNibbles x.1 x.2)).map fun x => (d.scaleVa r x.1, x.2)

/-- The elements of a row: address and bits. -/
def Drain.elems (d : Drain) (b : Block) (r : Nat) : List (Moved × Nat) :=
  let sc := d.scales b r
  (d.cols r).map fun n =>
    let va := tileVa d.dst [d.c0 + n, d.c1 + r]
    let k := if tidBlock d.dst = 0 then 0 else (d.c0 + n) / tidBlock d.dst
    ({ elem := n, src := va, dst := va }, d.bits ((ffind sc k).getD 127#8) (accWord b (256 * (d.row + r) + n)))

/-- Write the elements of a row line by line (R312). -/
def drainLines (e : Env) (n : Nat) (ms : List (Moved × Nat)) : List Nat → State → Except Miss State
  | [], s => .ok s
  | line :: t, s =>
    let here := ms.filter fun m => m.1.dst / 128 == line
    (accessAt ((here.head?.map fun m => m.1.dst).getD 0)
      (engPut s e (128 * line) false false fun old => lineOfMoves n (fun _ x => x) old here)).bind (drainLines e n ms t)

/-- Update the scale bytes of a row, each performed at its home as one step after the column's own bytes of its line
(R312). -/
def drainScales (e : Env) : List (Nat × List (Nat × Nat)) → State → Except Miss State
  | [], s => .ok s
  | (va, l) :: t, s =>
    let s := match addrKind va with
      | .plain => pushNow s e.sp (e.sp.key va) e.col e.who
      | _ => s
    (accessAt va (engPut s e (va / 128 * 128) false true (putNibbles (va % 128) l))).bind (drainScales e t)

/-- Drain one row of a block. -/
def drainRow (s : State) (k : Nat) (d : Drain) (r : Nat) : Except Miss State :=
  match ffind s.blocks k with
  | none => .ok s
  | some b =>
    let e := envOf s (.seq k)
    let s := wakeRow s b (d.row + r)
    let ms := d.elems b r
    (drainLines e (tidSize d.dst) ms ((ms.map fun m => m.1.dst / 128).eraseDups) s).bind fun s =>
      (drainScales e (d.scaleBytes b r) s).map fun s =>
        let s := if d.clr then modBlock s k fun b => b.setRow (d.row + r) fun _ => 0#32 else s
        modSeq s k fun q => { q with rows := q.rows + 1 }

/-- The remaining n rows of an `mdr`; a trap is raised without effect. -/
def drainRows (k : Nat) (d : Drain) (count : Nat) : Nat → State → Except Exit State
  | 0, s => .ok s
  | n + 1, s =>
    match drainRow s k d (count - (n + 1)) with
    | .ok t => drainRows k d count n t
    | .error (.wait _) => .error (.stall s)
    | .error m =>
      match m.exit 1 0#32 with
      | .park p _ => .error (.park p (some s))
      | x => .error x

/-- The lines of ordinary memory that a drain writes are checked before its first row, and its scale bytes against
SPM_BYTES (R91, R316). -/
def drainCheck (s : State) (k : Nat) (b : Block) (d : Drain) (count : Nat) : Except Exit State :=
  let e := envOf s (.seq k)
  let rows := List.range count
  let scales := if tidBlock d.dst = 0 then [] else rows.flatMap fun r => (d.scaleBytes b r).map Prod.fst
  let plain := ((rows.flatMap fun r => (d.cols r).map fun n => tileVa d.dst [d.c0 + n, d.c1 + r]) ++ scales).filter fun va =>
    addrKind va == .plain
  (need (tidSpace d.dst != 1 || scales.all fun va => decide (va < localBase + b.spmBytes)) cSpmRange).bind fun _ =>
    lift 1 (plain.foldl (fun r va => r.bind fun s => accessAt va (checkWrite s e e.sp (e.sp.key va))) (.ok s))

def execMdr (tb : BitVec 6) (mi : BitVec 4) (row count : BitVec 11) (r : Rnd) (ovf clr : Bool) (sh : BitVec 5) (s : State) : Out :=
  matrixWord s fun k b =>
    (need (decide (row.toNat + count.toNat ≤ b.accCount)) cMxAcc).bind fun _ =>
      (seqTid b tb).bind fun dst =>
        let c0 := b.seq.lo mi
        (need (!tidRo dst) cTidReadonly).bind fun _ =>
          (need (tidSize dst != 8 && !(isIntCode (tidFmt dst) && tidBlk dst == 0 && sh != 0#5)) cMxFormat).bind fun _ =>
            (need (alignedTo c0 (tidBlock dst)) cMxAlign).bind fun _ => (need (!tensorInWindow dst) cBadAddress).bind fun _ =>
              let d : Drain := { dst := dst, c0 := c0, c1 := b.seq.hi mi, row := row.toNat, rm := modeOf r 0#64 0#16, ovf := ovf, clr := clr
                                 sh := sh.toInt }
              (drainCheck s k b d count.toNat).bind fun s => drainRows k d count.toNat (count.toNat - b.seq.rows) s

/-! ### Barriers and control (R313, R314) -/

/-- A barrier of the sequencer's block. -/
def seqBar (b : Block) (n : BitVec 8) : Except Exit Unit := need (decide (n.toNat < b.barCount)) cBarRange

def execMbarr (n : BitVec 8) (s : State) : Out :=
  matrixWord s fun k b => (seqBar b n).bind fun _ => barTrap 0#32 (barArrive s k n.toNat)

/-- The identifiers of the block are seen as the completed wait finds them (R330). -/
def execMbwt (n : BitVec 8) (q : Bool) (s : State) : Out :=
  matrixWord s fun k b =>
    (seqBar b n).bind fun _ =>
      if barPassed s k n.toNat q then .ok (modSeq s k fun x => { x with tids := b.tids }) else .error (.stall s)

def execMset (mi : BitVec 4) (hi : Bool) (v : BitVec 31) (s : State) : Out :=
  matrixWord s fun k _ => .ok (modSeq s k fun q => q.setHalf mi hi v.toNat)

def execMadd (mi : BitVec 4) (hi : Bool) (v : BitVec 31) (s : State) : Out :=
  matrixWord s fun k b =>
    .ok (modSeq s k fun q => q.setHalf mi hi ((if hi then b.seq.hi mi else b.seq.lo mi) + (v.signExtend 32).toNat))

/-- A branch of the sequencer: in a March region only inside the matrix range of its segment (R314). -/
def seqBranch (s : State) (k : Nat) (b : Block) (o : BitVec 32) : Except Exit State :=
  let pc := b.seq.mpc + (o.signExtend 64) * 8#64
  let seg := b.seg.bind fun n => ((ffind s.regions b.region).bind (·.march)).bind fun m => m.segs[n]?
  (need (seg.all fun g => decide (g.matrixLo ≤ pc.toNat) && decide (pc.toNat < g.matrixHi)) cBadTarget).map fun _ => seqJump s k pc

def execMloop (mi : BitVec 4) (o : BitVec 32) (s : State) : Out :=
  matrixJump s fun k b =>
    let x := b.seq.lo mi
    let step (s : State) : State := modSeq s k fun q => q.setHalf mi false (x - 1)
    if x = 0 then .ok (seqNext s k)
    else if x = 1 then .ok (seqNext (step s) k)
    else (seqBranch s k b o).map step

def execMjmp (o : BitVec 32) (s : State) : Out := matrixJump s fun k b => seqBranch s k b o

/-- The sequencer stays at `mend` (R31, R319). -/
def execMend (s : State) : Out :=
  matrixJump s fun k _ => (strandCheck s k).map fun _ => modSeq s k fun q => { q with ended := true }

def execMnop (s : State) : Out := matrixWord s fun _ _ => .ok s

end Sys2Proof.Machine
end

