-- ==== Sys2Proof/Machine/ScalarFp.lean ====
section
/-! DEFINITION. Scalar floating-point words (R224 to R229). -/

namespace Sys2Proof.Machine

/-- Rounding mode of a scalar word. -/
def scalarMode (s : State) (r : Rnd) : RM := modeOf r (curThread s).fcsr (curThread s).gen

/-- Write a floating result with its flags (R224, R225). -/
def fpResult (s : State) (d : Reg) (x : Nat × FFlags) : State := scalarFlags (wr s d (wordOf x.1)) x.2

/-- Low bits of a register as an operand of a format (R224). -/
def fpArg (s : State) (f : SFmt) (r : Reg) : Nat := (rd s r).toNat % 2 ^ (descSFmt f).width

/-- A word of two floating sources. -/
def scalarFp2 (d a b : Reg) (f : SFmt) (s : State) (op : FpDesc → Nat → Nat → Nat × FFlags) : Out :=
  scalar s [a, b] [d] fun s => .ok (fpResult s d (op (descSFmt f) (fpArg s f a) (fpArg s f b)))

def execFadd (d a b : Reg) (r : Rnd) (f : SFmt) (s : State) : Out :=
  scalarFp2 d a b f s fun k x y => fpAdd k (scalarMode s r) x y
def execFsub (d a b : Reg) (r : Rnd) (f : SFmt) (s : State) : Out :=
  scalarFp2 d a b f s fun k x y => fpSub k (scalarMode s r) x y
def execFmul (d a b : Reg) (r : Rnd) (f : SFmt) (s : State) : Out :=
  scalarFp2 d a b f s fun k x y => fpMul k (scalarMode s r) x y
def execFdiv (d a b : Reg) (r : Rnd) (f : SFmt) (s : State) : Out :=
  scalarFp2 d a b f s fun k x y => fpDiv k (scalarMode s r) x y
def execFsqrt (d a : Reg) (r : Rnd) (f : SFmt) (s : State) : Out :=
  scalar s [a] [d] fun s => .ok (fpResult s d (fpSqrt (descSFmt f) (scalarMode s r) (fpArg s f a)))
def execFmin (d a b : Reg) (f : SFmt) (s : State) : Out := scalarFp2 d a b f s fun k x y => fpMinMax k false x y
def execFmax (d a b : Reg) (f : SFmt) (s : State) : Out := scalarFp2 d a b f s fun k x y => fpMinMax k true x y

/-- Condition of `fcmp` (R226). -/
def condOf : FCond → Cond
  | .eq => .eq
  | .ne => .ne
  | .lt => .lt
  | .le => .le

/-- 1 when the comparison holds. -/
def execFcmp (d a b : Reg) (f : SFmt) (k : FCond) (s : State) : Out :=
  scalarFp2 d a b f s fun c x y =>
    let r := fpCompare (condOf k) (fvOf c x) (fvOf c y)
    (if r.1 then 1 else 0, r.2)

/-- A mask with one bit set, and no flag. -/
def execFcls (d a : Reg) (f : SFmt) (s : State) : Out :=
  scalar s [a] [d] fun s => .ok (wr s d (wordOf (fpClass (descSFmt f) (fpArg s f a))))

def execFma (d a b c : Reg) (r : Rnd) (f : SFmt) (s : State) : Out :=
  scalar s [a, b, c] [d] fun s =>
    .ok (fpResult s d (fpFma (descSFmt f) (scalarMode s r) (fpArg s f a) (fpArg s f b) (fpArg s f c)))

/-- Floating format of a type of `fcvt`. -/
def cvtDesc : CvtTy → Option FpDesc
  | .f64 => some descF64
  | .f32 => some descF32
  | .f16 => some descF16
  | .bf16 => some descBf16
  | _ => none

/-- Integer type of a type of `fcvt`. -/
def cvtInt : CvtTy → ITy
  | .i32 => .i32
  | .n32 => .n32
  | .i64 => .i64
  | _ => .n64

/-- Value of a source of `fcvt` (R229). -/
def cvtValue (t : CvtTy) (x : Nat) : FV :=
  match cvtDesc t with
  | some d => fvOf d (x % 2 ^ d.width)
  | none => fvInt (intOf (cvtInt t) x)

/-- Result of `fcvt` as the register receives it (R84 to R86, R229). -/
def cvtResult (t : CvtTy) (rm : RM) (ovf : Bool) (v : FV) : Word × FFlags :=
  match cvtDesc t with
  | some d => let r := fpConvert d rm ovf v; (wordOf r.1, r.2)
  | none =>
    let r := fpToInt (cvtInt t) rm v
    (if t = .i32 then sext64 (BitVec.ofNat 32 r.1) else wordOf r.1, r.2)

/-- Under `.sr` the scalar stream's generator steps once. -/
def execFcvt (d a : Reg) (r : Rnd) (ovf : Bool) (t u : CvtTy) (s : State) : Out :=
  scalar s [a] [d] fun s =>
    let x := cvtResult t (scalarMode s r) ovf (cvtValue u (rd s a).toNat)
    let s := scalarFlags (wr s d x.1) x.2
    .ok (if r = .sr then modCur s fun th => { th with gen := srStep th.gen } else s)

end Sys2Proof.Machine
end

