-- ==== Sys2Proof/Machine/Dispatch.lean ====
section
/-! DEFINITION. The dispatch: one arm for each constructor of `Instr`, each a direct call of its meaning. -/

namespace Sys2Proof.Machine

def exec (i : Instr) (s : State) : Host.Outcome State Fault Refusal :=
  match i with
  | .add d a b => Sys2Proof.Machine.execAdd d a b s
  | .sub d a b => Sys2Proof.Machine.execSub d a b s
  | .mul d a b => Sys2Proof.Machine.execMul d a b s
  | .mulhI d a b => Sys2Proof.Machine.execMulhI d a b s
  | .mulhN d a b => Sys2Proof.Machine.execMulhN d a b s
  | .divI d a b => Sys2Proof.Machine.execDivI d a b s
  | .divN d a b => Sys2Proof.Machine.execDivN d a b s
  | .remI d a b => Sys2Proof.Machine.execRemI d a b s
  | .remN d a b => Sys2Proof.Machine.execRemN d a b s
  | .and d a b => Sys2Proof.Machine.execAnd d a b s
  | .or d a b => Sys2Proof.Machine.execOr d a b s
  | .xor d a b => Sys2Proof.Machine.execXor d a b s
  | .andn d a b => Sys2Proof.Machine.execAndn d a b s
  | .shl d a b => Sys2Proof.Machine.execShl d a b s
  | .shr d a b => Sys2Proof.Machine.execShr d a b s
  | .sra d a b => Sys2Proof.Machine.execSra d a b s
  | .rol d a b => Sys2Proof.Machine.execRol d a b s
  | .minI d a b => Sys2Proof.Machine.execMinI d a b s
  | .minN d a b => Sys2Proof.Machine.execMinN d a b s
  | .maxI d a b => Sys2Proof.Machine.execMaxI d a b s
  | .maxN d a b => Sys2Proof.Machine.execMaxN d a b s
  | .sltI d a b => Sys2Proof.Machine.execSltI d a b s
  | .sltN d a b => Sys2Proof.Machine.execSltN d a b s
  | .seq d a b => Sys2Proof.Machine.execSeq d a b s
  | .sel d a b c => Sys2Proof.Machine.execSel d a b c s
  | .clz d a => Sys2Proof.Machine.execClz d a s
  | .ctz d a => Sys2Proof.Machine.execCtz d a s
  | .popc d a => Sys2Proof.Machine.execPopc d a s
  | .bswap d a => Sys2Proof.Machine.execBswap d a s
  | .bextI d a b => Sys2Proof.Machine.execBextI d a b s
  | .bextN d a b => Sys2Proof.Machine.execBextN d a b s
  | .bins d a b => Sys2Proof.Machine.execBins d a b s
  | .lea d a b s_ => Sys2Proof.Machine.execLea d a b s_ s
  | .addImm d a i_ => Sys2Proof.Machine.execAddImm d a i_ s
  | .mulImm d a i_ => Sys2Proof.Machine.execMulImm d a i_ s
  | .andImm d a i_ => Sys2Proof.Machine.execAndImm d a i_ s
  | .orImm d a i_ => Sys2Proof.Machine.execOrImm d a i_ s
  | .xorImm d a i_ => Sys2Proof.Machine.execXorImm d a i_ s
  | .sltIImm d a i_ => Sys2Proof.Machine.execSltIImm d a i_ s
  | .sltNImm d a i_ => Sys2Proof.Machine.execSltNImm d a i_ s
  | .seqImm d a i_ => Sys2Proof.Machine.execSeqImm d a i_ s
  | .shlImm d a n => Sys2Proof.Machine.execShlImm d a n s
  | .shrImm d a n => Sys2Proof.Machine.execShrImm d a n s
  | .sraImm d a n => Sys2Proof.Machine.execSraImm d a n s
  | .rolImm d a n => Sys2Proof.Machine.execRolImm d a n s
  | .li d i_ => Sys2Proof.Machine.execLi d i_ s
  | .liIns d k i_ => Sys2Proof.Machine.execLiIns d k i_ s
  | .pcrel d o => Sys2Proof.Machine.execPcrel d o s
  | .brEq a b o => Sys2Proof.Machine.execBrEq a b o s
  | .brNe a b o => Sys2Proof.Machine.execBrNe a b o s
  | .brLt a b o => Sys2Proof.Machine.execBrLt a b o s
  | .brGe a b o => Sys2Proof.Machine.execBrGe a b o s
  | .brLtN a b o => Sys2Proof.Machine.execBrLtN a b o s
  | .brGeN a b o => Sys2Proof.Machine.execBrGeN a b o s
  | .loop a o => Sys2Proof.Machine.execLoop a o s
  | .jmp o => Sys2Proof.Machine.execJmp o s
  | .call o => Sys2Proof.Machine.execCall o s
  | .jr d a i_ => Sys2Proof.Machine.execJr d a i_ s
  | .ldI8 d a i_ => Sys2Proof.Machine.execLdI8 d a i_ s
  | .ldI16 d a i_ => Sys2Proof.Machine.execLdI16 d a i_ s
  | .ldI32 d a i_ => Sys2Proof.Machine.execLdI32 d a i_ s
  | .ldI64 d a i_ => Sys2Proof.Machine.execLdI64 d a i_ s
  | .ldN8 d a i_ => Sys2Proof.Machine.execLdN8 d a i_ s
  | .ldN16 d a i_ => Sys2Proof.Machine.execLdN16 d a i_ s
  | .ldN32 d a i_ => Sys2Proof.Machine.execLdN32 d a i_ s
  | .st8 d a i_ => Sys2Proof.Machine.execSt8 d a i_ s
  | .st16 d a i_ => Sys2Proof.Machine.execSt16 d a i_ s
  | .st32 d a i_ => Sys2Proof.Machine.execSt32 d a i_ s
  | .st64 d a i_ => Sys2Proof.Machine.execSt64 d a i_ s
  | .ldOrdered d a sc acq t => Sys2Proof.Machine.execLdOrdered d a sc acq t s
  | .stOrdered a b sc rel t => Sys2Proof.Machine.execStOrdered a b sc rel t s
  | .ldw d a sc acq t => Sys2Proof.Machine.execLdw d a sc acq t s
  | .pf a => Sys2Proof.Machine.execPf a s
  | .cln a => Sys2Proof.Machine.execCln a s
  | .clnPersist a => Sys2Proof.Machine.execClnPersist a s
  | .fence sc => Sys2Proof.Machine.execFence sc s
  | .fenceAcq sc => Sys2Proof.Machine.execFenceAcq sc s
  | .fenceRel sc => Sys2Proof.Machine.execFenceRel sc s
  | .amoSwap d a b sc sem w64 => Sys2Proof.Machine.execAmoSwap d a b sc sem w64 s
  | .amoAdd d a b sc sem w64 => Sys2Proof.Machine.execAmoAdd d a b sc sem w64 s
  | .amoAnd d a b sc sem w64 => Sys2Proof.Machine.execAmoAnd d a b sc sem w64 s
  | .amoOr d a b sc sem w64 => Sys2Proof.Machine.execAmoOr d a b sc sem w64 s
  | .amoXor d a b sc sem w64 => Sys2Proof.Machine.execAmoXor d a b sc sem w64 s
  | .amoMinI d a b sc sem w64 => Sys2Proof.Machine.execAmoMinI d a b sc sem w64 s
  | .amoMaxI d a b sc sem w64 => Sys2Proof.Machine.execAmoMaxI d a b sc sem w64 s
  | .amoMinN d a b sc sem w64 => Sys2Proof.Machine.execAmoMinN d a b sc sem w64 s
  | .amoMaxN d a b sc sem w64 => Sys2Proof.Machine.execAmoMaxN d a b sc sem w64 s
  | .amoFadd d a b sc sem w64 => Sys2Proof.Machine.execAmoFadd d a b sc sem w64 s
  | .cas d a b sc sem w64 => Sys2Proof.Machine.execCas d a b sc sem w64 s
  | .cst d a sc rel => Sys2Proof.Machine.execCst d a sc rel s
  | .fadd d a b r f => Sys2Proof.Machine.execFadd d a b r f s
  | .fsub d a b r f => Sys2Proof.Machine.execFsub d a b r f s
  | .fmul d a b r f => Sys2Proof.Machine.execFmul d a b r f s
  | .fdiv d a b r f => Sys2Proof.Machine.execFdiv d a b r f s
  | .fsqrt d a r f => Sys2Proof.Machine.execFsqrt d a r f s
  | .fmin d a b f => Sys2Proof.Machine.execFmin d a b f s
  | .fmax d a b f => Sys2Proof.Machine.execFmax d a b f s
  | .fcmp d a b f k => Sys2Proof.Machine.execFcmp d a b f k s
  | .fcls d a f => Sys2Proof.Machine.execFcls d a f s
  | .fma d a b c r f => Sys2Proof.Machine.execFma d a b c r f s
  | .fcvt d a r ovf t s_ => Sys2Proof.Machine.execFcvt d a r ovf t s_ s
  | .lxImm a n => Sys2Proof.Machine.execLxImm a n s
  | .lxReg d a => Sys2Proof.Machine.execLxReg d a s
  | .lpoll d => Sys2Proof.Machine.execLpoll d s
  | .csrr d n => Sys2Proof.Machine.execCsrr d n s
  | .csrw a n => Sys2Proof.Machine.execCsrw a n s
  | .csrs d a n => Sys2Proof.Machine.execCsrs d a n s
  | .svc k => Sys2Proof.Machine.execSvc k s
  | .brk k => Sys2Proof.Machine.execBrk k s
  | .tstamp d => Sys2Proof.Machine.execTstamp d s
  | .cyc d => Sys2Proof.Machine.execCyc d s
  | .wkGet d e => Sys2Proof.Machine.execWkGet d e s
  | .safe m => Sys2Proof.Machine.execSafe m s
  | .subSubscription d a b => Sys2Proof.Machine.execSubSubscription d a b s
  | .unsub d a b => Sys2Proof.Machine.execUnsub d a b s
  | .subup d a b => Sys2Proof.Machine.execSubup d a b s
  | .crSet a b => Sys2Proof.Machine.execCrSet a b s
  | .crEnd a => Sys2Proof.Machine.execCrEnd a s
  | .radd a b t => Sys2Proof.Machine.execRadd a b t s
  | .spmMap d a b => Sys2Proof.Machine.execSpmMap d a b s
  | .spmMapFill d a b => Sys2Proof.Machine.execSpmMapFill d a b s
  | .spmUnmap a => Sys2Proof.Machine.execSpmUnmap a s
  | .barInit a n => Sys2Proof.Machine.execBarInit a n s
  | .barArr n => Sys2Proof.Machine.execBarArr n s
  | .barExp a n => Sys2Proof.Machine.execBarExp a n s
  | .barWait q n => Sys2Proof.Machine.execBarWait q n s
  | .barTry d q n => Sys2Proof.Machine.execBarTry d q n s
  | .monArm d a => Sys2Proof.Machine.execMonArm d a s
  | .portCfg e => Sys2Proof.Machine.execPortCfg e s
  | .xacq n => Sys2Proof.Machine.execXacq n s
  | .xrel n => Sys2Proof.Machine.execXrel n s
  | .cp d a b sc => Sys2Proof.Machine.execCp d a b sc s
  | .cpColl d a b sc => Sys2Proof.Machine.execCpColl d a b sc s
  | .gth d a b sc => Sys2Proof.Machine.execGth d a b sc s
  | .scat d a b sc => Sys2Proof.Machine.execScat d a b sc s
  | .redcp d a b sc => Sys2Proof.Machine.execRedcp d a b sc s
  | .mcast d a b sc => Sys2Proof.Machine.execMcast d a b sc s
  | .dcoll d a b sc => Sys2Proof.Machine.execDcoll d a b sc s
  | .tidSet a n => Sys2Proof.Machine.execTidSet a n s
  | .tidGet d n => Sys2Proof.Machine.execTidGet d n s
  | .tidInv n => Sys2Proof.Machine.execTidInv n s
  | .xfer a => Sys2Proof.Machine.execXfer a s
  | .xcall d a => Sys2Proof.Machine.execXcall d a s
  | .xret a => Sys2Proof.Machine.execXret a s
  | .segWho d a => Sys2Proof.Machine.execSegWho d a s
  | .tret a => Sys2Proof.Machine.execTret a s
  | .ctxSave d a => Sys2Proof.Machine.execCtxSave d a s
  | .ctxLoad d a => Sys2Proof.Machine.execCtxLoad d a s
  | .capMint d a => Sys2Proof.Machine.execCapMint d a s
  | .capDrop d a => Sys2Proof.Machine.execCapDrop d a s
  | .tlbInv d a => Sys2Proof.Machine.execTlbInv d a s
  | .hmtSet d a => Sys2Proof.Machine.execHmtSet d a s
  | .segMap d a => Sys2Proof.Machine.execSegMap d a s
  | .actSet d a => Sys2Proof.Machine.execActSet d a s
  | .evqSet d a => Sys2Proof.Machine.execEvqSet d a s
  | .vadd h t d a b => Sys2Proof.Machine.execVadd h t d a b s
  | .vsub h t d a b => Sys2Proof.Machine.execVsub h t d a b s
  | .vmul h t d a b => Sys2Proof.Machine.execVmul h t d a b s
  | .vmulh h t d a b => Sys2Proof.Machine.execVmulh h t d a b s
  | .vmad h t d a b c => Sys2Proof.Machine.execVmad h t d a b c s
  | .vabsd h t d a b => Sys2Proof.Machine.execVabsd h t d a b s
  | .vmin h t d a b => Sys2Proof.Machine.execVmin h t d a b s
  | .vmax h t d a b => Sys2Proof.Machine.execVmax h t d a b s
  | .vadds h t d a b => Sys2Proof.Machine.execVadds h t d a b s
  | .vsubs h t d a b => Sys2Proof.Machine.execVsubs h t d a b s
  | .vand h t d a b => Sys2Proof.Machine.execVand h t d a b s
  | .vor h t d a b => Sys2Proof.Machine.execVor h t d a b s
  | .vxor h t d a b => Sys2Proof.Machine.execVxor h t d a b s
  | .vandn h t d a b => Sys2Proof.Machine.execVandn h t d a b s
  | .vshl h t d a b => Sys2Proof.Machine.execVshl h t d a b s
  | .vshr h t d a b => Sys2Proof.Machine.execVshr h t d a b s
  | .vsra h t d a b => Sys2Proof.Machine.execVsra h t d a b s
  | .vclz h t d a => Sys2Proof.Machine.execVclz h t d a s
  | .vctz h t d a => Sys2Proof.Machine.execVctz h t d a s
  | .vpopc h t d a => Sys2Proof.Machine.execVpopc h t d a s
  | .vbrev h t d a => Sys2Proof.Machine.execVbrev h t d a s
  | .vbext h t d a b => Sys2Proof.Machine.execVbext h t d a b s
  | .vcmp h t k d a b => Sys2Proof.Machine.execVcmp h t k d a b s
  | .vsel h t d a b p n => Sys2Proof.Machine.execVsel h t d a b p n s
  | .vmov h t d a => Sys2Proof.Machine.execVmov h t d a s
  | .vli h t d k => Sys2Proof.Machine.execVli h t d k s
  | .vext h t s_ d a => Sys2Proof.Machine.execVext h t s_ d a s
  | .vnrw h t s_ sat d a => Sys2Proof.Machine.execVnrw h t s_ sat d a s
  | .vfadd h t r d a b => Sys2Proof.Machine.execVfadd h t r d a b s
  | .vfsub h t r d a b => Sys2Proof.Machine.execVfsub h t r d a b s
  | .vfmul h t r d a b => Sys2Proof.Machine.execVfmul h t r d a b s
  | .vffma h t r d a b c => Sys2Proof.Machine.execVffma h t r d a b c s
  | .vfmin h t d a b => Sys2Proof.Machine.execVfmin h t d a b s
  | .vfmax h t d a b => Sys2Proof.Machine.execVfmax h t d a b s
  | .vfcmp h t k d a b => Sys2Proof.Machine.execVfcmp h t k d a b s
  | .vfrcp h t d a => Sys2Proof.Machine.execVfrcp h t d a s
  | .vfrsq h t d a => Sys2Proof.Machine.execVfrsq h t d a s
  | .vfex2 h t d a => Sys2Proof.Machine.execVfex2 h t d a s
  | .vflg2 h t d a => Sys2Proof.Machine.execVflg2 h t d a s
  | .vfsin h t d a => Sys2Proof.Machine.execVfsin h t d a s
  | .vfcos h t d a => Sys2Proof.Machine.execVfcos h t d a s
  | .vftnh h t d a => Sys2Proof.Machine.execVftnh h t d a s
  | .vfcvt h ovf r s_ t d a => Sys2Proof.Machine.execVfcvt h ovf r s_ t d a s
  | .vfcls h t d a => Sys2Proof.Machine.execVfcls h t d a s
  | .vfdot2 h bf r d a b c => Sys2Proof.Machine.execVfdot2 h bf r d a b c s
  | .vfdot4 h v p r d a b c => Sys2Proof.Machine.execVfdot4 h v p r d a b c s
  | .vfscl h t r d a b => Sys2Proof.Machine.execVfscl h t r d a b s
  | .vshfl h t m d a b => Sys2Proof.Machine.execVshfl h t m d a b s
  | .vbcast h t d a b => Sys2Proof.Machine.execVbcast h t d a b s
  | .vlred h t o r d a => Sys2Proof.Machine.execVlred h t o r d a s
  | .vscan h t o r d a => Sys2Proof.Machine.execVscan h t o r d a s
  | .vmred h t o r p d a b => Sys2Proof.Machine.execVmred h t o r p d a b s
  | .vballot h w64 p d => Sys2Proof.Machine.execVballot h w64 p d s
  | .vvote h m p q => Sys2Proof.Machine.execVvote h m p q s
  | .vlid h d => Sys2Proof.Machine.execVlid h d s
  | .pand h pd pa pb na nb => Sys2Proof.Machine.execPand h pd pa pb na nb s
  | .por h pd pa pb na nb => Sys2Proof.Machine.execPor h pd pa pb na nb s
  | .pxor h pd pa pb na nb => Sys2Proof.Machine.execPxor h pd pa pb na nb s
  | .pnot h pd pa na => Sys2Proof.Machine.execPnot h pd pa na s
  | .pmov h pd pa na => Sys2Proof.Machine.execPmov h pd pa na s
  | .lbr p n all o => Sys2Proof.Machine.execLbr p n all o s
  | .ljmp o => Sys2Proof.Machine.execLjmp o s
  | .regang k => Sys2Proof.Machine.execRegang k s
  | .lnop h => Sys2Proof.Machine.execLnop h s
  | .vwSet h v a => Sys2Proof.Machine.execVwSet h v a s
  | .vld h t sc acq o d a => Sys2Proof.Machine.execVld h t sc acq o d a s
  | .vst h t sc rel o a b => Sys2Proof.Machine.execVst h t sc rel o a b s
  | .vamo h t op sc sem o d a b => Sys2Proof.Machine.execVamo h t op sc sem o d a b s
  | .vcas h t sc sem o d a b c => Sys2Proof.Machine.execVcas h t sc sem o d a b c s
  | .vtld h v k n => Sys2Proof.Machine.execVtld h v k n s
  | .vtst h v k n => Sys2Proof.Machine.execVtst h v k n s
  | .laneFence h sc k => Sys2Proof.Machine.execLaneFence h sc k s
  | .laneRadd h t a b => Sys2Proof.Machine.execLaneRadd h t a b s
  | .laneBarArr h n => Sys2Proof.Machine.execLaneBarArr h n s
  | .laneBarExp h n b => Sys2Proof.Machine.execLaneBarExp h n b s
  | .laneBarWait h n q => Sys2Proof.Machine.execLaneBarWait h n q s
  | .laneBarTry h n q p => Sys2Proof.Machine.execLaneBarTry h n q p s
  | .pairedWord h x y => Sys2Proof.Machine.execPairedWord h x y s
  | .mls ta mi dk dn => Sys2Proof.Machine.execMls ta mi dk dn s
  | .mst ta mi row count acct => Sys2Proof.Machine.execMst ta mi row count acct s
  | .mzr row count => Sys2Proof.Machine.execMzr row count s
  | .mdr tb mi row count r ovf clr sh => Sys2Proof.Machine.execMdr tb mi row count r ovf clr sh s
  | .mspn n lead => Sys2Proof.Machine.execMspn n lead s
  | .mbarr b => Sys2Proof.Machine.execMbarr b s
  | .mbwt b q => Sys2Proof.Machine.execMbwt b q s
  | .mset mi hi v => Sys2Proof.Machine.execMset mi hi v s
  | .madd mi hi v => Sys2Proof.Machine.execMadd mi hi v s
  | .mloop mi o => Sys2Proof.Machine.execMloop mi o s
  | .mjmp o => Sys2Proof.Machine.execMjmp o s
  | .portSend v => Sys2Proof.Machine.execPortSend v s
  | .portReceive d => Sys2Proof.Machine.execPortReceive d s
  | .fcsrWrite v => Sys2Proof.Machine.execFcsrWrite v s
  | .segHotClear n => Sys2Proof.Machine.execSegHotClear n s
  | .colPwrFloorWrite v => Sys2Proof.Machine.execColPwrFloorWrite v s
  | .hostClkReqWrite mhz => Sys2Proof.Machine.execHostClkReqWrite mhz s
  | .registerWrite n v => Sys2Proof.Machine.execRegisterWrite n v s
  | .debuggerRead g l n => Sys2Proof.Machine.execDebuggerRead g l n s
  | .debuggerWrite g l n v => Sys2Proof.Machine.execDebuggerWrite g l n v s
  | .faultRecordRetry n => Sys2Proof.Machine.execFaultRecordRetry n s
  | .pageFaultReplay a => Sys2Proof.Machine.execPageFaultReplay a s
  | .runForcedEnd g k => Sys2Proof.Machine.execRunForcedEnd g k s
  | .runSplit g k => Sys2Proof.Machine.execRunSplit g k s
  | .runPromotion g k => Sys2Proof.Machine.execRunPromotion g k s
  | .xacqGrant b => Sys2Proof.Machine.execXacqGrant b s
  | .winterEntry b => Sys2Proof.Machine.execWinterEntry b s
  | .powerGate p => Sys2Proof.Machine.execPowerGate p s
  | .spring p => Sys2Proof.Machine.execSpring p s
  | .storeDrain a => Sys2Proof.Machine.execStoreDrain a s
  | .writeAtHome m => Sys2Proof.Machine.execWriteAtHome m s
  | .writeAck m => Sys2Proof.Machine.execWriteAck m s
  | .fillReceive m => Sys2Proof.Machine.execFillReceive m s
  | .invalidationReceive m => Sys2Proof.Machine.execInvalidationReceive m s
  | .updateReceive m => Sys2Proof.Machine.execUpdateReceive m s
  | .cacheEviction hd line => Sys2Proof.Machine.execCacheEviction hd line s
  | .evictionNotice m => Sys2Proof.Machine.execEvictionNotice m s
  | .sliceEvictionPush col line => Sys2Proof.Machine.execSliceEvictionPush col line s
  | .directoryEviction line => Sys2Proof.Machine.execDirectoryEviction line s
  | .partialEviction core line => Sys2Proof.Machine.execPartialEviction core line s
  | .spmForward m => Sys2Proof.Machine.execSpmForward m s
  | .flitDelivery m => Sys2Proof.Machine.execFlitDelivery m s
  | .flitResend m => Sys2Proof.Machine.execFlitResend m s
  | .enginePayloadLand e => Sys2Proof.Machine.execEnginePayloadLand e s
  | .engineCompletion e => Sys2Proof.Machine.execEngineCompletion e s
  | .engineFault e cause elem => Sys2Proof.Machine.execEngineFault e cause elem s
  | .spannedStep b => Sys2Proof.Machine.execSpannedStep b s
  | .mxBudgetWindow core => Sys2Proof.Machine.execMxBudgetWindow core s
  | .launchPost col q v => Sys2Proof.Machine.execLaunchPost col q v s
  | .launchAccept col q => Sys2Proof.Machine.execLaunchAccept col q s
  | .launchAgePromotion col q => Sys2Proof.Machine.execLaunchAgePromotion col q s
  | .blockPlace col => Sys2Proof.Machine.execBlockPlace col s
  | .blockStart b => Sys2Proof.Machine.execBlockStart b s
  | .travellerBirth r => Sys2Proof.Machine.execTravellerBirth r s
  | .blockRetire b => Sys2Proof.Machine.execBlockRetire b s
  | .regionRetire r => Sys2Proof.Machine.execRegionRetire r s
  | .preemptStop b => Sys2Proof.Machine.execPreemptStop b s
  | .preemptDeadlineMiss b => Sys2Proof.Machine.execPreemptDeadlineMiss b s
  | .stubForward n => Sys2Proof.Machine.execStubForward n s
  | .marchArrival g => Sys2Proof.Machine.execMarchArrival g s
  | .marchAdmit core => Sys2Proof.Machine.execMarchAdmit core s
  | .freeCountBroadcast core => Sys2Proof.Machine.execFreeCountBroadcast core s
  | .peerLaunchPacket p => Sys2Proof.Machine.execPeerLaunchPacket p s
  | .domainRequest r => Sys2Proof.Machine.execDomainRequest r s
  | .remoteRetry n => Sys2Proof.Machine.execRemoteRetry n s
  | .backInvalidate line => Sys2Proof.Machine.execBackInvalidate line s
  | .dcCapacityEvent e => Sys2Proof.Machine.execDcCapacityEvent e s
  | .dcResponse port => Sys2Proof.Machine.execDcResponse port s
  | .hbmRd g pc tag flaw => Sys2Proof.Machine.execHbmRd g pc tag flaw s
  | .hbmWr g pc tag flaw => Sys2Proof.Machine.execHbmWr g pc tag flaw s
  | .hbmWrm g pc tag flaw => Sys2Proof.Machine.execHbmWrm g pc tag flaw s
  | .hbmRdata g pc tag => Sys2Proof.Machine.execHbmRdata g pc tag s
  | .hbmWack g pc tag => Sys2Proof.Machine.execHbmWack g pc tag s
  | .refresh g pc row => Sys2Proof.Machine.execRefresh g pc row s
  | .patrolRead g addr flaw => Sys2Proof.Machine.execPatrolRead g addr flaw s
  | .softError e => Sys2Proof.Machine.execSoftError e s
  | .dieLinkError m => Sys2Proof.Machine.execDieLinkError m s
  | .governorSample s_ => Sys2Proof.Machine.execGovernorSample s_ s
  | .throttleChange col => Sys2Proof.Machine.execThrottleChange col s
  | .droopAlarm core mv => Sys2Proof.Machine.execDroopAlarm core mv s
  | .droopStretchEnd core => Sys2Proof.Machine.execDroopStretchEnd core s
  | .droopHalvingEnd core => Sys2Proof.Machine.execDroopHalvingEnd core s
  | .ageingRead slow => Sys2Proof.Machine.execAgeingRead slow s
  | .autumn plan => Sys2Proof.Machine.execAutumn plan s
  | .autumnStep => Sys2Proof.Machine.execAutumnStep s
  | .feedChange feed ok => Sys2Proof.Machine.execFeedChange feed ok s
  | .coldReset i_ => Sys2Proof.Machine.execColdReset i_ s
  | .hostFrameWrite slot off d => Sys2Proof.Machine.execHostFrameWrite slot off d s
  | .doorbell slot v => Sys2Proof.Machine.execDoorbell slot v s
  | .launchFrame => Sys2Proof.Machine.execLaunchFrame s
  | .copyFrame => Sys2Proof.Machine.execCopyFrame s
  | .queryFrame => Sys2Proof.Machine.execQueryFrame s
  | .attestFrame => Sys2Proof.Machine.execAttestFrame s
  | .healthRead => Sys2Proof.Machine.execHealthRead s
  | .blackBoxRead => Sys2Proof.Machine.execBlackBoxRead s
  | .blackBoxUnfreeze => Sys2Proof.Machine.execBlackBoxUnfreeze s
  | .hostThreadRestart => Sys2Proof.Machine.execHostThreadRestart s
  | .blackBoxFreezeAll => Sys2Proof.Machine.execBlackBoxFreezeAll s
  | .packageReset => Sys2Proof.Machine.execPackageReset s
  | .homeResponse a => Sys2Proof.Machine.execHomeResponse a s
  | .capacityWithdrawal port base len => Sys2Proof.Machine.execCapacityWithdrawal port base len s
  | .lwait => Sys2Proof.Machine.execLwait s
  | .nop => Sys2Proof.Machine.execNop s
  | .done => Sys2Proof.Machine.execDone s
  | .yieldGroup => Sys2Proof.Machine.execYieldGroup s
  | .monWait => Sys2Proof.Machine.execMonWait s
  | .idle => Sys2Proof.Machine.execIdle s
  | .halt => Sys2Proof.Machine.execHalt s
  | .lend => Sys2Proof.Machine.execLend s
  | .mswp => Sys2Proof.Machine.execMswp s
  | .mend => Sys2Proof.Machine.execMend s
  | .mnop => Sys2Proof.Machine.execMnop s

end Sys2Proof.Machine
end

