-- ==== Sys2Proof/Machine/Load.lean ====
section
/-! DEFINITION. A word placed where an agent fetches next: in the instruction cache of the current thread, or, for a lane
or matrix word, of a group with a lane task or a sequencer that the placing brings with it. -/

namespace Sys2Proof.Machine

/-- Put the 32-bit units of a word, n of them, in an agent's instruction cache from an address on. -/
def placeUnits (s : State) (a : AgentId) (va w : Nat) : Nat → State
  | 0 => s
  | n + 1 => putIcache (placeUnits s a va w n) a (va + 4 * n) (BitVec.ofNat 32 (w / 2 ^ (32 * n)))

/-- A region whose record asks for nothing, with one running block on core 0 that holds one group (R25, R26). -/
def loadRegion (rcb : Word) : Region :=
  { rcb := rcb, part := 0, asid := 0, col := 0, queue := 0, record := 0#2048, prio := 0, headAt := 0, qprio := 0, waiting := false
    chain := [], limits := [], vecTable := 0, notify := 0, columns := 0xFFFFFFFF#32, homing := [], placed := 1, retired := 0
    march := none, cursors := [], discarded := false, finished := false, marker := false, await := [] }

/-- What the block of `loadRegion` holds: the whole of a core for one group. -/
def loadNeed : Need := { groups := 1, chunks := 14, spm := 65536, bars := 64, tids := 64, acc := 1024 }

/-- The state with such a region, block and group under the numbers r, r + 1 and r + 2, the sequencer at word 8, the block in its core's
places in their order. -/
def withGroup (s : State) (r : Nat) : State :=
  let b := Block.fresh s r 0 0 loadNeed 8#64 none
  let b := { b with groups := [r + 2], run := .running, rows := List.range loadNeed.acc, lines := List.range (loadNeed.spm / 128), acc := [], spm := [] }
  { s with regions := fset s.regions r (loadRegion 0#64), blocks := fset s.blocks (r + 1) b
           groups := fset s.groups (r + 2) (Group.fresh r (r + 1) 0 0 0 0 0#64), nextId := r + 3 }

/-- The state in which the next turn is that of a gang of 32 lanes at lane word 0, which is the given one. -/
def placeLane (s : State) (w : Nat) : State :=
  let r := s.nextId
  let t : Task :=
    { n := 32, gangs := [.start (liveSlices 32) 0], endMask := 0#96, endSafe := true, tids := [] }
  let s := modGroup (withGroup s r) (r + 2) fun g => { g with task := some t }
  placeUnits { s with cur := .gang (r + 2) 0, sched := [.agent (.gang (r + 2) 0)] } (.gang (r + 2) 0) 0 w 6

/-- The state in which the next turn is that of a sequencer at the given matrix word. -/
def placeMatrix (s : State) (w : Nat) : State :=
  let r := s.nextId
  placeUnits { withGroup s r with cur := .seq (r + 1), sched := [.agent (.seq (r + 1))] } (.seq (r + 1)) 8 w 2

/-- The agent whose scalar stream a scalar word is for: the current one, or a gang's group. -/
def scalarSelf (s : State) : AgentId :=
  match s.cur with
  | .gang g _ => .group g
  | a => a

/-- The state in which the next turn is that of the current thread, at the given scalar word. -/
def placeScalar (s : State) (w : Nat) : State :=
  placeUnits { s with sched := [.agent (scalarSelf s)] } (scalarSelf s) (curThread s).pc.toNat w 1

/-- The state with a word of up to nbits bits placed where the next step fetches. -/
def placeWord (s : State) (nbits w : Nat) : State :=
  let w := w % 2 ^ nbits
  if nbits ≤ 32 then placeScalar s w else if nbits ≤ 64 then placeMatrix s w else placeLane s w

end Sys2Proof.Machine
end

