-- ==== Sys2Proof/Machine/Replace.lean ====
section
/-! DEFINITION. Capacity of the caches and replacement: sets and ways of a column slice, the lines of an L1 with its lent
units, of each half of a fused L1, of a host core's caches, and half and quarter copies that share a way (R13, R14, R104,
R106, R134, R485). -/

namespace Sys2Proof.Machine

/-- Quarters of a data way that a copy takes: a full copy all four, a half copy two, a quarter copy one (R134). -/
def Copy.quarters (c : Copy) : Nat := if c.fmt = 0#8 then 4 else 4 * codeWidth c.fmt / codeWidth c.src

/-- Lines that share one supply of ways: the cache's sharer code, the quarters that there are, and each line with what it
takes. -/
structure CacheSet where
  cache : Nat
  room : Nat
  lines : List (Nat × Nat)

/-- Copies that a cache holds, each with what it takes. -/
def heldBy (s : State) (cache : Nat) : List (Nat × Nat) :=
  (s.copies.filter fun c => c.1 % 1024 == cache).map fun c => (c.1 / 1024, c.2.quarters)

/-- What a slice holds: the lines homed in it, its copies of others, and those that it holds column-private dirty alone. -/
def sliceLines (s : State) (col : Nat) : List (Nat × Nat) :=
  let homed := (s.home.filter fun h => h.2.col == col && (!h.2.away || h.2.coarse || !h.2.ents.isEmpty)).map fun h => (h.1, 4)
  let held := (heldBy s (512 + col)).filter fun x => homed.all fun y => y.1 != x.1
  let own := ((fifoOf s col).filter fun k => (privAt s k col).isSome).map fun k => (k, 4)
  homed ++ held ++ own.filter fun x => (homed ++ held).all fun y => y.1 != x.1

/-- Ways of each set of a slice: sixteen, two fewer for each gated region (R13, R485). -/
def sliceWays (s : State) (col : Nat) : Nat := 16 - 2 * ((ffind s.cols col).map (·.gatedWays.length)).getD 0

/-- The sets of a slice that hold lines. -/
def sliceSets (s : State) (col : Nat) : List CacheSet :=
  let l := sliceLines s col
  ((l.map fun x => sliceSet x.1).eraseDups).map fun k =>
    { cache := 512 + col, room := 4 * sliceWays s col, lines := l.filter fun x => sliceSet x.1 == k }

/-- Lines of a core's L1: 2,048, and 128 for each 16 KiB unit of scratchpad that no resident block reserves and that is not
gated (R103, R104, R485). -/
def l1Lines (s : State) (core : Nat) : Nat :=
  let used := (residentOn s core).foldl (fun n b => n + b.spmBytes) 0
  let gated := (((ffind s.cores core).map (·.gated)).getD []).filter fun p => match p with
    | .spmUnits _ _ => true
    | _ => false
  2048 + 128 * ((Config.spmMax - used) / 16384 - 4 * gated.length)

/-- The L1s, the halves of the fused L1 and the host core's caches of a column; each is taken as one set, since the spec gives
their sizes alone (R13, R14, R106). -/
def otherSets (s : State) (col : Nat) : List CacheSet :=
  let cores := ((ffind s.cols col).map (·.cores)).getD []
  let half (k : Nat) (l : Nat × Nat) : Bool := (ffind s.cores k).any fun c => lineVa l.1 / 128 % 2 == c.phys % 2
  cores.map (fun k => { cache := k, room := 4 * l1Lines s k, lines := heldBy s k }) ++
  cores.map (fun k => { cache := 256 + col, room := 4 * l1Lines s k, lines := (heldBy s (256 + col)).filter (half k) }) ++
  [{ cache := 768 + col, room := 4 * (512 + 8192), lines := heldBy s (768 + col) }]

/-- Whether the lines of a set take more than there is. -/
def CacheSet.over (x : CacheSet) : Bool := decide (x.room < x.lines.foldl (fun n l => n + l.2) 0)

/-- The first set that holds too much.  Sixteen lines fit anywhere while no way of a slice is gated. -/
def overfull (s : State) : Option CacheSet :=
  if s.home.length + s.copies.length + s.priv.length ≤ 16 ∧ s.cols.all (fun c => c.2.gatedWays.isEmpty) then none
  else (s.cols.flatMap fun c => sliceSets s c.1 ++ otherSets s c.1).find? CacheSet.over

/-- A slice gives up a line: its own dirty bytes are pushed, its copy ends, and of a line homed in it the directory state
(R137, R161). -/
def evictSlice (s : State) (col line : Nat) : State :=
  let s := evictCopy (pushMsg s line col .nobody) (512 + col) line
  if (ffind s.home line).any fun h => h.col == col then evictHome s line else s

/-- One replacement: the victim is a free choice among the lines of the set; a slice whose ways are all gated wakes a region
instead (R134, R485). -/
def replaceIn (s : State) (x : CacheSet) : State :=
  if x.room = 0 then { s with cols := fmod s.cols (x.cache - 512) fun c => { c with gatedWays := c.gatedWays.drop 1 } }
  else match x.lines[Config.choice s.freeCtr % x.lines.length]? with
    | none => s
    | some l =>
      let s := { s with freeCtr := s.freeCtr + 1 }
      if isSlice x.cache then evictSlice s (x.cache - 512) l.1 else evictCopy s x.cache l.1

end Sys2Proof.Machine
end

