-- ==== Sys2Proof/Machine/Step.lean ====
section
/-! DEFINITION. One step of the machine: whose turn it is, the fetch, the decoding and the execution of one
instruction. -/

namespace Sys2Proof.Machine

/-- One instruction of an agent: fetched, decoded, executed. -/
def agentTurn (s : State) (a : AgentId) : Out :=
  match issueWord { s with cur := a } a with
  | .run t i => exec i t
  | .ended t => .next t

/-- One turn. -/
def turn (s : State) : Turn → Out
  | .agent a => agentTurn s a
  | .event i => if eventRuns s i then exec i s else .next s
  | .pass n => .next (passTime s n)
  | .cycles c n => .next (if s.pkg.halted then s else coreCycles s c n)

/-- The next turn of the schedule; with an empty schedule, the oldest message, or the oldest answer of a channel, or the next
agent that can issue, or nothing. -/
def nextTurn (s : State) : Host.Outcome State Fault Refusal :=
  match s.sched with
  | t :: rest => turn { s with sched := rest } t
  | [] =>
    match (nextMessage s) <|> nextAnswer s with
    | some t => .next t
    | none =>
      match nextAgent s with
      | some a => agentTurn (tally s a) a
      | none => .refused .quiet

/-- One step: a replacement while some cache holds more lines than it has room for (R134), or else the next turn; columns that have
stopped replace nothing (R469). -/
def step (s : State) : Host.Outcome State Fault Refusal :=
  match (if s.pkg.halted then none else overfull s) with
  | some x => .next (replaceIn s x)
  | none => nextTurn s

/-- The state with an instruction stored where the next step fetches: a scalar word at the current thread's program
counter, whose turn comes next; a matrix or lane word with a sequencer or a group that runs it. -/
def State.withFetchWord (s : State) (nbits w : Nat) : State := placeWord s nbits w

end Sys2Proof.Machine
end

