-- ==== Sys2Proof/Safety.lean ====
section
/-! DEFINITION. What a safe run is, in the terms that claims use. -/

namespace Sys2Proof.Machine

/-! ### Runs -/

/-- A step that goes on. -/
def Goes (s s' : State) : Prop := step s = .next s'

/-- States that steps reach from a state. -/
inductive Reach (s : State) : State → Prop
  | refl : Reach s s
  | tail {t u : State} (h : Reach s t) (k : Goes t u) : Reach s u

/-- A property that every step keeps. -/
def Kept (p : State → Prop) : Prop := ∀ s s' : State, p s → Goes s s' → p s'

/-- A run is safe for a property when every state it reaches has it. -/
def SafeFrom (p : State → Prop) (s : State) : Prop := ∀ t : State, Reach s t → p t

/-! ### Scalar words -/

/-- The current agent runs scalar words with this thread. -/
def Runs (s : State) (th : Thread) : Prop := threadOf s s.cur = some th ∧ ∀ g k : Nat, s.cur ≠ .gang g k

/-- A scalar word of these sources and destinations meets the port rules and need not wait for a port (R52, R120). -/
def PortsOk (s : State) (srcs dsts : List Reg) : Prop := portCheck s srcs dsts = .ok ()

/-- The state with the word's x29 popped, where ports are enabled and x29 is a source (R52). -/
def retired (s : State) (srcs : List Reg) (t : State) : State := if portsOn s && srcs.contains 29#5 then popFlit t else t

/-- The state with a register written and the next word to follow. -/
def wrote (s : State) (d : Reg) (v : Word) : State := advance (wr s d v)

/-- A word ends and leaves a state; where it was the replay of a word that had parked, its pending-fault entry is free (R437). -/
def Ends (s : State) (i : Instr) (t : State) : Prop := exec i s = .next (endReplay s t s.cur)

/-- What a word leaves that traps, from what it keeps: the trap waits while another gang of the group has issued a word in part
(R45); it gives back what an issue in part has set in `lr` (R65) and tells the agent its refused requests (R174). -/
def trapped (s kept : State) (t : TrapInfo) : State :=
  if midWord s s.cur then markTraps s s.cur
  else endReplay s (takeTrap (dropRefused (unlatch kept s.cur) s.cur) s.cur t) s.cur

/-- A scalar word whose ports are ready goes on to a state, in which x29 is popped where it is a source. -/
def Does (s : State) (i : Instr) (srcs dsts : List Reg) (t : State) : Prop := PortsOk s srcs dsts → Ends s i (retired s srcs t)

/-- A scalar word writes a value to a register, and the next word follows. -/
def Writes (s : State) (i : Instr) (srcs : List Reg) (d : Reg) (v : Word) : Prop := Does s i srcs [d] (wrote s d v)

/-- A scalar word writes what it has read from the scratchpad, whose units are awake then (R485). -/
def WritesLocal (s : State) (i : Instr) (a : Reg) (b o n : Nat) (d : Reg) (v : Word) : Prop :=
  Does s i [a] [d] (wrote (wakeSpm s b o n) d v)

/-- A scalar word traps with a cause, and has no other effect. -/
def Traps (s : State) (i : Instr) (srcs dsts : List Reg) (c : BitVec 8) : Prop :=
  PortsOk s srcs dsts → exec i s = .next (trapped s s (.of c 0#32))

/-- The current agent is a group of its core, running scalar words. -/
def RunsGroup (s : State) (k : Nat) (g : Group) : Prop := s.cur = .group k ∧ ffind s.groups k = some g

/-- No issue record holds a fault to be delivered (R48). -/
def NoHeldFault (s : State) : Prop := ∀ p ∈ s.irecs, p.2.heldFault = none

/-- An address of the local window of the current group's block (R105). -/
def Local (s : State) (va : Word) (b : Nat) (blk : Block) (o : Nat) : Prop :=
  (envOf s s.cur).block = some b ∧ ffind s.blocks b = some blk ∧ addrKind va.toNat = .loc o

/-- No message is in flight, an agent's store buffer is empty, and none of its words has yet to replay. -/
def Still (s : State) (th : Thread) : Prop := s.net = [] ∧ th.sb = [] ∧ th.replays = none

/-- An agent has nothing left to release: every store, push and atomic has been acknowledged, and its column holds no dirty line of its
own (R160 to R162). -/
def Released (s : State) (th : Thread) : Prop :=
  Still s th ∧ th.unack = 0 ∧ th.atomics = 0 ∧ th.marker = false ∧ s.pushes = [] ∧ s.remote = [] ∧ fifoOf s (envOf s s.cur).col = []

/-- A line held at its home alone, as nothing has disturbed it: its data there, no mapping, no range, no exclusive holder, no
column-private bytes of the current column (R106, R122, R135, R160, R452). -/
def AtHome (s : State) (va : Nat) (h : HomeLine) : Prop :=
  addrKind va = .plain ∧ ffind s.home ((envOf s s.cur).sp.key va) = some h ∧ h.away = false ∧ h.excl = none ∧ s.ranges = [] ∧
  (∀ c ∈ s.cores, c.2.maps = []) ∧ privAt s ((envOf s s.cur).sp.key va) (envOf s s.cur).col = none

/-- Two states that agree in every scalar register; the current agent goes on after its word with its store buffer empty. -/
def GoesOn (s t : State) (th : Thread) : Prop :=
  (∀ r : Reg, rd t r = rd s r) ∧ (threadOf t t.cur).map (fun x => (x.pc, x.sb)) = some (th.pc + 4#64, [])

/-- Little-endian value of n bytes of a block's local window (R5). -/
def localValue (blk : Block) (o n : Nat) : Nat := ((List.range n).map fun k => (localByte blk (o + k)).toNat * 256 ^ k).sum

/-- An entry of a capability store was minted from another, in any number of steps (R389, R403). -/
inductive MintedFrom (caps : FMap Cap) (root : Nat) : Nat → Prop
  | root : MintedFrom caps root root
  | child {i j : Nat} {c : Cap} (h : MintedFrom caps root i) (k : ffind caps j = some c) (v : c.valid = true) (o : c.origin = i) :
      MintedFrom caps root j

/-- Two states that agree in every scalar register, predicate, vector word and byte of physical memory, and in every block
but one. -/
def SameButBlock (s t : State) (b : Nat) : Prop :=
  (∀ r : Reg, rd t r = rd s r) ∧ t.mem = s.mem ∧ (∀ c : Nat, c ≠ b → ffind t.blocks c = ffind s.blocks c) ∧
  ∀ k : Nat, ((ffind t.groups k).map fun g => (g.v, g.p, g.views, g.th.pc, g.th.fcsr)) =
    (ffind s.groups k).map fun g => (g.v, g.p, g.views, g.th.pc, g.th.fcsr)

/-- A barrier of a block is a word, and the block's other barriers, every scalar register and physical memory are as in
another state (R110, R112). -/
def BarrierIs (s t : State) (b n : Nat) (w : Word) : Prop :=
  (∃ x y : Block, ffind s.blocks b = some x ∧ ffind t.blocks b = some y ∧ sget y.bars n = w ∧
    (∀ m : Nat, m ≠ n → sget y.bars m = sget x.bars m) ∧ y.spm = x.spm ∧ y.acc = x.acc ∧ y.tids = x.tids) ∧
  (∀ c : Nat, c ≠ b → ffind t.blocks c = ffind s.blocks c) ∧ (∀ r : Reg, rd t r = rd s r) ∧ t.mem = s.mem

/-! ### Lane words -/

/-- The current gang issues a word under a predicate with these lanes, and no held fault is taken at its safe point. -/
def RunsLane (s : State) (pred : BitVec 3) (neg : Bool) (c : LaneCx) : Prop :=
  laneCx s pred neg = some c ∧ c.atSafePoint s = .ok ()

/-- A lane word goes on to a state in which the next word of its gang follows. -/
def LaneDone (s : State) (i : Instr) (h : LaneHdr) (c : LaneCx) (t : State) : Prop := Ends s i (retireLane t c h.boundary)

/-- A lane word traps with a cause and its active lanes. -/
def LaneTraps (s : State) (i : Instr) (c : LaneCx) (cause : BitVec 8) : Prop :=
  exec i s = .next (trapped s s (.of cause c.act))

/-- A lane word gives each active lane a result and flags computed from the lane's own sources; a failing check of its
operands is its trap (R56, R61, R63). -/
def LaneGives (s : State) (i : Instr) (h : LaneHdr) (c : LaneCx) (srcs : List Field) (dst : Field)
    (f : Nat → List Nat → Nat × FFlags) : Prop :=
  match c.plan s srcs (some dst) with
  | .error x => exec i s = .next (settle s (.error x))
  | .ok pl =>
    let r (l : Nat) : Nat × FFlags := f l (c.values s pl srcs l)
    LaneDone s i h c (laneFlags (c.commit s pl dst.width c.act fun l => (r l).1) (flagsOf c.act fun l => (r l).2))

/-- A lane word writes to a predicate in each active lane. -/
def LaneTests (s : State) (i : Instr) (h : LaneHdr) (c : LaneCx) (srcs : List Field) (p : BitVec 3)
    (f : Nat → List Nat → Bool × FFlags) : Prop :=
  match c.plan s srcs none with
  | .error x => exec i s = .next (settle s (.error x))
  | .ok pl =>
    let r (l : Nat) : Bool × FFlags := f l (c.values s pl srcs l)
    LaneDone s i h c (laneFlags
      (modGroup (c.commit s pl 0 0#32 fun _ => 0) c.g fun g => g.setPred p c.act (maskOf fun l => (r l).1))
      (flagsOf c.act fun l => (r l).2))

/-- A gang-wide word gives results computed from the sources of every lane; it traps XLANE_PARTED when the gang lacks a
live slice of its group (R242). -/
def CrossGives (s : State) (i : Instr) (h : LaneHdr) (c : LaneCx) (srcs : List Field) (dst : Field)
    (f : (Nat → List Nat) → (Nat → Option Nat) × FFlags) (after : Plan → (Nat → List Nat) → State → State) : Prop :=
  if c.parted then LaneTraps s i c cXlaneParted
  else match c.plan s srcs (some dst) with
  | .error x => exec i s = .next (settle s (.error x))
  | .ok pl =>
    let v (l : Nat) : List Nat := c.values s pl srcs l
    let m := c.act &&& maskOf fun l => ((f v).1 l).isSome
    LaneDone s i h c (after pl v (laneFlags (c.commit s pl dst.width m fun l => ((f v).1 l).getD 0) (f v).2))

/-- A memory word whose lanes' accesses all complete (R47, R275, R279). -/
def LaneAccesses (s : State) (i : Instr) (h : LaneHdr) (c : LaneCx) (pl : Plan) (w kind : Nat) (rel : Option Scope)
    (sees : List (Nat × Nat)) (parts : List LanePart) : Prop :=
  ∀ t : State, c.access s pl w kind rel sees parts = .ok t → LaneDone s i h c t

/-- A memory word that fetches into a destination in each active lane. -/
def LaneFetches (s : State) (i : Instr) (h : LaneHdr) (c : LaneCx) (srcs : List Field) (d : Field) (kind n : Nat)
    (rel : Option Scope) (o : BitVec 12) (f : List Nat → Nat → State → Except Miss (State × Nat)) : Prop :=
  ∀ (pl : Plan) (x : Loc), c.plan s srcs (some d) = .ok pl → pl.dst = some x →
    LaneAccesses s i h c pl d.width kind rel ((bitsSet c.act).map fun l => (laneVa (c.values s pl srcs l) o, n))
      ((bitsSet c.act).map fun l => LanePart.mk l fun s =>
        (f (c.values s pl srcs l) (laneVa (c.values s pl srcs l) o) s).map fun r => writeLoc r.1 c.g x (lanesIn [l]) fun _ => r.2)

/-! ### Matrix words -/

/-- The current agent is the sequencer of a block. -/
def RunsSeq (s : State) (k : Nat) (b : Block) : Prop := s.cur = .seq k ∧ ffind s.blocks k = some b

/-- A matrix word goes on to a state in which the next one follows. -/
def SeqDone (s : State) (k : Nat) (i : Instr) (t : State) : Prop := Ends s i (seqNext t k)

/-- A matrix word faults: its sequencer stops at that word with a cause (R393). -/
def SeqFaults (s : State) (k : Nat) (i : Instr) (c : BitVec 8) : Prop :=
  Ends s i (seqFault (dropRefused s s.cur) k (.of c 0#32))

end Sys2Proof.Machine
end

