-- ==== Sys2Proof/Certificates/Slice0/Obligations.lean ====
section
/-! DEFINITION. The statements for the provers. -/

open Sys2Proof Sys2Proof.Machine

/-! ### Scalar integer words -/

/-- R209, R211: sums, products and quotients, with the borderline cases of division, in exact arithmetic. -/
def Obligations.IntegerArithmeticWritesItsResult : Prop :=
  ∀ (s : State) (th : Thread), Runs s th → ∀ d a b : Reg,
    Writes s (.add d a b) [a, b] d (rd s a + rd s b) ∧
    Writes s (.sub d a b) [a, b] d (rd s a - rd s b) ∧
    Writes s (.mul d a b) [a, b] d (BitVec.ofInt 64 ((rd s a).toInt * (rd s b).toInt)) ∧
    Writes s (.mulhI d a b) [a, b] d (((rd s a).signExtend 128 * (rd s b).signExtend 128).extractLsb' 64 64) ∧
    Writes s (.mulhN d a b) [a, b] d (((rd s a).zeroExtend 128 * (rd s b).zeroExtend 128).extractLsb' 64 64) ∧
    Writes s (.divI d a b) [a, b] d (if rd s b = 0#64 then BitVec.allOnes 64 else (rd s a).sdiv (rd s b)) ∧
    Writes s (.divN d a b) [a, b] d (if rd s b = 0#64 then BitVec.allOnes 64 else rd s a / rd s b) ∧
    Writes s (.remI d a b) [a, b] d (if rd s b = 0#64 then rd s a else (rd s a).srem (rd s b)) ∧
    Writes s (.remN d a b) [a, b] d (if rd s b = 0#64 then rd s a else rd s a % rd s b) ∧
    ∀ n : BitVec 2, Writes s (.lea d a b n) [a, b] d (rd s a + rd s b * BitVec.ofNat 64 (2 ^ n.toNat))

/-- R209, R210: logic, shifts by the low six bits, comparisons and selection. -/
def Obligations.IntegerLogicShiftAndCompareWriteTheirResult : Prop :=
  ∀ (s : State) (th : Thread), Runs s th → ∀ d a b : Reg,
    Writes s (.and d a b) [a, b] d (rd s a &&& rd s b) ∧
    Writes s (.or d a b) [a, b] d (rd s a ||| rd s b) ∧
    Writes s (.xor d a b) [a, b] d (rd s a ^^^ rd s b) ∧
    Writes s (.andn d a b) [a, b] d (rd s a &&& ~~~rd s b) ∧
    Writes s (.shl d a b) [a, b] d (rd s a <<< ((rd s b).toNat % 64)) ∧
    Writes s (.shr d a b) [a, b] d (rd s a >>> ((rd s b).toNat % 64)) ∧
    Writes s (.sra d a b) [a, b] d ((rd s a).sshiftRight ((rd s b).toNat % 64)) ∧
    Writes s (.rol d a b) [a, b] d
      (rd s a <<< ((rd s b).toNat % 64) ||| rd s a >>> (64 - (rd s b).toNat % 64)) ∧
    Writes s (.minI d a b) [a, b] d (BitVec.ofInt 64 (min (rd s a).toInt (rd s b).toInt)) ∧
    Writes s (.minN d a b) [a, b] d (BitVec.ofNat 64 (min (rd s a).toNat (rd s b).toNat)) ∧
    Writes s (.maxI d a b) [a, b] d (BitVec.ofInt 64 (max (rd s a).toInt (rd s b).toInt)) ∧
    Writes s (.maxN d a b) [a, b] d (BitVec.ofNat 64 (max (rd s a).toNat (rd s b).toNat)) ∧
    Writes s (.sltI d a b) [a, b] d (if (rd s a).toInt < (rd s b).toInt then 1#64 else 0#64) ∧
    Writes s (.sltN d a b) [a, b] d (if (rd s a).toNat < (rd s b).toNat then 1#64 else 0#64) ∧
    Writes s (.seq d a b) [a, b] d (if rd s a = rd s b then 1#64 else 0#64) ∧
    ∀ c : Reg, Writes s (.sel d a b c) [a, b, c] d (if rd s c = 0#64 then rd s b else rd s a)

/-- R212, R213: counts of bits, the order of bytes, and bit fields with WIDTH at most 64. -/
def Obligations.BitCountsAndBitFieldsWriteTheirResult : Prop :=
  ∀ (s : State) (th : Thread), Runs s th → ∀ d a b : Reg,
    let w := min ((rd s b).toNat / 2 ^ 8 % 2 ^ 7) 64
    let p := (rd s b).toNat % 2 ^ 6
    let f : Nat := (rd s a).toNat / 2 ^ p % 2 ^ w
    let m : Word := BitVec.ofNat 64 (2 ^ w - 1) <<< p
    Writes s (.clz d a) [a] d (rd s a).clz ∧
    Writes s (.ctz d a) [a] d (rd s a).reverse.clz ∧
    Writes s (.popc d a) [a] d (BitVec.ofNat 64 ((List.range 64).countP fun i => (rd s a).getLsbD i)) ∧
    Writes s (.bswap d a) [a] d
      (BitVec.ofNat 64 ((List.range 8).foldl (fun n i => n * 256 + (rd s a).toNat / 256 ^ i % 256) 0)) ∧
    Writes s (.bextN d a b) [a, b] d (BitVec.ofNat 64 f) ∧
    Writes s (.bextI d a b) [a, b] d
      (BitVec.ofInt 64 (if w ≠ 0 ∧ 2 ^ (w - 1) ≤ f then (f : Int) - ((2 ^ w : Nat) : Int) else (f : Int))) ∧
    Writes s (.bins d a b) [d, a, b] d ((rd s d &&& ~~~m) ||| ((rd s a <<< p) &&& m))

/-- R180, R214 to R216: the immediate forms, the constants and the address of a word. -/
def Obligations.ImmediateWordsWriteTheirResult : Prop :=
  ∀ (s : State) (th : Thread), Runs s th → ∀ (d a : Reg) (i : BitVec 16) (n : BitVec 6),
    Writes s (.addImm d a i) [a] d (rd s a + i.signExtend 64) ∧
    Writes s (.mulImm d a i) [a] d (rd s a * i.signExtend 64) ∧
    Writes s (.andImm d a i) [a] d (rd s a &&& i.zeroExtend 64) ∧
    Writes s (.orImm d a i) [a] d (rd s a ||| i.zeroExtend 64) ∧
    Writes s (.xorImm d a i) [a] d (rd s a ^^^ i.zeroExtend 64) ∧
    Writes s (.sltIImm d a i) [a] d (if (rd s a).toInt < i.toInt then 1#64 else 0#64) ∧
    Writes s (.sltNImm d a i) [a] d (if (rd s a).toNat < (i.signExtend 64).toNat then 1#64 else 0#64) ∧
    Writes s (.seqImm d a i) [a] d (if rd s a = i.signExtend 64 then 1#64 else 0#64) ∧
    Writes s (.shlImm d a n) [a] d (rd s a <<< n.toNat) ∧
    Writes s (.shrImm d a n) [a] d (rd s a >>> n.toNat) ∧
    Writes s (.sraImm d a n) [a] d ((rd s a).sshiftRight n.toNat) ∧
    Writes s (.rolImm d a n) [a] d (rd s a <<< n.toNat ||| rd s a >>> (64 - n.toNat)) ∧
    Writes s (.li d i) [] d (i.signExtend 64) ∧
    (∀ k : BitVec 2, Writes s (.liIns d k i) [d] d
      ((rd s d &&& ~~~(0xFFFF#64 <<< (16 * k.toNat))) ||| (i.zeroExtend 64 <<< (16 * k.toNat)))) ∧
    ∀ o : BitVec 21, Writes s (.pcrel d o) [] d (th.pc + BitVec.ofInt 64 (4 * o.toInt))

/-! ### Scalar control transfers -/

/-- R217 to R219, R337: where a branch, `loop`, `jmp`, `call` or `jr` goes on, with a target inside the current segment. -/
def Obligations.ControlTransfersReachTheirTarget : Prop :=
  ∀ (s : State) (th : Thread), Runs s th → ∀ (d a b : Reg) (o : BitVec 12) (j : BitVec 26) (i : BitVec 16),
    let t := th.pc + BitVec.ofInt 64 (4 * o.toInt)
    let u := th.pc + BitVec.ofInt 64 (4 * j.toInt)
    let v := rd s a + i.signExtend 64
    (inScalarSeg s t.toNat = true →
      Does s (.brEq a b o) [a, b] [] (if rd s a = rd s b then jumpTo s t else advance s) ∧
      Does s (.brNe a b o) [a, b] [] (if rd s a ≠ rd s b then jumpTo s t else advance s) ∧
      Does s (.brLt a b o) [a, b] [] (if (rd s a).toInt < (rd s b).toInt then jumpTo s t else advance s) ∧
      Does s (.brGe a b o) [a, b] [] (if (rd s b).toInt ≤ (rd s a).toInt then jumpTo s t else advance s) ∧
      Does s (.brLtN a b o) [a, b] [] (if (rd s a).toNat < (rd s b).toNat then jumpTo s t else advance s) ∧
      Does s (.brGeN a b o) [a, b] [] (if (rd s b).toNat ≤ (rd s a).toNat then jumpTo s t else advance s) ∧
      Does s (.loop a o) [a] [a]
        (if rd s a = 0#64 then advance s
         else if rd s a = 1#64 then advance (wr s a 0#64)
         else wr (jumpTo s t) a (rd s a - 1#64))) ∧
    (inScalarSeg s u.toNat = true →
      Does s (.jmp j) [] [] (jumpTo s u) ∧
      Does s (.call j) [] [1#5] (wr (jumpTo s u) 1#5 (th.pc + 4#64))) ∧
    (v.toNat % 4 = 0 → inScalarSeg s v.toNat = true →
      Does s (.jr d a i) [a] (if d = 0#5 then [] else [d]) (jumpTo (wr s d (th.pc + 4#64)) v))

/-- R217, R219, R337: a taken transfer that leaves the current segment traps SEG_LEAVE, and `jr` to an address that is no
multiple of four traps BAD_TARGET. -/
def Obligations.ControlTransfersOutsideTheSegmentTrap : Prop :=
  ∀ (s : State) (th : Thread), Runs s th → ∀ (d a b : Reg) (o : BitVec 12) (j : BitVec 26) (i : BitVec 16),
    let t := th.pc + BitVec.ofInt 64 (4 * o.toInt)
    let v := rd s a + i.signExtend 64
    (inScalarSeg s t.toNat = false →
      (rd s a = rd s b → Traps s (.brEq a b o) [a, b] [] cSegLeave) ∧
      (rd s a ≠ rd s b → Traps s (.brNe a b o) [a, b] [] cSegLeave) ∧
      ((rd s a).toInt < (rd s b).toInt → Traps s (.brLt a b o) [a, b] [] cSegLeave) ∧
      ((rd s b).toInt ≤ (rd s a).toInt → Traps s (.brGe a b o) [a, b] [] cSegLeave) ∧
      ((rd s a).toNat < (rd s b).toNat → Traps s (.brLtN a b o) [a, b] [] cSegLeave) ∧
      ((rd s b).toNat ≤ (rd s a).toNat → Traps s (.brGeN a b o) [a, b] [] cSegLeave) ∧
      (1 < (rd s a).toNat → Traps s (.loop a o) [a] [a] cSegLeave)) ∧
    (inScalarSeg s (th.pc + BitVec.ofInt 64 (4 * j.toInt)).toNat = false →
      Traps s (.jmp j) [] [] cSegLeave ∧ Traps s (.call j) [] [1#5] cSegLeave) ∧
    (v.toNat % 4 ≠ 0 → Traps s (.jr d a i) [a] (if d = 0#5 then [] else [d]) cBadTarget) ∧
    (v.toNat % 4 = 0 → inScalarSeg s v.toNat = false →
      Traps s (.jr d a i) [a] (if d = 0#5 then [] else [d]) cSegLeave)

/-! ### Scalar memory words -/

/-- R105, R278, R280, R485: loads of the local window read its bytes little-endian, extended as the word says, and wake the units of the
scratchpad that they read. -/
def Obligations.LoadsReadTheLocalWindow : Prop :=
  ∀ (s : State) (th : Thread), Runs s th → NoHeldFault s → ∀ (d a : Reg) (i : BitVec 16) (b : Nat) (blk : Block) (o : Nat),
    let lim := blk.spmBytes + 8 * blk.barCount
    (Local s (rd s a + i.signExtend 64) b blk o →
      (o + 1 ≤ lim → WritesLocal s (.ldN8 d a i) a b o 1 d (BitVec.ofNat 64 (localValue blk o 1)) ∧
        WritesLocal s (.ldI8 d a i) a b o 1 d ((BitVec.ofNat 8 (localValue blk o 1)).signExtend 64)) ∧
      (o + 2 ≤ lim → WritesLocal s (.ldN16 d a i) a b o 2 d (BitVec.ofNat 64 (localValue blk o 2)) ∧
        WritesLocal s (.ldI16 d a i) a b o 2 d ((BitVec.ofNat 16 (localValue blk o 2)).signExtend 64)) ∧
      (o + 4 ≤ lim → WritesLocal s (.ldN32 d a i) a b o 4 d (BitVec.ofNat 64 (localValue blk o 4)) ∧
        WritesLocal s (.ldI32 d a i) a b o 4 d ((BitVec.ofNat 32 (localValue blk o 4)).signExtend 64)) ∧
      (o + 8 ≤ lim → WritesLocal s (.ldI64 d a i) a b o 8 d (BitVec.ofNat 64 (localValue blk o 8)))) ∧
    (Local s (rd s a) b blk o → ∀ (sc : Scope) (q : Bool) (t : MemTy), o + memBytes t ≤ lim →
      let v : Word := match t with
        | .i8 => (BitVec.ofNat 8 (localValue blk o 1)).signExtend 64
        | .i16 => (BitVec.ofNat 16 (localValue blk o 2)).signExtend 64
        | .i32 => (BitVec.ofNat 32 (localValue blk o 4)).signExtend 64
        | .n8 => BitVec.ofNat 64 (localValue blk o 1)
        | .n16 => BitVec.ofNat 64 (localValue blk o 2)
        | .n32 => BitVec.ofNat 64 (localValue blk o 4)
        | .i64 => BitVec.ofNat 64 (localValue blk o 8)
      WritesLocal s (.ldOrdered d a sc q t) a b o (memBytes t) d v ∧
      ((rd s a).toNat % memBytes t = 0 → WritesLocal s (.ldw d a sc q t) a b o (memBytes t) d v))

/-- R105, R278, R279: a store to the scratchpad writes the low bytes of its register and nothing else: no register, no
other block, no byte of the block's window outside those stored, no byte of physical memory. -/
def Obligations.StoresWriteTheScratchpad : Prop :=
  ∀ (s : State) (th : Thread), Runs s th → ∀ (d a : Reg) (i : BitVec 16) (b : Nat) (blk : Block) (o : Nat),
    let puts (w : Instr) (srcs : List Reg) (n : Nat) (v : Word) : Prop :=
      ∃ t : State, Does s w srcs [] (advance t) ∧ SameButBlock s t b ∧ ∃ new : Block, ffind t.blocks b = some new ∧
        ∀ x : Nat, localByte new x = if o ≤ x ∧ x < o + n then v.extractLsb' (8 * (x - o)) 8 else localByte blk x
    (Local s (rd s a + i.signExtend 64) b blk o →
      (o + 1 ≤ blk.spmBytes → puts (.st8 d a i) [d, a] 1 (rd s d)) ∧
      (o + 2 ≤ blk.spmBytes → puts (.st16 d a i) [d, a] 2 (rd s d)) ∧
      (o + 4 ≤ blk.spmBytes → puts (.st32 d a i) [d, a] 4 (rd s d)) ∧
      (o + 8 ≤ blk.spmBytes → puts (.st64 d a i) [d, a] 8 (rd s d))) ∧
    (Local s (rd s a) b blk o → ∀ (sc : Scope) (q : Bool) (t : MemTy), o + memBytes t ≤ blk.spmBytes →
      (q = true → releaseSteps s s.cur sc = .ok s) → puts (.stOrdered a d sc q t) [a, d] (memBytes t) (rd s d))

/-- R283: an atomic on an aligned element of the scratchpad returns its old value and stores the operation's result; the
release steps of `.rel` and `.ar` have nothing left to do. -/
def Obligations.AtomicsActOnTheScratchpad : Prop :=
  ∀ (s : State) (th : Thread), Runs s th → NoHeldFault s →
  ∀ (d a b : Reg) (sc : Scope) (sem : Sem) (w64 : Bool) (k : Nat) (blk : Block) (o : Nat),
    let n := if w64 then 8 else 4
    Local s (rd s a) k blk o → o % n = 0 → o + n ≤ blk.spmBytes →
    (sem = .rel ∨ sem = .ar → releaseSteps s s.cur sc = .ok s) →
    let old := localValue blk o n
    let y := (rd s b).toNat % 2 ^ (8 * n)
    let int (x : Nat) : Int := if x < 2 ^ (8 * n - 1) then x else (x : Int) - ((2 ^ (8 * n) : Nat) : Int)
    let gives (i : Instr) (srcs : List Reg) (new : Nat) : Prop :=
      Does s i srcs [d]
        (advance (wr (if new = old then wakeSpm s k o n else spmWrite s k o n new (envOf s s.cur).who) d (BitVec.ofNat 64 old)))
    gives (.amoSwap d a b sc sem w64) [a, b] y ∧
    gives (.amoAdd d a b sc sem w64) [a, b] ((old + y) % 2 ^ (8 * n)) ∧
    gives (.amoAnd d a b sc sem w64) [a, b] (old &&& y) ∧
    gives (.amoOr d a b sc sem w64) [a, b] (old ||| y) ∧
    gives (.amoXor d a b sc sem w64) [a, b] (old ^^^ y) ∧
    gives (.amoMinI d a b sc sem w64) [a, b] (if int y < int old then y else old) ∧
    gives (.amoMaxI d a b sc sem w64) [a, b] (if int old < int y then y else old) ∧
    gives (.amoMinN d a b sc sem w64) [a, b] (min old y) ∧
    gives (.amoMaxN d a b sc sem w64) [a, b] (max old y) ∧
    gives (.amoFadd d a b sc sem w64) [a, b] ((fpAdd (if w64 then descF64 else descF32) .rne old y).1 % 2 ^ (8 * n)) ∧
    gives (.cas d a b sc sem w64) [d, a, b] (if old = (rd s d).toNat % 2 ^ (8 * n) then y else old)

/-- R105, R275, R278, R280, R283, R405: addresses that trap: no virtual address, outside the local window, a store to a barrier word,
every misaligned atomic and watched load, which are the other accesses that must be aligned; the launch window takes neither. -/
def Obligations.AccessesOutsideTheirWindowsTrap : Prop :=
  ∀ (s : State) (th : Thread), Runs s th → NoHeldFault s →
  ∀ (d a b : Reg) (i : BitVec 16) (sc : Scope) (sem : Sem) (w64 q : Bool) (t : MemTy) (k : Nat) (blk : Block) (o : Nat),
    let va := rd s a + i.signExtend 64
    let x := (rd s a).toNat
    let atomics (c : BitVec 8) : Prop := ∀ w ∈ [.amoSwap d a b sc sem w64, .amoAdd d a b sc sem w64, .amoAnd d a b sc sem w64,
        .amoOr d a b sc sem w64, .amoXor d a b sc sem w64, .amoMinI d a b sc sem w64, .amoMaxI d a b sc sem w64,
        .amoMinN d a b sc sem w64, .amoMaxN d a b sc sem w64, .amoFadd d a b sc sem w64], Traps s w [a, b] [d] c
    let cas (c : BitVec 8) : Prop := Traps s (.cas d a b sc sem w64) [d, a, b] [d] c
    let ldw (c : BitVec 8) : Prop := Traps s (.ldw d a sc q t) [a] [d] c
    (2 ^ 57 ≤ va.toNat →
      Traps s (.ldI64 d a i) [a] [d] cBadAddress ∧ Traps s (.st64 d a i) [d, a] [] cBadAddress) ∧
    (Local s va k blk o → blk.spmBytes + 8 * blk.barCount < o + 8 →
      Traps s (.ldI64 d a i) [a] [d] cSpmRange ∧ Traps s (.st64 d a i) [d, a] [] cSpmRange) ∧
    (Local s va k blk o → blk.spmBytes < o + 8 → o + 8 ≤ blk.spmBytes + 8 * blk.barCount →
      Traps s (.st64 d a i) [d, a] [] cBarWrite) ∧
    (2 ^ 57 ≤ x ∨ (∃ l : Nat, addrKind x = .launch l) → atomics cBadAddress ∧ cas cBadAddress ∧ ldw cBadAddress) ∧
    (x < 2 ^ 57 → (∀ l : Nat, addrKind x ≠ .launch l ∧ addrKind x ≠ .table l) →
      (x % (if w64 then 8 else 4) ≠ 0 → atomics cMisaligned ∧ cas cMisaligned) ∧ (x % memBytes t ≠ 0 → ldw cMisaligned))

/-- R160, R276, R278: a plain store to a writable line waits in the agent's store buffer, and loads read it from there. -/
def Obligations.StoresWaitInTheBufferForLoads : Prop :=
  ∀ (s : State) (th : Thread), Runs s th → NoHeldFault s → ∀ (d a : Reg) (i : BitVec 16),
    let va := rd s a + i.signExtend 64
    let e := envOf s s.cur
    let sb := sbOf s s.cur
    let puts (w : Instr) (n : Nat) : Prop :=
      accessAt va.toNat (checkLines s e e.sp ((List.range (lineCount va.toNat n)).map fun k => e.sp.key (va.toNat + 128 * k))) = .ok s →
      sb.length + (storePieces e.sp.tag va.toNat n (rd s d).toNat none).length ≤ Config.storeBufferMax →
      let l := storePieces e.sp.tag va.toNat n (rd s d).toNat none
      Does s w [d, a] [] (advance (modCur s fun t =>
        l.foldl (fun t x => t.noteStore (lineKey x.asid x.va)) { t with sb := t.sb ++ l }))
    let gets (n : Nat) (w : Instr) (ext : Nat → Word) : Prop :=
      (∀ k : Nat, k < n → buffered sb e.sp.tag (va.toNat + k) = true) →
      Writes s w [a] d (ext ((List.range n).map fun k => (overlayByte sb e.sp.tag (va.toNat + k) 0#8).toNat * 256 ^ k).sum)
    addrKind va.toNat = .plain →
      puts (.st8 d a i) 1 ∧ puts (.st16 d a i) 2 ∧ puts (.st32 d a i) 4 ∧ puts (.st64 d a i) 8 ∧
      gets 1 (.ldN8 d a i) (BitVec.ofNat 64) ∧ gets 2 (.ldN16 d a i) (BitVec.ofNat 64) ∧
      gets 4 (.ldN32 d a i) (BitVec.ofNat 64) ∧ gets 8 (.ldI64 d a i) (BitVec.ofNat 64) ∧
      gets 1 (.ldI8 d a i) (fun x => (BitVec.ofNat 8 x).signExtend 64) ∧
      gets 2 (.ldI16 d a i) (fun x => (BitVec.ofNat 16 x).signExtend 64) ∧
      gets 4 (.ldI32 d a i) (fun x => (BitVec.ofNat 32 x).signExtend 64)

/-- R158, R162, R173, R177, R281, R282, R285 to R287: fences, prefetches, cleans and commits go on as soon as their release steps, their line
or their list let them; where nothing is left to release, the line is at its home and the list is in the scratchpad they complete.  A full fence at `.die` awaits
the column's pushes to every home (the model's choice, log 141), and the list of a commit must be aligned (log 133). -/
def Obligations.FencesCleansPrefetchesAndCommitsComplete : Prop :=
  ∀ (s : State) (th : Thread), Runs s th → ∀ (d a : Reg) (sc : Scope) (t : State),
    let va := (rd s a).toNat
    let e := envOf s s.cur
    (releaseSteps s s.cur (if sc = .die then .pkg else sc) = .ok t →
      Does s (.fence sc) [] [] (advance (fenceDone (refetch (if sc = .sys then persistentFlush t (envOf t t.cur).sp.part else t) sc) sc))) ∧
    (releaseSteps s s.cur sc = .ok t → Does s (.fenceRel sc) [] [] (advance (fenceDone (refetch t sc) sc))) ∧
    Does s (.fenceAcq sc) [] [] (advance (refetch s sc)) ∧
    (va < 2 ^ 57 →
      Does s (.pf a) [a] [] (advance
        (if addrKind va = .plain ∧ th.prefetches < 8 then prefetchLine s e e.sp (e.sp.key va) else s))) ∧
    (cleanAt s s.cur va false = .ok t → Does s (.cln a) [a] [] (advance t)) ∧
    (cleanAt s s.cur va true = .ok t → Does s (.clnPersist a) [a] [] (advance t)) ∧
    (∀ (rel : Bool) (n : Nat) (u : State) (l : List CommitLine), commitList s s.cur va = .ok (u, l) →
      commit u u.cur l (if rel then some sc else none) = .ok (t, n) → Does s (.cst d a sc rel) [a] [d] (advance (wr t d (BitVec.ofNat 64 n)))) ∧
    -- Acquiring fences, and every fence of an agent with nothing left to release.
    Ends s (.fenceAcq sc) (advance (refetch s sc)) ∧
    (Released s th →
      (∃ u : State, exec (.fenceRel sc) s = .next u ∧ GoesOn s u th) ∧
      (sc ≠ .sys → ∃ u : State, exec (.fence sc) s = .next u ∧ GoesOn s u th) ∧
      (sc = .sys → ∃ u : State, exec (.fence sc) s = .next u)) ∧
    (PortsOk s [a] [] →
      let next (i : Instr) (u : State) : Prop := Ends s i (retired s [a] (advance u))
      -- Prefetches of any address; cleans of the scratchpad and of a line at its home.
      (va < 2 ^ 57 → next (.pf a) (if addrKind va = .plain ∧ th.prefetches < 8 then prefetchLine s e e.sp (e.sp.key va) else s)) ∧
      (∀ (b : Nat) (blk : Block) (o : Nat), Local s (rd s a) b blk o → o < blk.spmBytes + 8 * blk.barCount → next (.cln a) s ∧ next (.clnPersist a) s) ∧
      (∀ h : HomeLine, Still s th → th.unack < 1023 → AtHome s va h →
        (∃ u : State, exec (.cln a) s = .next u ∧ GoesOn (retired s [a] s) u th) ∧
        ∃ u : State, exec (.clnPersist a) s = .next u ∧ GoesOn (retired s [a] s) u th)) ∧
    -- A commit of one line: its list and data in the scratchpad, its line at its home.
    (PortsOk s [a] [d] → ∀ (rel : Bool) (b : Nat) (blk : Block) (o p : Nat) (h : HomeLine),
      let lim := blk.spmBytes + 8 * blk.barCount
      let line := localValue blk (o + 32) 8
      let mask : BitVec 128 := BitVec.ofNat 128 (localValue blk (o + 48) 16)
      let key := e.sp.key line
      let answered (n : Nat) (u : State) : Prop :=
        GoesOn (retired s [a] (wr s d (BitVec.ofNat 64 n))) u th ∧ (threadOf u u.cur).map (·.watches) = some []
      Local s (rd s a) b blk o → va % 32 = 0 → o + 64 ≤ lim → localValue blk o 32 = 1 →
      line % 128 = 0 → AtHome s line h → addrKind (localValue blk (o + 40) 8) = .loc p → p + 128 ≤ lim →
      mask = 0#128 ∨ knownWritable s e e.sp key = true → Still s th → (rel = true → Released s th) → th.atomics < 16 →
      ((∀ w ∈ th.watches, w.line ≠ key) → ∃ u : State, exec (.cst d a sc rel) s = .next u ∧ answered 2 u) ∧
      ((∃ w ∈ th.watches, w.line = key ∧ w.broken = true) → ∃ u : State, exec (.cst d a sc rel) s = .next u ∧ answered 1 u) ∧
      ((∃ w ∈ th.watches, w.line = key) → (∀ w ∈ th.watches, w.line = key → w.broken = false) → 
        ∃ u : State, exec (.cst d a sc rel) s = .next u ∧ answered 0 u ∧
        (mask ≠ 0#128 → ∃ g : HomeLine, ffind u.home key = some g ∧ ∀ i : Nat, i < 128 →
          byteAt g.data i = if mask.getLsbD i then localByte blk (p + i) else byteAt h.data i)))

/-! ### Scalar floating-point words -/

/-- R224 to R229: each scalar floating word computes on the low bits of its sources, writes its result zero-extended and
accrues its flags into FCSR.SFLAGS; `fcvt` under `.sr` steps the scalar stream's generator. -/
def Obligations.FloatingWordsWriteTheirResultAndFlags : Prop :=
  ∀ (s : State) (th : Thread), Runs s th → ∀ (d a b c : Reg) (r : Rnd) (f : SFmt),
    let rm := modeOf r th.fcsr th.gen
    let x (q : Reg) : Nat := (rd s q).toNat % 2 ^ (descSFmt f).width
    let gives (i : Instr) (srcs : List Reg) (v : Nat × FFlags) : Prop :=
      Does s i srcs [d] (advance
        (modCur (wr s d (BitVec.ofNat 64 v.1)) fun t => { t with fcsr := t.fcsr ||| (v.2.zeroExtend 64 <<< 4) }))
    gives (.fadd d a b r f) [a, b] (fpAdd (descSFmt f) rm (x a) (x b)) ∧
    gives (.fsub d a b r f) [a, b] (fpSub (descSFmt f) rm (x a) (x b)) ∧
    gives (.fmul d a b r f) [a, b] (fpMul (descSFmt f) rm (x a) (x b)) ∧
    gives (.fdiv d a b r f) [a, b] (fpDiv (descSFmt f) rm (x a) (x b)) ∧
    gives (.fsqrt d a r f) [a] (fpSqrt (descSFmt f) rm (x a)) ∧
    gives (.fma d a b c r f) [a, b, c] (fpFma (descSFmt f) rm (x a) (x b) (x c)) ∧
    gives (.fmin d a b f) [a, b] (fpMinMax (descSFmt f) false (x a) (x b)) ∧
    gives (.fmax d a b f) [a, b] (fpMinMax (descSFmt f) true (x a) (x b)) ∧
    (∀ k : FCond, gives (.fcmp d a b f k) [a, b]
      (if (fpCompare (condOf k) (fvOf (descSFmt f) (x a)) (fvOf (descSFmt f) (x b))).1 then 1 else 0,
        (fpCompare (condOf k) (fvOf (descSFmt f) (x a)) (fvOf (descSFmt f) (x b))).2)) ∧
    Writes s (.fcls d a f) [a] d (BitVec.ofNat 64 (fpClass (descSFmt f) (x a))) ∧
    ∀ (ovf : Bool) (t u : CvtTy),
      let v := cvtResult t rm ovf (cvtValue u (rd s a).toNat)
      let done := modCur (wr s d v.1) fun t => { t with fcsr := t.fcsr ||| (v.2.zeroExtend 64 <<< 4) }
      Does s (.fcvt d a r ovf t u) [a] [d]
        (advance (if r = .sr then modCur done fun t => { t with gen := srStep t.gen } else done))

/-- R87: what special operands give in every scalar and lane format: a NaN source the canonical NaN, NV for a signalling
one; the invalid operations; x / 0; sums that are zero; square roots of zeros; minima and comparisons. -/
def Obligations.SpecialOperandsGiveTheirResults : Prop :=
  ∀ (f : SFmt) (rm : RM) (x y z : Nat),
    let D := descSFmt f
    let a := fvOf D x
    let b := fvOf D y
    let c := fvOf D z
    let nan (sig : Bool) : Nat × FFlags := (D.nan, if sig then flagNV else 0#5)
    let zero (n : Bool) : Nat := if n then 2 ^ (D.width - 1) else 0
    let inf (n : Bool) : Nat := zero n + D.inf.getD 0
    (a.isNan = true ∨ b.isNan = true →
      fpAdd D rm x y = nan (a.isSignalling || b.isSignalling) ∧ fpSub D rm x y = nan (a.isSignalling || b.isSignalling) ∧
      fpMul D rm x y = nan (a.isSignalling || b.isSignalling) ∧ fpDiv D rm x y = nan (a.isSignalling || b.isSignalling)) ∧
    (a.isNan = true → fpSqrt D rm x = nan a.isSignalling) ∧
    (∀ n : Bool, a = .inf n → b = .inf (!n) → fpAdd D rm x y = nan true) ∧
    (∀ n : Bool, a = .inf n → b = .inf n → fpSub D rm x y = nan true) ∧
    (∀ m n : Bool, a = .inf m → b = .inf n → fpDiv D rm x y = nan true) ∧
    (∀ n : Bool, a.isZero = true → b = .inf n → fpMul D rm x y = nan true ∧ (fpFma D rm x y z).1 = D.nan ∧
      (fpFma D rm x y z).2 = flagNV) ∧
    (a.isZero = true → b.isZero = true → fpDiv D rm x y = nan true ∧
      fpAdd D rm x y = (zero (if a.neg = b.neg then a.neg else decide (rm = .rdn)), 0#5)) ∧
    (∀ (n : Bool) (m : Nat) (e : Int), a = .fin n m e → m ≠ 0 →
      (b.isZero = true → fpDiv D rm x y = (inf (n != b.neg), flagDZ)) ∧
      (n = true → fpSqrt D rm x = nan true) ∧
      (b = .fin (!n) m e → fpAdd D rm x y = (zero (decide (rm = .rdn)), 0#5))) ∧
    (a.isZero = true → fpSqrt D rm x = (zero a.neg, 0#5)) ∧
    (a.isNan = true → b.isNan = false → ∀ big : Bool,
      (fpMinMax D big x y).1 = y ∧ (fpMinMax D big y x).1 = y ∧ (fpMinMax D big x y).2 = (if a.isSignalling then flagNV else 0#5)) ∧
    (a.isZero = true → b.isZero = true → a.neg = true → b.neg = false →
      fpMinMax D false x y = (x, 0#5) ∧ fpMinMax D true x y = (y, 0#5) ∧ fpCompare .eq a b = (true, 0#5) ∧
      fpCompare .lt a b = (false, 0#5)) ∧
    (a.isNan = true ∨ b.isNan = true →
      fpCompare .eq a b = (false, if a.isSignalling || b.isSignalling then flagNV else 0#5) ∧
      fpCompare .ne a b = (true, if a.isSignalling || b.isSignalling then flagNV else 0#5) ∧
      fpCompare .lt a b = (false, flagNV) ∧ fpCompare .le a b = (false, flagNV) ∧
      fpCompare .gt a b = (false, flagNV) ∧ fpCompare .ge a b = (false, flagNV)) ∧
    (c.isNan = true → (fpFma D rm x y z).1 = D.nan)

/-! ### Lane tasks, system words, status registers -/

/-- R29, R30, R41, R221 to R223, R233, R234: words that start and observe lane tasks, the distributor's units, and the
words that only move on. -/
def Obligations.LaneTaskAndSystemWordsComplete : Prop :=
  ∀ (s : State) (k : Nat) (g : Group), RunsGroup s k g → ∀ (d e a : Reg) (n : BitVec 6) (m : BitVec 25),
    let entry := rd s a
    let starts (cnt : Nat) : State := modGroup s k fun p =>
      { p with
        task := some { n := cnt, gangs := [.start (BitVec.ofNat 8 (2 ^ ((cnt + 3) / 4) - 1)) entry.toNat], endMask := 0#96
                       endSafe := true, tids := ((ffind s.blocks g.block).map (·.tids)).getD [] }
        lr := [] }
    (g.task = none → inLaneSeg s entry.toNat = true → laneTargetOk s entry.toNat = true →
      (1 ≤ n.toNat → n.toNat ≤ 32 → Does s (.lxImm a n) [a] [] (advance (starts n.toNat))) ∧
      (1 ≤ (rd s d).toNat → (rd s d).toNat ≤ 32 → Does s (.lxReg d a) [a, d] [] (advance (starts (rd s d).toNat)))) ∧
    (g.task = none → Does s .lwait [] [] (advance s)) ∧
    Writes s (.lpoll d) [] d (if g.task.isSome then 1#64 else 0#64) ∧
    Does s .nop [] [] (advance s) ∧
    Does s .yieldGroup [] [] (advance (modGroup s k fun p =>
      { p with task := p.task.map fun t => { t with gangs := t.gangs.map fun x => { x with promoted := false } } })) ∧
    (g.th.inHandler = true ∨ NoHeldFault s → Does s (.safe m) [] []
      (if g.th.inHandler then advance s else modCur (advance s) fun t => { t with prevSafe := some m })) ∧
    (d ≠ e → Does s (.wkGet d e) [] [d, e] (advance
      (wr (wr (nextUnit s g).1 d (nextUnit s g).2.1) e (nextUnit s g).2.2))) ∧
    Does s (.wkGet 0#5 0#5) [] [] (advance (wr (wr (nextUnit s g).1 0#5 (nextUnit s g).2.1) 0#5 (nextUnit s g).2.2)) ∧
    (g.task = none → Does s .done [] [] (endGroup s k))

/-- R41, R223: the units of a block partition its iterations in order: each call takes the next unit up to the end of its tile,
and after the last every call is told so. -/
def Obligations.WorkUnitsFollowEachOther : Prop :=
  ∀ (s : State) (g : Group) (r : Region) (b : Block), ffind s.regions g.region = some r → r.march = none →
    ffind s.blocks g.block = some b →
    let k := (r.record.extractLsb' 736 32).toNat
    let total := (r.record.extractLsb' 704 32).toNat * k
    let n := (r.record.extractLsb' 320 32).toNat
    let first := g.blockId * total / n
    let last := (g.blockId + 1) * total / n
    let pos := max b.cursor first
    let next := min last ((pos / k + 1) * k)
    (pos < last → 0 < k → ∃ t : State, nextUnit s g =
      (t, BitVec.ofNat 64 (pos / k % 2 ^ 32 + (if pos % k = 0 ∧ next - pos = k then 0 else 2 ^ 63)),
        BitVec.ofNat 64 (pos % k + (pos % k + (next - pos)) * 2 ^ 32)) ∧
      (ffind t.blocks g.block).map (·.cursor) = some next) ∧
    (last ≤ pos → nextUnit s g = (s, BitVec.allOnes 64, 0#64))

/-- R13, R69, R70, R230, R231, R237, R238: reads and writes of status registers that the agent may access, the timestamp
and the cycle counter. -/
def Obligations.StatusRegisterWordsComplete : Prop :=
  ∀ (s : State) (th : Thread), Runs s th → ∀ (d a : Reg) (n : BitVec 12),
    (csrCheck s s.cur n.toNat = .ok true →
      Writes s (.csrr d n) [] d (csrValue s s.cur n.toNat) ∧
      Does s (.csrw a n) [a] [] (advance (csrStore s s.cur n.toNat (rd s a))) ∧
      Does s (.csrs d a n) [a] [d] (advance
        (wr (if a = 0#5 then s else csrStore s s.cur n.toNat (csrValue s s.cur n.toNat ||| rd s a)) d (csrValue s s.cur n.toNat)))) ∧
    (csrCheck s s.cur n.toNat = .ok false →
      Writes s (.csrr d n) [] d 0#64 ∧ Does s (.csrw a n) [a] [] (advance s) ∧ Writes s (.csrs d a n) [a] d 0#64) ∧
    (∀ c : BitVec 8, csrCheck s s.cur n.toNat = .error c →
      Traps s (.csrr d n) [] [d] c ∧ Traps s (.csrw a n) [a] [] c ∧ Traps s (.csrs d a n) [a] [d] c) ∧
    (∃ t : Nat, th.lastTs ≤ t ∧ (s.ns ≤ t ∧ t ≤ max th.lastTs (s.ns + 1)) ∧
      Does s (.tstamp d) [] [d] (advance
        (wr (modCur { s with freeCtr := s.freeCtr + 1 } fun x => { x with lastTs := t }) d (BitVec.ofNat 64 t)))) ∧
    Writes s (.cyc d) [] d (BitVec.ofNat 64 (cycleCount s s.cur)) ∧
    (∀ v : Word,
      (csrCheck s s.cur n.toNat = .ok true → exec (.registerWrite n v) s = .next (csrStore s s.cur n.toNat v)) ∧
      (∀ c : BitVec 8, csrCheck s s.cur n.toNat = .error c →
        exec (.registerWrite n v) s = .next (raiseTrap (dropRefused s s.cur) s.cur (.of c 0#32))) ∧
      exec (.fcsrWrite v) s = .next (modThread s s.cur fun x => { x with fcsr := fcsrStore v })) ∧
    (th.atMonitor = true → ∀ (k : Nat) (g : Group) (m : BitVec 8), RunsGroup s k g →
      exec (.segHotClear m) s = .next (clearSegHot s g.core m.toNat)) ∧
    (th.atMonitor = true → ∀ (c : Nat) (t : Bool) (f : BitVec 3) (m : BitVec 16), s.cur = .host c t →
      exec (.hostClkReqWrite m) s = .next (setReqMhz s c m) ∧
      ∃ u : State, exec (.colPwrFloorWrite f) s = .next u ∧ ∀ x : Column, ffind s.cols c = some x →
        -- Firmware holds the FLOOR of a column past its bound at 4 at least (R496; log 72).
        let n := if s.pkg.beyond.contains c then max f.toNat 4 else f.toNat
        ffind u.cols c = some (if x.decided < n then
            { x with floor := BitVec.ofNat 8 n, changes := x.changes ++ [(n, 3)], cool := 0 }
          else { x with floor := BitVec.ofNat 8 n }))

/-- R69, R71, R231, R392: which registers may be accessed at which level, FCSR as a write stores it, and the constants. -/
def Obligations.StatusRegisterAccessAndValues : Prop :=
  ∀ (s : State) (k : Nat) (g : Group), RunsGroup s k g → ∀ (n : Nat) (v : Word),
    (0x800 ≤ n → n < 0x1000 → g.th.atMonitor = false → csrCheck s s.cur n = .error cPrivCsr) ∧
    (n < 0x800 → csrListed n = false → g.th.atMonitor = false → csrCheck s s.cur n = .error cIllegalCsr) ∧
    (n < 0x400 → csrListed n = true → csrCheck s s.cur n = .ok true) ∧
    csrValue s s.cur 0x00 = 32#64 ∧ csrValue s s.cur 0x01 = 4#64 ∧ csrValue s s.cur 0x1D = 256#64 ∧
    csrValue s s.cur 0x41 = BitVec.ofNat 64 g.blockId ∧ csrValue s s.cur 0x42 = BitVec.ofNat 64 g.groupId ∧
    csrValue s s.cur 0x46 = BitVec.ofNat 64 g.ext ∧ csrValue s s.cur 0x80 = g.th.fcsr ∧
    (n ≤ 0x1D → csrStore s s.cur n v = s) ∧
    (let w := v &&& 0x3FF7#64
     csrValue (csrStore s s.cur 0x80 v) s.cur 0x80 = if 4 < w.toNat % 8 then w &&& ~~~7#64 else w) ∧
    csrValue (csrStore s s.cur 0x82 v) s.cur 0x82 = v &&& 0xFFFFFFFF000FFF00#64 ∧
    (∀ m : Nat, m ≠ 0x80 → csrStore s s.cur 0x80 v = modThread s s.cur (fun t => { t with fcsr := fcsrStore v }) ∧
      (m < 0x400 → csrValue (csrStore s s.cur 0x80 v) s.cur m = csrValue s s.cur m))

/-! ### Exceptions -/

/-- R45, R46, R65, R386 to R388, R391, R393 to R395: where a trap of a group goes, and what it saves: the monitor's own traps stop
the thread, a kernel handler's go to the monitor, and any other goes by the route of its cause; while a vector cannot be read the
trap is pending. -/
def Obligations.TrapsAreRoutedAndSaved : Prop :=
  ∀ (s : State) (k : Nat) (g : Group) (t : TrapInfo), ffind s.groups k = some g →
    let after := takeTrap s (.group k) t
    let saved (g : Group) (mon : Bool) : Frame :=
      { monitor := mon, trap := some { cause := t.cause, lanes := t.lanes, spc := g.th.pc, irec := t.irec, elem := t.elem }
        task := g.task, lr := g.lr }
    let from_ (s : State) (g : Group) (mon : Bool) (vec : Word) : Prop := ∃ p : Group, ffind after.groups k = some p ∧
      p.th.pc = vec ∧ p.th.frames = saved g mon :: g.th.frames ∧ p.th.run = .running ∧ p.task = none ∧ p.lr = [] ∧
      (if mon then p.th.mbank else p.th.kbank) = .clear ∧ (if mon then p.th.kbank = g.th.kbank else p.th.mbank = g.th.mbank) ∧
      p.th.x = g.th.x ∧ p.th.fcsr = g.th.fcsr ∧ p.v = g.v ∧ p.p = g.p ∧ p.views = g.views ∧ after.mem = s.mem
    let entered : Bool → Word → Prop := from_ s g
    let stopped : Prop := (ffind after.groups k).map (fun p => p.th.run) = some (.dead t.cause g.th.pc)
    let mon := monVecOf s (.group k)
    (g.th.atMonitor = true → stopped) ∧
    (g.th.atMonitor = false → g.th.frames ≠ [] → mon ≠ 0#64 → entered true mon) ∧
    (g.th.frames = [] → routeOf t.cause = .kernel →
      (∀ (u : State) (vec : Word) (h : Group), kernelVector s (.group k) t.cause = .ok (u, vec) → ffind u.groups k = some h →
        (vec ≠ 0#64 → from_ u h false vec) ∧
        (vec = 0#64 → monVecOf u (.group k) ≠ 0#64 → from_ u h true (monVecOf u (.group k)))) ∧
      ∀ m : Miss, kernelVector s (.group k) t.cause = .error m →
        let later (s : State) : State := modThread s (.group k) fun th => { th with pending := some t }
        (∀ (p : Park) (kept : Option State), m.exit 0 0#32 = .park p kept → after = takePark (later s) (.group k) p) ∧
        ∀ u : State, m.exit 0 0#32 = .stall u → after = later u) ∧
    (g.th.frames = [] → routeOf t.cause = .monitor → mon ≠ 0#64 → entered true mon) ∧
    (g.th.frames = [] → routeOf t.cause = .monitor → mon = 0#64 → stopped) ∧
    (g.th.frames = [] → routeOf t.cause = .domain →
      ∀ u : State, recordFault s (envOf s (.group k)).sp.part (threadFault s (.group k) t) = some u →
        after = modThread (dropRequest u k) (.group k) fun th => { th with run := .faulted t.cause })

/-- R235, R236: `svc` and `brk` complete and then trap, so that the saved program counter names the word after them; on a host
core `done` does so with HOST_DONE. -/
def Obligations.CallsTrapAfterTheirWord : Prop :=
  ∀ (s : State) (th : Thread), Runs s th → ∀ n : BitVec 12,
    exec (.svc n) s = .next (trapped s (advance s) (.of cSvc 0#32)) ∧
    exec (.brk n) s = .next (trapped s (advance s) (.of cBrk 0#32)) ∧
    (∀ (c : Nat) (t : Bool), s.cur = .host c t → exec .done s = .next (trapped s (advance s) (.of cHostDone 0#32))) ∧
    (threadOf (dropRefused (advance s) s.cur) s.cur).map (·.pc) = some (th.pc + 4#64) ∧
    routeOf cSvc = .kernel ∧ routeOf cBrk = .monitor ∧ routeOf cHostDone = .kernel

/-- R177, R387, R400: `tret` goes back to the interrupted level at the saved program counter, or at its register, with the lane task
and `lr` that were kept aside; it traps PRIV_INSTR where no handler is active, and BAD_TARGET at a misaligned register. -/
def Obligations.ReturnFromHandlerRestores : Prop :=
  ∀ (s : State) (k : Nat) (g : Group), RunsGroup s k g → ∀ (a : Reg) (f : Frame) (rest : List Frame),
    (g.th.frames = [] → Traps s (.tret a) [] [] cPrivInstr) ∧
    (g.th.frames = f :: rest → ∀ r : TrapRec, f.trap = some r →
      let base := if r.irec = 0xFFFF#16 then s else releaseNamed s s.cur r.irec
      ((rd s a).toNat % 4 ≠ 0 → Traps s (.tret a) [a] [] cBadTarget) ∧
      ((rd s a).toNat % 4 = 0 → ∃ t : State, Does s (.tret a) [a] [] t ∧ t.mem = base.mem ∧ t.blocks = base.blocks ∧ t.irecs = base.irecs ∧
        (r.irec = 0xFFFF#16 → ∃ p : Group, ffind t.groups k = some p ∧
          p.th.pc = (if a = 0#5 then r.spc else rd s a) ∧ p.th.frames = rest ∧ p.task = f.task ∧ p.lr = f.lr ∧
          p.th.x = g.th.x ∧ p.th.fcsr = g.th.fcsr ∧ p.v = g.v ∧ p.p = g.p ∧ p.th.kbank = g.th.kbank ∧ p.th.mbank = g.th.mbank)))

/-- R386, R400, R499: a host hardware thread enters kernel level from reset by `tret` with a register, and not without one;
`halt` at monitor level stops it with its state intact. -/
def Obligations.HostThreadsLeaveResetAndHalt : Prop :=
  ∀ (s : State) (c : Nat) (t : Bool) (h : HostThread), s.cur = .host c t → ffind s.hosts (hostKey c t) = some h →
    (h.th.frames = [{ monitor := true, trap := none, task := none, lr := [] }] →
      (∀ a : Reg, a ≠ 0#5 → (rd s a).toNat % 4 = 0 → ∃ u : State, exec (.tret a) s = .next u ∧
        (ffind u.hosts (hostKey c t)).map (fun x => (x.th.pc, x.th.frames, x.th.x)) = some (rd s a, [], h.th.x)) ∧
      exec (.tret 0#5) s = .next (trapped s s (.of cIllegalInstr 0#32))) ∧
    (h.th.atMonitor = true → ∃ u : State, exec .halt s = .next u ∧
      (ffind u.hosts (hostKey c t)).map (fun x => (x.th.run, x.th.x, x.th.pc)) = some (.halted, h.th.x, h.th.pc + 4#64))

/-- R184, R198, R398, R399: every privileged word but `tret` traps PRIV_INSTR at kernel level, whatever its operands. -/
def Obligations.PrivilegedWordsTrapAtKernelLevel : Prop :=
  ∀ (s : State) (th : Thread), Runs s th → th.atMonitor = false → ∀ (d a : Reg) (i : Instr),
    i ∈ [.ctxSave d a, .ctxLoad d a, .capMint d a, .capDrop d a, .tlbInv d a, .hmtSet d a, .segMap d a, .actSet d a,
      .evqSet d a, .idle, .halt] →
    exec i s = .next (trapped s s (.of cPrivInstr 0#32))

/-- R399, R402 to R404: at monitor level a privileged word makes a full fence, reads its request, acts and writes its answer;
a misaligned request is malformed, which is the model's choice (log 58).  `idle` goes on where a fault waits or no monitor is armed. -/
def Obligations.PrivilegedWordsActAtMonitorLevel : Prop :=
  ∀ (s : State) (th : Thread), Runs s th → th.atMonitor = true → ∀ (d a : Reg) (t : State), fullFence s .pkg = .ok t →
    let va := (rd t a).toNat
    let acts (i : Instr) (n : Nat) (act : State → Nat → Except Miss (State × Word)) : Prop :=
      ∀ (u v : State) (x : Nat) (w : Word), va % n = 0 → loadBytes t t.cur va n = .ok (u, x) → act u x = .ok (v, w) →
        Does s i [a] [d] (advance (wr v d w))
    va < 2 ^ 57 →
      acts (.ctxSave d a) 64 (fun u x => (ctxSave u x).map (noteCommand x)) ∧
      acts (.ctxLoad d a) 64 (fun u x => (ctxLoad u x).map (noteCommand x)) ∧
      acts (.capMint d a) 32 (fun u x => .ok (mintCap u x)) ∧
      (∀ (u : State) (w : Word), dropCap t (rd t a).toNat = .ok (u, w) → Does s (.capDrop d a) [a] [d] (advance (wr u d w))) ∧
      acts (.tlbInv d a) 64 tlbInv ∧ acts (.hmtSet d a) 64 hmtSet ∧ acts (.segMap d a) 64 segMap ∧
      acts (.actSet d a) 64 (fun u x => .ok (actSet u x)) ∧ acts (.evqSet d a) 64 (fun u x => .ok (evqSet u x)) ∧
      (va % 64 ≠ 0 → Does s (.tlbInv d a) [a] [d] (advance (wr t d 4#64)) ∧
        Does s (.ctxSave d a) [a] [d] (advance (wr t d 4#64))) ∧
      (faultPending s = true ∨ th.monitor = none → Does s .idle [] [] (advance s)) ∧
      (∀ m : Monitor, faultPending s = false → th.monitor = some m → m.fired = true →
        Does s .idle [] [] (advance (modCur s fun x => { x with monitor := none })))

/-- R389, R390, R403: a minted capability never holds more than its parent, and after `cap.drop` the dropped handle names
nothing: the entry and every valid one whose ORIGIN chain reaches it are invalid with a new GEN, and no other entry has changed. -/
def Obligations.CapabilitiesOnlyShrink : Prop :=
  ∀ (s : State),
    let part := (envOf s s.cur).sp.part
    (∀ (x : Nat) (i : Nat) (c : Cap), ffind (partOf (mintCap s x).1 part).caps i = some c →
      ffind (partOf s part).caps i = some c ∨
      ∃ p : Cap, capOf s part (rcbOf s s.cur) (x % 2 ^ 32) = some p ∧ c.type = p.type ∧ c.rights &&& ~~~p.rights = 0#16 ∧
        p.rights.getLsbD 0 = true ∧ capInside s part p c.object.toNat c.limit.toNat = true ∧ c.origin = x % 4096) ∧
    ∀ (h : Nat) (t : State) (w : Word), dropCap s h = .ok (t, w) →
      (capOf t part (rcbOf s s.cur) (h % 2 ^ 32) = none ∨ 2 ^ 32 ≤ h) ∧
      (h < 2 ^ 32 → (capOf s part (rcbOf s s.cur) h).isSome = true →
        let caps := (partOf s part).caps
        (∀ (j : Nat) (c : Cap), MintedFrom caps (h % 4096) j → ffind caps j = some c →
          ffind (partOf t part).caps j = some { c with valid := false, gen := c.gen + 1#20 }) ∧
        ((caps.map Prod.fst).Nodup → ∀ j : Nat, ¬ MintedFrom caps (h % 4096) j → ffind (partOf t part).caps j = ffind caps j))

/-! ### Barriers, the monitor, ports and extended registers -/

/-- R110 to R113, R296: what the barrier words do to the barrier that they name, and where they trap or wait. -/
def Obligations.BarrierWordsStepTheirBarrier : Prop :=
  ∀ (s : State) (k : Nat) (g : Group) (blk : Block), RunsGroup s k g → NoHeldFault s → ffind s.blocks g.block = some blk →
  ∀ (d a : Reg) (q : Bool) (n : BitVec 6),
    let w := sget blk.bars n.toNat
    let c := (rd s a).toNat
    let v : Nat := (rd s a).toNat % 2 ^ 32
    let steps (i : Instr) (srcs : List Reg) (new : Word) : Prop :=
      ∃ t : State, Does s i srcs [] (advance t) ∧ BarrierIs s t g.block n.toNat new
    (n.toNat < blk.barCount →
      (1 ≤ c → c ≤ 1024 → steps (.barInit a n) [a] (barMake 0#32 (barPhase w) c c)) ∧
      (c = 0 ∨ 1024 < c → Traps s (.barInit a n) [a] [] cBarCount) ∧
      (barExpect w ≠ 0 → barPending w ≠ 0 → releaseSteps s s.cur .blk = .ok s →
        steps (.barArr n) [] (if barPending w = 1 ∧ barTx w = 0#32 then barMake 0#32 (!barPhase w) (barExpect w) (barExpect w)
          else barMake (barTx w) (barPhase w) (barExpect w) (barPending w - 1))) ∧
      (barExpect w = 0 ∨ barPending w = 0 → Traps s (.barArr n) [] [] cBarOverarrive) ∧
      (v < 2 ^ 31 → (barTx w).toInt + (v : Int) < 2 ^ 31 → barExpect w ≠ 0 →
        steps (.barExp a n) [a] (if barPending w = 0 ∧ barTx w + BitVec.ofNat 32 v = 0#32
          then barMake 0#32 (!barPhase w) (barExpect w) (barExpect w)
          else barMake (barTx w + BitVec.ofNat 32 v) (barPhase w) (barExpect w) (barPending w))) ∧
      (2 ^ 31 ≤ v → Traps s (.barExp a n) [a] [] cBarCount) ∧
      (barPhase w ≠ q → Does s (.barWait q n) [] [] (advance s)) ∧
      (barPhase w = q → exec (.barWait q n) s = .next (modCur s fun t => { t with prevSafe := none })) ∧
      Writes s (.barTry d q n) [] d (if barPhase w ≠ q then 1#64 else 0#64)) ∧
    (blk.barCount ≤ n.toNat →
      Traps s (.barInit a n) [a] [] cBarRange ∧ Traps s (.barArr n) [] [] cBarRange ∧ Traps s (.barExp a n) [a] [] cBarRange ∧
      Traps s (.barWait q n) [] [] cBarRange ∧ Traps s (.barTry d q n) [] [d] cBarRange)

/-- R116, R298: `mon.arm` on the scratchpad reads eight bytes and arms the thread's monitor on their line; `mon.wait` goes on
when no monitor is armed or the armed one has fired, which disarms it, and otherwise waits. -/
def Obligations.MonitorWordsArmAndWait : Prop :=
  ∀ (s : State) (th : Thread), Runs s th → NoHeldFault s → ∀ (d a : Reg) (b : Nat) (blk : Block) (o : Nat),
    (Local s (rd s a) b blk o → o % 8 = 0 → o + 8 ≤ blk.spmBytes + 8 * blk.barCount →
      Does s (.monArm d a) [a] [d] (advance
        (wr (modCur (wakeSpm s b o 8) fun t => { t with monitor := some { line := spmLine b o, fired := false } }) d
          (BitVec.ofNat 64 (localValue blk o 8))))) ∧
    (th.monitor = none → Does s .monWait [] [] (advance s)) ∧
    (∀ m : Monitor, th.monitor = some m →
      (m.fired = true → Does s .monWait [] [] (advance (modCur s fun t => { t with monitor := none }))) ∧
      (m.fired = false → exec .monWait s = .next (modCur s fun t => { t with prevSafe := none })))

/-- R40, R52, R55, R117 to R120, R299, R300: ports are enabled, and disabled once every credit is back; a flit leaves with a
credit and one is popped; chunks are taken from the pool, read zero, and go back. -/
def Obligations.PortsAndExtendedRegisterWordsComplete : Prop :=
  ∀ (s : State) (k : Nat) (g : Group) (blk : Block), RunsGroup s k g → ffind s.blocks g.block = some blk →
  ∀ (d : Reg) (n : BitVec 5) (v : Word),
    Does s (.portCfg true) [] [] (advance (modGroup s k fun p => { p with portEn := true, drop := false })) ∧
    (g.credits = 8 → ∃ t : State, Ends s (.portCfg false) (advance t) ∧ ∃ p : Group, ffind t.groups k = some p ∧
      p.portEn = false ∧ (g.portEn = true → p.rx = [] ∧ sget p.th.x 28 = 0#64 ∧ sget p.th.x 29 = 0#64) ∧ p.v = g.v ∧
      ∀ r : Nat, r ≠ 28 → r ≠ 29 → sget p.th.x r = sget g.th.x r) ∧
    (g.credits ≠ 8 → exec (.portCfg false) s = .next (modCur s fun t => { t with prevSafe := none })) ∧
    (g.portEn = true → portTarget s g = true → g.credits ≠ 0 → ∃ t : State, exec (.portSend v) s = .next t ∧
      t.net = s.net ++ [Msg.mk s.nextId (.flit k g.region (bitsOf g.portDst 63 32) (bitsOf g.portDst 19 16)
        (Flit.mk v (flitHeader g)) false)] ∧
      (ffind t.groups k).map (·.credits) = some (g.credits - 1) ∧ t.mem = s.mem) ∧
    (g.portEn = true → d ≠ 28#5 → d ≠ 29#5 → ∀ (f : Flit) (rest : List Flit), g.rx = f :: rest →
      ∃ t : State, exec (.portReceive d) s = .next t ∧ ∃ p : Group, ffind t.groups k = some p ∧ p.rx = rest ∧
        p.portSrc = f.header ∧ p.th = g.th.setReg d f.payload) ∧
    (g.task = none → blk.xq = [] → n.toNat ≤ freeChunks s g.block → n.toNat ≤ blk.chunks → g.ext + n.toNat ≤ 14 →
      ∃ t : State, Does s (.xacq n) [] [] (advance t) ∧ ∃ p : Group, ffind t.groups k = some p ∧ p.ext = g.ext + n.toNat ∧
        (∀ l w : Nat, w < 256 → sget p.v (256 * l + w) =
          if 32 + 16 * g.ext ≤ w ∧ w < 32 + 16 * (g.ext + n.toNat) then 0#32 else sget g.v (256 * l + w)) ∧
        p.th.x = g.th.x ∧ t.mem = s.mem ∧ t.blocks = s.blocks) ∧
    (g.task = none → n.toNat ≤ g.ext →
      Does s (.xrel n) [] [] (advance (modGroup s k fun p => { p with ext := p.ext - n.toNat })))

/-! ### Subscriptions, ranges, mappings, tensor identifiers, engine operations, March -/

/-- R107, R122, R129, R141, R290 to R295: words of subscriptions, commutative ranges and scratchpad mappings. -/
def Obligations.SubscriptionRangeAndMappingWordsComplete : Prop :=
  ∀ (s : State) (th : Thread), Runs s th → ∀ (d a b : Reg) (t : State) (n : Nat),
    let va := (rd s a).toNat
    let x := (rd s b).toNat
    let e := envOf s s.cur
    let answers (i : Instr) : Prop := Does s i [a, b] [d] (advance (wr t d (BitVec.ofNat 64 n)))
    (subscribe s s.cur va (.of (rd s b)) false = .ok (t, n) → answers (.subSubscription d a b)) ∧
    (subscribe s s.cur va (.of (rd s b)) true = .ok (t, n) → answers (.subup d a b)) ∧
    (unsubscribe s s.cur va (.of (rd s b)) = .ok (t, n) → answers (.unsub d a b)) ∧
    (∀ ty : CrTy, crOf (x / 2 ^ 32 % 256) = some ty → x / 2 ^ 42 = 0 → x / 2 ^ 40 % 4 ≠ 3 → va % 128 = 0 →
      x % 2 ^ 32 % 128 = 0 → 0 < x % 2 ^ 32 → x % 2 ^ 32 ≤ 2 ^ 20 → addrKind va = .plain → addrKind (va + x % 2 ^ 32 - 1) = .plain →
      (s.ranges.filter fun c => c.rcb == rcbOf s s.cur).length < 16 → meetsRange s e.sp.tag va (x % 2 ^ 32) = false →
      meetsMap s e.sp.tag va (x % 2 ^ 32) = false →
      Does s (.crSet a b) [a, b] [] (advance { s with ranges :=
        { rcb := rcbOf s s.cur, asid := e.sp.tag, start := va, len := x % 2 ^ 32, op := x / 2 ^ 40 % 4, fmt := ty, partials := [] }
          :: s.ranges })) ∧
    (∀ (c : CRange) (ty : CrTy) (core : Nat), addrKind va = .plain → va % (ty.width / 8) = 0 → ownRange s s.cur va ty = some c →
      e.core = some core →
      Does s (.radd a b ty) [a, b] [] (advance (foldContribution s c core va x))) ∧
    (endRange s s.cur va = .ok t → Does s (.crEnd a) [a] [] (advance t)) ∧
    (isHost s.cur = false →
      (mapScratch s s.cur va x false = .ok (t, n) → answers (.spmMap d a b)) ∧
      (mapScratch s s.cur va x true = .ok (t, n) → answers (.spmMapFill d a b)) ∧
      (unmapScratch s s.cur va = .ok t → Does s (.spmUnmap a) [a] [] (advance t)))

/-- R91, R92, R330: `tid.set` installs the record that its 128 bytes give with the reason of its validation, `tid.get` reports
it, `tid.inv` makes it unset; an identifier beyond the block's count traps BAD_TID. -/
def Obligations.TensorIdentifierWordsComplete : Prop :=
  ∀ (s : State) (k : Nat) (g : Group) (blk : Block), RunsGroup s k g → NoHeldFault s → ffind s.blocks g.block = some blk →
  ∀ (d a : Reg) (n : BitVec 6) (o : Nat),
    (n.toNat < blk.tidCount →
      (Local s (rd s a) g.block blk o → o + 128 ≤ blk.spmBytes + 8 * blk.barCount →
        let r : BitVec 1024 := BitVec.ofNat 1024 (localValue blk o 128)
        Does s (.tidSet a n) [a] [] (advance (modBlock (wakeSpm s g.block o 128) g.block fun x =>
          { x with tids := fset x.tids n.toNat { raw := r, reason := some (tidReason r x.spmBytes) } }))) ∧
      Writes s (.tidGet d n) [] d (match ffind blk.tids n.toNat with
        | none => 0xFF#64
        | some t => match t.reason with
          | none => 0xFF#64
          | some c => BitVec.ofNat 64 (c + (tidFmt t.raw).toNat * 2 ^ 8 + tidRank t.raw * 2 ^ 16)) ∧
      Does s (.tidInv n) [] [] (advance (modBlock s g.block fun x =>
        { x with tids := fset x.tids n.toNat { raw := 0#1024, reason := none } }))) ∧
    (blk.tidCount ≤ n.toNat →
      Traps s (.tidSet a n) [a] [] cBadTid ∧ Traps s (.tidGet d n) [] [d] cBadTid ∧ Traps s (.tidInv n) [] [] cBadTid)

/-- R48, R321, R323, R325, R328: an engine word whose descriptor passes every check releases, takes a free issue
record, the lowest by the model's choice (log 51), and answers its index; a collective copy joins the one that its block is gathering. -/
def Obligations.EngineWordsTakeAnIssueRecord : Prop :=
  ∀ (s : State) (th : Thread), Runs s th → ∀ (d a b : Reg) (sc : Scope) (u v : State) (desc : BitVec 4096) (ids : Tid × Tid × Tid)
    (key : Nat),
    readDesc s s.cur (rd s a).toNat = .ok (u, desc) →
    let takes (i : Instr) (op : EngOp) (gr : DomainGroup) (w : State) : Prop :=
      issueChecks u u.cur op sc desc = .ok ids → freeRecord w w.cur = some key → issueRelease w w.cur sc = .ok v →
      Does s i [a, b] [d] (advance (wr { v with irecs := fset v.irecs key (newRecord v v.cur op sc desc (rd v b) ids gr) } d
        (BitVec.ofNat 64 (key % if isHost v.cur then 16 else 256))))
    takes (.cp d a b sc) .cp .pair u ∧ takes (.gth d a b sc) .gth .pair u ∧ takes (.scat d a b sc) .scat .pair u ∧
    takes (.redcp d a b sc) .redcp .pair u ∧ takes (.mcast d a b sc) .mcast .pair u ∧
    (∀ (w : State) (gr : DomainGroup), edPeer desc % 16 = 0 → readDomainGroup u u.cur (edPeer desc) = .ok (w, gr) → gr.ok = true →
      takes (.dcoll d a b sc) .dcoll gr w) ∧
    (∀ (k : Nat) (g : Group), s.cur = .group k → u.cur = .group k → ffind u.groups k = some g →
      (openCollective u g.block k = none → takes (.cpColl d a b sc) .cpColl .pair u) ∧
      (∀ r : IRec, openCollective u g.block k = some (key, r) → issueChecks u u.cur .cpColl sc desc = .ok ids →
        issueRelease u u.cur sc = .ok v → Does s (.cpColl d a b sc) [a, b] [d]
          (advance (wr (joinCollective v key r (newRecord v v.cur .cpColl sc desc (rd v b) ids .pair)) d
            (BitVec.ofNat 64 (key % 256))))))

/-- R338 to R345: the cross-segment words: jumps outside March and within the current segment, departures to the holder
chosen, and the traps of R340. -/
def Obligations.CrossSegmentWordsGoOrDepart : Prop :=
  ∀ (s : State) (k : Nat) (g : Group) (r : Region), RunsGroup s k g → ffind s.regions g.region = some r → ∀ (d a : Reg),
    let t := rd s a
    let goes : Prop := Does s (.xfer a) [a] [] (jumpTo s t) ∧ Does s (.xret a) [a] [] (jumpTo s t) ∧
      Does s (.xcall d a) [a] [d] (jumpTo (wr s d (g.th.pc + 4#64)) t)
    let traps (c : BitVec 8) : Prop :=
      Traps s (.xfer a) [a] [] c ∧ Traps s (.xret a) [a] [] c ∧ Traps s (.xcall d a) [a] [d] c
    (r.march = none →
      (t.toNat % 4 = 0 → goes) ∧ (t.toNat % 4 ≠ 0 → traps cBadTarget) ∧ Writes s (.segWho d a) [a] d 0xFFFF#64) ∧
    (∀ m : March, r.march = some m →
      Writes s (.segWho d a) [a] d (BitVec.ofNat 64 (segReport s g m t.toNat)) ∧
      (g.th.frames ≠ [] → traps cDepartSafe) ∧
      (g.th.frames = [] → t.toNat % 4 = 0 →
        (segmentAt m t.toNat = none → traps cSegMiss) ∧
        (∀ n : Nat, segmentAt m t.toNat = some n →
          (g.seg = some n → goes) ∧
          (g.seg ≠ some n → (m.segs[n]?).any (fun x => x.entryOnly && x.entry != t.toNat) = true →
            Traps s (.xfer a) [a] [] cSegEntry ∧ Traps s (.xcall d a) [a] [d] cSegEntry) ∧
          (g.seg ≠ some n → (m.segs[n]?).any (fun x => x.entryOnly && x.entry != t.toNat) = false →
            (g.th.prevSafe = none → traps cDepartSafe) ∧
            (∀ (l : BitVec 25) (dest : Nat), g.th.prevSafe = some l → (chooseHolder s g.region n m (some g.core)).getD g.core = dest →
              departReady s k g dest = true →
              let rx := if g.portEn && a == 29#5 then g.rx.drop 1 else g.rx
              (g.ext ≠ 0 → traps cDepartExt) ∧
              (g.ext = 0 → g.owe ≠ 0#64 → traps cDepartBar) ∧
              (g.ext = 0 → g.owe = 0#64 → rx ≠ [] → traps cDepartPort) ∧
              (g.ext = 0 → g.owe = 0#64 → rx = [] → tiedOperation s k = true → traps cDepartEng) ∧
              (g.ext = 0 → g.owe = 0#64 → rx = [] → tiedOperation s k = false →
                Does s (.xfer a) [a] [] (depart s k g none n dest t) ∧ Does s (.xret a) [a] [] (depart s k g none n dest t) ∧
                Does s (.xcall d a) [a] [d] (depart s k g (some d) n dest t)))))))

/-- R66, R203, R343, R344: a departing traveller takes what its lists name and nothing else: of the scalar registers those of `safe`, bit
r - 1 for x1 to x23, bit 23 for x24 to x27 and bit 24 for the rest; of the lane state what the departure mask names, base words, operand
file, predicates and view groups by their bits; no extended register and never the handler banks.  That a base word also travels
when the bit of a queue stored there is set is the model's choice (log 93). -/
def Obligations.DeparturesShipWhatTheListsName : Prop :=
  ∀ (p : Group) (l : BitVec 25) (t : Word), let q := p.ship l t
    q.th.pc = t ∧ q.th.kbank = .clear ∧ q.th.mbank = .clear ∧ q.th.monitor = none ∧ q.th.watches = [] ∧ q.portSrc = 0#64 ∧
    q.owe = 0#64 ∧ q.rx = [] ∧ q.th.fcsr = p.th.fcsr ∧ q.portDst = p.portDst ∧
    (∀ r : Nat, 1 ≤ r → sget q.th.x r =
      if l.getLsbD (if r ≤ 23 then r - 1 else if r ≤ 27 then 23 else 24) = true then sget p.th.x r else 0#64) ∧
    (∀ w : Nat, sget q.v w = if w % 256 < 32 ∧ maskKeepsWord p.depMask p.ext p.views (w % 256) = true then sget p.v w else 0#32) ∧
    (∀ n : Nat, n < 32 → (maskKeepsWord p.depMask p.ext p.views n = true ↔
      (p.depMask.getLsbD (64 + n) = true ∨ ∃ k : Nat, k < 8 ∧ p.depMask.getLsbD (40 + k) = true ∧
        viewValid (sget p.views (24 + k)) = true ∧ qvBase (sget p.views (24 + k)) ≤ n ∧
        n < qvBase (sget p.views (24 + k)) + qvDepth (sget p.views (24 + k))))) ∧
    (∀ i : Nat, sget q.opf i = if p.depMask.getLsbD (32 + i % 8) = true then sget p.opf i else 0#32) ∧
    (∀ k : Nat, sget q.p k = if p.depMask.getLsbD (24 + k) = true then sget p.p k else 0#32) ∧
    (∀ k : Nat, sget q.views k = if 24 ≤ k ∨ p.depMask.getLsbD (16 + k / 4) = true then sget p.views k else 0#64) ∧
    q.lr = p.lr ∧ q.gens = p.gens ∧ q.th.gen = p.th.gen

/-! ### Lane words -/

/-- R245 to R252, R265: the integer result of each lane, from the exact values of its sources, wrapped or saturated. -/
def Obligations.LaneIntegerWordsGiveTheirResult : Prop :=
  ∀ (s : State) (h : LaneHdr) (c : LaneCx), RunsLane s h.pred h.neg c → ∀ (t u : ITy) (d a b e : Operand),
    let w := t.width
    let wrap (x : Int) : Nat := (x % ((2 ^ w : Nat) : Int)).toNat
    let clamp (x : Int) : Int := max (ITy.min t) (min (ITy.max t) x)
    let one (i : Instr) (f : Nat → Nat) : Prop :=
      LaneGives s i h c [.int a w] (.int d w) fun _ v => (f (arg v 0), 0#5)
    let two (i : Instr) (f : Nat → Nat → Nat) : Prop :=
      LaneGives s i h c [.int a w, .int b w] (.int d w) fun _ v => (f (arg v 0) (arg v 1), 0#5)
    two (.vadd h t d a b) (fun x y => wrap (intOf t x + intOf t y)) ∧
    two (.vsub h t d a b) (fun x y => wrap (intOf t x - intOf t y)) ∧
    two (.vmul h t d a b) (fun x y => wrap (intOf t x * intOf t y)) ∧
    two (.vmulh h t d a b) (fun x y => wrap (intOf t x * intOf t y / ((2 ^ w : Nat) : Int))) ∧
    LaneGives s (.vmad h t d a b e) h c [.int a w, .int b w, .int e w] (.int d w)
      (fun _ v => (wrap (intOf t (arg v 0) * intOf t (arg v 1) + intOf t (arg v 2)), 0#5)) ∧
    two (.vabsd h t d a b) (fun x y => (intOf t x - intOf t y).natAbs) ∧
    two (.vmin h t d a b) (fun x y => wrap (min (intOf t x) (intOf t y))) ∧
    two (.vmax h t d a b) (fun x y => wrap (max (intOf t x) (intOf t y))) ∧
    two (.vadds h t d a b) (fun x y => wrap (clamp (intOf t x + intOf t y))) ∧
    two (.vsubs h t d a b) (fun x y => wrap (clamp (intOf t x - intOf t y))) ∧
    two (.vand h t d a b) (fun x y => x &&& y) ∧ two (.vor h t d a b) (fun x y => x ||| y) ∧
    two (.vxor h t d a b) (fun x y => x ^^^ y) ∧ two (.vandn h t d a b) (fun x y => x ^^^ (x &&& y)) ∧
    two (.vshl h t d a b) (fun x y => if y < w then x * 2 ^ y % 2 ^ w else 0) ∧
    two (.vshr h t d a b) (fun x y => if y < w then x / 2 ^ y else 0) ∧
    two (.vsra h t d a b) (fun x y =>
      wrap ((if 2 ^ (w - 1) ≤ x then (x : Int) - ((2 ^ w : Nat) : Int) else (x : Int)) / ((2 ^ min y (w - 1) : Nat) : Int))) ∧
    one (.vclz h t d a) (fun x => if x = 0 then w else w - 1 - Nat.log2 x) ∧
    one (.vctz h t d a) (fun x => ((List.range w).find? fun i => x.testBit i).getD w) ∧
    one (.vpopc h t d a) (fun x => (List.range w).countP fun i => x.testBit i) ∧
    one (.vbrev h t d a) (fun x => ((List.range w).map fun i => if x.testBit i then 2 ^ (w - 1 - i) else 0).sum) ∧
    two (.vbext h t d a b) (fun x y =>
      let f := min (y / 2 ^ 8 % 2 ^ 7) w
      let v : Nat := (if y % 2 ^ 6 < w then x / 2 ^ (y % 2 ^ 6) else 0) % 2 ^ f
      if t.signed = true ∧ 0 < f ∧ v.testBit (f - 1) = true then wrap ((v : Int) - ((2 ^ f : Nat) : Int)) else v) ∧
    LaneGives s (.vext h t u d a) h c [.int a u.width] (.int d w) (fun _ v => (wrap (intOf u (arg v 0)), 0#5)) ∧
    (∀ sat : Bool, LaneGives s (.vnrw h t u sat d a) h c [.int a u.width] (.int d w)
      (fun _ v => (wrap (if sat then clamp (intOf u (arg v 0)) else intOf u (arg v 0)), 0#5))) ∧
    (∀ (ty : LiTy) (k : Word32), LaneGives s (.vli h ty d k) h c [] (.int d 32) (fun _ _ => (k.toNat, 0#5))) ∧
    LaneGives s (.vlid h d) h c [] (.int d 32) (fun l _ => (l, 0#5)) ∧
    ∀ ty : ETy,
      LaneGives s (.vmov h ty d a) h c [.of ty a] (.of ty d) (fun _ v => (arg v 0, 0#5)) ∧
      ∀ (p : BitVec 3) (n : Bool), LaneGives s (.vsel h ty d a b p n) h c [.of ty a, .of ty b] (.of ty d)
        (fun l v => (if (if n then ~~~(c.grp.pred p) else c.grp.pred p).getLsbD l then arg v 0 else arg v 1, 0#5))

/-- R53, R249, R254, R266: compares write a predicate, or all ones or zero, in the active lanes; predicate words write their
function of two predicates there. -/
def Obligations.ComparesAndPredicateWordsWriteTheirResult : Prop :=
  ∀ (s : State) (h : LaneHdr) (c : LaneCx), RunsLane s h.pred h.neg c →
    (∀ (t : ITy) (k : Cond) (a b d : Operand) (p : BitVec 3),
      let holds (v : List Nat) : Bool :=
        let x := intOf t (arg v 0)
        let y := intOf t (arg v 1)
        match k with
        | .eq => decide (x = y)
        | .ne => decide (x ≠ y)
        | .lt => decide (x < y)
        | .le => decide (x ≤ y)
        | .gt => decide (y < x)
        | .ge => decide (y ≤ x)
      LaneTests s (.vcmp h t k (.pred p) a b) h c [.int a t.width, .int b t.width] p (fun _ v => (holds v, 0#5)) ∧
      LaneGives s (.vcmp h t k (.elem d) a b) h c [.int a t.width, .int b t.width] (.int d t.width)
        (fun _ v => (if holds v then 2 ^ t.width - 1 else 0, 0#5))) ∧
    (∀ (t : FTy) (k : Cond) (a b d : Operand) (p : BitVec 3),
      let test (v : List Nat) : Bool × FFlags := fpCompare k (fvOf (descFTy t) (arg v 0)) (fvOf (descFTy t) (arg v 1))
      LaneTests s (.vfcmp h t k (.pred p) a b) h c [.of (.fp t) a, .of (.fp t) b] p (fun _ v => test v) ∧
      LaneGives s (.vfcmp h t k (.elem d) a b) h c [.of (.fp t) a, .of (.fp t) b] (.of (.fp t) d)
        (fun _ v => (if (test v).1 then 2 ^ t.width - 1 else 0, (test v).2))) ∧
    ∀ (pd pa pb : BitVec 3) (na nb : Bool),
      let x : LaneMask := if na then ~~~(c.grp.pred pa) else c.grp.pred pa
      let y : LaneMask := if nb then ~~~(c.grp.pred pb) else c.grp.pred pb
      let writes (i : Instr) (v : LaneMask) : Prop := LaneDone s i h c (modGroup s c.g fun g => g.setPred pd c.act v)
      writes (.pand h pd pa pb na nb) (x &&& y) ∧ writes (.por h pd pa pb na nb) (x ||| y) ∧
      writes (.pxor h pd pa pb na nb) (x ^^^ y) ∧ writes (.pnot h pd pa na) (~~~x) ∧ writes (.pmov h pd pa na) x

/-- R81 to R88, R191 to R193, R253 to R260: floating words and conversions compute each lane's result and flags, rounded
once; `.sr` steps the active lanes' generators; both halves of a paired word read before either writes. -/
def Obligations.LaneFloatingWordsGiveTheirResult : Prop :=
  ∀ (s : State) (h : LaneHdr) (c : LaneCx), RunsLane s h.pred h.neg c → ∀ (t : FTy) (r : Rnd) (d a b e : Operand),
    let rm := modeOf r c.grp.th.fcsr 0#16
    let D := descFTy t
    let F (o : Operand) : Field := .of (.fp t) o
    let one (i : Instr) (f : Nat → Nat × FFlags) : Prop := LaneGives s i h c [F a] (F d) fun _ v => f (arg v 0)
    let two (i : Instr) (f : Nat → Nat → Nat × FFlags) : Prop :=
      LaneGives s i h c [F a, F b] (F d) fun _ v => f (arg v 0) (arg v 1)
    two (.vfadd h t r d a b) (fpAdd D rm) ∧ two (.vfsub h t r d a b) (fpSub D rm) ∧ two (.vfmul h t r d a b) (fpMul D rm) ∧
    LaneGives s (.vffma h t r d a b e) h c [F a, F b, F e] (F d) (fun _ v => fpFma D rm (arg v 0) (arg v 1) (arg v 2)) ∧
    two (.vfmin h t d a b) (fpMinMax D false) ∧ two (.vfmax h t d a b) (fpMinMax D true) ∧
    one (.vfrcp h t d a) (sfuOf t .rcp) ∧ one (.vfrsq h t d a) (sfuOf t .rsq) ∧ one (.vfex2 h t d a) (sfuOf t .ex2) ∧
    one (.vflg2 h t d a) (sfuOf t .lg2) ∧ one (.vfsin h t d a) (sfuOf t .sin) ∧ one (.vfcos h t d a) (sfuOf t .cos) ∧
    one (.vftnh h t d a) (sfuOf t .tnh) ∧ one (.vfcls h t d a) (fun x => (fpClass D x, 0#5)) ∧
    LaneGives s (.vfscl h t r d a b) h c [F a, .int b t.width] (F d) (fun _ v => fpScale D rm (arg v 0) (arg v 1 % 256)) ∧
    (∀ (ovf : Bool) (f g : Fmt) (pl : Plan), c.plan s [.fmt f a] (some (.fmt g d)) = .ok pl →
      let x (l : Nat) : Nat × FFlags :=
        fmtConvert g (modeOf r c.grp.th.fcsr (sget c.grp.gens l)) ovf (fmtValue f (arg (c.values s pl [.fmt f a] l) 0))
      let u := laneFlags (c.commit s pl g.width c.act fun l => (x l).1) (flagsOf c.act fun l => (x l).2)
      LaneDone s (.vfcvt h ovf r f g d a) h c (if r = .sr then stepGens u c.g c.act else u)) ∧
    (∀ bf : Bool,
      let k := if bf then descBf16 else descF16
      LaneGives s (.vfdot2 h bf r d a b e) h c [.int a 32, .int b 32, .of (.fp .f32) e] (.int d 32) fun _ v =>
        fpDot descF32 rm ((List.range 2).map fun i =>
          (fvOf k (arg v 0 / 2 ^ (16 * i) % 2 ^ 16), fvOf k (arg v 1 / 2 ^ (16 * i) % 2 ^ 16))) (fvOf descF32 (arg v 2))) ∧
    (∀ (f : B8Var) (p : BitVec 3),
      let k := descB8 f p.toNat
      LaneGives s (.vfdot4 h f p r d a b e) h c [.int a 32, .int b 32, .of (.fp .f32) e] (.int d 32) fun _ v =>
        fpDot descF32 rm ((List.range 4).map fun i =>
          (fvOf k (arg v 0 / 2 ^ (8 * i) % 2 ^ 8), fvOf k (arg v 1 / 2 ^ (8 * i) % 2 ^ 8))) (fvOf descF32 (arg v 2))) ∧
    ∀ (x y : HalfOp) (all p q : Plan),
      let src (z : HalfOp) : List Field :=
        [.int z.a 32, .int (if z.op = .vmov then .imm 0#10 else z.b) 32, .int (if z.op.accumulates then z.d else .imm 0#10) 32]
      c.plan s (src x ++ src y) none = .ok all → c.plan s (src x) (some (.int x.d 32)) = .ok p →
      c.plan s (src y) (some (.int y.d 32)) = .ok q →
      let res (z : HalfOp) (pl : Plan) (l : Nat) : Nat × FFlags :=
        let v := c.values s pl (src z) l
        halfResult z c.mode (arg v 0) (arg v 1) (arg v 2)
      LaneDone s (.pairedWord h x y) h c (laneFlags
        (c.commit (c.commit s p 32 c.act fun l => (res x p l).1) q 32 c.act fun l => (res y q l).1)
        (flagsOf c.act fun l => (res x p l).2 ||| (res y q l).2))

/-- R88: the special functions at special operands, exactly 2^n and log2 of 2^n, and no flag but NV and DZ. -/
def Obligations.SpecialFunctionsMeetTheirTable : Prop :=
  let inf : Nat := 0x7F800000
  let one : Nat := 0x3F800000
  let minus : Nat := 0x80000000
  let nan : Nat := 0x7FC00000
  (∀ (t : FTy) (fn : Sfu) (x : Nat), (sfuOf t fn x).2 &&& ~~~(flagNV ||| flagDZ) = 0#5) ∧
  (∀ (fn : Sfu) (x : Nat) (sig : Bool), fvOf descF32 x = .nan sig → sfuOf .f32 fn x = (nan, if sig then flagNV else 0#5)) ∧
  (sfuOf .f32 .rcp 0 = (inf, flagDZ) ∧ sfuOf .f32 .rcp minus = (minus + inf, flagDZ) ∧ sfuOf .f32 .rcp inf = (0, 0#5) ∧
    sfuOf .f32 .rcp (minus + inf) = (minus, 0#5)) ∧
  (sfuOf .f32 .rsq 0 = (inf, flagDZ) ∧ sfuOf .f32 .rsq minus = (minus + inf, flagDZ) ∧ sfuOf .f32 .rsq inf = (0, 0#5) ∧
    sfuOf .f32 .rsq (minus + inf) = (nan, flagNV)) ∧
  (sfuOf .f32 .ex2 0 = (one, 0#5) ∧ sfuOf .f32 .ex2 minus = (one, 0#5) ∧ sfuOf .f32 .ex2 inf = (inf, 0#5) ∧
    sfuOf .f32 .ex2 (minus + inf) = (0, 0#5)) ∧
  (sfuOf .f32 .lg2 0 = (minus + inf, flagDZ) ∧ sfuOf .f32 .lg2 minus = (minus + inf, flagDZ) ∧
    sfuOf .f32 .lg2 inf = (inf, 0#5) ∧ sfuOf .f32 .lg2 (minus + inf) = (nan, flagNV)) ∧
  (sfuOf .f32 .sin 0 = (0, 0#5) ∧ sfuOf .f32 .sin minus = (minus, 0#5) ∧ sfuOf .f32 .sin inf = (nan, flagNV) ∧
    sfuOf .f32 .cos 0 = (one, 0#5) ∧ sfuOf .f32 .cos minus = (one, 0#5) ∧ sfuOf .f32 .cos (minus + inf) = (nan, flagNV)) ∧
  (sfuOf .f32 .tnh 0 = (0, 0#5) ∧ sfuOf .f32 .tnh minus = (minus, 0#5) ∧ sfuOf .f32 .tnh inf = (one, 0#5) ∧
    sfuOf .f32 .tnh (minus + inf) = (minus + one, 0#5)) ∧
  (∀ (x m : Nat) (e : Int), fvOf descF32 x = .fin true m e → m ≠ 0 →
    sfuOf .f32 .rsq x = (nan, flagNV) ∧ sfuOf .f32 .lg2 x = (nan, flagNV)) ∧
  ∀ n : Int, -126 ≤ n → n ≤ 127 →
    sfuOf .f32 .ex2 (fpConvert descF32 .rne false (fvInt n)).1 = ((n + 127).toNat * 2 ^ 23, 0#5) ∧
    sfuOf .f32 .lg2 ((n + 127).toNat * 2 ^ 23) = ((fpConvert descF32 .rne false (fvInt n)).1, 0#5)

/-- R96, R242, R261 to R265: shuffles, broadcasts, reductions and scans in their fixed trees, matched reductions, ballots and
votes of a whole gang; each traps XLANE_PARTED when the gang has parted.  A broadcast and a reduction without an active lane leave
`lr` (DEDUCED, log 92). -/
def Obligations.CrossLaneWordsGiveTheirResult : Prop :=
  ∀ (s : State) (h : LaneHdr) (c : LaneCx), RunsLane s h.pred h.neg c →
  ∀ (t : ETy) (r : Rnd) (o : RedOp) (p q : BitVec 3) (d a b : Operand) (w64 : Bool) (m : VoteMode),
    let F (x : Operand) : Field := .of t x
    let I (x : Operand) : Field := .int x t.width
    let none_ (_ : Plan) (_ : Nat → List Nat) (u : State) : State := u
    let idle (i : Instr) (srcs : List Field) (t : Plan → State) : Prop :=
      c.act = 0#32 → c.parted = false → ∀ pl : Plan, c.plan s srcs (some (F d)) = .ok pl → LaneDone s i h c (t pl)
    let live (k : Int) (l : Nat) : Nat := if 0 ≤ k ∧ k < (c.task.n : Int) then k.toNat else l
    let shuffles (mode : ShMode) (f : Nat → Nat → Int) : Prop :=
      CrossGives s (.vshfl h t mode d a b) h c [F a, I b] (F d)
        (fun v => (fun l => some (arg (v (live (f l (arg (v l) 1)) l)) 0), 0#5))
        (fun pl v u => wakeSources c pl ((bitsSet c.act).map fun l => live (f l (arg (v l) 1)) l) u)
    let comb := redOf t o (modeOf r c.grp.th.fcsr 0#16)
    let first (v : Nat → List Nat) (l : Nat) : Bool := (keySet c.act v l).head? == some l
    shuffles .up (fun l k => (l : Int) - k) ∧ shuffles .down (fun l k => (l : Int) + k) ∧
    shuffles .xor (fun l k => ((l ^^^ k : Nat) : Int)) ∧ shuffles .idx (fun _ k => (k : Int)) ∧
    (c.act ≠ 0#32 → CrossGives s (.vbcast h t d a b) h c [F a, I b] (F d)
      (fun v => (fun l => some (arg (v (live (arg (v ((bitsSet c.act).headD 0)) 1 : Nat) l)) 0), 0#5))
      (fun pl v u => wakeSources c pl [arg (v ((bitsSet c.act).headD 0)) 1] u)) ∧
    idle (.vbcast h t d a b) [F a, I b] (fun _ => s) ∧
    (c.act ≠ 0#32 → CrossGives s (.vlred h t o r d a) h c [F a] (F d)
      (fun v =>
        let x := [1, 2, 4, 8, 16].foldl (laneReduceStep comb) (redInput c.act v, 0#5)
        (fun _ => x.1.getD 0 none, x.2)) none_) ∧
    idle (.vlred h t o r d a) [F a] (fun pl => c.moveViews s pl) ∧
    CrossGives s (.vscan h t o r d a) h c [F a] (F d)
      (fun v =>
        let x := [1, 2, 4, 8, 16].foldl (laneScanStep comb) (redInput c.act v, 0#5)
        (fun l => x.1.getD l none, x.2)) none_ ∧
    CrossGives s (.vmred h t o r p d a b) h c [F a, I b] (F d)
      (fun v => (fun l => if first v l then (foldLanes comb v (keySet c.act v l)).1 else none,
        flagsOf (c.act &&& maskOf (first v)) fun l => (foldLanes comb v (keySet c.act v l)).2))
      (fun _ v u => modGroup u c.g fun g => g.setPred p c.act (maskOf (first v))) ∧
    CrossGives s (.vballot h w64 p d) h c [] (.int d (if w64 then 64 else 32))
      (fun _ => (fun _ => some (c.act &&& c.grp.pred p).toNat, 0#5)) none_ ∧
    (c.parted = true → LaneTraps s (.vvote h m p q) c cXlaneParted) ∧
    (c.parted = false →
      let v := c.act &&& c.grp.pred p
      let holds : Bool := match m with
        | .any => decide (v ≠ 0#32)
        | .all => decide (v = c.act)
        | .uni => decide (v = c.act) || decide (v = 0#32)
      LaneDone s (.vvote h m p q) h c (modGroup s c.g fun g => g.setPred q c.act (if holds then BitVec.allOnes 32 else 0#32)))

/-- R30, R32, R33, R42, R177, R267 to R271, R337, R344: slices part at a branch that they decide differently; jumps; `regang`
in a group that has not parted and where it waits; the end of slices and of the task. -/
def Obligations.LaneControlWordsMoveTheirGang : Prop :=
  ∀ (s : State) (c : LaneCx), RunsLane s 0#3 false c →
    let x := c.gang
    let next := x.pc + x.span
    let one (f : Gang → Gang) : State := modGroup s c.g fun g => g.modGang c.k f
    let put (l : List Gang) : State := modGroup s c.g fun g => { g with task := g.task.map fun t => t.replace c.k l }
    (∀ (p : BitVec 3) (n all : Bool) (o : BitVec 25) (go : BitVec 8),
      (∀ k : Nat, k < 8 → go.getLsbD k = (x.slices.getLsbD k && decide (
        let yes (i : Nat) : Bool := (c.grp.cond p n).getLsbD (4 * k + i)
        if all then ∀ i : Nat, i < 4 → c.live.getLsbD (4 * k + i) = true → yes i = true
        else ∃ i : Nat, i < 4 ∧ c.live.getLsbD (4 * k + i) = true ∧ yes i = true))) →
      (go = 0#8 → Ends s (.lbr p n all o) (put [x.retire true next])) ∧
      (go ≠ 0#8 → ∀ k : Nat, laneTarget s x.pc o = .ok k →
        Ends s (.lbr p n all o) (put (if go = x.slices then [x.retire true k]
          else [{ x.retire true next with slices := x.slices &&& ~~~go }, { x.retire true k with slices := go }]))) ∧
      (go ≠ 0#8 → ∀ e : BitVec 8, laneTarget s x.pc o = .error e → LaneTraps s (.lbr p n all o) c e)) ∧
    (∀ (o : BitVec 25) (k : Nat), laneTarget s x.pc o = .ok k → Ends s (.ljmp o) (one fun y => y.retire true k)) ∧
    (∀ (o : BitVec 25) (e : BitVec 8), laneTarget s x.pc o = .error e → LaneTraps s (.ljmp o) c e) ∧
    (∀ k : BitVec 4,
      (c.task.gangs.length = 1 → Ends s (.regang k) (one fun y => y.retire true (y.pc + y.span))) ∧
      (c.task.gangs.length ≠ 1 → (∃ y ∈ c.task.gangs, y.slices ≠ x.slices ∧ (bitsSet y.slices).head? ≠ some c.k ∧ y.wait = none) →
        Ends s (.regang k) (one fun y => { y with wait := some k, runLen := 0, promoted := false }))) ∧
    (c.task.gangs = [x] → Ends s .lend (modGroup s c.g fun g =>
      { g with task := none
               depMask := if c.task.endSafe && x.mask.isSome then c.task.endMask ||| x.mask.getD 0#96 else 0#96 })) ∧
    ((∃ y ∈ c.task.gangs, (bitsSet y.slices).head? ≠ some c.k ∧ y.wait = none) →
      Ends s .lend (modGroup s c.g fun g =>
        { g with task := some { c.task.replace c.k [] with
            endMask := c.task.endMask ||| x.mask.getD 0#96, endSafe := c.task.endSafe && x.mask.isSome } }))

/-- R33: the gangs that wait at one `regang` with one code merge into one that goes on behind it; where codes or places differ
the group traps REGANG_MISMATCH and no waiting word counts as retired. -/
def Obligations.WaitingGangsMergeOrMismatch : Prop :=
  ∀ (s : State) (g : Nat) (p : Group) (t : Task) (x y : Gang), ffind s.groups g = some p → p.task = some t → t.gangs = [x, y] →
    (x.wait = none ∨ y.wait = none → mergeWaiting s g = .ok s) ∧
    (∀ k : BitVec 4, x.wait = some k → y.wait = some k → y.pc = x.pc →
      ∃ u : State, mergeWaiting s g = .ok u ∧ ∃ m : Gang, (ffind u.groups g).bind (·.task) = some { t with gangs := [m] } ∧
        m.slices = x.slices ||| y.slices ∧ m.pc = x.pc + x.span ∧ m.wait = none ∧ m.runLen = 0 ∧
        m.safe = if x.mask.isSome && y.mask.isSome then some (x.mask.getD 0#96 ||| y.mask.getD 0#96) else none) ∧
    (∀ j k : BitVec 4, x.wait = some j → y.wait = some k → (j ≠ k ∨ y.pc ≠ x.pc) →
      ∃ (i : TrapInfo) (u : State), mergeWaiting s g = .error (.trap i (some u)) ∧ i.cause = cRegangMismatch ∧
        ((ffind u.groups g).bind (·.task)).map (fun t => t.gangs.map fun z => (z.slices, z.pc, z.wait)) =
          some [(x.slices, x.pc, none), (y.slices, y.pc, none)])

/-- R58, R267, R270, R271, R287 to R289, R293, R297: lane words that move on, set a view, fence, contribute, and use barriers. -/
def Obligations.LaneViewFenceAndBarrierWordsComplete : Prop :=
  ∀ (s : State) (h : LaneHdr) (c : LaneCx), RunsLane s h.pred h.neg c →
  ∀ (v : BitVec 5) (sc : Scope) (k : FenceKind) (n : BitVec 6) (q : Bool) (p : BitVec 3) (t : CrTy) (a b : Operand),
    let idle := c.act = 0#32
    LaneDone s (.lnop h) h c s ∧
    (idle → LaneDone s (.vwSet h v a) h c s ∧ LaneDone s (.laneFence h sc k) h c s ∧ LaneDone s (.laneBarArr h n) h c s ∧
      LaneDone s (.laneBarExp h n b) h c s ∧ LaneDone s (.laneBarWait h n q) h c s ∧ LaneDone s (.laneBarTry h n q p) h c s) ∧
    (∀ (l : Nat) (rest : List Nat) (pl : Plan), bitsSet c.act = l :: rest → c.parted = false → c.plan s [.int a 64] none = .ok pl →
      let x : Word := BitVec.ofNat 64 (arg (c.values s pl [.int a 64] l) 0)
      (viewOk v.toNat x (viewLimit s c.grp) = true → LaneDone s (.vwSet h v a) h c
        (modGroup (c.wake s pl) c.g fun g => { g with views := sset g.views v.toNat (viewStore v.toNat x) })) ∧
      (viewOk v.toNat x (viewLimit s c.grp) = false → LaneTraps s (.vwSet h v a) c cBadView)) ∧
    (¬ idle → c.parted = true → LaneTraps s (.vwSet h v a) c cXlaneParted) ∧
    (¬ idle → ∀ u : State,
      (fullFence s sc = .ok u → LaneDone s (.laneFence h sc .full) h c u) ∧
      LaneDone s (.laneFence h sc .acq) h c (refetch s sc) ∧
      (releaseSteps s s.cur sc = .ok u → LaneDone s (.laneFence h sc .rel) h c (fenceDone (refetch u sc) sc)) ∧
      (arriveWord s n.toNat c.act = .ok u → LaneDone s (.laneBarArr h n) h c u)) ∧
    (∀ (l : Nat) (rest : List Nat) (pl : Plan) (u : State), bitsSet c.act = l :: rest → c.plan s [.int b 32] none = .ok pl →
      postWord s n.toNat (arg (c.values s pl [.int b 32] l) 0) c.act = .ok u →
      LaneDone s (.laneBarExp h n b) h c (c.commit u pl 0 0#32 fun _ => 0)) ∧
    (¬ idle → ∀ done : Bool, waitWord s n.toNat q c.act = .ok done →
      (done = true → LaneDone s (.laneBarWait h n q) h c s) ∧
      (done = false → exec (.laneBarWait h n q) s = .next (modGroup s c.g fun g => g.modGang c.k fun x => { x with safe := none })) ∧
      LaneDone s (.laneBarTry h n q p) h c
        (modGroup s c.g fun g => g.setPred p c.act (if done then BitVec.allOnes 32 else 0#32))) ∧
    (let src : List Field := [.int a 64, { opd := b, width := t.width, fp := match t with
        | .f32 => some descF32
        | .bf16 => some descBf16
        | .i32 => none }]
     ∀ pl : Plan, c.plan s src none = .ok pl →
      LaneAccesses s (.laneRadd h t a b) h c pl 0 2 none [] ((bitsSet c.act).map fun l => LanePart.mk l fun s =>
        contribute s s.cur t (arg (c.values s pl src l) 0) (arg (c.values s pl src l) 1)))

/-- R47, R275, R277, R279, R284, R288, R289, R435: lane loads, stores, atomics and tiles whose lanes' accesses all complete.  The lanes act in
rising order, which is the model's choice (log 99): R153 leaves the lanes of one word unordered. -/
def Obligations.LaneMemoryWordsComplete : Prop :=
  ∀ (s : State) (h : LaneHdr) (c : LaneCx), RunsLane s h.pred h.neg c →
  ∀ (t : ETy) (y : AtTy) (op : AmoOp) (sc : Scope) (sem : Sem) (q : Bool) (o : BitVec 12) (d a b e : Operand) (v : BitVec 4)
    (k : BitVec 8) (n : BitVec 6),
    let rel : Option Scope := if sem = .rel ∨ sem = .ar then some sc else none
    let part (f : Nat → State → Except Miss State) (lanes : List Nat) : List LanePart := lanes.map fun l => LanePart.mk l (f l)
    LaneFetches s (.vld h t sc q o d a) h c [.int a 64] (.of t d) 0 (t.width / 8) none o
      (fun _ va s => loadBytes s s.cur va (t.width / 8)) ∧
    LaneFetches s (.vamo h y op sc sem o d a b) h c [.int a 64, atField y b] (atField y d) 2 (y.width / 8) rel o
      (fun x va s => atomicBytes s s.cur va (y.width / 8) fun old => amoValue op y.width old (arg x 1)) ∧
    LaneFetches s (.vcas h y sc sem o d a b e) h c [.int a 64, atField y b, atField y e] (atField y d) 2 (y.width / 8) rel o
      (fun x va s => atomicBytes s s.cur va (y.width / 8) fun old => if old = arg x 2 then arg x 1 else old) ∧
    (∀ pl : Plan, c.plan s [.int a 64, .of t b] none = .ok pl →
      let x (l : Nat) : List Nat := c.values s pl [.int a 64, .of t b] l
      LaneAccesses s (.vst h t sc q o a b) h c pl 0 1 (if q then some sc else none) []
        (part (fun l s => waitWhole s (storeBytes s s.cur (laneVa (x l) o) (t.width / 8) (arg (x l) 1)
          (if q then releaseMark sc else none))) (bitsSet c.act))) ∧
    (∀ (r : BitVec 1024) (view : Word), tileCheck s c v k n false = .ok (r, view) →
      let size := tidSize r
      let row (l : Nat) : List (Option Nat) := tileRow c.grp r view k.toNat l
      LaneAccesses s (.vtld h v k n) h c
        { srcs := tileLocs r k view, dst := some (.space (4 * tvBase view) size (tvRows view)), views := c.grp.views }
        (8 * size) 0 none ((tileLanes c view).flatMap fun l => (row l).filterMap fun a => a.map fun va => (va, size))
        (part (fun l s => (askEach size ((row l).filterMap id) s).bind fun s =>
          (loadEach size ((row l).filterMap id) s).map fun z =>
            (row l).zipIdx.foldl (fun u (a, j) =>
              writeLoc u c.g (.space (4 * tvBase view + j * size) size 32) (lanesIn [l]) fun _ =>
                (a.bind fun va => ffind z.2 va).getD 0) z.1) (tileLanes c view))) ∧
    ∀ (r : BitVec 1024) (view : Word), tileCheck s c v k n true = .ok (r, view) →
      let size := tidSize r
      LaneAccesses s (.vtst h v k n) h c { srcs := tileLocs r k view, dst := none, views := c.grp.views } 0 1 none []
        (part (fun l s => waitWhole s ((tileRow c.grp r view k.toNat l).zipIdx.foldl (fun z (a, j) =>
          match z, a with
          | .ok u, some va => storeBytes u u.cur va size (c.grp.spaceNat l (4 * tvBase view + j * size) size) none
          | z, _ => z) (.ok s))) (tileLanes c view))

/-- R105, R279, R288: a lane store to the scratchpad writes, in rising order of the active lanes, each lane's bytes and nothing
else; a lane load reads them into the words of its destination, and leaves every other vector word as it was.  That the highest lane's
value stays where stores overlap is the model's choice (log 99): R277 says only that one of the values does. -/
def Obligations.LaneAccessesOfTheScratchpad : Prop :=
  ∀ (s : State) (h : LaneHdr) (c : LaneCx), RunsLane s h.pred h.neg c → NoHeldFault s → c.gang.again = none → c.grp.th.frames = [] →
  ∀ (n : Nat) (blk : Block) (o : Nat → Nat) (sc : Scope) (off : BitVec 12) (a : Operand) (d : BitVec 8) (pl : Plan),
    let b := c.grp.block
    ffind s.blocks b = some blk → d.toNat < 32 →
    (c.plan s [.int a 64, .of (.int .i32) (.word d)] none = .ok pl →
      let x (l : Nat) : List Nat := c.values s pl [.int a 64, .of (.int .i32) (.word d)] l
      (∀ l ∈ bitsSet c.act, addrKind (laneVa (x l) off) = .loc (o l) ∧ o l + 4 ≤ blk.spmBytes) →
      n < blk.spmBytes →
      ∃ t : State, LaneDone s (.vst h (.int .i32) sc false off a (.word d)) h c t ∧ t.mem = s.mem ∧
        (∀ k : Nat, k ≠ b → ffind t.blocks k = ffind s.blocks k) ∧
        ∃ new : Block, ffind t.blocks b = some new ∧
          (∀ l ∈ bitsSet c.act, o l ≤ n → n < o l + 4 → (∀ m ∈ bitsSet c.act, l < m → ¬ (o m ≤ n ∧ n < o m + 4)) →
            localByte new n = BitVec.ofNat 8 (arg (x l) 1 / 2 ^ (8 * (n - o l)))) ∧
          ((∀ l ∈ bitsSet c.act, ¬ (o l ≤ n ∧ n < o l + 4)) → localByte new n = localByte blk n)) ∧
    (c.plan s [.int a 64] (some (.of (.int .i32) (.word d))) = .ok pl →
      let x (l : Nat) : List Nat := c.values s pl [.int a 64] l
      (∀ l ∈ bitsSet c.act, addrKind (laneVa (x l) off) = .loc (o l) ∧ o l + 4 ≤ blk.spmBytes) →
      ∃ t : State, LaneDone s (.vld h (.int .i32) sc false off (.word d) a) h c t ∧ t.mem = s.mem ∧ t.blocks = s.blocks ∧
        ∃ p : Group, ffind t.groups c.g = some p ∧ p.p = c.grp.p ∧ p.th.x = c.grp.th.x ∧
          ∀ l w : Nat, l < 32 → w < 256 → p.vword l w =
            if w = d.toNat ∧ c.act.getLsbD l = true then BitVec.ofNat 32 (localValue blk (o l) 4) else c.grp.vword l w)

/-- R53, R54, R57, R60, R61, R65: where the results of a lane word go and what they leave alone: each given lane below a view's rows has
its result in the destination's bytes, element or operand-file entry; the other bytes of a narrow destination's word, every other vector
word, predicates, scalar registers, blocks and memory are as they were; `lr` shows the destination in every lane of the gang's slices; a
predicate changes in the active lanes only. -/
def Obligations.LaneResultsStayInTheirDestination : Prop :=
  ∀ (s : State) (c : LaneCx) (pl : Plan) (w : Nat) (m : LaneMask) (f : Nat → Nat), ffind s.groups c.g = some c.grp →
    (∀ (byte bytes rows : Nat), pl.dst = some (.space byte bytes rows) →
      let t := c.commit s pl w m f
      t.mem = s.mem ∧ t.blocks = s.blocks ∧ t.regions = s.regions ∧ t.hosts = s.hosts ∧ t.net = s.net ∧
      (∀ k : Nat, k ≠ c.g → ffind t.groups k = ffind s.groups k) ∧
      ∃ p : Group, ffind t.groups c.g = some p ∧ p.p = c.grp.p ∧ p.opf = c.grp.opf ∧ p.th.x = c.grp.th.x ∧
        p.th.fcsr = c.grp.th.fcsr ∧ p.gens = c.grp.gens ∧
        (∀ l n : Nat, n < 248 → (m.getLsbD l = false ∨ (n ≠ byte / 4 ∧ (bytes = 8 → n ≠ byte / 4 + 1))) → l < 32 → byte / 4 < 248 →
          byte / 4 + 1 < 248 → p.vword l n = c.grp.vword l n) ∧
        (bytes ∈ [1, 2, 4, 8] → byte % min bytes 4 = 0 → byte / 4 + (if bytes = 8 then 1 else 0) < 256 → ∀ l : Nat, l < 32 →
          p.spaceNat l byte bytes = (if m.getLsbD l = true ∧ l < rows then f l % 2 ^ (8 * bytes) else c.grp.spaceNat l byte bytes) ∧
          (∀ k : Nat, k < 4 → k < byte % 4 ∨ byte % 4 + bytes ≤ k →
            byteAt (p.vword l (byte / 4)) k = byteAt (c.grp.vword l (byte / 4)) k) ∧
          sget p.lr l = if c.sliceMask.getLsbD l = false then sget c.grp.lr l else if rows ≤ l then 0#64
            else if bytes < 4 then (p.vword l (byte / 4)).zeroExtend 64 else BitVec.ofNat 64 (p.spaceNat l byte bytes))) ∧
    (∀ (r col rows : Nat) (b : Block), pl.dst = some (.acc r col rows) → ffind s.blocks c.grp.block = some b → col < 256 →
      ∃ x : Block, ffind (c.commit s pl w m f).blocks c.grp.block = some x ∧ ∀ y k : Nat, k < 256 → accWord x (256 * y + k) =
        if k = col ∧ r ≤ y ∧ y < r + min rows 32 ∧ m.getLsbD (y - r) = true then BitVec.ofNat 32 (f (y - r)) else accWord b (256 * y + k)) ∧
    (∀ i : Nat, pl.dst = some (.opf i) → i < 8 → ∃ p : Group, ffind (c.commit s pl w m f).groups c.g = some p ∧
      ∀ l j : Nat, l < 32 → j < 8 → sget p.opf (8 * l + j) =
        if j = i ∧ m.getLsbD l = true then BitVec.ofNat 32 (f l) else sget c.grp.opf (8 * l + j)) ∧
    ∀ (p : Group) (j k : BitVec 3) (v : LaneMask),
      (p.setPred j m v).pred k = if k = j ∧ j ≠ 0#3 then (p.pred j &&& ~~~m) ||| (v &&& m) else p.pred k

/-! ### Matrix words -/

/-- R303, R313 to R315, R318, R319: index registers, barriers, jumps and the end of a sequencer. -/
def Obligations.MatrixControlWordsMoveTheSequencer : Prop :=
  ∀ (s : State) (k : Nat) (b : Block), RunsSeq s k b →
  ∀ (i j : BitVec 4) (hi q : Bool) (v : BitVec 31) (o : BitVec 32) (n : BitVec 8) (lead : BitVec 2),
    let put (hi : Bool) (v : Nat) (t : State) : State := modSeq t k fun x => x.setHalf i hi v
    let old := if hi then b.seq.hi i else b.seq.lo i
    let target := b.seq.mpc + o.signExtend 64 * 8#64
    let inside : Prop := ∀ (g : Segment) (c : Nat) (r : Region) (m : March), b.seg = some c → ffind s.regions b.region = some r →
      r.march = some m → m.segs[c]? = some g → g.matrixLo ≤ target.toNat ∧ target.toNat < g.matrixHi
    let stranded : Prop := ∃ x ∈ spanSet s k, x ≠ k ∧ spanWaits s x = true ∧ k ∈ spanPartners s x
    let width := if b.seg.isSome then 1 else ((ffind s.regions b.region).map spanWidth).getD 1
    (∀ (x : Nat), (b.seq.setHalf i hi x).lo j = (if j = i ∧ hi = false then x % 2 ^ 32 else b.seq.lo j) ∧
      (b.seq.setHalf i hi x).hi j = (if j = i ∧ hi = true then x % 2 ^ 32 else b.seq.hi j)) ∧
    SeqDone s k .mnop s ∧
    SeqDone s k (.mset i hi v) (put hi v.toNat s) ∧
    SeqDone s k (.madd i hi v) (put hi (old + (v.signExtend 32).toNat) s) ∧
    (b.seq.lo i = 0 → SeqDone s k (.mloop i o) s) ∧
    (b.seq.lo i = 1 → SeqDone s k (.mloop i o) (put false 0 s)) ∧
    (1 < b.seq.lo i → inside → Ends s (.mloop i o) (put false (b.seq.lo i - 1) (seqJump s k target))) ∧
    (1 < b.seq.lo i → ¬ inside → SeqFaults s k (.mloop i o) cBadTarget) ∧
    (inside → Ends s (.mjmp o) (seqJump s k target)) ∧ (¬ inside → SeqFaults s k (.mjmp o) cBadTarget) ∧
    (¬ stranded → Ends s .mend (modSeq s k fun x => { x with ended := true })) ∧
    (let legal := (n = 1#8 ∨ n = 2#8 ∨ n = 4#8) ∧ n.toNat ≤ width ∧ lead.toNat < n.toNat
     (legal → ¬ stranded → SeqDone s k (.mspn n lead) (modSeq s k fun x => { x with span := n.toNat, lead := lead.toNat })) ∧
     (¬ legal → SeqFaults s k (.mspn n lead) cMxSpan)) ∧
    (b.barCount ≤ n.toNat → SeqFaults s k (.mbarr n) cBarRange ∧ SeqFaults s k (.mbwt n q) cBarRange) ∧
    (n.toNat < b.barCount → ∀ u : State, barArrive s k n.toNat = .ok u → SeqDone s k (.mbarr n) u) ∧
    (n.toNat < b.barCount → ∀ e : BitVec 8, barArrive s k n.toNat = .error e → SeqFaults s k (.mbarr n) e) ∧
    (n.toNat < b.barCount → barPhase (sget b.bars n.toNat) ≠ q →
      SeqDone s k (.mbwt n q) (modSeq s k fun x => { x with tids := b.tids })) ∧
    (n.toNat < b.barCount → barPhase (sget b.bars n.toNat) = q → exec (.mbwt n q) s = .next s)

/-- R94, R304 to R312, R316, R319: weight loads, the exchange of planes, passes, clearing and draining of accumulator rows, and the
checks that each makes first, those of `mst` in an order that is the model's choice (log 138). -/
def Obligations.MatrixWordsLoadPassClearAndDrain : Prop :=
  ∀ (s : State) (k : Nat) (b : Block), RunsSeq s k b →
  ∀ (id : BitVec 6) (i : BitVec 4) (dk dn : BitVec 16) (row count : BitVec 11) (acct ovf clr : Bool) (m : Rnd) (sh : BitVec 5),
    let tid := validTid b.seq.tids b.tidCount id.toNat
    let rows := row.toNat + count.toNat ≤ b.accCount
    let p := b.seq.active
    SeqDone s k .mswp (modSeq s k fun x => { x with active := b.seq.shadow, shadow := b.seq.active }) ∧
    (let c0 := (b.seq.lo i + dk.toNat) % 2 ^ 32
     let c1 := (b.seq.hi i + dn.toNat) % 2 ^ 32
     (tid = none → SeqFaults s k (.mls id i dk dn) cBadTid) ∧
     ∀ r : BitVec 1024, tid = some r →
      (planeClass (tidFmt r) = none → SeqFaults s k (.mls id i dk dn) cMxFormat) ∧
      ∀ c : BitVec 2, planeClass (tidFmt r) = some c →
        (tidBlock r ≠ 0 → c0 % tidBlock r ≠ 0 → SeqFaults s k (.mls id i dk dn) cMxAlign) ∧
        ((tidBlock r = 0 ∨ c0 % tidBlock r = 0) → tensorInWindow r = false →
          ∀ (t : State) (cols : List (List Nat × List (BitVec 8))),
            loadWeights (.seq k) r c0 c1 (classK c) Config.mxN s = .ok (t, cols) →
            SeqDone s k (.mls id i dk dn) (modSeq (dropAnswers t (.seq k)) k fun x => { x with shadow := planeFrom r c c0 cols }))) ∧
    (rows → ∃ t : State, Ends s (.mzr row count) t ∧ t.mem = s.mem ∧ t.groups = s.groups ∧
      (∀ n : Nat, n ≠ k → ffind t.blocks n = ffind s.blocks n) ∧
      ∃ x : Block, ffind t.blocks k = some x ∧ x.seq.mpc = b.seq.mpc + 8#64 ∧ x.spm = b.spm ∧ x.bars = b.bars ∧ x.tids = b.tids ∧
        x.seq.m = b.seq.m ∧ x.seq.active = b.seq.active ∧ x.seq.shadow = b.seq.shadow ∧
        ∀ y c : Nat, c < 256 →
          accWord x (256 * y + c) = if row.toNat ≤ y ∧ y < row.toNat + count.toNat then 0#32 else accWord b (256 * y + c)) ∧
    (¬ rows → SeqFaults s k (.mzr row count) cMxAcc ∧ SeqFaults s k (.mdr id i row count m ovf clr sh) cMxAcc) ∧
    (b.seq.span ≤ 1 →
      (p.valid = false → SeqFaults s k (.mst id i row count acct) cMxNoplane) ∧
      (p.valid = true → tid = none → SeqFaults s k (.mst id i row count acct) cBadTid) ∧
      ∀ r : BitVec 1024, p.valid = true → tid = some r →
        (passFormat p r acct = false → SeqFaults s k (.mst id i row count acct) cMxFormat) ∧
        (passFormat p r acct = true → originsOk p r (b.seq.lo i) = false → SeqFaults s k (.mst id i row count acct) cMxAlign) ∧
        (passFormat p r acct = true → originsOk p r (b.seq.lo i) = true →
          (¬ rows → SeqFaults s k (.mst id i row count acct) cMxAcc) ∧
          (rows → tensorInWindow r = false →
            let reads := actsFault s (.seq k) r (b.seq.lo i) (b.seq.hi i) (classK p.cls) count.toNat
            (∀ e : TrapInfo, b.seq.rows = 0 → reads = .error (.trap e none) →
              exec (.mst id i row count acct) s = .next (trapped s s e)) ∧
            (∀ p : Park, b.seq.rows = 0 → reads = .error (.park p none) →
              exec (.mst id i row count acct) s = .next (takePark s s.cur p)) ∧
            (∀ t : State, (b.seq.rows = 0 → reads = .ok ()) →
              passRows k r (b.seq.lo i) (b.seq.hi i) row.toNat count.toNat (classK p.cls) acct (count.toNat - b.seq.rows) s = .ok t →
              SeqDone s k (.mst id i row count acct) (dropAnswers t (.seq k))) ∧
            (∀ (t : State) (act : List FV), count = 1#11 → b.seq.rows = 0 → passHeld s k = false → reads = .ok () →
              loadActs s (.seq k) r true (b.seq.lo i) (b.seq.hi i) (classK p.cls) = .ok (t, act) → t.blocks = s.blocks →
              let out := rowLength r (b.seq.lo i) (b.seq.hi i) (classK p.cls) == 0
              ∃ (u : State) (x : Block), Ends s (.mst id i row count acct) u ∧ ffind u.blocks k = some x ∧
                x.seq.mpc = b.seq.mpc + 8#64 ∧ x.spm = b.spm ∧ x.seq.active = p ∧
                ∀ y c : Nat, c < 256 → accWord x (256 * y + c) =
                  if y = row.toNat then (if acct then passInt p act c (accWord b (256 * y + c)) else passFloat p act out c (accWord b (256 * y + c)))
                  else accWord b (256 * y + c))))) ∧
    (1 < b.seq.span →
      let q : SpanReq := { ta := id, mi := i, row := row.toNat, count := count.toNat, acct := acct }
      (if spanRank s k % b.seq.span = b.seq.lead then ∃ r : BitVec 1024, mstCheck b q = .ok r else partnerCheck b q = .ok ()) →
      exec (.mst id i row count acct) s = .next (modSeq s k fun x => { x with spanned := some q })) ∧
    (rows →
      (tid = none → SeqFaults s k (.mdr id i row count m ovf clr sh) cBadTid) ∧
      ∀ r : BitVec 1024, tid = some r →
        let d : Drain := Drain.mk r (b.seq.lo i) (b.seq.hi i) row.toNat (modeOf m 0#64 0#16) ovf clr sh.toInt
        (tidRo r = true → SeqFaults s k (.mdr id i row count m ovf clr sh) cTidReadonly) ∧
        (tidRo r = false → (tidSize r = 8 ∨ (isIntCode (tidFmt r) = true ∧ tidBlk r = 0 ∧ sh ≠ 0#5)) →
          SeqFaults s k (.mdr id i row count m ovf clr sh) cMxFormat) ∧
        (tidRo r = false → tidSize r ≠ 8 → (isIntCode (tidFmt r) = true → tidBlk r = 0 → sh = 0#5) →
          alignedTo (b.seq.lo i) (tidBlock r) = true → tensorInWindow r = false → ∀ t u : State,
          drainCheck s k b d count.toNat = .ok t → drainRows k d count.toNat (count.toNat - b.seq.rows) t = .ok u →
          SeqDone s k (.mdr id i row count m ovf clr sh) u))

/-! ### Events -/

/-- R27, R35, R36, R40, R56, R67, R72, R395, R437, R485, R486: the debugger, fault records that wait, replays, runs, chunks, Winter,
gating and Spring, after which an array reads zero.  Where a debugger receives a value, and how a disposed fault ends its word, are the
model's choices (log 118, 63). -/
def Obligations.FaultRunAndPowerEventsTakeEffect : Prop :=
  ∀ s : State,
    (∀ (g : Nat) (p : Group) (l : BitVec 5) (n : BitVec 8) (v : Word32), ffind s.groups g = some p → p.place.inSlot = true →
      let cold := (ffind s.cores p.core).any fun c => c.winter.contains (wordBankOf p n.toNat)
      let seen : Group := if cold then { p with regStatus := setBit p.regStatus 1 true } else p
      (p.backed n.toNat = false →
        let t := modGroup s g fun p => { p with regStatus := setBit p.regStatus 0 true }
        exec (.debuggerRead g l n) s = .next { t with debugValue := 0#32 } ∧ exec (.debuggerWrite g l n v) s = .next t) ∧
      (p.backed n.toNat = true → ∃ t u : State, exec (.debuggerRead g l n) s = .next t ∧ exec (.debuggerWrite g l n v) s = .next u ∧
        ffind t.groups g = some seen ∧ t.mem = s.mem ∧ t.blocks = s.blocks ∧ t.debugValue = p.vword l.toNat n.toNat ∧
        (∀ c : Core, ffind t.cores p.core = some c → wordBankOf p n.toNat ∉ c.winter) ∧
        ∃ q : Group, ffind u.groups g = some q ∧ q.regStatus = seen.regStatus ∧ q.th.x = p.th.x ∧ q.th.pc = p.th.pc ∧ q.p = p.p ∧
          ∀ k w : Nat, k < 32 → w < 256 → q.vword k w = if k = l.toNat ∧ w = n.toNat then v else p.vword k w)) ∧
    (∀ (n : Nat) (w : WaitRec), ffind s.faultWait n = some w →
      (∀ t : State, areaAppend s w.part w.hdr w.data.toNat = some t →
        exec (.faultRecordRetry n) s = .next { t with faultWait := fdel t.faultWait n }) ∧
      (areaAppend s w.part w.hdr w.data.toNat = none → exec (.faultRecordRetry n) s = .next s)) ∧
    (∀ (a : AgentId) (th : Thread) (p : Park), threadOf s a = some th → th.run = .parked p → p.woken = true → p.state ≠ 3 →
      (∀ r ∈ s.irecs, ∀ q : Park, r.2.run ≠ .parked q) →
      let part := (envOf s a).sp.part
      let back := modThread s a fun x => { x with run := .running }
      let u := match th.replays with
        | some b => unlatch s b
        | none => s
      -- The word issues again, and its end frees the entry (`Ends`), or the fault was disposed of.
      (pftDispose s part (pftSlot s a) = false →
        exec (.pageFaultReplay a) s = .next back ∧ (threadOf back a).map (fun x => (x.run, x.pc, x.x)) = some (.running, th.pc, th.x)) ∧
      (pftDispose s part (pftSlot s a) = true → exec (.pageFaultReplay a) s = .next (takeTrap
        (modThread (freePft u part (pftSlot u a)) a fun x => { x with run := .running, replays := none }) a (disposedTrap p)))) ∧
    (∀ (g k : Nat) (p : Group) (x : Gang), ffind s.groups g = some p → gangOf p k = some x →
      let one (f : Gang → Gang) : State := modGroup s g fun p => p.modGang k f
      (Config.runMax ≤ x.runLen → exec (.runForcedEnd g k) s = .next
        (modCore (one fun y => { y with runLen := 0 }) p.core fun c => { c with runForced := min (c.runForced + 1) (2 ^ 32 - 1) })) ∧
      exec (.runSplit g k) s = .next (one fun y => { y with runLen := 0, promoted := false }) ∧
      (streamRuns s (.gang g k) = true → exec (.runPromotion g k) s = .next (one fun y => { y with promoted := true }))) ∧
    (∀ (b g n : Nat) (x : Block) (p : Group) (rest : List (Nat × Nat)), ffind s.blocks b = some x → x.xq = (g, n) :: rest →
      ffind s.groups g = some p → p.block = b → g ∉ rest.map Prod.fst →
      (freeChunks s b < n → exec (.xacqGrant b) s = .next (modBlock s b fun x => { x with xq := (g, n) :: rest })) ∧
      (n ≤ freeChunks s b → ∃ t : State, exec (.xacqGrant b) s = .next t ∧ t.mem = s.mem ∧
        ∃ q : Group, ffind t.groups g = some q ∧ q.ext = p.ext + n ∧ q.th.pc = p.th.pc + 4#64 ∧ q.th.x = p.th.x ∧
          ∀ l w : Nat, l < 32 → w < 248 → q.vword l w = if 32 + 16 * p.ext ≤ w ∧ w < 32 + 16 * (p.ext + n) then 0#32 else p.vword l w)) ∧
    (∀ (b : Bank) (c : Core), ffind s.cores (bankCore b) = some c → ∃ t : State, exec (.winterEntry b) s = .next t ∧
      t.groups = s.groups ∧ t.blocks = s.blocks ∧ t.mem = s.mem ∧
      ∃ d : Core, ffind t.cores (bankCore b) = some d ∧ ∀ x : Bank, x ∈ d.winter ↔ x = b ∨ x ∈ c.winter) ∧
    (∀ (k : Nat) (c : Core) (p : PowerRegion), ffind s.cores k = some c → p ∈ coreRegions k →
      (p ∉ c.gated → regionFree s c k p = true → ∃ (t : State) (d : Core), exec (.powerGate p) s = .next t ∧
        ffind t.cores k = some d ∧ d.gated = p :: c.gated ∧ t.groups = s.groups ∧ t.blocks = s.blocks ∧ t.mem = s.mem) ∧
      (p ∈ c.gated ∨ regionFree s c k p = false → exec (.powerGate p) s = .next s) ∧
      (p ∈ c.gated → (∀ q ∈ (coreRegions k).takeWhile (· != p), q ∉ c.gated ∨ (p ∈ c.springs ∧ q ∉ c.springs)) →
        (c.stretch = 0 → c.halve = 0 → ∃ (t : State) (d : Core), exec (.spring p) s = .next t ∧ ffind t.cores k = some d ∧
          d.gated = c.gated.filter (· != p) ∧ t.groups = s.groups ∧ t.blocks = s.blocks ∧ t.mem = s.mem ∧
          (∀ (j r x : Nat), p = .accRows k j → r / 64 = j → x < 256 → ffind d.accs (256 * r + x) = none) ∧
          ∀ (j o : Nat), p = .spmUnits k j → o / 65536 = j → ffind d.sram o = none) ∧
        (c.stretch ≠ 0 ∨ c.halve ≠ 0 → exec (.spring p) s = .next (blackBox s c.col 8 (Config.noUnit % 256) c.phys 5#64 0#64)))) ∧
    ∀ (col k : Nat) (c : Column), ffind s.cols col = some c → k < 8 → k ∉ c.gatedWays →
      exec (.powerGate (.sliceWays col k)) s =
        .next { emptyWays s col with cols := fmod (emptyWays s col).cols col fun d => { d with gatedWays := k :: d.gatedWays } } ∧
      exec (.spring (.sliceWays col k)) s = .next { s with cols := fmod s.cols col fun d => { d with gatedWays := d.gatedWays.filter (· != k) } }

/-- R108, R109, R119, R120, R123, R137, R138, R160 to R162, R169, R173, R301, R452, R463, R467, R472 to R474: what leaves a store buffer, what messages do
where they arrive, what caches and homes give up, flits, responses, and the requests of other packages. -/
def Obligations.MemoryEventsTakeEffect : Prop :=
  ∀ s : State,
    (∀ (a : AgentId) (th : Thread) (x : SbEntry) (rest : List SbEntry), threadOf s a = some th → th.sb = x :: rest →
      let e := envOf s a
      let key := lineKey x.asid x.va
      let d : LineData := BitVec.ofNat 1024 (x.data.toNat * 2 ^ (8 * (x.va % 128)))
      let m : BitVec 128 := BitVec.ofNat 128 (x.mask.toNat * 2 ^ (x.va % 128))
      let t := modThread s a fun th => { th with sb := rest }
      (canDrain s e th x = false → exec (.storeDrain a) s = .next s) ∧
      (canDrain s e th x = true → addrKind x.va = .plain → mappedAt s x.asid (lineVa key) = none →
        (x.rel.isSome = true → exec (.storeDrain a) s =
          .next (sendStore (nameHome (addUnack t e.who) { e.sp with tag := x.asid } key) key d m e.cache e.who)) ∧
        (x.rel = none → s.net = [] → (∀ h : HomeLine, ffind s.home key = some h → h.excl = none) →
          ffind s.copies (copyKey key e.cache) = none → ffind s.copies (copyKey key (512 + e.col)) = none →
          homeCol s { e.sp with tag := x.asid } key ≠ e.col →
          ∃ u : State, exec (.storeDrain a) s = .next u ∧ u.mem = s.mem ∧ u.net = [] ∧
            (∀ k : Nat, k ≠ key ∨ (ffind s.home key).isSome = true → ffind u.home k = ffind s.home k) ∧
            (threadOf u a).map (fun th => (th.sb, th.unack, th.x)) = some (rest, th.unack, th.x) ∧
            privAt u key e.col = some (match privAt s key e.col with
              | some p => { data := mergeLine p.data d m, mask := p.mask ||| m, by_ := if p.by_ = e.who then e.who else .nobody }
              | none => { data := d, mask := m, by_ := e.who })))) ∧
    (∀ (n line from_ : Nat) (o : Msg) (d : LineData) (m : BitVec 128) (y w : Who), s.net.find? (·.id == n) = some o →
      o.kind = .write line d m from_ y w →
      (inOrder s o = false ∨ waitsAtHome s o.kind = true → exec (.writeAtHome n) s = .next s) ∧
      (inOrder s o = true → mappedAt s (lineTag line) (lineVa line) = none → rangeAt s (lineTag line) (lineVa line) = none →
        (∀ j : Nat, w ≠ .join j) → (∀ x ∈ s.net, x.kind.dest = none) → ∀ h : HomeLine, ffind s.home line = some h → h.away = false →
        h.excl = none → h.coarse = false → h.ents = [] →
        ∃ (t : State) (g : HomeLine), exec (.writeAtHome n) s = .next t ∧ ffind t.home line = some g ∧
          g.data = mergeLine h.data d m ∧ g.dirty = h.dirty ||| m ∧ t.mem = s.mem ∧
          t.net.map (·.kind) = ((s.net.filter (·.id != n)).map (·.kind)) ++ (if w = .nobody then [] else [.ack w]))) ∧
    (∀ (n g : Nat) (p : Group), msgOf s n = some (.ack (.grp g)) → ffind s.groups g = some p →
      exec (.writeAck n) s = .next (modGroup (takeMsg s n) g fun p => { p with th := { p.th with unack := p.th.unack - 1 } })) ∧
    (∀ (n : Nat) (x : Msg), s.net.find? (·.id == n) = some x → isFirst s x = true → inOrder s x = true → ∀ (c line k : Nat) (cp : Copy) (d : LineData) (w : Who),
      (x.kind = .fill c line cp w → (isSlice c = true ∨ privAt s line (sharerCol s c) = none) → ∃ t : State, exec (.fillReceive n) s = .next t ∧ ffind t.copies (copyKey line c) = some cp ∧
        t.net = s.net.filter (·.id != n) ∧ t.home = s.home ∧ t.mem = s.mem) ∧
      ((c < 512 ∨ 768 ≤ c) → x.kind = .inval c line k → ∃ t : State, exec (.invalidationReceive n) s = .next t ∧
        ffind t.copies (copyKey line c) = none ∧ t.mem = s.mem ∧
        ∀ z : Nat, z ≠ copyKey line c → ffind t.copies z = ffind s.copies z) ∧
      ((c < 512 ∨ 768 ≤ c) → x.kind = .update c line d k → ffind s.copies (copyKey line c) = some cp →
        ∃ t : State, exec (.updateReceive n) s = .next t ∧ ffind t.copies (copyKey line c) = some { cp with data := d } ∧ t.mem = s.mem)) ∧
    (∀ (c line : Nat) (cp : Copy), ffind s.copies (copyKey line c) = some cp → cp.excl = false → readsPrivate s c line = false →
      ∃ t : State, exec (.cacheEviction c line) s = .next t ∧ ffind t.copies (copyKey line c) = none ∧
        t.net.map (·.kind) = s.net.map (·.kind) ++ [.notice c line] ∧ t.home = s.home ∧ t.mem = s.mem) ∧
    (∀ (n c line : Nat) (h : HomeLine), msgOf s n = some (.notice c line) → ffind s.copies (copyKey line c) = none →
      (∀ m ∈ s.net, ∀ (cp : Copy) (w : Who), m.kind ≠ .fill c line cp w) → ffind s.home line = some h → h.coarse = false →
      ∃ (t : State) (g : HomeLine), exec (.evictionNotice n) s = .next t ∧ t.net = s.net.filter (·.id != n) ∧ ffind t.home line = some g ∧
        g.data = h.data ∧ g.ents = h.ents.filter (·.sharer != c) ∧ t.mem = s.mem) ∧
    (∀ (col line : Nat) (p : Priv), privAt s line col = some p → ∃ t : State, exec (.sliceEvictionPush col line) s = .next t ∧
      privAt t line col = none ∧ t.mem = s.mem ∧
      t.net = s.net ++ [{ id := s.nextId + 1, kind := .write line p.data p.mask (512 + col) p.by_ (.push s.nextId) }] ∧
      ffind t.pushes s.nextId = some { col := col, home := homeCol s (spaceOfLine s line) line, who := .nobody, acked := false }) ∧
    (∀ line : Nat, ∃ t : State, exec (.directoryEviction line) s = .next t ∧
      (∀ h : HomeLine, ffind t.home line = some h → h = .empty h.col h.cxl) ∧
      ∀ c : Nat, c < 1024 → ffind t.copies (copyKey line c) = none) ∧
    (∀ (core line : Nat) (r : CRange) (t : State) (h : HomeLine),
      let va := lineVa line
      let ps := (linePartials r va).filter fun p => p.1 / 2 ^ 57 == core
      rangeAt s (lineTag line) va = some r → ps ≠ [] → installHome s (spaceOfLine s line) line = .ok (t, h) → h.excl = none →
      ∃ (u : State) (g : HomeLine), exec (.partialEviction core line) s = .next u ∧ ffind u.home line = some g ∧
        g.data = mergeLine h.data (foldPartials r.fmt r.op h.data ps).1 (foldPartials r.fmt r.op h.data ps).2) ∧
    (∀ (n line c k : Nat) (d : LineData) (m : BitVec 128) (w : Who) (mp : MapEnt), msgOf s n = some (.spmWrite line d m w) →
      firstForward s n line = true → mappedAt s (lineTag line) (lineVa line) = some (c, k, mp) →
      exec (.spmForward n) s = .next (if mapStopped s mp then s
        else sendAck (mappedWrite (takeMsg s n) mp (lineVa line) d m w) w false)) ∧
    (∀ (n f r b g k : Nat) (fl : Flit) (q p : Group), firstFlit s n f r b g = true → ffind s.groups f = some q → k ≠ f →
      flitTarget s r b g = some (k, p) → ffind s.groups k = some p →
      let credit (drop : Bool) : Group := { q with credits := min (q.credits + 1) Config.creditsMax, drop := q.drop || drop }
      (msgOf s n = some (.flit f r b g fl true) → exec (.flitResend n) s = .next (markFlit s n false)) ∧
      (msgOf s n = some (.flit f r b g fl false) →
        (p.th.run = .done → ∃ t : State, exec (.flitDelivery n) s = .next t ∧ ffind t.groups f = some (credit true) ∧
          ffind t.groups k = some p ∧ t.net = s.net.filter (·.id != n)) ∧
        (p.th.run ≠ .done → flitRoom s p = true → ∃ t : State, exec (.flitDelivery n) s = .next t ∧
          ffind t.groups f = some (credit false) ∧ ffind t.groups k = some { p with rx := p.rx ++ [fl] } ∧
          t.net = s.net.filter (·.id != n)) ∧
        (p.th.run ≠ .done → flitRoom s p = false → exec (.flitDelivery n) s = .next (markFlit s n true)))) ∧
    (∀ (g : Nat) (p : Group) (m : Msg), ffind s.groups g = some p → s.net.find? (isResponse s (.grp g)) = some m → m.kind = .resp (.grp g) →
      exec (.homeResponse (.group g)) s =
        .next (modGroup (takeMsg s m.id) g fun p => { p with th := { p.th with atomics := p.th.atomics - 1 } })) ∧
    (∀ (n : Nat) (r : RemoteReq), ffind s.remote n = some r → r.answer = none → r.attempts < 4 →
      let again : RemoteReq := { r with attempts := r.attempts + 1, port := remotePort s (r.va / 2 ^ 46 % 2 ^ 10) r.attempts }
      exec (.remoteRetry n) s = .next { s with remote := fset s.remote n again }) ∧
    (∀ (n g : Nat) (r : RemoteReq), ffind s.remote n = some r → r.answer = none → 4 ≤ r.attempts → r.write = false → r.atomic = false →
      r.who = .grp g → ∃ t : State, exec (.remoteRetry n) s = .next t ∧ ffind t.remote n = some { r with answer := some .refused }) ∧
    (∀ line : Nat, (sharedLine s line = false → exec (.backInvalidate line) s = .next s) ∧
      (sharedLine s line = true → ∃ t : State, exec (.backInvalidate line) s = .next t ∧
        ∀ h : HomeLine, ffind t.home line = some h → h = .empty h.col h.cxl)) ∧
    ∀ (r : DomainReq) (k off : Nat), addrKind r.va.toNat = .domain s.pkg.domain k off → actOk off r.act = true →
      let answers (t : State) (a : RemoteAnswer) : Prop := exec (.domainRequest r) s =
        .next { t with reply := some { source := requestSource r, seq := r.tag.toNat % 2 ^ 16, answer := a } }
      (domainAt s k off (actSize r.act) = none → answers s .refused) ∧
      ∀ sp : Space, domainAt s k off (actSize r.act) = some sp →
        let src := requestSource r
        let q := r.tag.toNat % 2 ^ 16
        let home := homeCol s sp (sp.key off)
        let held := (mappedAt s sp.tag off).any fun x => mapStopped s x.2.2
        (held = true → exec (.domainRequest r) s = .next s) ∧
        (held = false → ∀ n : Nat, r.act = .read n →
          (actAtHome s sp off r.act = none → answers s .refused) ∧
          ∀ (t : State) (x : Nat), actAtHome s sp off r.act = some (t, x) → answers t (.value x)) ∧
        (held = false → (∀ n : Nat, r.act ≠ .read n) →
          (tagState s home src q (2 ^ 16) = .fresh →
            (actAtHome s sp off r.act = none → answers s .refused) ∧
            ∀ (t : State) (x : Nat), actAtHome s sp off r.act = some (t, x) → answers (keepFresh t home src q (2 ^ 16) (wordOf x)) (.value x)) ∧
          (∀ v : Word, tagState s home src q (2 ^ 16) = .duplicate v → answers s (.value v.toNat)) ∧
          (tagState s home src q (2 ^ 16) = .stale → answers (staleCheck s k home (sp.tag % 2 ^ 16) off) .stale))

/-- R48, R112, R115, R318 to R321, R324: payload lines, completion and faults of engine operations, the spanned steps of the
matrix engines, and the window of their issue budget.  That a spanned step takes its lead from the first partner's LEAD (R319 does not say
whose), and the causes that the environment may give an operation, are the model's choices (log 47, 50). -/
def Obligations.EngineAndSpanEventsMoveTheirOperation : Prop :=
  ∀ s : State,
    (∀ (key : Nat) (r : IRec), ffind s.irecs key = some r → r.run = .running →
      (∀ t : State, landLine s key r = .moved t ∨ landLine s key r = .waits t → exec (.enginePayloadLand key) s = .next t) ∧
      (∀ t : State, landLine s key r = .whole t → exec (.enginePayloadLand key) s = .next (finishOperation t key r false)) ∧
      (∀ (t : State) (p : Park), landLine s key r = .parks t p → exec (.enginePayloadLand key) s = .next (parkOperation t key r p)) ∧
      (∀ (t : State) (c : BitVec 8) (el : Word32) (va : Nat), landLine s key r = .fails t c el va →
        exec (.enginePayloadLand key) s = .next (failOperation t key r c el va)) ∧
      (∀ t : State, landLine s key r = .waits t → exec (.engineCompletion key) s = .next t) ∧
      -- The payload is visible: the arrival, then the stamp, after which the record is free (R324, R363).
      (∀ t u w : State, landLine s key r = .whole t → ffind t.irecs key = some r → r.op ≠ .cpColl → r.op ≠ .mcast → r.begun = true →
        r.arrived = false → r.stamped = false → edArr r.desc = false → r.scope ≠ .sys → elsewhere t (edStamp r.desc) = false →
        (wideScope r.scope = true → r.marker = true) → r.unack = exempt t (engEnv t key r) r.scope → (∀ id ∈ r.await, pushDone t id = true) →
        let arrived : State := modRec t key fun r => { r with arrived := true }
        let stamp (t : State) : Except Miss State :=
          engPut t { engEnv t key r with who := .nobody } (edStamp r.desc) (wideScope r.scope) false
            (fun old => (setBits old (8 * (edStamp r.desc % 128)) 64 r.stamp.toNat, maskRange 128 (edStamp r.desc % 128) 8))
        engEnv arrived key r = engEnv t key r → stamp t = .ok u → stamp arrived = .ok w →
        finishOperation t key r false = arrived ∧
        exec (.engineCompletion key) s = .next (releaseRecord w key) ∧ ffind (releaseRecord w key).irecs key = none) ∧
      (∀ (c : BitVec 8) (el : Word32) (g : Nat) (p : Group), c ∈ engineCauses → r.who = .grp g → ffind s.groups g = some p → p.th.run ≠ .done →
        exec (.engineFault key c el) s =
          .next (modRec s key fun x => { x with run := .held c el (if c = cPageFault then faultVa r el else 0) }))) ∧
    (∀ b : Nat,
      let parts := spanPartners s b
      let ready : Prop := ∀ k ∈ parts, ∃ x : Block, ffind s.blocks k = some x ∧ (x.run = .running ∨ x.run = .stopping) ∧
        x.seq.run = .running ∧ x.seq.spanned.isSome = true ∧ spanPartners s k = parts
      (¬ ready → exec (.spannedStep b) s = .next s) ∧
      ∀ (first lead : Nat) (rest : List Nat) (x : Block) (y : Block) (q : SpanReq), ready → parts = first :: rest →
        ffind s.blocks first = some x → lead = parts.getD x.seq.lead b → lead ∈ parts → parts.Nodup → ffind s.blocks lead = some y →
        y.seq.spanned = some q →
        let l := parts.filterMap fun k => ((ffind s.blocks k).bind (·.seq.spanned)).map fun q => (k, q)
        ((∃ p ∈ l, p.2.count ≠ q.count ∨ p.2.acct ≠ q.acct) → exec (.spannedStep b) s = .next (faultAll s cMxSpan parts)) ∧
        ((∀ p ∈ l, p.2.count = q.count ∧ p.2.acct = q.acct) → ∀ (r : BitVec 1024) (t : State),
          validTid y.seq.tids y.tidCount q.ta.toNat = some r →
          (∀ p ∈ l, ∀ z : Block, ffind s.blocks p.1 = some z →
            passFormat z.seq.active r q.acct = true ∧ originsOk z.seq.active r (y.seq.lo q.mi) = true) →
          (y.seq.rows = 0 →
            actsFault { s with cur := .seq lead } (.seq lead) r (y.seq.lo q.mi) (y.seq.hi q.mi) (classK y.seq.active.cls) q.count = .ok ()) →
          spanRows lead r (y.seq.lo q.mi) (y.seq.hi q.mi) (classK y.seq.active.cls) l q.count (q.count - y.seq.rows) { s with cur := .seq lead }
            = .ok t →
          exec (.spannedStep b) s =
            .next { (endReplay { s with cur := .seq lead } (l.foldl (fun s p => seqNext s p.1) (dropAnswers t (.seq lead))) (.seq lead)) with
              cur := s.cur })) ∧
    ∀ (k : Nat) (c : Core), ffind s.cores k = some c →
      ∃ t : State, exec (.mxBudgetWindow k) s = .next t ∧ ffind t.cores k = some { c with passes := 0 } ∧ t.blocks = s.blocks ∧ t.mem = s.mem

/-- R25, R27, R49, R50, R332 to R334, R406 to R421: posts and packets, the acceptance, refusal and promotion of launches, the
placement and the start of blocks, the birth of travellers, and the retirement of blocks and regions. -/
def Obligations.LaunchesArePostedPlacedAndRetired : Prop :=
  ∀ s : State,
    (∀ (k q : Nat) (c : Column) (v : Word), ffind s.cols k = some c →
      let l := queueAt s k q
      let p : Post :=
        { post := v, packet := none, barrier := v.getLsbD 0, badPacket := false, rel := none, fences := [], launcher := k, headAt := 0
          cfg := none }
      let now : Post := { p with headAt := s.ns, cfg := if l.fifo = [] then some l.cfg else none }
      exec (.launchPost k q 0#64) s = .next s ∧
      (v ≠ 0#64 → ∃ t : State, exec (.launchPost k q v) s = .next t ∧ t.mem = s.mem ∧
        (l.fifo.length < 16 → l.heldPosts = [] → queueAt t k q = { l with fifo := l.fifo ++ [now], post := v }) ∧
        (¬ (l.fifo.length < 16 ∧ l.heldPosts = []) → queueAt t k q = { l with heldPosts := l.heldPosts ++ [(p, .nobody)] }))) ∧
    (∀ p : LaunchPacket,
      let k := p.column.toNat
      let q := p.queue.toNat
      let answered (t : State) (a : RemoteAnswer) : State :=
        { t with reply := some { source := packetSource p.src.toNat, seq := p.seq.toNat, answer := a } }
      (packetAllowed s p = false → exec (.peerLaunchPacket p) s = .next (answered s .refused)) ∧
      (∀ v : Word, packetAllowed s p = true → tagState s k (packetSource p.src.toNat) p.seq.toNat (2 ^ 64) = .duplicate v →
        exec (.peerLaunchPacket p) s = .next (answered s (.value 0))) ∧
      (∀ c : Column, packetAllowed s p = true → ffind s.cols k = some c →
        tagState s k (packetSource p.src.toNat) p.seq.toNat (2 ^ 64) = .stale →
        exec (.peerLaunchPacket p) s = .next (answered (staleCheck s c.part k 0xFFFF 0) .stale)) ∧
      (packetAllowed s p = true → tagState s k (packetSource p.src.toNat) p.seq.toNat (2 ^ 64) = .fresh →
        (queueAt s k q).fifo.length < 16 → (queueAt s k q).heldPosts = [] →
        ∃ (t : State) (x : Post), exec (.peerLaunchPacket p) s = .next (answered t (.value 0)) ∧ (queueAt t k q).fifo = (queueAt s k q).fifo ++ [x] ∧
          x.packet = some (recordOf p.record) ∧ x.barrier = p.flags.getLsbD 0 ∧ (queueAt t k q).post = (queueAt s k q).post)) ∧
    (∀ (k q : Nat) (c : Column) (p : Post) (rest : List Post) (t : State) (r : BitVec 2048), ffind s.cols k = some c → c.launchPark = none →
      let l := queueAt s k q
      let cfg := p.cfg.getD l.cfg
      l.fifo = p :: rest → headRecord s c.part (bitsOf cfg 56 8 * 256) p = .ok (t, some r) →
      (launchHeld t k l p r = true → exec (.launchAccept k q) s = .next (keepRecord t k q r)) ∧
      (launchHeld t k l p r = false → ∀ (n slot : Nat) (m : Option March), launchReason t c.part k cfg p (some r) = (n, m, slot) →
        (n ≠ 0 → exec (.launchAccept k q) s = .next (refuseLaunch t c.part k q n (some r)) ∧
          ((ffind t.cols k).isSome = true →
            (queueAt (refuseLaunch t c.part k q n (some r)) k q).refused = satCount (queueAt t k q).refused ∧
            (queueAt (refuseLaunch t c.part k q n (some r)) k q).lastReason = n)) ∧
        (n = 0 → exec (.launchAccept k q) s = .next (acceptLaunch t c.part k q cfg p r m slot) ∧
          ∃ (id : Nat) (g : Region), ffind (acceptLaunch t c.part k q cfg p r m slot).regions id = some g ∧ g.record = r ∧
            g.rcb = BitVec.ofNat 64 slot ∧ g.col = k ∧ g.queue = q ∧ g.prio = recPrio r ∧ g.placed = 0 ∧ g.finished = false ∧ g.march = m))) ∧
    (∀ (k q id : Nat) (r : Region), headRegion s (queueAt s k q) = some (id, r) →
      (r.headAt + 1000000 ≤ s.ns → exec (.launchAgePromotion k q) s = .next { s with regions := fset s.regions id { r with qprio := 15 } }) ∧
      (s.ns < r.headAt + 1000000 → exec (.launchAgePromotion k q) s = .next s)) ∧
    (∀ (k : Nat) (c : Column), ffind s.cols k = some c →
      let l := headOrder s c
      let u := markWaiting s l
      let found := l.findSome? fun (q, id, _) => ((ffind u.regions id).bind fun r => tryPlace u id r).map fun t => (q, t)
      (found = none → exec (.blockPlace k) s = .next u) ∧
      ∀ (q : Nat) (t : State), found = some (q, t) → exec (.blockPlace k) s = .next { t with cols := fmod t.cols k fun c => { c with served := q } }) ∧
    (∀ (id : Nat) (r : Region) (c : Nat), ffind s.regions id = some r → r.march = none → recCores r.record = false → roomFor s r (spanWidth r) = true →
      pickSet s (r.ask s id) (spare s id r) [] = some [c] →
      ∃ (t : State) (b : Nat) (x : Block), tryPlace s id r = some t ∧ ffind t.blocks b = some x ∧ x.region = id ∧ x.blockId = r.placed ∧
        x.core = c ∧ x.run = .placed ∧ x.groups.length = recGroups r.record ∧ x.spmBytes = recNat r.record 0x30 4 ∧
        (ffind t.regions id).map (·.placed) = some (r.placed + 1)) ∧
    (∀ (b : Nat) (x : Block), ffind s.blocks b = some x → x.run = .placed →
      let home := ((ffind s.regions x.region).map (·.col)).getD 0
      let t := if coreCol s x.core = home ∨ x.moves ≠ [] then s else moveBlock s home b []
      (blockArrived t b = false ∨ startBlock t b = none → exec (.blockStart b) s = .next t) ∧
      ∀ u : State, blockArrived t b = true → startBlock t b = some u →
        exec (.blockStart b) s = .next u ∧ (ffind u.blocks b).map (·.run) = some .running) ∧
    (∀ (k : Nat) (r : Region) (m : March) (seg dest : Nat) (views : SMap 64), ffind s.regions k = some r → r.march = some m →
      r.finished = false → r.whole = true → m.born < travellerCount r → segmentAt m (recEntry r.record) = some seg →
      birthViews s k r = some views → chooseHolder s k seg m none = some dest →
      ∃ (t : State) (id : Nat) (g : Group), exec (.travellerBirth k) s = .next t ∧ ffind t.groups id = some g ∧
        g.place = .travelling dest seg ∧ g.region = k ∧ g.th.pc = BitVec.ofNat 64 (recEntry r.record) ∧ g.views = views ∧ g.th.x = [] ∧
        g.blockId = m.born / recGroups r.record ∧ g.groupId = m.born % recGroups r.record ∧
        ((ffind t.regions k).bind (·.march)).map (·.born) = some (m.born + 1)) ∧
    (∀ (b : Nat) (x : Block) (r : Region), ffind s.blocks b = some x → ffind s.regions x.region = some r →
      (canRetire s b x = false → exec (.blockRetire b) s = .next s) ∧
      (canRetire s b x = true → ∃ t : State, exec (.blockRetire b) s = .next t ∧ (ffind t.blocks b).map (·.run) = some .retired ∧
        (ffind t.regions x.region).map (·.retired) = some (r.retired + 1))) ∧
    ∀ (k : Nat) (r : Region), ffind s.regions k = some r →
      (regionOver s k r = false → exec (.regionRetire k) s = .next s) ∧
      (regionOver s k r = true → ∀ t : State, drainGroups s (regionGroups s k) = some t →
        let v := if r.marker then t else markRegion t k
        let acked := (ffind v.regions k).any fun g => g.await.all (pushDone v)
        (regionQuiet t k = false → exec (.regionRetire k) s = .next t) ∧
        (regionQuiet t k = true → acked = false → exec (.regionRetire k) s = .next v) ∧
        (regionQuiet t k = true → acked = true →
          ∃ u : State, exec (.regionRetire k) s = .next u ∧ (ffind u.regions k).map (·.finished) = some true ∧
            (∀ p ∈ u.blocks, p.2.region ≠ k) ∧ ∀ p ∈ u.groups, p.2.region ≠ k))

/-- R43, R44, R170, R336, R345 to R350, R354, R402, R424, R425: requests to stop, images at their arrival ports and in parking
records, stubs, and the counts of free slots. -/
def Obligations.PreemptionAndMarchEventsMoveImages : Prop :=
  ∀ s : State,
    (∀ (b : Nat) (x : Block) (q : StopReq), ffind s.blocks b = some x → x.stop = some q →
      (q.late s.ns = true →
        exec (.preemptStop b) s = .next s ∧
        exec (.preemptDeadlineMiss b) s = .next (tellSave (withdrawStop s (spanSet s b)) q.who 8)) ∧
      (q.late s.ns = false → exec (.preemptDeadlineMiss b) s = .next s ∧
        (setStoppable s (spanSet s b) = false → exec (.preemptStop b) s = .next s) ∧
        (setStoppable s (spanSet s b) = true → ∀ (a : AgentId) (t : State), agentOf q.who = some a →
          saveSet s a q.area.toNat q.bytes.toNat (spanSet s b) = .ok t →
          exec (.preemptStop b) s = .next (tellSave t q.who 0) ∧
          (ffind (tellSave t q.who 0).blocks b).map (·.run) = some .stopped))) ∧
    (∀ (n k g : Nat) (m : Msg) (p : Group), s.net.find? (·.id == n) = some m → m.kind = .ack (.stub k g) → ffind s.groups g = some p →
      (stubOpen s g = false → exec (.stubForward n) s = .next s) ∧
      (stubOpen s g = true → ∃ t : State, exec (.stubForward n) s = .next t ∧ t.net = s.net.filter (·.id != n) ∧
        (ffind t.groups g).map (·.th.unack) = some (p.th.unack - 1) ∧ t.mem = s.mem)) ∧
    (∀ (n id k g : Nat) (m : Msg) (p : Group) (x : PushRec), s.net.find? (·.id == n) = some m → m.kind = .ack (.push id) →
      ffind s.pushes id = some x → x.who = .stub k g → x.acked = true → ffind s.groups g = some p →
      (stubOpen s g = false → exec (.stubForward n) s = .next s) ∧
      (stubOpen s g = true → ∃ t : State, exec (.stubForward n) s = .next t ∧ t.net = s.net.filter (·.id != n) ∧ ffind t.pushes id = none ∧
        (ffind t.groups g).map (·.th.unack) = some (p.th.unack - 1) ∧ t.mem = s.mem)) ∧
    (∀ (g core seg : Nat) (p : Group) (r : Region) (m : March), ffind s.groups g = some p → p.place = .travelling core seg →
      ffind s.regions p.region = some r → r.march = some m →
      (movesDone s g = false → exec (.marchArrival g) s = .next s) ∧
      (movesDone s g = true →
        (∀ (b : Nat) (x : Block), holderBlock s p.region seg core = some (b, x) → segHeld m seg = false → x.run ≠ .stopped →
          slotsUsed s p.region core g < Config.arrivalSlots →
          ∃ (t : State) (q : Group), exec (.marchArrival g) s = .next t ∧ ffind t.groups g = some q ∧ q.place = .resident ∧ q.core = core ∧
            q.seg = some seg ∧ q.block = b ∧ q.th.pc = p.th.pc ∧ q.th.x = p.th.x ∧ q.v = p.v ∧ q.p = p.p ∧ q.views = p.views ∧ q.owe = 0#64) ∧
        ((holderBlock s p.region seg core = none ∨ segHeld m seg = true ∨ Config.arrivalSlots ≤ slotsUsed s p.region core g) →
          ∀ n : Nat, hwNat s (regionSpace s p.region) (m.map + 0x18) 8 = some n →
          ∃ (t : State) (q : Group), exec (.marchArrival g) s = .next t ∧ ffind t.groups g = some q ∧ q.th.pc = p.th.pc ∧ q.th.x = p.th.x ∧
            q.place = if m.parkCount = 0 ∨ (ffind m.held (n % max m.parkCount 1)).isSome = true then .stuck seg
              else .parkedRecord (n % m.parkCount) n))) ∧
    (∀ core : Nat,
      (nextAdmission s core = none → exec (.marchAdmit core) s = .next s) ∧
      ∀ (a : Admission) (g : Nat) (p : Group) (r : Region) (m : March) (x : Nat), nextAdmission s core = some a →
        (s.groups.find? fun y => y.2.region == a.region && y.2.place == .parkedRecord a.record a.seqNo) = some (g, p) →
        ffind s.groups g = some p → ffind s.regions a.region = some r → r.march = some m →
        hwNat s (regionSpace s a.region) (m.parkBase + 8192 * a.record) 8192 = some x →
        (p.moves ≠ [] → movesDone s g = false → exec (.marchAdmit core) s = .next s) ∧
        (movesDone s g = true → p.moves ≠ [] ∨ (p.loadImage x).pushed = true ∨ (p.loadImage x).depCol = coreCol s core →
        ∃ (t : State) (q : Group), exec (.marchAdmit core) s = .next t ∧ ffind t.groups g = some q ∧ q.place = .resident ∧ q.core = core ∧
          q.block = a.block ∧ q.seg = some a.seg ∧ q.th.pc = BitVec.ofNat 64 (fieldAt x 0 8) ∧
          (∀ k : Nat, 1 ≤ k → k ≤ 31 → sget q.th.x k = BitVec.ofNat 64 (fieldAt x (0x40 + 8 * (k - 1)) 8)) ∧
          ((ffind t.regions a.region).bind (·.march)).bind (fun m => ffind m.held a.record) = none)) ∧
    ∀ (core k : Nat) (r : Region) (m : March), ffind s.regions k = some r → r.march = some m →
      ∃ t : State, exec (.freeCountBroadcast core) s = .next t ∧ t.groups = s.groups ∧ t.blocks = s.blocks ∧ t.mem = s.mem ∧
        ((∃ b ∈ s.blocks, b.2.region = k ∧ b.2.seg.isSome = true ∧ b.2.core = core ∧ b.2.run ≠ .retired) →
          ((ffind t.regions k).bind (·.march)).bind (fun m => ffind m.known core) =
            some (Config.arrivalSlots - slotsUsed s k core (2 ^ 64)))

/-- R445, R448 to R457, R469: requests at the controllers of the stacks, their responses, refresh and patrol reads, hardware errors,
and an error of a die link. -/
def Obligations.ChannelsPerformAndErrorsAreReported : Prop :=
  ∀ s : State,
    (∀ (g pc tag : Nat) (r : ChanReq) (flaw : EccFlaw),
      let k := 32 * g + pc
      let c := chanAt s k
      let cell := hbmCell g r.addr
      ffind c.tags tag = some r →
      let done (t : State) (x : Nat × LineData) : State :=
        { t with chans := fset s.chans k { c with tags := fset c.tags tag { r with performed := some x } } }
      (r.performed = none → heldBack c r = true → exec (.hbmRd g pc tag flaw) s = .next s ∧ exec (.hbmWr g pc tag flaw) s = .next s ∧
        exec (.hbmWrm g pc tag flaw) s = .next s) ∧
      (r.performed = none → heldBack c r = false →
        (r.op = 1 →
          exec (.hbmRd g pc tag .none) s =
            .next (done s (if (ffind s.memPoison cell).isSome then 2 else 0, Memory.readLine s.mem cell)) ∧
          exec (.hbmRd g pc tag .corrected) s =
            .next (flawFound (done s (if (ffind s.memPoison cell).isSome then 2 else 1, Memory.readLine s.mem cell)) cell (some r.line) .corrected) ∧
          exec (.hbmRd g pc tag .uncorrectable) s =
            .next (flawFound (done { s with memPoison := fset s.memPoison cell 0#128 } (2, Memory.readLine s.mem cell)) cell (some r.line)
              .uncorrectable)) ∧
        (r.op = 2 → flaw ≠ .malformed → ∃ t : State, exec (.hbmWr g pc tag flaw) s = .next (done t (0, 0#1024)) ∧
          t = { s with mem := Memory.writeLine s.mem cell r.data (BitVec.allOnes 128), memPoison := t.memPoison } ∧
          (ffind s.memPoison cell = none → t.memPoison = s.memPoison) ∧
          (∀ w : BitVec 128, ffind s.memPoison cell = some w → t.memPoison = fdel s.memPoison cell)) ∧
        (r.op = 3 → r.mask ≠ BitVec.allOnes 128 → ∃ t : State, exec (.hbmWrm g pc tag .none) s = .next (done t (0, 0#1024)) ∧
          t = { s with mem := Memory.writeLine s.mem cell r.data r.mask, memPoison := t.memPoison } ∧
          (ffind s.memPoison cell = none → t.memPoison = s.memPoison) ∧
          (∀ w : BitVec 128, ffind s.memPoison cell = some w → t.memPoison =
            if w ||| r.mask = BitVec.allOnes 128 then fdel s.memPoison cell else fset s.memPoison cell (w ||| r.mask))) ∧
        -- A malformed request has no effect, and its port treats the line as poisoned (R449).
        (r.op = 1 → exec (.hbmRd g pc tag .malformed) s = .next (done s (3, 0#1024)))) ∧
      (r.performed.isSome = true → r.performed.map Prod.fst ≠ some 3 → answerHeld c r = false → r.fillFor = none →
        (r.op = 1 → exec (.hbmRdata g pc tag) s = .next (releaseTag s k tag)) ∧
        (r.op ≠ 1 → exec (.hbmWack g pc tag) s = .next (releaseTag s k tag)) ∧
        (c.waiting = [] → ffind (chanAt (releaseTag s k tag) k).tags tag = none)) ∧
      (r.performed.map Prod.fst = some 3 → answerHeld c r = false →
        let bad := malformedReply (releaseTag s k tag) cell r.line
        (r.op ≠ 1 → r.fillFor = none → exec (.hbmWack g pc tag) s = .next bad) ∧
        (r.op = 1 → ∀ (sharer : Nat) (w : Who), r.fillFor = some (sharer, w) →
          exec (.hbmRdata g pc tag) s = .next (servePrefetch bad r.line sharer w))) ∧
      (r.performed.isSome = true → r.performed.map Prod.fst ≠ some 3 → answerHeld c r = false → r.op = 1 → ∀ (sharer : Nat) (w : Who), r.fillFor = some (sharer, w) →
        exec (.hbmRdata g pc tag) s = .next (servePrefetch (releaseTag s k tag) r.line sharer w))) ∧
    (∀ (m : List Host.Cell) (a b : Nat) (d : LineData) (k : BitVec 128),
      Memory.read (Memory.writeLine m a d k) b =
        if a ≤ b ∧ b < a + 128 ∧ k.getLsbD (b - a) = true then byteAt d (b - a) else Memory.read m b) ∧
    (∀ (g pc row a : Nat) (flaw : EccFlaw), exec (.refresh g pc row) s = .next s ∧ exec (.patrolRead g a .none) s = .next s ∧
      exec (.patrolRead g a flaw) s = .next (flawFound s (hbmCell g (a / 128 * 128)) none flaw)) ∧
    (∀ (line : Nat) (h : HomeLine), ffind s.home line = some h → h.away = false → h.dirty ≠ 0#128 →
      exec (.softError (.dirtyHome line)) s = .next (arrayCheck (poisonHome s line) 3 2 h.col none line (some line)) ∧
      ffind (poisonHome s line).home line = some { h with poison := some 0#128 }) ∧
    (∀ (c line : Nat) (cp : Copy), ffind s.copies (copyKey line c) = some cp →
      (heldDirty s c line = false → ∃ t : State, exec (.softError (.cleanCopy c line)) s = .next t ∧ ffind t.copies (copyKey line c) = none) ∧
      (heldDirty s c line = true → exec (.softError (.dirtyCopy c line)) s =
        .next (arrayCheck (loseDirty s c line) 3 (cacheUnit c) (sharerCol s c) (cacheCore c) line (some line)))) ∧
    (∀ (g unit : Nat) (p : Group) (lanes : LaneMask), ffind s.groups g = some p →
      let at_ := coreCol s p.core
      exec (.softError (.parityPassed g)) s = .next (arrayCheck s 4 6 at_ (some p.core) g none) ∧
      (unit = 6 ∨ unit = 7 ∨ unit = 8 → p.th.run = .running → p.place = .resident →
        exec (.softError (.parityFailed g unit lanes)) s =
          .next (raiseTrap (arrayCheck s 5 unit at_ (some p.core) g none) (.group g) (.of cRegParity lanes)))) ∧
    (∀ (b off : Nat) (x : Block), ffind s.blocks b = some x → off < x.spmBytes →
      exec (.softError (.scratch b off)) s =
        .next (arrayCheck (loseScratch s b off) 3 4 (coreCol s x.core) (some x.core) off (mappedNames s b (off / 128 * 128)).head?)) ∧
    ∀ m : BitVec 2, ∃ t : State, exec (.dieLinkError m) s = .next t ∧ t.pkg.halted = true ∧
      ∀ (k : Nat) (c : Column), ffind t.cols k = some c → c.frozen = true

/-- R455, R460 to R462, R478, R484, R487 to R493, R496, R499: throttle levels, the droop detector, ageing and its plans, the loss of
feeds, cold reset, and the capacity of the CXL ports.  When a plan is taken (due, of every column in order, its steps legal), what its last
step sets, and that a FLOOR beyond its limit stays at 4 or more are the model's choices (log 72), as are that a cold reset with an image of
another part changes nothing (log 117) and that decided levels of one cause may take effect as one (log 143). -/
def Obligations.PowerEventsAndColdResetTakeEffect : Prop :=
  ∀ s : State,
    (∀ x : PowerSample, ∃ t : State, exec (.governorSample x) s = .next t ∧ ∀ (k n : Nat) (c : Column), ffind s.cols k = some c →
      x.temps[k]? = some n → ∃ d : Column, ffind t.cols k = some d ∧ d.temp = n ∧ d.level = c.level ∧ d.changes = c.changes ++ (
        let hot := 2400 < x.watts ∧ 19 ≤ c.hotSamples
        let cool := if n ≤ 92 then c.cool + 1 else 0
        if 110 ≤ n then (if c.decided < 7 then [(7, 1)] else [])
        else if 100 ≤ n ∧ c.decided < 7 then [(c.decided + 1, 1)]
        else if hot ∧ c.decided < 7 then [(c.decided + 1, 4)]
        else if 20 ≤ cool ∧ c.floorLevel < c.decided then [(c.decided - 1, 2)] else [])) ∧
    (∀ (k l n : Nat) (c : Column) (rest : List (Nat × Nat)), ffind s.cols k = some c →
      (c.changes = [] → exec (.throttleChange k) s = .next s) ∧
      (c.changes = (l, n) :: rest → ∃ (t : State) (d : Column), exec (.throttleChange k) s = .next t ∧ ffind t.cols k = some d ∧
        d.budget = min (levelBudget d.level) c.budgetCap ∧ d.floor = c.floor ∧ d.temp = c.temp ∧
        ((d.level = l ∧ d.changes = rest) ∨
          ∃ l' : Nat, (rest.takeWhile fun x => x.2 == n).getLast? = some (l', n) ∧ d.level = l' ∧
            d.changes = rest.dropWhile fun x => x.2 == n))) ∧
    (∀ (k mv : Nat) (c : Core), ffind s.cores k = some c →
      let most := bitsOf c.droopThr 9 0
      (most = 0 ∨ mv ≤ most → exec (.droopAlarm k mv) s = .next s) ∧
      (most ≠ 0 → most < mv → ∃ (t : State) (d : Core), exec (.droopAlarm k mv) s = .next t ∧ ffind t.cores k = some d ∧
        d.stretch = 6 ∧ d.halve = 64 ∧ d.alarms = min (c.alarms + 1) (2 ^ 32 - 1) ∧ d.winter = c.winter ∧ t.groups = s.groups) ∧
      (∃ t : State, exec (.droopStretchEnd k) s = .next t ∧
        ffind t.cores k = some { c with stretch := 0, cyc := (c.cyc + c.stretch) % 2 ^ 64 }) ∧
      ∃ t : State, exec (.droopHalvingEnd k) s = .next t ∧
        ffind t.cores k = some (if c.stretch = 0 then { c with halve := 0, cyc := (c.cyc + c.halve) % 2 ^ 64 } else c)) ∧
    (∀ slow : List Nat, ∃ t : State, exec (.ageingRead slow) s = .next t ∧ t.pkg.hours = s.pkg.hours + 1 ∧
      (t.pkg.due = true ↔ s.pkg.due = true ∨ slow ≠ [] ∨ 719 ≤ s.pkg.hours)) ∧
    (∀ plan : List AutumnStep,
      let allowed := s.pkg.due = true ∧ s.pkg.autumn = [] ∧
        plan.map (·.col) = ((List.range 32).filter fun c => (ffind s.cols c).isSome) ∧ ∀ a ∈ plan, stepOk s a = true
      (allowed → exec (.autumn plan) s = .next { s with pkg := { s.pkg with hours := 0, due := false, autumn := plan } }) ∧
      (¬ allowed → exec (.autumn plan) s = .next s)) ∧
    (∀ (a : AutumnStep) (rest : List AutumnStep) (c : Column), s.pkg.autumn = a :: rest → ffind s.cols a.col = some c →
      let v := if c.setpoint < a.setpoint then min (c.setpoint + 2) a.setpoint else max (c.setpoint - 2) a.setpoint
      ∃ (t : State) (d : Column), exec .autumnStep s = .next t ∧ ffind t.cols a.col = some d ∧ d.setpoint = v ∧
        t.pkg.autumn = (if v = a.setpoint then rest else a :: rest) ∧ d.budgetCap = (if v = a.setpoint then a.cap else c.budgetCap) ∧
        (¬ (v = a.setpoint ∧ a.beyond = true) → d.floor = c.floor) ∧
        (v = a.setpoint → a.beyond = true → a.col ∈ t.pkg.beyond ∧ 4 ≤ d.floor.toNat)) ∧
    (∀ feed up : Bool,
      let feeds := s.pkg.feeds.set (if feed then 1 else 0) up
      (true ∈ feeds → ∃ t : State, exec (.feedChange feed up) s = .next t ∧ t.pkg.feeds = feeds ∧ t.mem = s.mem ∧ t.groups = s.groups) ∧
      (true ∉ feeds → ∃ t : State, exec (.feedChange feed up) s = .next t ∧ t.pkg.feeds = feeds ∧ t.hosts = [] ∧ t.groups = [] ∧
        t.blocks = [] ∧ t.regions = [] ∧ t.home = [] ∧ t.copies = [] ∧ t.priv = [] ∧
        ∀ x ∈ t.mem, inStack x.1 = false ∧ ∃ p : CxlPort, ffind s.cxl (x.1 / 2 ^ 64 - 1) = some p ∧ p.persistent = true)) ∧
    (∀ i : BootImage, (samePart s i = true ∧ gradeOk i = true) ∨ exec (.coldReset i) s = .next s) ∧
    (∀ i : BootImage, samePart s i = true → gradeOk i = true →
      let n := bootFailure s.pkg.feeds i
      (n ≠ 0 → ∃ t : State, exec (.coldReset i) s = .next t ∧ t.pkg.bootFail = n ∧ t.pkg.halted = true ∧ t.hosts = [] ∧ t.cols = [] ∧
        t.groups = [] ∧ t.regions = []) ∧
      (n = 0 → ∃ t : State, exec (.coldReset i) s = .next t ∧ t.pkg.bootFail = 0 ∧ t.pkg.halted = false ∧ t.groups = [] ∧ t.regions = [] ∧
        t.cols.length = (liveCols i).length ∧ t.cores.length = (liveCores i).length ∧ t.parts.length = i.parts.length ∧
        ∀ k : Nat, k < 2 * (liveCols i).length → (ffind t.hosts k).map (fun h => (h.th.pc, h.th.atMonitor, h.th.x, h.th.run, h.curRcb)) =
          some (i.hostVec.getD (k / 2) 0#64, true, [], .running, 0#64))) ∧
    (∀ (e : DcEvent) (p : Partition) (x : CxlPort), ffind s.parts e.part = some p → ffind s.cxl e.port = some x → e.port < 2 →
      e.base < 2 ^ 64 → e.len < 2 ^ 64 → ∃ t : State, exec (.dcCapacityEvent e) s = .next t ∧
        (ffind t.parts e.part).map (·.dcSeq) = some (p.dcSeq + 1) ∧
        (ffind t.cxl e.port).map (·.pending) =
          some (x.pending ++ [(e.part, p.dcSeq + 1, if e.release then 2 else 1, e.base, e.len, e.persist)])) ∧
    (∀ (port part seq kind base len : Nat) (keep : Bool) (rest : List (Nat × Nat × Nat × Nat × Nat × Bool)) (x : CxlPort),
      ffind s.cxl port = some x → x.pending = (part, seq, kind, base, len, keep) :: rest →
      let result := (hwNat s (tableSpace part) (tableBase + dcOff (partOf s part) seq + 0x0B) 1).getD 0
      (result = 0 → exec (.dcResponse port) s = .next s) ∧
      (result ≠ 0 → ∃ (t : State) (y : CxlPort), exec (.dcResponse port) s = .next t ∧ ffind t.cxl port = some y ∧ y.pending = rest ∧
        (y.persistent = true ↔ x.persistent = true ∨ (kind = 1 ∧ result = 1 ∧ keep = true)))) ∧
    ∀ (port base len : Nat) (x : CxlPort), ffind s.cxl port = some x → ∃ t : State, exec (.capacityWithdrawal port base len) s = .next t ∧
      ffind t.cxl port = some { x with withdrawn := x.withdrawn ++ [(base, len)] }

/-- R475 to R477, R501, R502: what the external host writes into its slots, and the frames that the management core serves.
The conditions of status 2 of COPY (log 76), the restart of a thread at MON_VEC with its registers kept (log 77) and the layout of the
health and black-box replies (log 11) are the model's choices. -/
def Obligations.FramesAreServedInOrder : Prop :=
  ∀ s : State,
    (∀ (slot off : Nat) (d : List Byte),
      (s.pkg.linkUp = false ∨ 256 ≤ slot ∨ slot ∈ s.link.owned → exec (.hostFrameWrite slot off d) s = .next s) ∧
      (s.pkg.linkUp = true → slot < 256 → slot ∉ s.link.owned → ∃ t : State, exec (.hostFrameWrite slot off d) s = .next t ∧
        (∀ i : Nat, i < d.length → off + i < 4096 → ffind t.link.bytes (4096 * slot + off + i) = d[i]?) ∧
        (∀ k : Nat, (k < 4096 * slot + off ∨ 4096 * slot + off + d.length ≤ k) → ffind t.link.bytes k = ffind s.link.bytes k) ∧
        (t.link.owned, t.link.bells) = (if off = 0 ∧ 8 ≤ d.length ∧ natOfBytes (d.take 8) ≠ 0 then
            (slot :: s.link.owned, s.link.bells ++ [slot]) else (s.link.owned, s.link.bells)) ∧ t.mem = s.mem ∧ t.hostMem = s.hostMem)) ∧
    (∀ (slot : Nat) (v : Word), exec (.doorbell slot v) s = exec (.hostFrameWrite slot 0 (leBytes 8 v.toNat)) s) ∧
    (∀ (slot x st : Nat) (pay : List Byte),
      let t := answerFrame s slot x st pay
      let base := fieldAt x 0x10 8
      slot ∉ t.link.owned ∧ slot ∉ t.link.bells ∧ t.mem = s.mem ∧
      ffind t.hostMem (base + 0x18) = some (BitVec.ofNat 8 st) ∧
      (∀ i : Nat, i < 8 → ffind t.hostMem (base + i) = some (BitVec.ofNat 8 (fieldAt x i 1))) ∧
      ∀ i : Nat, i < pay.length → i < 4032 → ffind t.hostMem (base + 0x40 + i) = pay[i]?) ∧
    ∀ (slot : Nat) (rest : List Nat), s.link.bells = slot :: rest →
      let x := slotNat s.link slot 0 4096
      let reply (t : State) (st : Nat) (pay : List Byte) : Out := .next (answerFrame t slot x st pay)
      let manage (n : Nat) : Prop := frKind x = 5 ∧ frField x 0 1 = n
      (frameBad s x = true → exec .launchFrame s = reply s 1 [] ∧ exec .copyFrame s = reply s 1 [] ∧ exec .queryFrame s = reply s 1 [] ∧
        exec .attestFrame s = reply s 1 [] ∧ exec .healthRead s = reply s 1 []) ∧
      (frameBad s x = false →
        (frKind x ≠ 1 → exec .launchFrame s = .next s) ∧ (frKind x ≠ 3 → exec .queryFrame s = .next s) ∧
        (frKind x = 1 →
          (frField x 3 5 ≠ 0 → exec .launchFrame s = reply s 1 []) ∧
          (frField x 3 5 = 0 → ∀ t : State, admitPacket s (framePacket x) .nobody = (t, .value 0) → exec .launchFrame s = reply t 0 []) ∧
          (frField x 3 5 = 0 → ∀ (t : State) (a : RemoteAnswer), admitPacket s (framePacket x) .nobody = (t, a) → (a = .refused ∨ a = .stale) →
            exec .launchFrame s = reply t 2 [])) ∧
        (frKind x = 2 →
          let len := frField x 4 4
          let va := frField x 16 8
          let sp := spaceOfLine s (lineKey (frField x 2 2) va)
          let bad := 1 < frField x 0 1 ∨ frField x 1 1 ≠ 0 ∨ 2 ^ 24 < len
          let mine := sp.part = frPart x ∧ frField x 2 2 < 256 ∧ addrKind va = .plain ∧ (len ≠ 0 → addrKind (va + len - 1) = .plain)
          (bad → exec .copyFrame s = reply s 1 []) ∧ (¬ bad → ¬ mine → exec .copyFrame s = reply s 2 []) ∧
          (¬ bad → mine → ∀ (t : State) (st : Nat),
            moveBytes s sp (frField x 0 1 == 1) (frField x 8 8) va len (len / 128 + 2) = (t, st) →
            exec .copyFrame s = reply (flushTier t sp.part) st [])) ∧
        (frKind x = 3 → exec .queryFrame s =
          reply s 0 (leBytes 2048 ((hwNat s (tableSpace (frPart x)) (tableBase + 0x800) 2048).getD 0))) ∧
        (frKind x = 4 → exec .attestFrame s =
          if frLength x = 32 then reply s 0 (attestPayload s (frField x 0 32)) else reply s 1 []) ∧
        (manage 1 → ∃ pay : List Byte, exec .healthRead s = reply s 0 pay) ∧
        (manage 2 → ∀ c : Column, ffind s.cols (frField x 1 1) = some c →
          exec .blackBoxRead s = reply s 0 (Config.boxReply (c.box.map boxBytes) c.frozen)) ∧
        (manage 3 → ∀ c : Column, ffind s.cols (frField x 1 1) = some c →
          exec .blackBoxUnfreeze s = reply (modCol s (frField x 1 1) fun c => { c with box := [], frozen := false }) 0 []) ∧
        (manage 2 ∨ manage 3 → ffind s.cols (frField x 1 1) = none →
          (manage 2 → exec .blackBoxRead s = reply s 1 []) ∧ (manage 3 → exec .blackBoxUnfreeze s = reply s 1 [])) ∧
        (manage 4 → frField x 2 1 < 2 → ∀ h : HostThread, ffind s.hosts (hostKey (frField x 1 1) (frField x 2 1 == 1)) = some h →
          let back := restartThread s (frField x 1 1) (frField x 2 1 == 1)
          (h.th.run = .halted ∨ (∃ (c : BitVec 8) (pc : Word), h.th.run = .dead c pc) → exec .hostThreadRestart s = reply back 0 [] ∧
            (ffind back.hosts (hostKey (frField x 1 1) (frField x 2 1 == 1))).map (fun h => (h.th.run, h.th.atMonitor, h.th.pc, h.th.x)) =
              some (.running, true, ((ffind s.cols (frField x 1 1)).map (·.monVec)).getD 0#64, h.th.x)) ∧
          (h.th.run = .running → exec .hostThreadRestart s = reply s 2 [])) ∧
        (manage 5 → ∃ t : State, exec .blackBoxFreezeAll s = .next t ∧
          ∀ (k : Nat) (c : Column), ffind t.cols k = some c → c.frozen = true) ∧
        (manage 6 → ∃ t : State, exec .packageReset s = .next t ∧ t.hosts = [] ∧ t.groups = [] ∧ t.regions = [] ∧ t.cols = [] ∧
          t.pkg.halted = true ∧ t.hostMem = (answerFrame s slot x 0 []).hostMem))

/-! ### Encodings -/

/-- R178 to R199, R306: decoding the bytes of a well-formed instruction's encoding gives the instruction back with every operand, with
the mask word of a safe point, and leaves the bytes that follow. -/
def Obligations.EncodingsDecodeBack : Prop :=
  ∀ (i : Instr) (mask : Option (BitVec 96)) (st : Stream) (bs tail : List Byte), i.wf = true → spOk mask = true →
    encode mask i = some (st, bs) →
    decode st (bs ++ tail) = .ok (if st = .lane then mask else none, i, tail) ∧
    bs.length = (match st with
      | .scalar => 4
      | .matrix => 8
      | .lane => if mask.isSome then 24 else 12)

/-! ### Registers, steps, reset, memory -/

/-- R51, R52, R387: a register reads back as it was written and leaves every other register and memory alone; x0 reads zero and
discards; with the ports enabled x28 reads zero and sends, and x29 reads the oldest flit; a handler's x24 to x27 are its own. -/
def Obligations.RegistersReadBackAsWritten : Prop :=
  ∀ (s : State) (th : Thread), Runs s th → ∀ (r q : Reg) (v : Word),
    rd s 0#5 = 0#64 ∧
    (portsOn s = false → rd (wr s r v) q = (if q = r ∧ r ≠ 0#5 then v else rd s q)) ∧
    (portsOn s = true → r ≠ 28#5 → q ≠ 28#5 → q ≠ 29#5 → rd (wr s r v) q = if q = r ∧ r ≠ 0#5 then v else rd s q) ∧
    (portsOn s = true → rd s 28#5 = 0#64 ∧ ∀ (g : Group) (f : Flit) (rest : List Flit), curGroup s = some g → g.rx = f :: rest →
      rd s 29#5 = f.payload) ∧
    (portsOn s = true → ∀ g : Group, curGroup s = some g → ∃ p : Group, curGroup (wr s 28#5 v) = some p ∧ p.th = g.th ∧
      p.credits = g.credits - 1 ∧ (wr s 28#5 v).net.length = s.net.length + 1) ∧
    (wr s r v).mem = s.mem ∧ (wr s r v).blocks = s.blocks ∧
    (th.inHandler = true → 24#5 ≤ r → r ≤ 27#5 → (th.setReg r v).x = th.x) ∧
    ((th.inHandler = false ∨ r < 24#5 ∨ 27#5 < r) → (th.setReg r v).kbank = th.kbank ∧ (th.setReg r v).mbank = th.mbank)

/-- R34 to R39, R177, R195 to R198: a step whose turn is an agent's runs the instruction that the bytes at its program counter decode
to, or ends as its fetch or its decoding does; events, time and cycles take their turns; without a schedule the oldest message or the next
agent moves.  A cache that holds more lines than it has room for gives one up first.  The schedule and that order are the model's own
choice (log 1, 2, 105), as are that a sequencer's fetch outside its MATRIX range is BAD_TARGET (log 104; R337 names only `mloop` and
`mjmp`), what an instruction cache keeps (log 16) and which translations are evicted while time passes (log 22). -/
def Obligations.StepsRunTheDecodedWord : Prop :=
  ∀ (s : State) (rest : List Turn),
    (∀ c : CacheSet, s.pkg.halted = false → overfull s = some c → step s = .next (replaceIn s c)) ∧
    (s.pkg.halted = true ∨ overfull s = none →
    (∀ (a : AgentId) (s' : State), ((s.sched = .agent a :: rest ∧ s' = s) ∨
        (s.sched = [] ∧ rest = [] ∧ nextMessage s = none ∧ nextAnswer s = none ∧ nextAgent s = some a ∧ s' = tally s a)) →
      let t : State := { s' with sched := rest, cur := a }
      (canIssue t a = false → step s = .next t) ∧
      -- A pending trap of the whole thread is taken before its scalar stream goes on (R45).
      (canIssue t a = true → (∀ g k : Nat, a ≠ .gang g k) → (∀ b : Nat, a ≠ .seq b) → ∀ x : TrapInfo, dueTrap t a = some x →
        step s = .next (takePending t a x)) ∧
      (canIssue t a = true → ((∀ g k : Nat, a ≠ .gang g k) → (∀ b : Nat, a ≠ .seq b) → dueTrap t a = none) → ∀ (u : State) (i : Instr) (r : Reject),
        (∀ (th : Thread) (w : Word32), threadOf t a = some th → (∀ g k : Nat, a ≠ .gang g k) → NoHeldFault t →
          inScalarSeg t th.pc.toNat = true → th.pc.toNat % 4 = 0 → fetchUnit t a th.pc.toNat = .ok (u, w) →
          (decodeScalar w = .ok i → step s = exec i u) ∧
          (decodeScalar w = .error r → step s = .next (takeTrap (dropRefused u u.cur) u.cur (.of (rejectCause r) 0#32)))) ∧
        (∀ (g k : Nat) (p : Group) (x : Gang) (y : Task) (l tail : List Byte) (m : Option (BitVec 96)), a = .gang g k →
          ffind t.groups g = some p → p.task = some y → gangOf p k = some x → x.runLen < Config.runMax → inLaneSeg t x.pc = true →
          fetchLane t a x.pc = .ok (u, l) →
          (decode .lane l = .ok (m, i, tail) →
            step s = exec i (modGroup u g fun p => p.modGang k fun x => { x with mask := m })) ∧
          (decode .lane l = .error r →
            step s = .next (takeTrap (dropRefused u u.cur) u.cur (.of (rejectCause r) (gangLanes y x))))) ∧
        (∀ (g k : Nat) (p : Group) (x : Gang) (y : Task), a = .gang g k → ffind t.groups g = some p → p.task = some y →
          gangOf p k = some x → x.runLen < Config.runMax → inLaneSeg t x.pc = false →
          step s = .next (takeTrap (dropRefused t t.cur) t.cur (.of cSegLeave (gangLanes y x)))) ∧
        (∀ (b : Nat) (x : Block), a = .seq b → ffind t.blocks b = some x → inMatrixSeg t x x.seq.mpc.toNat = false →
          step s = .next (takeTrap (dropRefused t t.cur) t.cur (.of cBadTarget 0#32))) ∧
        (∀ (b : Nat) (x : Block) (l : List Byte), a = .seq b → ffind t.blocks b = some x →
          inMatrixSeg t x x.seq.mpc.toNat = true → fetchUnits t a x.seq.mpc.toNat 2 = .ok (u, l) →
          (decodeMatrix (BitVec.ofNat 64 (leNat l)) = .ok i → step s = exec i u) ∧
          (decodeMatrix (BitVec.ofNat 64 (leNat l)) = .error r →
            step s = .next (takeTrap (dropRefused u u.cur) u.cur (.of (rejectCause r) 0#32)))) ∧
        (∀ th : Thread, threadOf t a = some th → (∀ g k : Nat, a ≠ .gang g k) → NoHeldFault t →
          let stops (c : BitVec 8) : Prop := step s = .next (takeTrap (dropRefused t t.cur) t.cur (.of c 0#32))
          (inScalarSeg t th.pc.toNat = false → stops cSegLeave) ∧
          (inScalarSeg t th.pc.toNat = true → th.pc.toNat % 4 ≠ 0 → stops cBadTarget)) ∧
        (∀ (va : Nat) (w : Word32), pinnedUnit t a va = some w → fetchUnit t a va = .ok (t, w)) ∧
        ∀ (va x : Nat), pinnedUnit t a va = none →
          (∀ w : Word32, cachedUnit t a va = some w → fetchUnit t a va = .ok (t, w)) ∧
          (cachedUnit t a va = none → loadBytes t a va 4 = .ok (u, x) →
            ∃ v : State, fetchUnit t a va = .ok (v, BitVec.ofNat 32 x) ∧
              (pinsHere u a va = false → v = putIcache u a va (BitVec.ofNat 32 x)) ∧
              (pinsHere u a va = true → pinnedUnit v a va = some (BitVec.ofNat 32 x))))) ∧
    (∀ i : Instr, s.sched = .event i :: rest →
      step s = if eventRuns { s with sched := rest } i then exec i { s with sched := rest } else .next { s with sched := rest }) ∧
    (∀ n : Nat, s.sched = .pass n :: rest → ∃ t : State, step s = .next t ∧ (∀ e ∈ t.tlb, e ∈ s.tlb) ∧
      t = { s with sched := rest, ns := s.ns + n, tlb := t.tlb, freeCtr := t.freeCtr }) ∧
    (∀ c n : Nat, s.sched = .cycles c n :: rest →
      step s = .next (if s.pkg.halted = true then { s with sched := rest } else coreCycles { s with sched := rest } c n)) ∧
    (s.sched = [] → (∀ t : State, nextMessage s = some t → step s = .next t) ∧
      (nextMessage s = none → (∀ t : State, nextAnswer s = some t → step s = .next t) ∧
        (nextAnswer s = none → nextAgent s = none → step s = .refused .quiet))))

/-- The words that the spec writes out as examples of its encodings (R184, R191 to R195, R198) decode to the instructions they stand
for, and the all-zero word of each stream is none. -/
def Obligations.WordsOfTheSpecDecode : Prop :=
  decodeScalar 0x04642800#32 = .ok (.add 3#5 4#5 5#5) ∧
  decodeScalar 0x35085FFD#32 = .ok (.brLtN 4#5 5#5 4093#12) ∧
  decodeScalar 0x8C000013#32 = .ok (.safe 0x13#25) ∧
  decodeScalar 0x88000000#32 = .ok .nop ∧
  decodeScalar 0x88001000#32 = .ok .done ∧
  decodeScalar 0x80004000#32 = .ok .lwait ∧
  decodeScalar 0x2CB20001#32 = .ok (.liIns 5#5 2#2 1#16) ∧
  decodeScalar 0x04642C03#32 = .ok (.lea 3#5 4#5 5#5 3#2) ∧
  decodeScalar 0x2864004C#32 = .ok (.shrImm 3#5 4#5 12#6) ∧
  decodeScalar 0x8004000C#32 = .ok (.lxImm 4#5 12#6) ∧
  decodeScalar 0x80C40040#32 = .ok (.lxReg 6#5 4#5) ∧
  decodeScalar 0x7864291C#32 = .ok (.fmul 3#5 4#5 5#5 .rtz .f64) ∧
  decodeScalar 0xB0C70142#32 = .ok (.fcvt 6#5 7#5 .rtz false .i32 .f32) ∧
  decodeScalar 0x84642080#32 = .ok (.csrs 3#5 4#5 0x080#12) ∧
  decodeScalar 0x88002003#32 = .ok (.svc 3#12) ∧
  decodeScalar 0x6CA2FFF0#32 = .ok (.st64 5#5 2#5 65520#16) ∧
  decodeScalar 0x70640450#32 = .ok (.ldOrdered 3#5 4#5 .pkg true .i32) ∧
  decodeScalar 0x70042C99#32 = .ok (.stOrdered 4#5 5#5 .pkg true .i64) ∧
  decodeScalar 0x70000286#32 = .ok (.fenceRel .col) ∧
  decodeScalar 0x74642CD1#32 = .ok (.amoAdd 3#5 4#5 5#5 .pkg .ar true) ∧
  decodeScalar 0x7464048B#32 = .ok (.cst 3#5 4#5 .pkg true) ∧
  decodeScalar 0x90042D00#32 = .ok (.radd 4#5 5#5 .f32) ∧
  decodeScalar 0x94642900#32 = .ok (.spmMapFill 3#5 4#5 5#5) ∧
  decodeScalar 0x98003043#32 = .ok (.barWait true 3#6) ∧
  decodeScalar 0x9C003002#32 = .ok (.xacq 2#5) ∧
  decodeScalar 0#32 = .error .illegalInstr ∧
  decodeLane 0x0C2090010013005400000000#96 0#96 = .ok (none, .vffma ⟨false, 3#3, false⟩ .f32 .rne (.word 8#8) (.word 9#8) (.opf 2#3) .lr) ∧
  decodeLane 0x200200800A00C88813002014#96 0#96 = .ok (none, .pairedWord ⟨false, 0#3, false⟩ ⟨.vadd, 0#2, .word 4#8, .word 5#8, .word 6#8⟩ ⟨.vfmul, 1#2, .word 9#8, .opf 1#3, .word 10#8⟩) ∧
  decodeLane 0x000122214216018000000000#96 0#96 = .ok (none, .vadds ⟨false, 0#3, false⟩ .i16 (.half 10#8 1#1) (.half 11#8 1#1) (.half 12#8 0#1)) ∧
  decodeLane 0x0002E4000007800000000012#96 0#96 = .ok (none, .vcmp ⟨false, 0#3, false⟩ .i32 .lt (.pred 2#3) (.word 3#8) (.imm 0#10)) ∧
  decodeLane 0x00035000600000003FC00000#96 0#96 = .ok (none, .vli ⟨false, 0#3, false⟩ .f32 (.word 3#8) 0x3FC00000#32) ∧
  decodeLane 0x0021E022800A000000050144#96 0#96 = .ok (none, .vfcvt ⟨false, 0#3, false⟩ false .sr .f32 (.b8 .sf 4#3) (.byte 20#8 1#2) (.word 5#8)) ∧
  decodeLane 0x0040A400C00800A000000100#96 0#96 = .ok (none, .vmred ⟨false, 0#3, false⟩ (.int .i32) .add .rne 2#3 (.word 6#8) (.word 4#8) (.word 5#8)) ∧
  decodeLane 0x448020000000000001FFFFFB#96 0#96 = .ok (none, .lbr 1#3 false false 33554427#25) ∧
  decodeLane 0x00A024010008000000000010#96 0#96 = .ok (none, .vld ⟨false, 0#3, false⟩ (.int .i32) .grp false 16#12 (.word 8#8) (.pair 2#7)) ∧
  decodeLane 0x00A050000008012001200000#96 0#96 = .ok (none, .vst ⟨false, 0#3, false⟩ (.fp .f32) .pkg true 0#12 (.pair 2#7) (.word 9#8)) ∧
  decodeLane 0x00A06C00C00800E000010000#96 0#96 = .ok (none, .vamo ⟨false, 0#3, false⟩ .n32 .add .grp .plain 0#12 (.word 6#8) (.pair 2#7) (.word 7#8)) ∧
  decodeLane 0x00A0A0804018000000000007#96 0#96 = .ok (none, .vtld ⟨false, 0#3, false⟩ 2#4 12#8 7#6) ∧
  decodeLane 0x00C020000000000000600000#96 0#96 = .ok (none, .laneFence ⟨false, 0#3, false⟩ .blk .rel) ∧
  decodeLane 0#96 0#96 = .error .illegalInstr ∧
  decodeLane (0x800000000000000000000000#96 ||| 0x00C020000000000000600000#96) 0x0000000F0001010102005AFE#96 =
    .ok (some 0x0000000F0001010102005AFE#96, .laneFence ⟨false, 0#3, false⟩ .blk .rel) ∧
  decodeLane (0x800000000000000000000000#96 ||| 0x00C020000000000000600000#96) 0x0000000F0001010102005AFF#96 = .error .badMask ∧
  decodeMatrix 0x0805000000000000#64 = .ok (.mbwt 5#8 false) ∧
  decodeMatrix 0#64 = .error .illegalInstr

/-- R386, R70, R230, R237, R408, R420, R424, R489 to R492, R505: reset starts every host thread at monitor level in a handler
without a trap record, and gives each register that has a reset value in the spec that value; no group, block, region, message, time or
counter has begun.  That the program counter and the vectors are 0 (log 5) and that all 32 columns are live (log 4) is the
model's choice. -/
def Obligations.ResetStartsTheHostThreads : Prop :=
  (∀ (c : Nat) (b : Bool), c < 32 →
    let s : State := { State.reset with cur := .host c b }
    (∃ th : Thread, Runs s th ∧ th.inHandler = true ∧ th.atMonitor = true ∧ th.run = .running ∧ th.pc = 0#64) ∧
    canIssue s (.host c b) = true ∧
    (∀ p ∈ [(0x800, 3), (0x801, 0), (0x0A0, 0), (0x0A1, 0), (0x0A2, 0), (0x0A3, 0xFFFF), (0x0A4, 0), (0x080, 0), (0x803, 0), (0x806, 100000),
        (0x809, 0x80800000), (0x80B, 0x0C800C800000)], csrRead s p.1 = .ok (BitVec.ofNat 64 p.2)) ∧
    ∀ q : Nat, q < 8 → csrRead s (0x810 + q) = .ok 0#64) ∧
  (∀ k : Nat, k < 64 → ∃ c : Core, ffind State.reset.cores k = some c ∧ c.monVec = 0#64 ∧ c.droopThr = 45#64 ∧ c.alarms = 0 ∧
    c.stretch = 0 ∧ c.halve = 0 ∧ c.runForced = 0 ∧ c.mxStalls = 0 ∧ c.winterWakes = 0 ∧ c.cyc = 0) ∧
  (∀ k : Nat, ((ffind State.reset.act k).getD 0#256) = 0#256) ∧
  State.reset.ns = 0 ∧ State.reset.groups = [] ∧ State.reset.blocks = [] ∧ State.reset.regions = [] ∧ State.reset.net = [] ∧
  Memory.wf State.reset.mem = true

/-- An invariant of every step, whatever moves: physical memory keeps its one form, its addresses strictly rising and no byte listed that
an unlisted address reads as, so that equal memories are equal data. -/
def Obligations.MemoryStaysCanonical : Prop :=
  ∀ s t : State, Memory.wf s.mem = true → step s = .next t → Memory.wf t.mem = true
end

