-- ==== Sys2Proof/Laws/Exec.lean ====
section
/-! SUPPORT. Each constructor of `Instr` runs its own meaning. -/

namespace Sys2Proof.Laws

open Sys2Proof.Machine

@[simp] theorem exec_add (d a b : Reg) (s : State) :
    exec (.add d a b) s = execAdd d a b s := rfl
@[simp] theorem exec_sub (d a b : Reg) (s : State) :
    exec (.sub d a b) s = execSub d a b s := rfl
@[simp] theorem exec_mul (d a b : Reg) (s : State) :
    exec (.mul d a b) s = execMul d a b s := rfl
@[simp] theorem exec_mulhI (d a b : Reg) (s : State) :
    exec (.mulhI d a b) s = execMulhI d a b s := rfl
@[simp] theorem exec_mulhN (d a b : Reg) (s : State) :
    exec (.mulhN d a b) s = execMulhN d a b s := rfl
@[simp] theorem exec_divI (d a b : Reg) (s : State) :
    exec (.divI d a b) s = execDivI d a b s := rfl
@[simp] theorem exec_divN (d a b : Reg) (s : State) :
    exec (.divN d a b) s = execDivN d a b s := rfl
@[simp] theorem exec_remI (d a b : Reg) (s : State) :
    exec (.remI d a b) s = execRemI d a b s := rfl
@[simp] theorem exec_remN (d a b : Reg) (s : State) :
    exec (.remN d a b) s = execRemN d a b s := rfl
@[simp] theorem exec_and (d a b : Reg) (s : State) :
    exec (.and d a b) s = execAnd d a b s := rfl
@[simp] theorem exec_or (d a b : Reg) (s : State) :
    exec (.or d a b) s = execOr d a b s := rfl
@[simp] theorem exec_xor (d a b : Reg) (s : State) :
    exec (.xor d a b) s = execXor d a b s := rfl
@[simp] theorem exec_andn (d a b : Reg) (s : State) :
    exec (.andn d a b) s = execAndn d a b s := rfl
@[simp] theorem exec_shl (d a b : Reg) (s : State) :
    exec (.shl d a b) s = execShl d a b s := rfl
@[simp] theorem exec_shr (d a b : Reg) (s : State) :
    exec (.shr d a b) s = execShr d a b s := rfl
@[simp] theorem exec_sra (d a b : Reg) (s : State) :
    exec (.sra d a b) s = execSra d a b s := rfl
@[simp] theorem exec_rol (d a b : Reg) (s : State) :
    exec (.rol d a b) s = execRol d a b s := rfl
@[simp] theorem exec_minI (d a b : Reg) (s : State) :
    exec (.minI d a b) s = execMinI d a b s := rfl
@[simp] theorem exec_minN (d a b : Reg) (s : State) :
    exec (.minN d a b) s = execMinN d a b s := rfl
@[simp] theorem exec_maxI (d a b : Reg) (s : State) :
    exec (.maxI d a b) s = execMaxI d a b s := rfl
@[simp] theorem exec_maxN (d a b : Reg) (s : State) :
    exec (.maxN d a b) s = execMaxN d a b s := rfl
@[simp] theorem exec_sltI (d a b : Reg) (s : State) :
    exec (.sltI d a b) s = execSltI d a b s := rfl
@[simp] theorem exec_sltN (d a b : Reg) (s : State) :
    exec (.sltN d a b) s = execSltN d a b s := rfl
@[simp] theorem exec_seq (d a b : Reg) (s : State) :
    exec (.seq d a b) s = execSeq d a b s := rfl
@[simp] theorem exec_sel (d a b c : Reg) (s : State) :
    exec (.sel d a b c) s = execSel d a b c s := rfl
@[simp] theorem exec_clz (d a : Reg) (s : State) :
    exec (.clz d a) s = execClz d a s := rfl
@[simp] theorem exec_ctz (d a : Reg) (s : State) :
    exec (.ctz d a) s = execCtz d a s := rfl
@[simp] theorem exec_popc (d a : Reg) (s : State) :
    exec (.popc d a) s = execPopc d a s := rfl
@[simp] theorem exec_bswap (d a : Reg) (s : State) :
    exec (.bswap d a) s = execBswap d a s := rfl
@[simp] theorem exec_bextI (d a b : Reg) (s : State) :
    exec (.bextI d a b) s = execBextI d a b s := rfl
@[simp] theorem exec_bextN (d a b : Reg) (s : State) :
    exec (.bextN d a b) s = execBextN d a b s := rfl
@[simp] theorem exec_bins (d a b : Reg) (s : State) :
    exec (.bins d a b) s = execBins d a b s := rfl
@[simp] theorem exec_lea (d a b : Reg) (s_ : BitVec 2) (s : State) :
    exec (.lea d a b s_) s = execLea d a b s_ s := rfl
@[simp] theorem exec_addImm (d a : Reg) (i_ : BitVec 16) (s : State) :
    exec (.addImm d a i_) s = execAddImm d a i_ s := rfl
@[simp] theorem exec_mulImm (d a : Reg) (i_ : BitVec 16) (s : State) :
    exec (.mulImm d a i_) s = execMulImm d a i_ s := rfl
@[simp] theorem exec_andImm (d a : Reg) (i_ : BitVec 16) (s : State) :
    exec (.andImm d a i_) s = execAndImm d a i_ s := rfl
@[simp] theorem exec_orImm (d a : Reg) (i_ : BitVec 16) (s : State) :
    exec (.orImm d a i_) s = execOrImm d a i_ s := rfl
@[simp] theorem exec_xorImm (d a : Reg) (i_ : BitVec 16) (s : State) :
    exec (.xorImm d a i_) s = execXorImm d a i_ s := rfl
@[simp] theorem exec_sltIImm (d a : Reg) (i_ : BitVec 16) (s : State) :
    exec (.sltIImm d a i_) s = execSltIImm d a i_ s := rfl
@[simp] theorem exec_sltNImm (d a : Reg) (i_ : BitVec 16) (s : State) :
    exec (.sltNImm d a i_) s = execSltNImm d a i_ s := rfl
@[simp] theorem exec_seqImm (d a : Reg) (i_ : BitVec 16) (s : State) :
    exec (.seqImm d a i_) s = execSeqImm d a i_ s := rfl
@[simp] theorem exec_shlImm (d a : Reg) (n : BitVec 6) (s : State) :
    exec (.shlImm d a n) s = execShlImm d a n s := rfl
@[simp] theorem exec_shrImm (d a : Reg) (n : BitVec 6) (s : State) :
    exec (.shrImm d a n) s = execShrImm d a n s := rfl
@[simp] theorem exec_sraImm (d a : Reg) (n : BitVec 6) (s : State) :
    exec (.sraImm d a n) s = execSraImm d a n s := rfl
@[simp] theorem exec_rolImm (d a : Reg) (n : BitVec 6) (s : State) :
    exec (.rolImm d a n) s = execRolImm d a n s := rfl
@[simp] theorem exec_li (d : Reg) (i_ : BitVec 16) (s : State) :
    exec (.li d i_) s = execLi d i_ s := rfl
@[simp] theorem exec_liIns (d : Reg) (k : BitVec 2) (i_ : BitVec 16) (s : State) :
    exec (.liIns d k i_) s = execLiIns d k i_ s := rfl
@[simp] theorem exec_pcrel (d : Reg) (o : BitVec 21) (s : State) :
    exec (.pcrel d o) s = execPcrel d o s := rfl
@[simp] theorem exec_brEq (a b : Reg) (o : BitVec 12) (s : State) :
    exec (.brEq a b o) s = execBrEq a b o s := rfl
@[simp] theorem exec_brNe (a b : Reg) (o : BitVec 12) (s : State) :
    exec (.brNe a b o) s = execBrNe a b o s := rfl
@[simp] theorem exec_brLt (a b : Reg) (o : BitVec 12) (s : State) :
    exec (.brLt a b o) s = execBrLt a b o s := rfl
@[simp] theorem exec_brGe (a b : Reg) (o : BitVec 12) (s : State) :
    exec (.brGe a b o) s = execBrGe a b o s := rfl
@[simp] theorem exec_brLtN (a b : Reg) (o : BitVec 12) (s : State) :
    exec (.brLtN a b o) s = execBrLtN a b o s := rfl
@[simp] theorem exec_brGeN (a b : Reg) (o : BitVec 12) (s : State) :
    exec (.brGeN a b o) s = execBrGeN a b o s := rfl
@[simp] theorem exec_loop (a : Reg) (o : BitVec 12) (s : State) :
    exec (.loop a o) s = execLoop a o s := rfl
@[simp] theorem exec_jmp (o : BitVec 26) (s : State) :
    exec (.jmp o) s = execJmp o s := rfl
@[simp] theorem exec_call (o : BitVec 26) (s : State) :
    exec (.call o) s = execCall o s := rfl
@[simp] theorem exec_jr (d a : Reg) (i_ : BitVec 16) (s : State) :
    exec (.jr d a i_) s = execJr d a i_ s := rfl
@[simp] theorem exec_ldI8 (d a : Reg) (i_ : BitVec 16) (s : State) :
    exec (.ldI8 d a i_) s = execLdI8 d a i_ s := rfl
@[simp] theorem exec_ldI16 (d a : Reg) (i_ : BitVec 16) (s : State) :
    exec (.ldI16 d a i_) s = execLdI16 d a i_ s := rfl
@[simp] theorem exec_ldI32 (d a : Reg) (i_ : BitVec 16) (s : State) :
    exec (.ldI32 d a i_) s = execLdI32 d a i_ s := rfl
@[simp] theorem exec_ldI64 (d a : Reg) (i_ : BitVec 16) (s : State) :
    exec (.ldI64 d a i_) s = execLdI64 d a i_ s := rfl
@[simp] theorem exec_ldN8 (d a : Reg) (i_ : BitVec 16) (s : State) :
    exec (.ldN8 d a i_) s = execLdN8 d a i_ s := rfl
@[simp] theorem exec_ldN16 (d a : Reg) (i_ : BitVec 16) (s : State) :
    exec (.ldN16 d a i_) s = execLdN16 d a i_ s := rfl
@[simp] theorem exec_ldN32 (d a : Reg) (i_ : BitVec 16) (s : State) :
    exec (.ldN32 d a i_) s = execLdN32 d a i_ s := rfl
@[simp] theorem exec_st8 (d a : Reg) (i_ : BitVec 16) (s : State) :
    exec (.st8 d a i_) s = execSt8 d a i_ s := rfl
@[simp] theorem exec_st16 (d a : Reg) (i_ : BitVec 16) (s : State) :
    exec (.st16 d a i_) s = execSt16 d a i_ s := rfl
@[simp] theorem exec_st32 (d a : Reg) (i_ : BitVec 16) (s : State) :
    exec (.st32 d a i_) s = execSt32 d a i_ s := rfl
@[simp] theorem exec_st64 (d a : Reg) (i_ : BitVec 16) (s : State) :
    exec (.st64 d a i_) s = execSt64 d a i_ s := rfl
@[simp] theorem exec_ldOrdered (d a : Reg) (sc : Scope) (acq : Bool) (t : MemTy) (s : State) :
    exec (.ldOrdered d a sc acq t) s = execLdOrdered d a sc acq t s := rfl
@[simp] theorem exec_stOrdered (a b : Reg) (sc : Scope) (rel : Bool) (t : MemTy) (s : State) :
    exec (.stOrdered a b sc rel t) s = execStOrdered a b sc rel t s := rfl
@[simp] theorem exec_ldw (d a : Reg) (sc : Scope) (acq : Bool) (t : MemTy) (s : State) :
    exec (.ldw d a sc acq t) s = execLdw d a sc acq t s := rfl
@[simp] theorem exec_pf (a : Reg) (s : State) :
    exec (.pf a) s = execPf a s := rfl
@[simp] theorem exec_cln (a : Reg) (s : State) :
    exec (.cln a) s = execCln a s := rfl
@[simp] theorem exec_clnPersist (a : Reg) (s : State) :
    exec (.clnPersist a) s = execClnPersist a s := rfl
@[simp] theorem exec_fence (sc : Scope) (s : State) :
    exec (.fence sc) s = execFence sc s := rfl
@[simp] theorem exec_fenceAcq (sc : Scope) (s : State) :
    exec (.fenceAcq sc) s = execFenceAcq sc s := rfl
@[simp] theorem exec_fenceRel (sc : Scope) (s : State) :
    exec (.fenceRel sc) s = execFenceRel sc s := rfl
@[simp] theorem exec_amoSwap (d a b : Reg) (sc : Scope) (sem : Sem) (w64 : Bool) (s : State) :
    exec (.amoSwap d a b sc sem w64) s = execAmoSwap d a b sc sem w64 s := rfl
@[simp] theorem exec_amoAdd (d a b : Reg) (sc : Scope) (sem : Sem) (w64 : Bool) (s : State) :
    exec (.amoAdd d a b sc sem w64) s = execAmoAdd d a b sc sem w64 s := rfl
@[simp] theorem exec_amoAnd (d a b : Reg) (sc : Scope) (sem : Sem) (w64 : Bool) (s : State) :
    exec (.amoAnd d a b sc sem w64) s = execAmoAnd d a b sc sem w64 s := rfl
@[simp] theorem exec_amoOr (d a b : Reg) (sc : Scope) (sem : Sem) (w64 : Bool) (s : State) :
    exec (.amoOr d a b sc sem w64) s = execAmoOr d a b sc sem w64 s := rfl
@[simp] theorem exec_amoXor (d a b : Reg) (sc : Scope) (sem : Sem) (w64 : Bool) (s : State) :
    exec (.amoXor d a b sc sem w64) s = execAmoXor d a b sc sem w64 s := rfl
@[simp] theorem exec_amoMinI (d a b : Reg) (sc : Scope) (sem : Sem) (w64 : Bool) (s : State) :
    exec (.amoMinI d a b sc sem w64) s = execAmoMinI d a b sc sem w64 s := rfl
@[simp] theorem exec_amoMaxI (d a b : Reg) (sc : Scope) (sem : Sem) (w64 : Bool) (s : State) :
    exec (.amoMaxI d a b sc sem w64) s = execAmoMaxI d a b sc sem w64 s := rfl
@[simp] theorem exec_amoMinN (d a b : Reg) (sc : Scope) (sem : Sem) (w64 : Bool) (s : State) :
    exec (.amoMinN d a b sc sem w64) s = execAmoMinN d a b sc sem w64 s := rfl
@[simp] theorem exec_amoMaxN (d a b : Reg) (sc : Scope) (sem : Sem) (w64 : Bool) (s : State) :
    exec (.amoMaxN d a b sc sem w64) s = execAmoMaxN d a b sc sem w64 s := rfl
@[simp] theorem exec_amoFadd (d a b : Reg) (sc : Scope) (sem : Sem) (w64 : Bool) (s : State) :
    exec (.amoFadd d a b sc sem w64) s = execAmoFadd d a b sc sem w64 s := rfl
@[simp] theorem exec_cas (d a b : Reg) (sc : Scope) (sem : Sem) (w64 : Bool) (s : State) :
    exec (.cas d a b sc sem w64) s = execCas d a b sc sem w64 s := rfl
@[simp] theorem exec_cst (d a : Reg) (sc : Scope) (rel : Bool) (s : State) :
    exec (.cst d a sc rel) s = execCst d a sc rel s := rfl
@[simp] theorem exec_fadd (d a b : Reg) (r : Rnd) (f : SFmt) (s : State) :
    exec (.fadd d a b r f) s = execFadd d a b r f s := rfl
@[simp] theorem exec_fsub (d a b : Reg) (r : Rnd) (f : SFmt) (s : State) :
    exec (.fsub d a b r f) s = execFsub d a b r f s := rfl
@[simp] theorem exec_fmul (d a b : Reg) (r : Rnd) (f : SFmt) (s : State) :
    exec (.fmul d a b r f) s = execFmul d a b r f s := rfl
@[simp] theorem exec_fdiv (d a b : Reg) (r : Rnd) (f : SFmt) (s : State) :
    exec (.fdiv d a b r f) s = execFdiv d a b r f s := rfl
@[simp] theorem exec_fsqrt (d a : Reg) (r : Rnd) (f : SFmt) (s : State) :
    exec (.fsqrt d a r f) s = execFsqrt d a r f s := rfl
@[simp] theorem exec_fmin (d a b : Reg) (f : SFmt) (s : State) :
    exec (.fmin d a b f) s = execFmin d a b f s := rfl
@[simp] theorem exec_fmax (d a b : Reg) (f : SFmt) (s : State) :
    exec (.fmax d a b f) s = execFmax d a b f s := rfl
@[simp] theorem exec_fcmp (d a b : Reg) (f : SFmt) (k : FCond) (s : State) :
    exec (.fcmp d a b f k) s = execFcmp d a b f k s := rfl
@[simp] theorem exec_fcls (d a : Reg) (f : SFmt) (s : State) :
    exec (.fcls d a f) s = execFcls d a f s := rfl
@[simp] theorem exec_fma (d a b c : Reg) (r : Rnd) (f : SFmt) (s : State) :
    exec (.fma d a b c r f) s = execFma d a b c r f s := rfl
@[simp] theorem exec_fcvt (d a : Reg) (r : Rnd) (ovf : Bool) (t s_ : CvtTy) (s : State) :
    exec (.fcvt d a r ovf t s_) s = execFcvt d a r ovf t s_ s := rfl
@[simp] theorem exec_lxImm (a : Reg) (n : BitVec 6) (s : State) :
    exec (.lxImm a n) s = execLxImm a n s := rfl
@[simp] theorem exec_lxReg (d a : Reg) (s : State) :
    exec (.lxReg d a) s = execLxReg d a s := rfl
@[simp] theorem exec_lpoll (d : Reg) (s : State) :
    exec (.lpoll d) s = execLpoll d s := rfl
@[simp] theorem exec_csrr (d : Reg) (n : BitVec 12) (s : State) :
    exec (.csrr d n) s = execCsrr d n s := rfl
@[simp] theorem exec_csrw (a : Reg) (n : BitVec 12) (s : State) :
    exec (.csrw a n) s = execCsrw a n s := rfl
@[simp] theorem exec_csrs (d a : Reg) (n : BitVec 12) (s : State) :
    exec (.csrs d a n) s = execCsrs d a n s := rfl
@[simp] theorem exec_svc (k : BitVec 12) (s : State) :
    exec (.svc k) s = execSvc k s := rfl
@[simp] theorem exec_brk (k : BitVec 12) (s : State) :
    exec (.brk k) s = execBrk k s := rfl
@[simp] theorem exec_tstamp (d : Reg) (s : State) :
    exec (.tstamp d) s = execTstamp d s := rfl
@[simp] theorem exec_cyc (d : Reg) (s : State) :
    exec (.cyc d) s = execCyc d s := rfl
@[simp] theorem exec_wkGet (d e : Reg) (s : State) :
    exec (.wkGet d e) s = execWkGet d e s := rfl
@[simp] theorem exec_safe (m : BitVec 25) (s : State) :
    exec (.safe m) s = execSafe m s := rfl
@[simp] theorem exec_subSubscription (d a b : Reg) (s : State) :
    exec (.subSubscription d a b) s = execSubSubscription d a b s := rfl
@[simp] theorem exec_unsub (d a b : Reg) (s : State) :
    exec (.unsub d a b) s = execUnsub d a b s := rfl
@[simp] theorem exec_subup (d a b : Reg) (s : State) :
    exec (.subup d a b) s = execSubup d a b s := rfl
@[simp] theorem exec_crSet (a b : Reg) (s : State) :
    exec (.crSet a b) s = execCrSet a b s := rfl
@[simp] theorem exec_crEnd (a : Reg) (s : State) :
    exec (.crEnd a) s = execCrEnd a s := rfl
@[simp] theorem exec_radd (a b : Reg) (t : CrTy) (s : State) :
    exec (.radd a b t) s = execRadd a b t s := rfl
@[simp] theorem exec_spmMap (d a b : Reg) (s : State) :
    exec (.spmMap d a b) s = execSpmMap d a b s := rfl
@[simp] theorem exec_spmMapFill (d a b : Reg) (s : State) :
    exec (.spmMapFill d a b) s = execSpmMapFill d a b s := rfl
@[simp] theorem exec_spmUnmap (a : Reg) (s : State) :
    exec (.spmUnmap a) s = execSpmUnmap a s := rfl
@[simp] theorem exec_barInit (a : Reg) (n : BitVec 6) (s : State) :
    exec (.barInit a n) s = execBarInit a n s := rfl
@[simp] theorem exec_barArr (n : BitVec 6) (s : State) :
    exec (.barArr n) s = execBarArr n s := rfl
@[simp] theorem exec_barExp (a : Reg) (n : BitVec 6) (s : State) :
    exec (.barExp a n) s = execBarExp a n s := rfl
@[simp] theorem exec_barWait (q : Bool) (n : BitVec 6) (s : State) :
    exec (.barWait q n) s = execBarWait q n s := rfl
@[simp] theorem exec_barTry (d : Reg) (q : Bool) (n : BitVec 6) (s : State) :
    exec (.barTry d q n) s = execBarTry d q n s := rfl
@[simp] theorem exec_monArm (d a : Reg) (s : State) :
    exec (.monArm d a) s = execMonArm d a s := rfl
@[simp] theorem exec_portCfg (e : Bool) (s : State) :
    exec (.portCfg e) s = execPortCfg e s := rfl
@[simp] theorem exec_xacq (n : BitVec 5) (s : State) :
    exec (.xacq n) s = execXacq n s := rfl
@[simp] theorem exec_xrel (n : BitVec 5) (s : State) :
    exec (.xrel n) s = execXrel n s := rfl
@[simp] theorem exec_cp (d a b : Reg) (sc : Scope) (s : State) :
    exec (.cp d a b sc) s = execCp d a b sc s := rfl
@[simp] theorem exec_cpColl (d a b : Reg) (sc : Scope) (s : State) :
    exec (.cpColl d a b sc) s = execCpColl d a b sc s := rfl
@[simp] theorem exec_gth (d a b : Reg) (sc : Scope) (s : State) :
    exec (.gth d a b sc) s = execGth d a b sc s := rfl
@[simp] theorem exec_scat (d a b : Reg) (sc : Scope) (s : State) :
    exec (.scat d a b sc) s = execScat d a b sc s := rfl
@[simp] theorem exec_redcp (d a b : Reg) (sc : Scope) (s : State) :
    exec (.redcp d a b sc) s = execRedcp d a b sc s := rfl
@[simp] theorem exec_mcast (d a b : Reg) (sc : Scope) (s : State) :
    exec (.mcast d a b sc) s = execMcast d a b sc s := rfl
@[simp] theorem exec_dcoll (d a b : Reg) (sc : Scope) (s : State) :
    exec (.dcoll d a b sc) s = execDcoll d a b sc s := rfl
@[simp] theorem exec_tidSet (a : Reg) (n : BitVec 6) (s : State) :
    exec (.tidSet a n) s = execTidSet a n s := rfl
@[simp] theorem exec_tidGet (d : Reg) (n : BitVec 6) (s : State) :
    exec (.tidGet d n) s = execTidGet d n s := rfl
@[simp] theorem exec_tidInv (n : BitVec 6) (s : State) :
    exec (.tidInv n) s = execTidInv n s := rfl
@[simp] theorem exec_xfer (a : Reg) (s : State) :
    exec (.xfer a) s = execXfer a s := rfl
@[simp] theorem exec_xcall (d a : Reg) (s : State) :
    exec (.xcall d a) s = execXcall d a s := rfl
@[simp] theorem exec_xret (a : Reg) (s : State) :
    exec (.xret a) s = execXret a s := rfl
@[simp] theorem exec_segWho (d a : Reg) (s : State) :
    exec (.segWho d a) s = execSegWho d a s := rfl
@[simp] theorem exec_tret (a : Reg) (s : State) :
    exec (.tret a) s = execTret a s := rfl
@[simp] theorem exec_ctxSave (d a : Reg) (s : State) :
    exec (.ctxSave d a) s = execCtxSave d a s := rfl
@[simp] theorem exec_ctxLoad (d a : Reg) (s : State) :
    exec (.ctxLoad d a) s = execCtxLoad d a s := rfl
@[simp] theorem exec_capMint (d a : Reg) (s : State) :
    exec (.capMint d a) s = execCapMint d a s := rfl
@[simp] theorem exec_capDrop (d a : Reg) (s : State) :
    exec (.capDrop d a) s = execCapDrop d a s := rfl
@[simp] theorem exec_tlbInv (d a : Reg) (s : State) :
    exec (.tlbInv d a) s = execTlbInv d a s := rfl
@[simp] theorem exec_hmtSet (d a : Reg) (s : State) :
    exec (.hmtSet d a) s = execHmtSet d a s := rfl
@[simp] theorem exec_segMap (d a : Reg) (s : State) :
    exec (.segMap d a) s = execSegMap d a s := rfl
@[simp] theorem exec_actSet (d a : Reg) (s : State) :
    exec (.actSet d a) s = execActSet d a s := rfl
@[simp] theorem exec_evqSet (d a : Reg) (s : State) :
    exec (.evqSet d a) s = execEvqSet d a s := rfl
@[simp] theorem exec_vadd (h : LaneHdr) (t : ITy) (d a b : Operand) (s : State) :
    exec (.vadd h t d a b) s = execVadd h t d a b s := rfl
@[simp] theorem exec_vsub (h : LaneHdr) (t : ITy) (d a b : Operand) (s : State) :
    exec (.vsub h t d a b) s = execVsub h t d a b s := rfl
@[simp] theorem exec_vmul (h : LaneHdr) (t : ITy) (d a b : Operand) (s : State) :
    exec (.vmul h t d a b) s = execVmul h t d a b s := rfl
@[simp] theorem exec_vmulh (h : LaneHdr) (t : ITy) (d a b : Operand) (s : State) :
    exec (.vmulh h t d a b) s = execVmulh h t d a b s := rfl
@[simp] theorem exec_vmad (h : LaneHdr) (t : ITy) (d a b c : Operand) (s : State) :
    exec (.vmad h t d a b c) s = execVmad h t d a b c s := rfl
@[simp] theorem exec_vabsd (h : LaneHdr) (t : ITy) (d a b : Operand) (s : State) :
    exec (.vabsd h t d a b) s = execVabsd h t d a b s := rfl
@[simp] theorem exec_vmin (h : LaneHdr) (t : ITy) (d a b : Operand) (s : State) :
    exec (.vmin h t d a b) s = execVmin h t d a b s := rfl
@[simp] theorem exec_vmax (h : LaneHdr) (t : ITy) (d a b : Operand) (s : State) :
    exec (.vmax h t d a b) s = execVmax h t d a b s := rfl
@[simp] theorem exec_vadds (h : LaneHdr) (t : ITy) (d a b : Operand) (s : State) :
    exec (.vadds h t d a b) s = execVadds h t d a b s := rfl
@[simp] theorem exec_vsubs (h : LaneHdr) (t : ITy) (d a b : Operand) (s : State) :
    exec (.vsubs h t d a b) s = execVsubs h t d a b s := rfl
@[simp] theorem exec_vand (h : LaneHdr) (t : ITy) (d a b : Operand) (s : State) :
    exec (.vand h t d a b) s = execVand h t d a b s := rfl
@[simp] theorem exec_vor (h : LaneHdr) (t : ITy) (d a b : Operand) (s : State) :
    exec (.vor h t d a b) s = execVor h t d a b s := rfl
@[simp] theorem exec_vxor (h : LaneHdr) (t : ITy) (d a b : Operand) (s : State) :
    exec (.vxor h t d a b) s = execVxor h t d a b s := rfl
@[simp] theorem exec_vandn (h : LaneHdr) (t : ITy) (d a b : Operand) (s : State) :
    exec (.vandn h t d a b) s = execVandn h t d a b s := rfl
@[simp] theorem exec_vshl (h : LaneHdr) (t : ITy) (d a b : Operand) (s : State) :
    exec (.vshl h t d a b) s = execVshl h t d a b s := rfl
@[simp] theorem exec_vshr (h : LaneHdr) (t : ITy) (d a b : Operand) (s : State) :
    exec (.vshr h t d a b) s = execVshr h t d a b s := rfl
@[simp] theorem exec_vsra (h : LaneHdr) (t : ITy) (d a b : Operand) (s : State) :
    exec (.vsra h t d a b) s = execVsra h t d a b s := rfl
@[simp] theorem exec_vclz (h : LaneHdr) (t : ITy) (d a : Operand) (s : State) :
    exec (.vclz h t d a) s = execVclz h t d a s := rfl
@[simp] theorem exec_vctz (h : LaneHdr) (t : ITy) (d a : Operand) (s : State) :
    exec (.vctz h t d a) s = execVctz h t d a s := rfl
@[simp] theorem exec_vpopc (h : LaneHdr) (t : ITy) (d a : Operand) (s : State) :
    exec (.vpopc h t d a) s = execVpopc h t d a s := rfl
@[simp] theorem exec_vbrev (h : LaneHdr) (t : ITy) (d a : Operand) (s : State) :
    exec (.vbrev h t d a) s = execVbrev h t d a s := rfl
@[simp] theorem exec_vbext (h : LaneHdr) (t : ITy) (d a b : Operand) (s : State) :
    exec (.vbext h t d a b) s = execVbext h t d a b s := rfl
@[simp] theorem exec_vcmp (h : LaneHdr) (t : ITy) (k : Cond) (d : CmpDst) (a b : Operand) (s : State) :
    exec (.vcmp h t k d a b) s = execVcmp h t k d a b s := rfl
@[simp] theorem exec_vsel (h : LaneHdr) (t : ETy) (d a b : Operand) (p : BitVec 3) (n : Bool) (s : State) :
    exec (.vsel h t d a b p n) s = execVsel h t d a b p n s := rfl
@[simp] theorem exec_vmov (h : LaneHdr) (t : ETy) (d a : Operand) (s : State) :
    exec (.vmov h t d a) s = execVmov h t d a s := rfl
@[simp] theorem exec_vli (h : LaneHdr) (t : LiTy) (d : Operand) (k : Word32) (s : State) :
    exec (.vli h t d k) s = execVli h t d k s := rfl
@[simp] theorem exec_vext (h : LaneHdr) (t s_ : ITy) (d a : Operand) (s : State) :
    exec (.vext h t s_ d a) s = execVext h t s_ d a s := rfl
@[simp] theorem exec_vnrw (h : LaneHdr) (t s_ : ITy) (sat : Bool) (d a : Operand) (s : State) :
    exec (.vnrw h t s_ sat d a) s = execVnrw h t s_ sat d a s := rfl
@[simp] theorem exec_vfadd (h : LaneHdr) (t : FTy) (r : Rnd) (d a b : Operand) (s : State) :
    exec (.vfadd h t r d a b) s = execVfadd h t r d a b s := rfl
@[simp] theorem exec_vfsub (h : LaneHdr) (t : FTy) (r : Rnd) (d a b : Operand) (s : State) :
    exec (.vfsub h t r d a b) s = execVfsub h t r d a b s := rfl
@[simp] theorem exec_vfmul (h : LaneHdr) (t : FTy) (r : Rnd) (d a b : Operand) (s : State) :
    exec (.vfmul h t r d a b) s = execVfmul h t r d a b s := rfl
@[simp] theorem exec_vffma (h : LaneHdr) (t : FTy) (r : Rnd) (d a b c : Operand) (s : State) :
    exec (.vffma h t r d a b c) s = execVffma h t r d a b c s := rfl
@[simp] theorem exec_vfmin (h : LaneHdr) (t : FTy) (d a b : Operand) (s : State) :
    exec (.vfmin h t d a b) s = execVfmin h t d a b s := rfl
@[simp] theorem exec_vfmax (h : LaneHdr) (t : FTy) (d a b : Operand) (s : State) :
    exec (.vfmax h t d a b) s = execVfmax h t d a b s := rfl
@[simp] theorem exec_vfcmp (h : LaneHdr) (t : FTy) (k : Cond) (d : CmpDst) (a b : Operand) (s : State) :
    exec (.vfcmp h t k d a b) s = execVfcmp h t k d a b s := rfl
@[simp] theorem exec_vfrcp (h : LaneHdr) (t : FTy) (d a : Operand) (s : State) :
    exec (.vfrcp h t d a) s = execVfrcp h t d a s := rfl
@[simp] theorem exec_vfrsq (h : LaneHdr) (t : FTy) (d a : Operand) (s : State) :
    exec (.vfrsq h t d a) s = execVfrsq h t d a s := rfl
@[simp] theorem exec_vfex2 (h : LaneHdr) (t : FTy) (d a : Operand) (s : State) :
    exec (.vfex2 h t d a) s = execVfex2 h t d a s := rfl
@[simp] theorem exec_vflg2 (h : LaneHdr) (t : FTy) (d a : Operand) (s : State) :
    exec (.vflg2 h t d a) s = execVflg2 h t d a s := rfl
@[simp] theorem exec_vfsin (h : LaneHdr) (t : FTy) (d a : Operand) (s : State) :
    exec (.vfsin h t d a) s = execVfsin h t d a s := rfl
@[simp] theorem exec_vfcos (h : LaneHdr) (t : FTy) (d a : Operand) (s : State) :
    exec (.vfcos h t d a) s = execVfcos h t d a s := rfl
@[simp] theorem exec_vftnh (h : LaneHdr) (t : FTy) (d a : Operand) (s : State) :
    exec (.vftnh h t d a) s = execVftnh h t d a s := rfl
@[simp] theorem exec_vfcvt (h : LaneHdr) (ovf : Bool) (r : Rnd) (s_ t : Fmt) (d a : Operand) (s : State) :
    exec (.vfcvt h ovf r s_ t d a) s = execVfcvt h ovf r s_ t d a s := rfl
@[simp] theorem exec_vfcls (h : LaneHdr) (t : FTy) (d a : Operand) (s : State) :
    exec (.vfcls h t d a) s = execVfcls h t d a s := rfl
@[simp] theorem exec_vfdot2 (h : LaneHdr) (bf : Bool) (r : Rnd) (d a b c : Operand) (s : State) :
    exec (.vfdot2 h bf r d a b c) s = execVfdot2 h bf r d a b c s := rfl
@[simp] theorem exec_vfdot4 (h : LaneHdr) (v : B8Var) (p : BitVec 3) (r : Rnd) (d a b c : Operand) (s : State) :
    exec (.vfdot4 h v p r d a b c) s = execVfdot4 h v p r d a b c s := rfl
@[simp] theorem exec_vfscl (h : LaneHdr) (t : FTy) (r : Rnd) (d a b : Operand) (s : State) :
    exec (.vfscl h t r d a b) s = execVfscl h t r d a b s := rfl
@[simp] theorem exec_vshfl (h : LaneHdr) (t : ETy) (m : ShMode) (d a b : Operand) (s : State) :
    exec (.vshfl h t m d a b) s = execVshfl h t m d a b s := rfl
@[simp] theorem exec_vbcast (h : LaneHdr) (t : ETy) (d a b : Operand) (s : State) :
    exec (.vbcast h t d a b) s = execVbcast h t d a b s := rfl
@[simp] theorem exec_vlred (h : LaneHdr) (t : ETy) (o : RedOp) (r : Rnd) (d a : Operand) (s : State) :
    exec (.vlred h t o r d a) s = execVlred h t o r d a s := rfl
@[simp] theorem exec_vscan (h : LaneHdr) (t : ETy) (o : RedOp) (r : Rnd) (d a : Operand) (s : State) :
    exec (.vscan h t o r d a) s = execVscan h t o r d a s := rfl
@[simp] theorem exec_vmred (h : LaneHdr) (t : ETy) (o : RedOp) (r : Rnd) (p : BitVec 3) (d a b : Operand) (s : State) :
    exec (.vmred h t o r p d a b) s = execVmred h t o r p d a b s := rfl
@[simp] theorem exec_vballot (h : LaneHdr) (w64 : Bool) (p : BitVec 3) (d : Operand) (s : State) :
    exec (.vballot h w64 p d) s = execVballot h w64 p d s := rfl
@[simp] theorem exec_vvote (h : LaneHdr) (m : VoteMode) (p q : BitVec 3) (s : State) :
    exec (.vvote h m p q) s = execVvote h m p q s := rfl
@[simp] theorem exec_vlid (h : LaneHdr) (d : Operand) (s : State) :
    exec (.vlid h d) s = execVlid h d s := rfl
@[simp] theorem exec_pand (h : LaneHdr) (pd pa pb : BitVec 3) (na nb : Bool) (s : State) :
    exec (.pand h pd pa pb na nb) s = execPand h pd pa pb na nb s := rfl
@[simp] theorem exec_por (h : LaneHdr) (pd pa pb : BitVec 3) (na nb : Bool) (s : State) :
    exec (.por h pd pa pb na nb) s = execPor h pd pa pb na nb s := rfl
@[simp] theorem exec_pxor (h : LaneHdr) (pd pa pb : BitVec 3) (na nb : Bool) (s : State) :
    exec (.pxor h pd pa pb na nb) s = execPxor h pd pa pb na nb s := rfl
@[simp] theorem exec_pnot (h : LaneHdr) (pd pa : BitVec 3) (na : Bool) (s : State) :
    exec (.pnot h pd pa na) s = execPnot h pd pa na s := rfl
@[simp] theorem exec_pmov (h : LaneHdr) (pd pa : BitVec 3) (na : Bool) (s : State) :
    exec (.pmov h pd pa na) s = execPmov h pd pa na s := rfl
@[simp] theorem exec_lbr (p : BitVec 3) (n : Bool) (all : Bool) (o : BitVec 25) (s : State) :
    exec (.lbr p n all o) s = execLbr p n all o s := rfl
@[simp] theorem exec_ljmp (o : BitVec 25) (s : State) :
    exec (.ljmp o) s = execLjmp o s := rfl
@[simp] theorem exec_regang (k : BitVec 4) (s : State) :
    exec (.regang k) s = execRegang k s := rfl
@[simp] theorem exec_lnop (h : LaneHdr) (s : State) :
    exec (.lnop h) s = execLnop h s := rfl
@[simp] theorem exec_vwSet (h : LaneHdr) (v : BitVec 5) (a : Operand) (s : State) :
    exec (.vwSet h v a) s = execVwSet h v a s := rfl
@[simp] theorem exec_vld (h : LaneHdr) (t : ETy) (sc : Scope) (acq : Bool) (o : BitVec 12) (d a : Operand) (s : State) :
    exec (.vld h t sc acq o d a) s = execVld h t sc acq o d a s := rfl
@[simp] theorem exec_vst (h : LaneHdr) (t : ETy) (sc : Scope) (rel : Bool) (o : BitVec 12) (a b : Operand) (s : State) :
    exec (.vst h t sc rel o a b) s = execVst h t sc rel o a b s := rfl
@[simp] theorem exec_vamo (h : LaneHdr) (t : AtTy) (op : AmoOp) (sc : Scope) (sem : Sem) (o : BitVec 12) (d a b : Operand) (s : State) :
    exec (.vamo h t op sc sem o d a b) s = execVamo h t op sc sem o d a b s := rfl
@[simp] theorem exec_vcas (h : LaneHdr) (t : AtTy) (sc : Scope) (sem : Sem) (o : BitVec 12) (d a b c : Operand) (s : State) :
    exec (.vcas h t sc sem o d a b c) s = execVcas h t sc sem o d a b c s := rfl
@[simp] theorem exec_vtld (h : LaneHdr) (v : BitVec 4) (k : BitVec 8) (n : BitVec 6) (s : State) :
    exec (.vtld h v k n) s = execVtld h v k n s := rfl
@[simp] theorem exec_vtst (h : LaneHdr) (v : BitVec 4) (k : BitVec 8) (n : BitVec 6) (s : State) :
    exec (.vtst h v k n) s = execVtst h v k n s := rfl
@[simp] theorem exec_laneFence (h : LaneHdr) (sc : Scope) (k : FenceKind) (s : State) :
    exec (.laneFence h sc k) s = execLaneFence h sc k s := rfl
@[simp] theorem exec_laneRadd (h : LaneHdr) (t : CrTy) (a b : Operand) (s : State) :
    exec (.laneRadd h t a b) s = execLaneRadd h t a b s := rfl
@[simp] theorem exec_laneBarArr (h : LaneHdr) (n : BitVec 6) (s : State) :
    exec (.laneBarArr h n) s = execLaneBarArr h n s := rfl
@[simp] theorem exec_laneBarExp (h : LaneHdr) (n : BitVec 6) (b : Operand) (s : State) :
    exec (.laneBarExp h n b) s = execLaneBarExp h n b s := rfl
@[simp] theorem exec_laneBarWait (h : LaneHdr) (n : BitVec 6) (q : Bool) (s : State) :
    exec (.laneBarWait h n q) s = execLaneBarWait h n q s := rfl
@[simp] theorem exec_laneBarTry (h : LaneHdr) (n : BitVec 6) (q : Bool) (p : BitVec 3) (s : State) :
    exec (.laneBarTry h n q p) s = execLaneBarTry h n q p s := rfl
@[simp] theorem exec_pairedWord (h : LaneHdr) (x y : HalfOp) (s : State) :
    exec (.pairedWord h x y) s = execPairedWord h x y s := rfl
@[simp] theorem exec_mls (ta : BitVec 6) (mi : BitVec 4) (dk dn : BitVec 16) (s : State) :
    exec (.mls ta mi dk dn) s = execMls ta mi dk dn s := rfl
@[simp] theorem exec_mst (ta : BitVec 6) (mi : BitVec 4) (row count : BitVec 11) (acct : Bool) (s : State) :
    exec (.mst ta mi row count acct) s = execMst ta mi row count acct s := rfl
@[simp] theorem exec_mzr (row count : BitVec 11) (s : State) :
    exec (.mzr row count) s = execMzr row count s := rfl
@[simp] theorem exec_mdr (tb : BitVec 6) (mi : BitVec 4) (row count : BitVec 11) (r : Rnd) (ovf clr : Bool) (sh : BitVec 5) (s : State) :
    exec (.mdr tb mi row count r ovf clr sh) s = execMdr tb mi row count r ovf clr sh s := rfl
@[simp] theorem exec_mspn (n : BitVec 8) (lead : BitVec 2) (s : State) :
    exec (.mspn n lead) s = execMspn n lead s := rfl
@[simp] theorem exec_mbarr (b : BitVec 8) (s : State) :
    exec (.mbarr b) s = execMbarr b s := rfl
@[simp] theorem exec_mbwt (b : BitVec 8) (q : Bool) (s : State) :
    exec (.mbwt b q) s = execMbwt b q s := rfl
@[simp] theorem exec_mset (mi : BitVec 4) (hi : Bool) (v : BitVec 31) (s : State) :
    exec (.mset mi hi v) s = execMset mi hi v s := rfl
@[simp] theorem exec_madd (mi : BitVec 4) (hi : Bool) (v : BitVec 31) (s : State) :
    exec (.madd mi hi v) s = execMadd mi hi v s := rfl
@[simp] theorem exec_mloop (mi : BitVec 4) (o : BitVec 32) (s : State) :
    exec (.mloop mi o) s = execMloop mi o s := rfl
@[simp] theorem exec_mjmp (o : BitVec 32) (s : State) :
    exec (.mjmp o) s = execMjmp o s := rfl
@[simp] theorem exec_portSend (v : Word) (s : State) :
    exec (.portSend v) s = execPortSend v s := rfl
@[simp] theorem exec_portReceive (d : Reg) (s : State) :
    exec (.portReceive d) s = execPortReceive d s := rfl
@[simp] theorem exec_fcsrWrite (v : Word) (s : State) :
    exec (.fcsrWrite v) s = execFcsrWrite v s := rfl
@[simp] theorem exec_segHotClear (n : BitVec 8) (s : State) :
    exec (.segHotClear n) s = execSegHotClear n s := rfl
@[simp] theorem exec_colPwrFloorWrite (v : BitVec 3) (s : State) :
    exec (.colPwrFloorWrite v) s = execColPwrFloorWrite v s := rfl
@[simp] theorem exec_hostClkReqWrite (mhz : BitVec 16) (s : State) :
    exec (.hostClkReqWrite mhz) s = execHostClkReqWrite mhz s := rfl
@[simp] theorem exec_registerWrite (n : BitVec 12) (v : Word) (s : State) :
    exec (.registerWrite n v) s = execRegisterWrite n v s := rfl
@[simp] theorem exec_debuggerRead (g : Nat) (l : BitVec 5) (n : BitVec 8) (s : State) :
    exec (.debuggerRead g l n) s = execDebuggerRead g l n s := rfl
@[simp] theorem exec_debuggerWrite (g : Nat) (l : BitVec 5) (n : BitVec 8) (v : Word32) (s : State) :
    exec (.debuggerWrite g l n v) s = execDebuggerWrite g l n v s := rfl
@[simp] theorem exec_faultRecordRetry (n : Nat) (s : State) :
    exec (.faultRecordRetry n) s = execFaultRecordRetry n s := rfl
@[simp] theorem exec_pageFaultReplay (a : AgentId) (s : State) :
    exec (.pageFaultReplay a) s = execPageFaultReplay a s := rfl
@[simp] theorem exec_runForcedEnd (g k : Nat) (s : State) :
    exec (.runForcedEnd g k) s = execRunForcedEnd g k s := rfl
@[simp] theorem exec_runSplit (g k : Nat) (s : State) :
    exec (.runSplit g k) s = execRunSplit g k s := rfl
@[simp] theorem exec_runPromotion (g k : Nat) (s : State) :
    exec (.runPromotion g k) s = execRunPromotion g k s := rfl
@[simp] theorem exec_xacqGrant (b : Nat) (s : State) :
    exec (.xacqGrant b) s = execXacqGrant b s := rfl
@[simp] theorem exec_winterEntry (b : Bank) (s : State) :
    exec (.winterEntry b) s = execWinterEntry b s := rfl
@[simp] theorem exec_powerGate (p : PowerRegion) (s : State) :
    exec (.powerGate p) s = execPowerGate p s := rfl
@[simp] theorem exec_spring (p : PowerRegion) (s : State) :
    exec (.spring p) s = execSpring p s := rfl
@[simp] theorem exec_storeDrain (a : AgentId) (s : State) :
    exec (.storeDrain a) s = execStoreDrain a s := rfl
@[simp] theorem exec_writeAtHome (m : Nat) (s : State) :
    exec (.writeAtHome m) s = execWriteAtHome m s := rfl
@[simp] theorem exec_writeAck (m : Nat) (s : State) :
    exec (.writeAck m) s = execWriteAck m s := rfl
@[simp] theorem exec_fillReceive (m : Nat) (s : State) :
    exec (.fillReceive m) s = execFillReceive m s := rfl
@[simp] theorem exec_invalidationReceive (m : Nat) (s : State) :
    exec (.invalidationReceive m) s = execInvalidationReceive m s := rfl
@[simp] theorem exec_updateReceive (m : Nat) (s : State) :
    exec (.updateReceive m) s = execUpdateReceive m s := rfl
@[simp] theorem exec_cacheEviction (hd line : Nat) (s : State) :
    exec (.cacheEviction hd line) s = execCacheEviction hd line s := rfl
@[simp] theorem exec_evictionNotice (m : Nat) (s : State) :
    exec (.evictionNotice m) s = execEvictionNotice m s := rfl
@[simp] theorem exec_sliceEvictionPush (col line : Nat) (s : State) :
    exec (.sliceEvictionPush col line) s = execSliceEvictionPush col line s := rfl
@[simp] theorem exec_directoryEviction (line : Nat) (s : State) :
    exec (.directoryEviction line) s = execDirectoryEviction line s := rfl
@[simp] theorem exec_partialEviction (core line : Nat) (s : State) :
    exec (.partialEviction core line) s = execPartialEviction core line s := rfl
@[simp] theorem exec_spmForward (m : Nat) (s : State) :
    exec (.spmForward m) s = execSpmForward m s := rfl
@[simp] theorem exec_flitDelivery (m : Nat) (s : State) :
    exec (.flitDelivery m) s = execFlitDelivery m s := rfl
@[simp] theorem exec_flitResend (m : Nat) (s : State) :
    exec (.flitResend m) s = execFlitResend m s := rfl
@[simp] theorem exec_enginePayloadLand (e : Nat) (s : State) :
    exec (.enginePayloadLand e) s = execEnginePayloadLand e s := rfl
@[simp] theorem exec_engineCompletion (e : Nat) (s : State) :
    exec (.engineCompletion e) s = execEngineCompletion e s := rfl
@[simp] theorem exec_engineFault (e : Nat) (cause : BitVec 8) (elem : Word32) (s : State) :
    exec (.engineFault e cause elem) s = execEngineFault e cause elem s := rfl
@[simp] theorem exec_spannedStep (b : Nat) (s : State) :
    exec (.spannedStep b) s = execSpannedStep b s := rfl
@[simp] theorem exec_mxBudgetWindow (core : Nat) (s : State) :
    exec (.mxBudgetWindow core) s = execMxBudgetWindow core s := rfl
@[simp] theorem exec_launchPost (col q : Nat) (v : Word) (s : State) :
    exec (.launchPost col q v) s = execLaunchPost col q v s := rfl
@[simp] theorem exec_launchAccept (col q : Nat) (s : State) :
    exec (.launchAccept col q) s = execLaunchAccept col q s := rfl
@[simp] theorem exec_launchAgePromotion (col q : Nat) (s : State) :
    exec (.launchAgePromotion col q) s = execLaunchAgePromotion col q s := rfl
@[simp] theorem exec_blockPlace (col : Nat) (s : State) :
    exec (.blockPlace col) s = execBlockPlace col s := rfl
@[simp] theorem exec_blockStart (b : Nat) (s : State) :
    exec (.blockStart b) s = execBlockStart b s := rfl
@[simp] theorem exec_travellerBirth (r : Nat) (s : State) :
    exec (.travellerBirth r) s = execTravellerBirth r s := rfl
@[simp] theorem exec_blockRetire (b : Nat) (s : State) :
    exec (.blockRetire b) s = execBlockRetire b s := rfl
@[simp] theorem exec_regionRetire (r : Nat) (s : State) :
    exec (.regionRetire r) s = execRegionRetire r s := rfl
@[simp] theorem exec_preemptStop (b : Nat) (s : State) :
    exec (.preemptStop b) s = execPreemptStop b s := rfl
@[simp] theorem exec_preemptDeadlineMiss (b : Nat) (s : State) :
    exec (.preemptDeadlineMiss b) s = execPreemptDeadlineMiss b s := rfl
@[simp] theorem exec_stubForward (n : Nat) (s : State) :
    exec (.stubForward n) s = execStubForward n s := rfl
@[simp] theorem exec_marchArrival (g : Nat) (s : State) :
    exec (.marchArrival g) s = execMarchArrival g s := rfl
@[simp] theorem exec_marchAdmit (core : Nat) (s : State) :
    exec (.marchAdmit core) s = execMarchAdmit core s := rfl
@[simp] theorem exec_freeCountBroadcast (core : Nat) (s : State) :
    exec (.freeCountBroadcast core) s = execFreeCountBroadcast core s := rfl
@[simp] theorem exec_peerLaunchPacket (p : LaunchPacket) (s : State) :
    exec (.peerLaunchPacket p) s = execPeerLaunchPacket p s := rfl
@[simp] theorem exec_domainRequest (r : DomainReq) (s : State) :
    exec (.domainRequest r) s = execDomainRequest r s := rfl
@[simp] theorem exec_remoteRetry (n : Nat) (s : State) :
    exec (.remoteRetry n) s = execRemoteRetry n s := rfl
@[simp] theorem exec_backInvalidate (line : Nat) (s : State) :
    exec (.backInvalidate line) s = execBackInvalidate line s := rfl
@[simp] theorem exec_dcCapacityEvent (e : DcEvent) (s : State) :
    exec (.dcCapacityEvent e) s = execDcCapacityEvent e s := rfl
@[simp] theorem exec_dcResponse (port : Nat) (s : State) :
    exec (.dcResponse port) s = execDcResponse port s := rfl
@[simp] theorem exec_hbmRd (g pc tag : Nat) (flaw : EccFlaw) (s : State) :
    exec (.hbmRd g pc tag flaw) s = execHbmRd g pc tag flaw s := rfl
@[simp] theorem exec_hbmWr (g pc tag : Nat) (flaw : EccFlaw) (s : State) :
    exec (.hbmWr g pc tag flaw) s = execHbmWr g pc tag flaw s := rfl
@[simp] theorem exec_hbmWrm (g pc tag : Nat) (flaw : EccFlaw) (s : State) :
    exec (.hbmWrm g pc tag flaw) s = execHbmWrm g pc tag flaw s := rfl
@[simp] theorem exec_hbmRdata (g pc tag : Nat) (s : State) :
    exec (.hbmRdata g pc tag) s = execHbmRdata g pc tag s := rfl
@[simp] theorem exec_hbmWack (g pc tag : Nat) (s : State) :
    exec (.hbmWack g pc tag) s = execHbmWack g pc tag s := rfl
@[simp] theorem exec_refresh (g pc row : Nat) (s : State) :
    exec (.refresh g pc row) s = execRefresh g pc row s := rfl
@[simp] theorem exec_patrolRead (g addr : Nat) (flaw : EccFlaw) (s : State) :
    exec (.patrolRead g addr flaw) s = execPatrolRead g addr flaw s := rfl
@[simp] theorem exec_softError (e : SoftErr) (s : State) :
    exec (.softError e) s = execSoftError e s := rfl
@[simp] theorem exec_dieLinkError (m : BitVec 2) (s : State) :
    exec (.dieLinkError m) s = execDieLinkError m s := rfl
@[simp] theorem exec_governorSample (s_ : PowerSample) (s : State) :
    exec (.governorSample s_) s = execGovernorSample s_ s := rfl
@[simp] theorem exec_throttleChange (col : Nat) (s : State) :
    exec (.throttleChange col) s = execThrottleChange col s := rfl
@[simp] theorem exec_droopAlarm (core mv : Nat) (s : State) :
    exec (.droopAlarm core mv) s = execDroopAlarm core mv s := rfl
@[simp] theorem exec_droopStretchEnd (core : Nat) (s : State) :
    exec (.droopStretchEnd core) s = execDroopStretchEnd core s := rfl
@[simp] theorem exec_droopHalvingEnd (core : Nat) (s : State) :
    exec (.droopHalvingEnd core) s = execDroopHalvingEnd core s := rfl
@[simp] theorem exec_ageingRead (slow : List Nat) (s : State) :
    exec (.ageingRead slow) s = execAgeingRead slow s := rfl
@[simp] theorem exec_autumn (plan : List AutumnStep) (s : State) :
    exec (.autumn plan) s = execAutumn plan s := rfl
@[simp] theorem exec_autumnStep (s : State) :
    exec (.autumnStep) s = execAutumnStep s := rfl
@[simp] theorem exec_feedChange (feed ok : Bool) (s : State) :
    exec (.feedChange feed ok) s = execFeedChange feed ok s := rfl
@[simp] theorem exec_coldReset (i_ : BootImage) (s : State) :
    exec (.coldReset i_) s = execColdReset i_ s := rfl
@[simp] theorem exec_hostFrameWrite (slot off : Nat) (d : List Byte) (s : State) :
    exec (.hostFrameWrite slot off d) s = execHostFrameWrite slot off d s := rfl
@[simp] theorem exec_doorbell (slot : Nat) (v : Word) (s : State) :
    exec (.doorbell slot v) s = execDoorbell slot v s := rfl
@[simp] theorem exec_launchFrame (s : State) :
    exec (.launchFrame) s = execLaunchFrame s := rfl
@[simp] theorem exec_copyFrame (s : State) :
    exec (.copyFrame) s = execCopyFrame s := rfl
@[simp] theorem exec_queryFrame (s : State) :
    exec (.queryFrame) s = execQueryFrame s := rfl
@[simp] theorem exec_attestFrame (s : State) :
    exec (.attestFrame) s = execAttestFrame s := rfl
@[simp] theorem exec_healthRead (s : State) :
    exec (.healthRead) s = execHealthRead s := rfl
@[simp] theorem exec_blackBoxRead (s : State) :
    exec (.blackBoxRead) s = execBlackBoxRead s := rfl
@[simp] theorem exec_blackBoxUnfreeze (s : State) :
    exec (.blackBoxUnfreeze) s = execBlackBoxUnfreeze s := rfl
@[simp] theorem exec_hostThreadRestart (s : State) :
    exec (.hostThreadRestart) s = execHostThreadRestart s := rfl
@[simp] theorem exec_blackBoxFreezeAll (s : State) :
    exec (.blackBoxFreezeAll) s = execBlackBoxFreezeAll s := rfl
@[simp] theorem exec_packageReset (s : State) :
    exec (.packageReset) s = execPackageReset s := rfl
@[simp] theorem exec_homeResponse (a : AgentId) (s : State) :
    exec (.homeResponse a) s = execHomeResponse a s := rfl
@[simp] theorem exec_capacityWithdrawal (port base len : Nat) (s : State) :
    exec (.capacityWithdrawal port base len) s = execCapacityWithdrawal port base len s := rfl
@[simp] theorem exec_lwait (s : State) :
    exec (.lwait) s = execLwait s := rfl
@[simp] theorem exec_nop (s : State) :
    exec (.nop) s = execNop s := rfl
@[simp] theorem exec_done (s : State) :
    exec (.done) s = execDone s := rfl
@[simp] theorem exec_yieldGroup (s : State) :
    exec (.yieldGroup) s = execYieldGroup s := rfl
@[simp] theorem exec_monWait (s : State) :
    exec (.monWait) s = execMonWait s := rfl
@[simp] theorem exec_idle (s : State) :
    exec (.idle) s = execIdle s := rfl
@[simp] theorem exec_halt (s : State) :
    exec (.halt) s = execHalt s := rfl
@[simp] theorem exec_lend (s : State) :
    exec (.lend) s = execLend s := rfl
@[simp] theorem exec_mswp (s : State) :
    exec (.mswp) s = execMswp s := rfl
@[simp] theorem exec_mend (s : State) :
    exec (.mend) s = execMend s := rfl
@[simp] theorem exec_mnop (s : State) :
    exec (.mnop) s = execMnop s := rfl

end Sys2Proof.Laws
end

