-- ==== Sys2Proof/Laws/Maps.lean ====
section
/-! SUPPORT. What reading a map answers after a key is set, removed or changed. -/

namespace Sys2Proof.Laws

open Sys2Proof.Machine

variable {α β : Type}

/-- Removing a key leaves it without an object. -/
@[simp] theorem ffind_mdel_same (m : FMap α) (k : Nat) : ffind (mdel m k) k = none := by
  induction m with
  | nil => rfl
  | cons p t ih =>
    obtain ⟨j, v⟩ := p
    unfold mdel at ih ⊢
    by_cases h : j = k
    · simpa [List.filter, h] using ih
    · rw [List.filter_cons_of_pos (by simpa using h)]; simp [ffind, h, ih]

/-- Removing a key keeps the objects of all others. -/
theorem ffind_mdel_ne (m : FMap α) {k j : Nat} (h : j ≠ k) : ffind (mdel m k) j = ffind m j := by
  induction m with
  | nil => rfl
  | cons p t ih =>
    obtain ⟨i, v⟩ := p
    unfold mdel at ih ⊢
    by_cases e : i = k
    · subst e
      simpa [List.filter, ffind, Ne.symm h] using ih
    · rw [List.filter_cons_of_pos (by simpa using e)]; simp [ffind, ih]

/-- Inserting a pair whose key has no object gives it that object. -/
theorem ffind_sins_same (m : FMap α) (k : Nat) (v : α) (h : ffind m k = none) : ffind (sins m k v) k = some v := by
  induction m with
  | nil => simp [sins, ffind]
  | cons p t ih =>
    obtain ⟨i, u⟩ := p
    simp only [ffind] at h
    split at h
    · simp at h
    · rename_i e
      simp only [sins]
      split
      · simp [ffind]
      · simp [ffind, e, ih h]

/-- Inserting a pair keeps the objects of all other keys. -/
theorem ffind_sins_ne (m : FMap α) {k j : Nat} (v : α) (h : j ≠ k) : ffind (sins m k v) j = ffind m j := by
  induction m with
  | nil => simp [sins, ffind, Ne.symm h]
  | cons p t ih =>
    obtain ⟨i, u⟩ := p
    simp only [sins]
    split
    · simp [ffind, Ne.symm h]
    · simp [ffind, ih]

/-- Setting a key gives it that object. -/
@[simp] theorem ffind_fset_same (m : FMap α) (k : Nat) (v : α) : ffind (fset m k v) k = some v :=
  ffind_sins_same _ _ _ (ffind_mdel_same _ _)

/-- Setting a key keeps the objects of all others. -/
theorem ffind_fset_ne (m : FMap α) {k j : Nat} (v : α) (h : j ≠ k) : ffind (fset m k v) j = ffind m j := by
  rw [fset, ffind_sins_ne _ _ h, ffind_mdel_ne _ h]

/-- Changing a key's object. -/
@[simp] theorem ffind_fmod_same (m : FMap α) (k : Nat) (f : α → α) : ffind (fmod m k f) k = (ffind m k).map f := by
  unfold fmod
  split
  · rename_i v h; simp [h]
  · rename_i h; simp [h]

/-- Changing a key's object keeps those of all others. -/
theorem ffind_fmod_ne (m : FMap α) {k j : Nat} (f : α → α) (h : j ≠ k) : ffind (fmod m k f) j = ffind m j := by
  unfold fmod
  split
  · exact ffind_fset_ne _ _ h
  · rfl

/-- Mapping every object. -/
theorem ffind_map (m : FMap α) (f : Nat → α → α) (k : Nat) :
    ffind (m.map fun p => (p.1, f p.1 p.2)) k = (ffind m k).map (f k) := by
  induction m with
  | nil => rfl
  | cons p t ih =>
    obtain ⟨i, u⟩ := p
    simp only [List.map, ffind]
    split
    · rename_i e; simp [e]
    · exact ih

/-- A register map reads as the object map with zero for what is missing. -/
theorem sget_eq {w : Nat} (m : SMap w) (k : Nat) : sget m k = (ffind m k).getD 0#w := by
  induction m with
  | nil => rfl
  | cons p t ih =>
    obtain ⟨i, u⟩ := p
    simp only [sget, ffind]
    split
    · rfl
    · exact ih

/-- A register reads back as it was written. -/
@[simp] theorem sget_sset_same {w : Nat} (m : SMap w) (k : Nat) (v : BitVec w) : sget (sset m k v) k = v := by
  rw [sget_eq, sset]
  split
  · rename_i h; rw [ffind_mdel_same]; exact h.symm
  · rw [ffind_sins_same _ _ _ (ffind_mdel_same _ _)]; rfl

/-- Writing a register keeps all others. -/
theorem sget_sset_ne {w : Nat} (m : SMap w) {k j : Nat} (v : BitVec w) (h : j ≠ k) : sget (sset m k v) j = sget m j := by
  rw [sget_eq, sget_eq, sset]
  split
  · rw [ffind_mdel_ne _ h]
  · rw [ffind_sins_ne _ _ h, ffind_mdel_ne _ h]

end Sys2Proof.Laws
end

