-- ==== Sys2Proof/Laws/Memory.lean ====
section
/-! SUPPORT. Physical memory: its canonical form is kept by every write, and a byte reads as it was last written. -/

namespace Sys2Proof.Laws

open Sys2Proof.Machine

/-- Every address of a memory is at least b, and the memory is canonical. -/
def MemFrom (b : Nat) (m : List Host.Cell) : Prop := Memory.wf m = true ∧ ∀ c ∈ m, b ≤ c.1

/-- A canonical memory by its first cell and the rest. -/
theorem wf_cons (c : Host.Cell) (t : List Host.Cell) :
    Memory.wf (c :: t) = true ↔ c.2 ≠ 0#8 ∧ MemFrom (c.1 + 1) t := by
  unfold MemFrom
  induction t generalizing c with
  | nil => simp [Memory.wf]
  | cons d t ih =>
    simp only [Memory.wf, Bool.and_eq_true, bne_iff_ne, ne_eq, decide_eq_true_eq, List.mem_cons, forall_eq_or_imp]
    rw [ih d]
    constructor
    · rintro ⟨⟨h1, h2⟩, h3, h4, h5⟩
      exact ⟨h1, ⟨h3, h4, h5⟩, h2, fun x hx => by have := h5 x hx; omega⟩
    · rintro ⟨h1, ⟨h3, h4, h5⟩, h2, -⟩
      exact ⟨⟨h1, h2⟩, h3, h4, h5⟩

/-- Removing a cell keeps the form. -/
theorem mdel_memFrom {b : Nat} {m : List Host.Cell} (h : MemFrom b m) (k : Nat) : MemFrom b (mdel m k) := by
  induction m generalizing b with
  | nil => exact h
  | cons c t ih =>
    obtain ⟨h1, h2⟩ := h
    rw [wf_cons] at h1
    have hc := h2 c (by simp)
    unfold mdel at ih ⊢
    by_cases e : c.1 = k
    · rw [List.filter_cons_of_neg (by simpa using e)]
      have := ih h1.2
      exact ⟨this.1, fun x hx => by have := this.2 x hx; omega⟩
    · rw [List.filter_cons_of_pos (by simpa using e)]
      refine ⟨(wf_cons _ _).2 ⟨h1.1, ih h1.2⟩, ?_⟩
      intro x hx
      rcases List.mem_cons.1 hx with rfl | hx
      · exact hc
      · have := (ih h1.2).2 x hx; omega

/-- Inserting a cell whose address is not listed keeps the form. -/
theorem sins_memFrom {b : Nat} {m : List Host.Cell} (h : MemFrom b m) {k : Nat} {v : Byte} (hk : b ≤ k) (hv : v ≠ 0#8)
    (hn : ∀ c ∈ m, c.1 ≠ k) : MemFrom b (sins m k v) := by
  induction m generalizing b with
  | nil => exact ⟨by simpa [sins, Memory.wf] using hv, by simpa [sins] using hk⟩
  | cons c t ih =>
    obtain ⟨h1, h2⟩ := h
    obtain ⟨a, u⟩ := c
    have ha := h2 _ (List.mem_cons_self ..)
    have hne : a ≠ k := hn _ (List.mem_cons_self ..)
    unfold sins
    split
    · rename_i hlt
      refine ⟨(wf_cons _ _).2 ⟨hv, h1, ?_⟩, ?_⟩
      · rw [wf_cons] at h1
        intro x hx
        rcases List.mem_cons.1 hx with rfl | hx
        · exact hlt
        · have := h1.2.2 x hx; simp only at this; omega
      · intro x hx
        rcases List.mem_cons.1 hx with rfl | hx
        · exact hk
        · exact h2 x hx
    · rename_i hlt
      rw [wf_cons] at h1
      have hr : MemFrom (a + 1) (sins t k v) := ih h1.2 (by omega) fun x hx => hn x (List.mem_cons_of_mem _ hx)
      refine ⟨(wf_cons _ _).2 ⟨h1.1, hr⟩, ?_⟩
      intro x hx
      rcases List.mem_cons.1 hx with rfl | hx
      · exact ha
      · have := hr.2 x hx; simp only at ha; omega

/-- Memory of any addresses. -/
theorem memFrom_zero (m : List Host.Cell) : MemFrom 0 m ↔ Memory.wf m = true := by simp [MemFrom]

/-- A write keeps the form. -/
theorem write_wf {m : List Host.Cell} (h : Memory.wf m = true) (a : Nat) (v : Byte) : Memory.wf (Memory.write m a v) = true := by
  rw [← memFrom_zero] at h ⊢
  unfold Memory.write sset
  split
  · exact mdel_memFrom h a
  · rename_i hv
    exact sins_memFrom (mdel_memFrom h a) (Nat.zero_le _) hv (by intro c hc; simpa [mdel] using (List.mem_filter.1 hc).2)

/-- A masked write of bytes keeps the form. -/
theorem writeMasked_wf {m : List Host.Cell} (h : Memory.wf m = true) (a : Nat) (d : LineData) (k : BitVec 128) (n : Nat) :
    Memory.wf (Memory.writeMasked m a d k n) = true := by
  induction n with
  | zero => exact h
  | succ n ih =>
    unfold Memory.writeMasked
    simp only
    split
    · exact write_wf ih _ _
    · exact ih

/-- A write of a line keeps the form. -/
theorem writeLine_wf {m : List Host.Cell} (h : Memory.wf m = true) (a : Nat) (d : LineData) (k : BitVec 128) :
    Memory.wf (Memory.writeLine m a d k) = true := writeMasked_wf h a d k 128

/-- A byte reads as it was written. -/
@[simp] theorem read_write_same (m : List Host.Cell) (a : Nat) (v : Byte) : Memory.read (Memory.write m a v) a = v :=
  sget_sset_same m a v

/-- A write leaves every other byte. -/
theorem read_write_ne (m : List Host.Cell) {a b : Nat} (v : Byte) (h : b ≠ a) :
    Memory.read (Memory.write m a v) b = Memory.read m b := sget_sset_ne m v h

/-- What a byte of memory is after a masked write of the first n bytes of a line. -/
theorem read_writeMasked (m : List Host.Cell) (a : Nat) (d : LineData) (k : BitVec 128) (n b : Nat) :
    Memory.read (Memory.writeMasked m a d k n) b =
      if a ≤ b ∧ b < a + n ∧ k.getLsbD (b - a) = true then byteAt d (b - a) else Memory.read m b := by
  induction n with
  | zero => simp [Memory.writeMasked]; intro h1 h2; omega
  | succ n ih =>
    unfold Memory.writeMasked
    simp only
    by_cases e : b = a + n
    · subst e
      by_cases hk : k.getLsbD n = true
      · simp [hk]
      · simp [hk, ih]
    · have h1 : ∀ v, Memory.read (Memory.write (Memory.writeMasked m a d k n) (a + n) v) b =
          Memory.read (Memory.writeMasked m a d k n) b := fun v => read_write_ne _ v e
      have h2 : (a ≤ b ∧ b < a + (n + 1) ∧ k.getLsbD (b - a) = true) ↔ (a ≤ b ∧ b < a + n ∧ k.getLsbD (b - a) = true) := by
        constructor <;> rintro ⟨x, y, z⟩ <;> exact ⟨x, by omega, z⟩
      split <;> simp only [h1, ih, h2]

/-- Two canonical memories that read alike are equal. -/
theorem memory_ext {m n : List Host.Cell} (hm : Memory.wf m = true) (hn : Memory.wf n = true)
    (h : ∀ a, Memory.read m a = Memory.read n a) : m = n := by
  have zero : ∀ {b : Nat} {l : List Host.Cell}, MemFrom (b + 1) l → ∀ a, a ≤ b → Memory.read l a = 0#8 := by
    intro b l hl a hab
    induction l with
    | nil => rfl
    | cons c t ih =>
      have hc := hl.2 c (by simp)
      have ht : MemFrom (b + 1) t := by
        have := ((wf_cons _ _).1 hl.1).2
        exact ⟨this.1, fun x hx => hl.2 x (List.mem_cons_of_mem _ hx)⟩
      unfold Memory.read sget
      rw [if_neg (by omega)]
      exact ih ht
  induction m generalizing n with
  | nil =>
    cases n with
    | nil => rfl
    | cons c t =>
      have := h c.1
      simp [Memory.read, sget] at this
      exact absurd this.symm ((wf_cons _ _).1 hn).1
  | cons c t ih =>
    obtain ⟨a, v⟩ := c
    have hc := (wf_cons _ _).1 hm
    cases n with
    | nil =>
      have := h a
      simp [Memory.read, sget] at this
      exact absurd this hc.1
    | cons e u =>
      obtain ⟨b, w⟩ := e
      have he := (wf_cons _ _).1 hn
      have hab : a = b := by
        rcases Nat.lt_trichotomy a b with g | g | g
        · have := h a
          simp only [Memory.read, sget, if_true] at this
          rw [if_neg (by omega)] at this
          exact absurd (this.trans (zero he.2 a (by simp only; omega))) hc.1
        · exact g
        · have := h b
          simp only [Memory.read, sget, if_true] at this
          rw [if_neg (by omega)] at this
          exact absurd (this.symm.trans (zero hc.2 b (by simp only; omega))) he.1
      subst hab
      have hv : v = w := by simpa [Memory.read, sget] using h a
      subst hv
      congr 1
      apply ih hc.2.1 he.2.1
      intro x
      have := h x
      simp only [Memory.read, sget] at this
      by_cases g : a = x
      · subst g; rw [show Memory.read t a = 0#8 from zero hc.2 a (by simp), show Memory.read u a = 0#8 from zero he.2 a (by simp)]
      · simpa [g, Memory.read] using this

end Sys2Proof.Laws
end

