-- ==== Sys2Proof/Laws/PerInstr.lean ====
section
/-! SUPPORT. Each instruction is encoded for one stream at most. -/

namespace Sys2Proof.Laws

/-- Every stream but one has no encoding of the instruction (R178, R186, R197). -/
def OneStream.Statement (i : Instr) : Prop :=
  ∃ st : Stream, (st ≠ .scalar → encodeScalar i = none) ∧ (st ≠ .lane → ∀ safe : Bool, encodeLane safe i = none) ∧
    (st ≠ .matrix → encodeMatrix i = none)

theorem OneStream.add (d a b : Reg) : OneStream.Statement (.add d a b) :=
  ⟨.scalar, fun h => absurd rfl h, fun _ _ => rfl, fun _ => rfl⟩
theorem OneStream.sub (d a b : Reg) : OneStream.Statement (.sub d a b) :=
  ⟨.scalar, fun h => absurd rfl h, fun _ _ => rfl, fun _ => rfl⟩
theorem OneStream.mul (d a b : Reg) : OneStream.Statement (.mul d a b) :=
  ⟨.scalar, fun h => absurd rfl h, fun _ _ => rfl, fun _ => rfl⟩
theorem OneStream.mulhI (d a b : Reg) : OneStream.Statement (.mulhI d a b) :=
  ⟨.scalar, fun h => absurd rfl h, fun _ _ => rfl, fun _ => rfl⟩
theorem OneStream.mulhN (d a b : Reg) : OneStream.Statement (.mulhN d a b) :=
  ⟨.scalar, fun h => absurd rfl h, fun _ _ => rfl, fun _ => rfl⟩
theorem OneStream.divI (d a b : Reg) : OneStream.Statement (.divI d a b) :=
  ⟨.scalar, fun h => absurd rfl h, fun _ _ => rfl, fun _ => rfl⟩
theorem OneStream.divN (d a b : Reg) : OneStream.Statement (.divN d a b) :=
  ⟨.scalar, fun h => absurd rfl h, fun _ _ => rfl, fun _ => rfl⟩
theorem OneStream.remI (d a b : Reg) : OneStream.Statement (.remI d a b) :=
  ⟨.scalar, fun h => absurd rfl h, fun _ _ => rfl, fun _ => rfl⟩
theorem OneStream.remN (d a b : Reg) : OneStream.Statement (.remN d a b) :=
  ⟨.scalar, fun h => absurd rfl h, fun _ _ => rfl, fun _ => rfl⟩
theorem OneStream.and (d a b : Reg) : OneStream.Statement (.and d a b) :=
  ⟨.scalar, fun h => absurd rfl h, fun _ _ => rfl, fun _ => rfl⟩
theorem OneStream.or (d a b : Reg) : OneStream.Statement (.or d a b) :=
  ⟨.scalar, fun h => absurd rfl h, fun _ _ => rfl, fun _ => rfl⟩
theorem OneStream.xor (d a b : Reg) : OneStream.Statement (.xor d a b) :=
  ⟨.scalar, fun h => absurd rfl h, fun _ _ => rfl, fun _ => rfl⟩
theorem OneStream.andn (d a b : Reg) : OneStream.Statement (.andn d a b) :=
  ⟨.scalar, fun h => absurd rfl h, fun _ _ => rfl, fun _ => rfl⟩
theorem OneStream.shl (d a b : Reg) : OneStream.Statement (.shl d a b) :=
  ⟨.scalar, fun h => absurd rfl h, fun _ _ => rfl, fun _ => rfl⟩
theorem OneStream.shr (d a b : Reg) : OneStream.Statement (.shr d a b) :=
  ⟨.scalar, fun h => absurd rfl h, fun _ _ => rfl, fun _ => rfl⟩
theorem OneStream.sra (d a b : Reg) : OneStream.Statement (.sra d a b) :=
  ⟨.scalar, fun h => absurd rfl h, fun _ _ => rfl, fun _ => rfl⟩
theorem OneStream.rol (d a b : Reg) : OneStream.Statement (.rol d a b) :=
  ⟨.scalar, fun h => absurd rfl h, fun _ _ => rfl, fun _ => rfl⟩
theorem OneStream.minI (d a b : Reg) : OneStream.Statement (.minI d a b) :=
  ⟨.scalar, fun h => absurd rfl h, fun _ _ => rfl, fun _ => rfl⟩
theorem OneStream.minN (d a b : Reg) : OneStream.Statement (.minN d a b) :=
  ⟨.scalar, fun h => absurd rfl h, fun _ _ => rfl, fun _ => rfl⟩
theorem OneStream.maxI (d a b : Reg) : OneStream.Statement (.maxI d a b) :=
  ⟨.scalar, fun h => absurd rfl h, fun _ _ => rfl, fun _ => rfl⟩
theorem OneStream.maxN (d a b : Reg) : OneStream.Statement (.maxN d a b) :=
  ⟨.scalar, fun h => absurd rfl h, fun _ _ => rfl, fun _ => rfl⟩
theorem OneStream.sltI (d a b : Reg) : OneStream.Statement (.sltI d a b) :=
  ⟨.scalar, fun h => absurd rfl h, fun _ _ => rfl, fun _ => rfl⟩
theorem OneStream.sltN (d a b : Reg) : OneStream.Statement (.sltN d a b) :=
  ⟨.scalar, fun h => absurd rfl h, fun _ _ => rfl, fun _ => rfl⟩
theorem OneStream.seq (d a b : Reg) : OneStream.Statement (.seq d a b) :=
  ⟨.scalar, fun h => absurd rfl h, fun _ _ => rfl, fun _ => rfl⟩
theorem OneStream.sel (d a b c : Reg) : OneStream.Statement (.sel d a b c) :=
  ⟨.scalar, fun h => absurd rfl h, fun _ _ => rfl, fun _ => rfl⟩
theorem OneStream.clz (d a : Reg) : OneStream.Statement (.clz d a) :=
  ⟨.scalar, fun h => absurd rfl h, fun _ _ => rfl, fun _ => rfl⟩
theorem OneStream.ctz (d a : Reg) : OneStream.Statement (.ctz d a) :=
  ⟨.scalar, fun h => absurd rfl h, fun _ _ => rfl, fun _ => rfl⟩
theorem OneStream.popc (d a : Reg) : OneStream.Statement (.popc d a) :=
  ⟨.scalar, fun h => absurd rfl h, fun _ _ => rfl, fun _ => rfl⟩
theorem OneStream.bswap (d a : Reg) : OneStream.Statement (.bswap d a) :=
  ⟨.scalar, fun h => absurd rfl h, fun _ _ => rfl, fun _ => rfl⟩
theorem OneStream.bextI (d a b : Reg) : OneStream.Statement (.bextI d a b) :=
  ⟨.scalar, fun h => absurd rfl h, fun _ _ => rfl, fun _ => rfl⟩
theorem OneStream.bextN (d a b : Reg) : OneStream.Statement (.bextN d a b) :=
  ⟨.scalar, fun h => absurd rfl h, fun _ _ => rfl, fun _ => rfl⟩
theorem OneStream.bins (d a b : Reg) : OneStream.Statement (.bins d a b) :=
  ⟨.scalar, fun h => absurd rfl h, fun _ _ => rfl, fun _ => rfl⟩
theorem OneStream.lea (d a b : Reg) (s : BitVec 2) : OneStream.Statement (.lea d a b s) :=
  ⟨.scalar, fun h => absurd rfl h, fun _ _ => rfl, fun _ => rfl⟩
theorem OneStream.addImm (d a : Reg) (i : BitVec 16) : OneStream.Statement (.addImm d a i) :=
  ⟨.scalar, fun h => absurd rfl h, fun _ _ => rfl, fun _ => rfl⟩
theorem OneStream.mulImm (d a : Reg) (i : BitVec 16) : OneStream.Statement (.mulImm d a i) :=
  ⟨.scalar, fun h => absurd rfl h, fun _ _ => rfl, fun _ => rfl⟩
theorem OneStream.andImm (d a : Reg) (i : BitVec 16) : OneStream.Statement (.andImm d a i) :=
  ⟨.scalar, fun h => absurd rfl h, fun _ _ => rfl, fun _ => rfl⟩
theorem OneStream.orImm (d a : Reg) (i : BitVec 16) : OneStream.Statement (.orImm d a i) :=
  ⟨.scalar, fun h => absurd rfl h, fun _ _ => rfl, fun _ => rfl⟩
theorem OneStream.xorImm (d a : Reg) (i : BitVec 16) : OneStream.Statement (.xorImm d a i) :=
  ⟨.scalar, fun h => absurd rfl h, fun _ _ => rfl, fun _ => rfl⟩
theorem OneStream.sltIImm (d a : Reg) (i : BitVec 16) : OneStream.Statement (.sltIImm d a i) :=
  ⟨.scalar, fun h => absurd rfl h, fun _ _ => rfl, fun _ => rfl⟩
theorem OneStream.sltNImm (d a : Reg) (i : BitVec 16) : OneStream.Statement (.sltNImm d a i) :=
  ⟨.scalar, fun h => absurd rfl h, fun _ _ => rfl, fun _ => rfl⟩
theorem OneStream.seqImm (d a : Reg) (i : BitVec 16) : OneStream.Statement (.seqImm d a i) :=
  ⟨.scalar, fun h => absurd rfl h, fun _ _ => rfl, fun _ => rfl⟩
theorem OneStream.shlImm (d a : Reg) (n : BitVec 6) : OneStream.Statement (.shlImm d a n) :=
  ⟨.scalar, fun h => absurd rfl h, fun _ _ => rfl, fun _ => rfl⟩
theorem OneStream.shrImm (d a : Reg) (n : BitVec 6) : OneStream.Statement (.shrImm d a n) :=
  ⟨.scalar, fun h => absurd rfl h, fun _ _ => rfl, fun _ => rfl⟩
theorem OneStream.sraImm (d a : Reg) (n : BitVec 6) : OneStream.Statement (.sraImm d a n) :=
  ⟨.scalar, fun h => absurd rfl h, fun _ _ => rfl, fun _ => rfl⟩
theorem OneStream.rolImm (d a : Reg) (n : BitVec 6) : OneStream.Statement (.rolImm d a n) :=
  ⟨.scalar, fun h => absurd rfl h, fun _ _ => rfl, fun _ => rfl⟩
theorem OneStream.li (d : Reg) (i : BitVec 16) : OneStream.Statement (.li d i) :=
  ⟨.scalar, fun h => absurd rfl h, fun _ _ => rfl, fun _ => rfl⟩
theorem OneStream.liIns (d : Reg) (k : BitVec 2) (i : BitVec 16) : OneStream.Statement (.liIns d k i) :=
  ⟨.scalar, fun h => absurd rfl h, fun _ _ => rfl, fun _ => rfl⟩
theorem OneStream.pcrel (d : Reg) (o : BitVec 21) : OneStream.Statement (.pcrel d o) :=
  ⟨.scalar, fun h => absurd rfl h, fun _ _ => rfl, fun _ => rfl⟩
theorem OneStream.brEq (a b : Reg) (o : BitVec 12) : OneStream.Statement (.brEq a b o) :=
  ⟨.scalar, fun h => absurd rfl h, fun _ _ => rfl, fun _ => rfl⟩
theorem OneStream.brNe (a b : Reg) (o : BitVec 12) : OneStream.Statement (.brNe a b o) :=
  ⟨.scalar, fun h => absurd rfl h, fun _ _ => rfl, fun _ => rfl⟩
theorem OneStream.brLt (a b : Reg) (o : BitVec 12) : OneStream.Statement (.brLt a b o) :=
  ⟨.scalar, fun h => absurd rfl h, fun _ _ => rfl, fun _ => rfl⟩
theorem OneStream.brGe (a b : Reg) (o : BitVec 12) : OneStream.Statement (.brGe a b o) :=
  ⟨.scalar, fun h => absurd rfl h, fun _ _ => rfl, fun _ => rfl⟩
theorem OneStream.brLtN (a b : Reg) (o : BitVec 12) : OneStream.Statement (.brLtN a b o) :=
  ⟨.scalar, fun h => absurd rfl h, fun _ _ => rfl, fun _ => rfl⟩
theorem OneStream.brGeN (a b : Reg) (o : BitVec 12) : OneStream.Statement (.brGeN a b o) :=
  ⟨.scalar, fun h => absurd rfl h, fun _ _ => rfl, fun _ => rfl⟩
theorem OneStream.loop (a : Reg) (o : BitVec 12) : OneStream.Statement (.loop a o) :=
  ⟨.scalar, fun h => absurd rfl h, fun _ _ => rfl, fun _ => rfl⟩
theorem OneStream.jmp (o : BitVec 26) : OneStream.Statement (.jmp o) :=
  ⟨.scalar, fun h => absurd rfl h, fun _ _ => rfl, fun _ => rfl⟩
theorem OneStream.call (o : BitVec 26) : OneStream.Statement (.call o) :=
  ⟨.scalar, fun h => absurd rfl h, fun _ _ => rfl, fun _ => rfl⟩
theorem OneStream.jr (d a : Reg) (i : BitVec 16) : OneStream.Statement (.jr d a i) :=
  ⟨.scalar, fun h => absurd rfl h, fun _ _ => rfl, fun _ => rfl⟩
theorem OneStream.ldI8 (d a : Reg) (i : BitVec 16) : OneStream.Statement (.ldI8 d a i) :=
  ⟨.scalar, fun h => absurd rfl h, fun _ _ => rfl, fun _ => rfl⟩
theorem OneStream.ldI16 (d a : Reg) (i : BitVec 16) : OneStream.Statement (.ldI16 d a i) :=
  ⟨.scalar, fun h => absurd rfl h, fun _ _ => rfl, fun _ => rfl⟩
theorem OneStream.ldI32 (d a : Reg) (i : BitVec 16) : OneStream.Statement (.ldI32 d a i) :=
  ⟨.scalar, fun h => absurd rfl h, fun _ _ => rfl, fun _ => rfl⟩
theorem OneStream.ldI64 (d a : Reg) (i : BitVec 16) : OneStream.Statement (.ldI64 d a i) :=
  ⟨.scalar, fun h => absurd rfl h, fun _ _ => rfl, fun _ => rfl⟩
theorem OneStream.ldN8 (d a : Reg) (i : BitVec 16) : OneStream.Statement (.ldN8 d a i) :=
  ⟨.scalar, fun h => absurd rfl h, fun _ _ => rfl, fun _ => rfl⟩
theorem OneStream.ldN16 (d a : Reg) (i : BitVec 16) : OneStream.Statement (.ldN16 d a i) :=
  ⟨.scalar, fun h => absurd rfl h, fun _ _ => rfl, fun _ => rfl⟩
theorem OneStream.ldN32 (d a : Reg) (i : BitVec 16) : OneStream.Statement (.ldN32 d a i) :=
  ⟨.scalar, fun h => absurd rfl h, fun _ _ => rfl, fun _ => rfl⟩
theorem OneStream.st8 (d a : Reg) (i : BitVec 16) : OneStream.Statement (.st8 d a i) :=
  ⟨.scalar, fun h => absurd rfl h, fun _ _ => rfl, fun _ => rfl⟩
theorem OneStream.st16 (d a : Reg) (i : BitVec 16) : OneStream.Statement (.st16 d a i) :=
  ⟨.scalar, fun h => absurd rfl h, fun _ _ => rfl, fun _ => rfl⟩
theorem OneStream.st32 (d a : Reg) (i : BitVec 16) : OneStream.Statement (.st32 d a i) :=
  ⟨.scalar, fun h => absurd rfl h, fun _ _ => rfl, fun _ => rfl⟩
theorem OneStream.st64 (d a : Reg) (i : BitVec 16) : OneStream.Statement (.st64 d a i) :=
  ⟨.scalar, fun h => absurd rfl h, fun _ _ => rfl, fun _ => rfl⟩
theorem OneStream.ldOrdered (d a : Reg) (sc : Scope) (acq : Bool) (t : MemTy) : OneStream.Statement (.ldOrdered d a sc acq t) :=
  ⟨.scalar, fun h => absurd rfl h, fun _ _ => rfl, fun _ => rfl⟩
theorem OneStream.stOrdered (a b : Reg) (sc : Scope) (rel : Bool) (t : MemTy) : OneStream.Statement (.stOrdered a b sc rel t) :=
  ⟨.scalar, fun h => absurd rfl h, fun _ _ => rfl, fun _ => rfl⟩
theorem OneStream.ldw (d a : Reg) (sc : Scope) (acq : Bool) (t : MemTy) : OneStream.Statement (.ldw d a sc acq t) :=
  ⟨.scalar, fun h => absurd rfl h, fun _ _ => rfl, fun _ => rfl⟩
theorem OneStream.pf (a : Reg) : OneStream.Statement (.pf a) :=
  ⟨.scalar, fun h => absurd rfl h, fun _ _ => rfl, fun _ => rfl⟩
theorem OneStream.cln (a : Reg) : OneStream.Statement (.cln a) :=
  ⟨.scalar, fun h => absurd rfl h, fun _ _ => rfl, fun _ => rfl⟩
theorem OneStream.clnPersist (a : Reg) : OneStream.Statement (.clnPersist a) :=
  ⟨.scalar, fun h => absurd rfl h, fun _ _ => rfl, fun _ => rfl⟩
theorem OneStream.fence (sc : Scope) : OneStream.Statement (.fence sc) :=
  ⟨.scalar, fun h => absurd rfl h, fun _ _ => rfl, fun _ => rfl⟩
theorem OneStream.fenceAcq (sc : Scope) : OneStream.Statement (.fenceAcq sc) :=
  ⟨.scalar, fun h => absurd rfl h, fun _ _ => rfl, fun _ => rfl⟩
theorem OneStream.fenceRel (sc : Scope) : OneStream.Statement (.fenceRel sc) :=
  ⟨.scalar, fun h => absurd rfl h, fun _ _ => rfl, fun _ => rfl⟩
theorem OneStream.amoSwap (d a b : Reg) (sc : Scope) (sem : Sem) (w64 : Bool) : OneStream.Statement (.amoSwap d a b sc sem w64) :=
  ⟨.scalar, fun h => absurd rfl h, fun _ _ => rfl, fun _ => rfl⟩
theorem OneStream.amoAdd (d a b : Reg) (sc : Scope) (sem : Sem) (w64 : Bool) : OneStream.Statement (.amoAdd d a b sc sem w64) :=
  ⟨.scalar, fun h => absurd rfl h, fun _ _ => rfl, fun _ => rfl⟩
theorem OneStream.amoAnd (d a b : Reg) (sc : Scope) (sem : Sem) (w64 : Bool) : OneStream.Statement (.amoAnd d a b sc sem w64) :=
  ⟨.scalar, fun h => absurd rfl h, fun _ _ => rfl, fun _ => rfl⟩
theorem OneStream.amoOr (d a b : Reg) (sc : Scope) (sem : Sem) (w64 : Bool) : OneStream.Statement (.amoOr d a b sc sem w64) :=
  ⟨.scalar, fun h => absurd rfl h, fun _ _ => rfl, fun _ => rfl⟩
theorem OneStream.amoXor (d a b : Reg) (sc : Scope) (sem : Sem) (w64 : Bool) : OneStream.Statement (.amoXor d a b sc sem w64) :=
  ⟨.scalar, fun h => absurd rfl h, fun _ _ => rfl, fun _ => rfl⟩
theorem OneStream.amoMinI (d a b : Reg) (sc : Scope) (sem : Sem) (w64 : Bool) : OneStream.Statement (.amoMinI d a b sc sem w64) :=
  ⟨.scalar, fun h => absurd rfl h, fun _ _ => rfl, fun _ => rfl⟩
theorem OneStream.amoMaxI (d a b : Reg) (sc : Scope) (sem : Sem) (w64 : Bool) : OneStream.Statement (.amoMaxI d a b sc sem w64) :=
  ⟨.scalar, fun h => absurd rfl h, fun _ _ => rfl, fun _ => rfl⟩
theorem OneStream.amoMinN (d a b : Reg) (sc : Scope) (sem : Sem) (w64 : Bool) : OneStream.Statement (.amoMinN d a b sc sem w64) :=
  ⟨.scalar, fun h => absurd rfl h, fun _ _ => rfl, fun _ => rfl⟩
theorem OneStream.amoMaxN (d a b : Reg) (sc : Scope) (sem : Sem) (w64 : Bool) : OneStream.Statement (.amoMaxN d a b sc sem w64) :=
  ⟨.scalar, fun h => absurd rfl h, fun _ _ => rfl, fun _ => rfl⟩
theorem OneStream.amoFadd (d a b : Reg) (sc : Scope) (sem : Sem) (w64 : Bool) : OneStream.Statement (.amoFadd d a b sc sem w64) :=
  ⟨.scalar, fun h => absurd rfl h, fun _ _ => rfl, fun _ => rfl⟩
theorem OneStream.cas (d a b : Reg) (sc : Scope) (sem : Sem) (w64 : Bool) : OneStream.Statement (.cas d a b sc sem w64) :=
  ⟨.scalar, fun h => absurd rfl h, fun _ _ => rfl, fun _ => rfl⟩
theorem OneStream.cst (d a : Reg) (sc : Scope) (rel : Bool) : OneStream.Statement (.cst d a sc rel) :=
  ⟨.scalar, fun h => absurd rfl h, fun _ _ => rfl, fun _ => rfl⟩
theorem OneStream.fadd (d a b : Reg) (r : Rnd) (f : SFmt) : OneStream.Statement (.fadd d a b r f) :=
  ⟨.scalar, fun h => absurd rfl h, fun _ _ => rfl, fun _ => rfl⟩
theorem OneStream.fsub (d a b : Reg) (r : Rnd) (f : SFmt) : OneStream.Statement (.fsub d a b r f) :=
  ⟨.scalar, fun h => absurd rfl h, fun _ _ => rfl, fun _ => rfl⟩
theorem OneStream.fmul (d a b : Reg) (r : Rnd) (f : SFmt) : OneStream.Statement (.fmul d a b r f) :=
  ⟨.scalar, fun h => absurd rfl h, fun _ _ => rfl, fun _ => rfl⟩
theorem OneStream.fdiv (d a b : Reg) (r : Rnd) (f : SFmt) : OneStream.Statement (.fdiv d a b r f) :=
  ⟨.scalar, fun h => absurd rfl h, fun _ _ => rfl, fun _ => rfl⟩
theorem OneStream.fsqrt (d a : Reg) (r : Rnd) (f : SFmt) : OneStream.Statement (.fsqrt d a r f) :=
  ⟨.scalar, fun h => absurd rfl h, fun _ _ => rfl, fun _ => rfl⟩
theorem OneStream.fmin (d a b : Reg) (f : SFmt) : OneStream.Statement (.fmin d a b f) :=
  ⟨.scalar, fun h => absurd rfl h, fun _ _ => rfl, fun _ => rfl⟩
theorem OneStream.fmax (d a b : Reg) (f : SFmt) : OneStream.Statement (.fmax d a b f) :=
  ⟨.scalar, fun h => absurd rfl h, fun _ _ => rfl, fun _ => rfl⟩
theorem OneStream.fcmp (d a b : Reg) (f : SFmt) (k : FCond) : OneStream.Statement (.fcmp d a b f k) :=
  ⟨.scalar, fun h => absurd rfl h, fun _ _ => rfl, fun _ => rfl⟩
theorem OneStream.fcls (d a : Reg) (f : SFmt) : OneStream.Statement (.fcls d a f) :=
  ⟨.scalar, fun h => absurd rfl h, fun _ _ => rfl, fun _ => rfl⟩
theorem OneStream.fma (d a b c : Reg) (r : Rnd) (f : SFmt) : OneStream.Statement (.fma d a b c r f) :=
  ⟨.scalar, fun h => absurd rfl h, fun _ _ => rfl, fun _ => rfl⟩
theorem OneStream.fcvt (d a : Reg) (r : Rnd) (ovf : Bool) (t s : CvtTy) : OneStream.Statement (.fcvt d a r ovf t s) :=
  ⟨.scalar, fun h => absurd rfl h, fun _ _ => rfl, fun _ => rfl⟩
theorem OneStream.lxImm (a : Reg) (n : BitVec 6) : OneStream.Statement (.lxImm a n) :=
  ⟨.scalar, fun h => absurd rfl h, fun _ _ => rfl, fun _ => rfl⟩
theorem OneStream.lxReg (d a : Reg) : OneStream.Statement (.lxReg d a) :=
  ⟨.scalar, fun h => absurd rfl h, fun _ _ => rfl, fun _ => rfl⟩
theorem OneStream.lwait : OneStream.Statement (.lwait) :=
  ⟨.scalar, fun h => absurd rfl h, fun _ _ => rfl, fun _ => rfl⟩
theorem OneStream.lpoll (d : Reg) : OneStream.Statement (.lpoll d) :=
  ⟨.scalar, fun h => absurd rfl h, fun _ _ => rfl, fun _ => rfl⟩
theorem OneStream.csrr (d : Reg) (n : BitVec 12) : OneStream.Statement (.csrr d n) :=
  ⟨.scalar, fun h => absurd rfl h, fun _ _ => rfl, fun _ => rfl⟩
theorem OneStream.csrw (a : Reg) (n : BitVec 12) : OneStream.Statement (.csrw a n) :=
  ⟨.scalar, fun h => absurd rfl h, fun _ _ => rfl, fun _ => rfl⟩
theorem OneStream.csrs (d a : Reg) (n : BitVec 12) : OneStream.Statement (.csrs d a n) :=
  ⟨.scalar, fun h => absurd rfl h, fun _ _ => rfl, fun _ => rfl⟩
theorem OneStream.nop : OneStream.Statement (.nop) :=
  ⟨.scalar, fun h => absurd rfl h, fun _ _ => rfl, fun _ => rfl⟩
theorem OneStream.done : OneStream.Statement (.done) :=
  ⟨.scalar, fun h => absurd rfl h, fun _ _ => rfl, fun _ => rfl⟩
theorem OneStream.svc (k : BitVec 12) : OneStream.Statement (.svc k) :=
  ⟨.scalar, fun h => absurd rfl h, fun _ _ => rfl, fun _ => rfl⟩
theorem OneStream.brk (k : BitVec 12) : OneStream.Statement (.brk k) :=
  ⟨.scalar, fun h => absurd rfl h, fun _ _ => rfl, fun _ => rfl⟩
theorem OneStream.tstamp (d : Reg) : OneStream.Statement (.tstamp d) :=
  ⟨.scalar, fun h => absurd rfl h, fun _ _ => rfl, fun _ => rfl⟩
theorem OneStream.cyc (d : Reg) : OneStream.Statement (.cyc d) :=
  ⟨.scalar, fun h => absurd rfl h, fun _ _ => rfl, fun _ => rfl⟩
theorem OneStream.yieldGroup : OneStream.Statement (.yieldGroup) :=
  ⟨.scalar, fun h => absurd rfl h, fun _ _ => rfl, fun _ => rfl⟩
theorem OneStream.wkGet (d e : Reg) : OneStream.Statement (.wkGet d e) :=
  ⟨.scalar, fun h => absurd rfl h, fun _ _ => rfl, fun _ => rfl⟩
theorem OneStream.safe (m : BitVec 25) : OneStream.Statement (.safe m) :=
  ⟨.scalar, fun h => absurd rfl h, fun _ _ => rfl, fun _ => rfl⟩
theorem OneStream.subSubscription (d a b : Reg) : OneStream.Statement (.subSubscription d a b) :=
  ⟨.scalar, fun h => absurd rfl h, fun _ _ => rfl, fun _ => rfl⟩
theorem OneStream.unsub (d a b : Reg) : OneStream.Statement (.unsub d a b) :=
  ⟨.scalar, fun h => absurd rfl h, fun _ _ => rfl, fun _ => rfl⟩
theorem OneStream.subup (d a b : Reg) : OneStream.Statement (.subup d a b) :=
  ⟨.scalar, fun h => absurd rfl h, fun _ _ => rfl, fun _ => rfl⟩
theorem OneStream.crSet (a b : Reg) : OneStream.Statement (.crSet a b) :=
  ⟨.scalar, fun h => absurd rfl h, fun _ _ => rfl, fun _ => rfl⟩
theorem OneStream.crEnd (a : Reg) : OneStream.Statement (.crEnd a) :=
  ⟨.scalar, fun h => absurd rfl h, fun _ _ => rfl, fun _ => rfl⟩
theorem OneStream.radd (a b : Reg) (t : CrTy) : OneStream.Statement (.radd a b t) :=
  ⟨.scalar, fun h => absurd rfl h, fun _ _ => rfl, fun _ => rfl⟩
theorem OneStream.spmMap (d a b : Reg) : OneStream.Statement (.spmMap d a b) :=
  ⟨.scalar, fun h => absurd rfl h, fun _ _ => rfl, fun _ => rfl⟩
theorem OneStream.spmMapFill (d a b : Reg) : OneStream.Statement (.spmMapFill d a b) :=
  ⟨.scalar, fun h => absurd rfl h, fun _ _ => rfl, fun _ => rfl⟩
theorem OneStream.spmUnmap (a : Reg) : OneStream.Statement (.spmUnmap a) :=
  ⟨.scalar, fun h => absurd rfl h, fun _ _ => rfl, fun _ => rfl⟩
theorem OneStream.barInit (a : Reg) (n : BitVec 6) : OneStream.Statement (.barInit a n) :=
  ⟨.scalar, fun h => absurd rfl h, fun _ _ => rfl, fun _ => rfl⟩
theorem OneStream.barArr (n : BitVec 6) : OneStream.Statement (.barArr n) :=
  ⟨.scalar, fun h => absurd rfl h, fun _ _ => rfl, fun _ => rfl⟩
theorem OneStream.barExp (a : Reg) (n : BitVec 6) : OneStream.Statement (.barExp a n) :=
  ⟨.scalar, fun h => absurd rfl h, fun _ _ => rfl, fun _ => rfl⟩
theorem OneStream.barWait (q : Bool) (n : BitVec 6) : OneStream.Statement (.barWait q n) :=
  ⟨.scalar, fun h => absurd rfl h, fun _ _ => rfl, fun _ => rfl⟩
theorem OneStream.barTry (d : Reg) (q : Bool) (n : BitVec 6) : OneStream.Statement (.barTry d q n) :=
  ⟨.scalar, fun h => absurd rfl h, fun _ _ => rfl, fun _ => rfl⟩
theorem OneStream.monArm (d a : Reg) : OneStream.Statement (.monArm d a) :=
  ⟨.scalar, fun h => absurd rfl h, fun _ _ => rfl, fun _ => rfl⟩
theorem OneStream.monWait : OneStream.Statement (.monWait) :=
  ⟨.scalar, fun h => absurd rfl h, fun _ _ => rfl, fun _ => rfl⟩
theorem OneStream.portCfg (e : Bool) : OneStream.Statement (.portCfg e) :=
  ⟨.scalar, fun h => absurd rfl h, fun _ _ => rfl, fun _ => rfl⟩
theorem OneStream.xacq (n : BitVec 5) : OneStream.Statement (.xacq n) :=
  ⟨.scalar, fun h => absurd rfl h, fun _ _ => rfl, fun _ => rfl⟩
theorem OneStream.xrel (n : BitVec 5) : OneStream.Statement (.xrel n) :=
  ⟨.scalar, fun h => absurd rfl h, fun _ _ => rfl, fun _ => rfl⟩
theorem OneStream.cp (d a b : Reg) (sc : Scope) : OneStream.Statement (.cp d a b sc) :=
  ⟨.scalar, fun h => absurd rfl h, fun _ _ => rfl, fun _ => rfl⟩
theorem OneStream.cpColl (d a b : Reg) (sc : Scope) : OneStream.Statement (.cpColl d a b sc) :=
  ⟨.scalar, fun h => absurd rfl h, fun _ _ => rfl, fun _ => rfl⟩
theorem OneStream.gth (d a b : Reg) (sc : Scope) : OneStream.Statement (.gth d a b sc) :=
  ⟨.scalar, fun h => absurd rfl h, fun _ _ => rfl, fun _ => rfl⟩
theorem OneStream.scat (d a b : Reg) (sc : Scope) : OneStream.Statement (.scat d a b sc) :=
  ⟨.scalar, fun h => absurd rfl h, fun _ _ => rfl, fun _ => rfl⟩
theorem OneStream.redcp (d a b : Reg) (sc : Scope) : OneStream.Statement (.redcp d a b sc) :=
  ⟨.scalar, fun h => absurd rfl h, fun _ _ => rfl, fun _ => rfl⟩
theorem OneStream.mcast (d a b : Reg) (sc : Scope) : OneStream.Statement (.mcast d a b sc) :=
  ⟨.scalar, fun h => absurd rfl h, fun _ _ => rfl, fun _ => rfl⟩
theorem OneStream.dcoll (d a b : Reg) (sc : Scope) : OneStream.Statement (.dcoll d a b sc) :=
  ⟨.scalar, fun h => absurd rfl h, fun _ _ => rfl, fun _ => rfl⟩
theorem OneStream.tidSet (a : Reg) (n : BitVec 6) : OneStream.Statement (.tidSet a n) :=
  ⟨.scalar, fun h => absurd rfl h, fun _ _ => rfl, fun _ => rfl⟩
theorem OneStream.tidGet (d : Reg) (n : BitVec 6) : OneStream.Statement (.tidGet d n) :=
  ⟨.scalar, fun h => absurd rfl h, fun _ _ => rfl, fun _ => rfl⟩
theorem OneStream.tidInv (n : BitVec 6) : OneStream.Statement (.tidInv n) :=
  ⟨.scalar, fun h => absurd rfl h, fun _ _ => rfl, fun _ => rfl⟩
theorem OneStream.xfer (a : Reg) : OneStream.Statement (.xfer a) :=
  ⟨.scalar, fun h => absurd rfl h, fun _ _ => rfl, fun _ => rfl⟩
theorem OneStream.xcall (d a : Reg) : OneStream.Statement (.xcall d a) :=
  ⟨.scalar, fun h => absurd rfl h, fun _ _ => rfl, fun _ => rfl⟩
theorem OneStream.xret (a : Reg) : OneStream.Statement (.xret a) :=
  ⟨.scalar, fun h => absurd rfl h, fun _ _ => rfl, fun _ => rfl⟩
theorem OneStream.segWho (d a : Reg) : OneStream.Statement (.segWho d a) :=
  ⟨.scalar, fun h => absurd rfl h, fun _ _ => rfl, fun _ => rfl⟩
theorem OneStream.tret (a : Reg) : OneStream.Statement (.tret a) :=
  ⟨.scalar, fun h => absurd rfl h, fun _ _ => rfl, fun _ => rfl⟩
theorem OneStream.ctxSave (d a : Reg) : OneStream.Statement (.ctxSave d a) :=
  ⟨.scalar, fun h => absurd rfl h, fun _ _ => rfl, fun _ => rfl⟩
theorem OneStream.ctxLoad (d a : Reg) : OneStream.Statement (.ctxLoad d a) :=
  ⟨.scalar, fun h => absurd rfl h, fun _ _ => rfl, fun _ => rfl⟩
theorem OneStream.capMint (d a : Reg) : OneStream.Statement (.capMint d a) :=
  ⟨.scalar, fun h => absurd rfl h, fun _ _ => rfl, fun _ => rfl⟩
theorem OneStream.capDrop (d a : Reg) : OneStream.Statement (.capDrop d a) :=
  ⟨.scalar, fun h => absurd rfl h, fun _ _ => rfl, fun _ => rfl⟩
theorem OneStream.tlbInv (d a : Reg) : OneStream.Statement (.tlbInv d a) :=
  ⟨.scalar, fun h => absurd rfl h, fun _ _ => rfl, fun _ => rfl⟩
theorem OneStream.hmtSet (d a : Reg) : OneStream.Statement (.hmtSet d a) :=
  ⟨.scalar, fun h => absurd rfl h, fun _ _ => rfl, fun _ => rfl⟩
theorem OneStream.segMap (d a : Reg) : OneStream.Statement (.segMap d a) :=
  ⟨.scalar, fun h => absurd rfl h, fun _ _ => rfl, fun _ => rfl⟩
theorem OneStream.actSet (d a : Reg) : OneStream.Statement (.actSet d a) :=
  ⟨.scalar, fun h => absurd rfl h, fun _ _ => rfl, fun _ => rfl⟩
theorem OneStream.evqSet (d a : Reg) : OneStream.Statement (.evqSet d a) :=
  ⟨.scalar, fun h => absurd rfl h, fun _ _ => rfl, fun _ => rfl⟩
theorem OneStream.idle : OneStream.Statement (.idle) :=
  ⟨.scalar, fun h => absurd rfl h, fun _ _ => rfl, fun _ => rfl⟩
theorem OneStream.halt : OneStream.Statement (.halt) :=
  ⟨.scalar, fun h => absurd rfl h, fun _ _ => rfl, fun _ => rfl⟩
theorem OneStream.vadd (h : LaneHdr) (t : ITy) (d a b : Operand) : OneStream.Statement (.vadd h t d a b) :=
  ⟨.lane, fun _ => rfl, fun h => absurd rfl h, fun _ => rfl⟩
theorem OneStream.vsub (h : LaneHdr) (t : ITy) (d a b : Operand) : OneStream.Statement (.vsub h t d a b) :=
  ⟨.lane, fun _ => rfl, fun h => absurd rfl h, fun _ => rfl⟩
theorem OneStream.vmul (h : LaneHdr) (t : ITy) (d a b : Operand) : OneStream.Statement (.vmul h t d a b) :=
  ⟨.lane, fun _ => rfl, fun h => absurd rfl h, fun _ => rfl⟩
theorem OneStream.vmulh (h : LaneHdr) (t : ITy) (d a b : Operand) : OneStream.Statement (.vmulh h t d a b) :=
  ⟨.lane, fun _ => rfl, fun h => absurd rfl h, fun _ => rfl⟩
theorem OneStream.vmad (h : LaneHdr) (t : ITy) (d a b c : Operand) : OneStream.Statement (.vmad h t d a b c) :=
  ⟨.lane, fun _ => rfl, fun h => absurd rfl h, fun _ => rfl⟩
theorem OneStream.vabsd (h : LaneHdr) (t : ITy) (d a b : Operand) : OneStream.Statement (.vabsd h t d a b) :=
  ⟨.lane, fun _ => rfl, fun h => absurd rfl h, fun _ => rfl⟩
theorem OneStream.vmin (h : LaneHdr) (t : ITy) (d a b : Operand) : OneStream.Statement (.vmin h t d a b) :=
  ⟨.lane, fun _ => rfl, fun h => absurd rfl h, fun _ => rfl⟩
theorem OneStream.vmax (h : LaneHdr) (t : ITy) (d a b : Operand) : OneStream.Statement (.vmax h t d a b) :=
  ⟨.lane, fun _ => rfl, fun h => absurd rfl h, fun _ => rfl⟩
theorem OneStream.vadds (h : LaneHdr) (t : ITy) (d a b : Operand) : OneStream.Statement (.vadds h t d a b) :=
  ⟨.lane, fun _ => rfl, fun h => absurd rfl h, fun _ => rfl⟩
theorem OneStream.vsubs (h : LaneHdr) (t : ITy) (d a b : Operand) : OneStream.Statement (.vsubs h t d a b) :=
  ⟨.lane, fun _ => rfl, fun h => absurd rfl h, fun _ => rfl⟩
theorem OneStream.vand (h : LaneHdr) (t : ITy) (d a b : Operand) : OneStream.Statement (.vand h t d a b) :=
  ⟨.lane, fun _ => rfl, fun h => absurd rfl h, fun _ => rfl⟩
theorem OneStream.vor (h : LaneHdr) (t : ITy) (d a b : Operand) : OneStream.Statement (.vor h t d a b) :=
  ⟨.lane, fun _ => rfl, fun h => absurd rfl h, fun _ => rfl⟩
theorem OneStream.vxor (h : LaneHdr) (t : ITy) (d a b : Operand) : OneStream.Statement (.vxor h t d a b) :=
  ⟨.lane, fun _ => rfl, fun h => absurd rfl h, fun _ => rfl⟩
theorem OneStream.vandn (h : LaneHdr) (t : ITy) (d a b : Operand) : OneStream.Statement (.vandn h t d a b) :=
  ⟨.lane, fun _ => rfl, fun h => absurd rfl h, fun _ => rfl⟩
theorem OneStream.vshl (h : LaneHdr) (t : ITy) (d a b : Operand) : OneStream.Statement (.vshl h t d a b) :=
  ⟨.lane, fun _ => rfl, fun h => absurd rfl h, fun _ => rfl⟩
theorem OneStream.vshr (h : LaneHdr) (t : ITy) (d a b : Operand) : OneStream.Statement (.vshr h t d a b) :=
  ⟨.lane, fun _ => rfl, fun h => absurd rfl h, fun _ => rfl⟩
theorem OneStream.vsra (h : LaneHdr) (t : ITy) (d a b : Operand) : OneStream.Statement (.vsra h t d a b) :=
  ⟨.lane, fun _ => rfl, fun h => absurd rfl h, fun _ => rfl⟩
theorem OneStream.vclz (h : LaneHdr) (t : ITy) (d a : Operand) : OneStream.Statement (.vclz h t d a) :=
  ⟨.lane, fun _ => rfl, fun h => absurd rfl h, fun _ => rfl⟩
theorem OneStream.vctz (h : LaneHdr) (t : ITy) (d a : Operand) : OneStream.Statement (.vctz h t d a) :=
  ⟨.lane, fun _ => rfl, fun h => absurd rfl h, fun _ => rfl⟩
theorem OneStream.vpopc (h : LaneHdr) (t : ITy) (d a : Operand) : OneStream.Statement (.vpopc h t d a) :=
  ⟨.lane, fun _ => rfl, fun h => absurd rfl h, fun _ => rfl⟩
theorem OneStream.vbrev (h : LaneHdr) (t : ITy) (d a : Operand) : OneStream.Statement (.vbrev h t d a) :=
  ⟨.lane, fun _ => rfl, fun h => absurd rfl h, fun _ => rfl⟩
theorem OneStream.vbext (h : LaneHdr) (t : ITy) (d a b : Operand) : OneStream.Statement (.vbext h t d a b) :=
  ⟨.lane, fun _ => rfl, fun h => absurd rfl h, fun _ => rfl⟩
theorem OneStream.vcmp (h : LaneHdr) (t : ITy) (k : Cond) (d : CmpDst) (a b : Operand) : OneStream.Statement (.vcmp h t k d a b) :=
  ⟨.lane, fun _ => rfl, fun h => absurd rfl h, fun _ => rfl⟩
theorem OneStream.vsel (h : LaneHdr) (t : ETy) (d a b : Operand) (p : BitVec 3) (n : Bool) : OneStream.Statement (.vsel h t d a b p n) :=
  ⟨.lane, fun _ => rfl, fun h => absurd rfl h, fun _ => rfl⟩
theorem OneStream.vmov (h : LaneHdr) (t : ETy) (d a : Operand) : OneStream.Statement (.vmov h t d a) :=
  ⟨.lane, fun _ => rfl, fun h => absurd rfl h, fun _ => rfl⟩
theorem OneStream.vli (h : LaneHdr) (t : LiTy) (d : Operand) (k : Word32) : OneStream.Statement (.vli h t d k) :=
  ⟨.lane, fun _ => rfl, fun h => absurd rfl h, fun _ => rfl⟩
theorem OneStream.vext (h : LaneHdr) (t s : ITy) (d a : Operand) : OneStream.Statement (.vext h t s d a) :=
  ⟨.lane, fun _ => rfl, fun h => absurd rfl h, fun _ => rfl⟩
theorem OneStream.vnrw (h : LaneHdr) (t s : ITy) (sat : Bool) (d a : Operand) : OneStream.Statement (.vnrw h t s sat d a) :=
  ⟨.lane, fun _ => rfl, fun h => absurd rfl h, fun _ => rfl⟩
theorem OneStream.vfadd (h : LaneHdr) (t : FTy) (r : Rnd) (d a b : Operand) : OneStream.Statement (.vfadd h t r d a b) :=
  ⟨.lane, fun _ => rfl, fun h => absurd rfl h, fun _ => rfl⟩
theorem OneStream.vfsub (h : LaneHdr) (t : FTy) (r : Rnd) (d a b : Operand) : OneStream.Statement (.vfsub h t r d a b) :=
  ⟨.lane, fun _ => rfl, fun h => absurd rfl h, fun _ => rfl⟩
theorem OneStream.vfmul (h : LaneHdr) (t : FTy) (r : Rnd) (d a b : Operand) : OneStream.Statement (.vfmul h t r d a b) :=
  ⟨.lane, fun _ => rfl, fun h => absurd rfl h, fun _ => rfl⟩
theorem OneStream.vffma (h : LaneHdr) (t : FTy) (r : Rnd) (d a b c : Operand) : OneStream.Statement (.vffma h t r d a b c) :=
  ⟨.lane, fun _ => rfl, fun h => absurd rfl h, fun _ => rfl⟩
theorem OneStream.vfmin (h : LaneHdr) (t : FTy) (d a b : Operand) : OneStream.Statement (.vfmin h t d a b) :=
  ⟨.lane, fun _ => rfl, fun h => absurd rfl h, fun _ => rfl⟩
theorem OneStream.vfmax (h : LaneHdr) (t : FTy) (d a b : Operand) : OneStream.Statement (.vfmax h t d a b) :=
  ⟨.lane, fun _ => rfl, fun h => absurd rfl h, fun _ => rfl⟩
theorem OneStream.vfcmp (h : LaneHdr) (t : FTy) (k : Cond) (d : CmpDst) (a b : Operand) : OneStream.Statement (.vfcmp h t k d a b) :=
  ⟨.lane, fun _ => rfl, fun h => absurd rfl h, fun _ => rfl⟩
theorem OneStream.vfrcp (h : LaneHdr) (t : FTy) (d a : Operand) : OneStream.Statement (.vfrcp h t d a) :=
  ⟨.lane, fun _ => rfl, fun h => absurd rfl h, fun _ => rfl⟩
theorem OneStream.vfrsq (h : LaneHdr) (t : FTy) (d a : Operand) : OneStream.Statement (.vfrsq h t d a) :=
  ⟨.lane, fun _ => rfl, fun h => absurd rfl h, fun _ => rfl⟩
theorem OneStream.vfex2 (h : LaneHdr) (t : FTy) (d a : Operand) : OneStream.Statement (.vfex2 h t d a) :=
  ⟨.lane, fun _ => rfl, fun h => absurd rfl h, fun _ => rfl⟩
theorem OneStream.vflg2 (h : LaneHdr) (t : FTy) (d a : Operand) : OneStream.Statement (.vflg2 h t d a) :=
  ⟨.lane, fun _ => rfl, fun h => absurd rfl h, fun _ => rfl⟩
theorem OneStream.vfsin (h : LaneHdr) (t : FTy) (d a : Operand) : OneStream.Statement (.vfsin h t d a) :=
  ⟨.lane, fun _ => rfl, fun h => absurd rfl h, fun _ => rfl⟩
theorem OneStream.vfcos (h : LaneHdr) (t : FTy) (d a : Operand) : OneStream.Statement (.vfcos h t d a) :=
  ⟨.lane, fun _ => rfl, fun h => absurd rfl h, fun _ => rfl⟩
theorem OneStream.vftnh (h : LaneHdr) (t : FTy) (d a : Operand) : OneStream.Statement (.vftnh h t d a) :=
  ⟨.lane, fun _ => rfl, fun h => absurd rfl h, fun _ => rfl⟩
theorem OneStream.vfcvt (h : LaneHdr) (ovf : Bool) (r : Rnd) (s t : Fmt) (d a : Operand) : OneStream.Statement (.vfcvt h ovf r s t d a) :=
  ⟨.lane, fun _ => rfl, fun h => absurd rfl h, fun _ => rfl⟩
theorem OneStream.vfcls (h : LaneHdr) (t : FTy) (d a : Operand) : OneStream.Statement (.vfcls h t d a) :=
  ⟨.lane, fun _ => rfl, fun h => absurd rfl h, fun _ => rfl⟩
theorem OneStream.vfdot2 (h : LaneHdr) (bf : Bool) (r : Rnd) (d a b c : Operand) : OneStream.Statement (.vfdot2 h bf r d a b c) :=
  ⟨.lane, fun _ => rfl, fun h => absurd rfl h, fun _ => rfl⟩
theorem OneStream.vfdot4 (h : LaneHdr) (v : B8Var) (p : BitVec 3) (r : Rnd) (d a b c : Operand) : OneStream.Statement (.vfdot4 h v p r d a b c) :=
  ⟨.lane, fun _ => rfl, fun h => absurd rfl h, fun _ => rfl⟩
theorem OneStream.vfscl (h : LaneHdr) (t : FTy) (r : Rnd) (d a b : Operand) : OneStream.Statement (.vfscl h t r d a b) :=
  ⟨.lane, fun _ => rfl, fun h => absurd rfl h, fun _ => rfl⟩
theorem OneStream.vshfl (h : LaneHdr) (t : ETy) (m : ShMode) (d a b : Operand) : OneStream.Statement (.vshfl h t m d a b) :=
  ⟨.lane, fun _ => rfl, fun h => absurd rfl h, fun _ => rfl⟩
theorem OneStream.vbcast (h : LaneHdr) (t : ETy) (d a b : Operand) : OneStream.Statement (.vbcast h t d a b) :=
  ⟨.lane, fun _ => rfl, fun h => absurd rfl h, fun _ => rfl⟩
theorem OneStream.vlred (h : LaneHdr) (t : ETy) (o : RedOp) (r : Rnd) (d a : Operand) : OneStream.Statement (.vlred h t o r d a) :=
  ⟨.lane, fun _ => rfl, fun h => absurd rfl h, fun _ => rfl⟩
theorem OneStream.vscan (h : LaneHdr) (t : ETy) (o : RedOp) (r : Rnd) (d a : Operand) : OneStream.Statement (.vscan h t o r d a) :=
  ⟨.lane, fun _ => rfl, fun h => absurd rfl h, fun _ => rfl⟩
theorem OneStream.vmred (h : LaneHdr) (t : ETy) (o : RedOp) (r : Rnd) (p : BitVec 3) (d a b : Operand) : OneStream.Statement (.vmred h t o r p d a b) :=
  ⟨.lane, fun _ => rfl, fun h => absurd rfl h, fun _ => rfl⟩
theorem OneStream.vballot (h : LaneHdr) (w64 : Bool) (p : BitVec 3) (d : Operand) : OneStream.Statement (.vballot h w64 p d) :=
  ⟨.lane, fun _ => rfl, fun h => absurd rfl h, fun _ => rfl⟩
theorem OneStream.vvote (h : LaneHdr) (m : VoteMode) (p q : BitVec 3) : OneStream.Statement (.vvote h m p q) :=
  ⟨.lane, fun _ => rfl, fun h => absurd rfl h, fun _ => rfl⟩
theorem OneStream.vlid (h : LaneHdr) (d : Operand) : OneStream.Statement (.vlid h d) :=
  ⟨.lane, fun _ => rfl, fun h => absurd rfl h, fun _ => rfl⟩
theorem OneStream.pand (h : LaneHdr) (pd pa pb : BitVec 3) (na nb : Bool) : OneStream.Statement (.pand h pd pa pb na nb) :=
  ⟨.lane, fun _ => rfl, fun h => absurd rfl h, fun _ => rfl⟩
theorem OneStream.por (h : LaneHdr) (pd pa pb : BitVec 3) (na nb : Bool) : OneStream.Statement (.por h pd pa pb na nb) :=
  ⟨.lane, fun _ => rfl, fun h => absurd rfl h, fun _ => rfl⟩
theorem OneStream.pxor (h : LaneHdr) (pd pa pb : BitVec 3) (na nb : Bool) : OneStream.Statement (.pxor h pd pa pb na nb) :=
  ⟨.lane, fun _ => rfl, fun h => absurd rfl h, fun _ => rfl⟩
theorem OneStream.pnot (h : LaneHdr) (pd pa : BitVec 3) (na : Bool) : OneStream.Statement (.pnot h pd pa na) :=
  ⟨.lane, fun _ => rfl, fun h => absurd rfl h, fun _ => rfl⟩
theorem OneStream.pmov (h : LaneHdr) (pd pa : BitVec 3) (na : Bool) : OneStream.Statement (.pmov h pd pa na) :=
  ⟨.lane, fun _ => rfl, fun h => absurd rfl h, fun _ => rfl⟩
theorem OneStream.lbr (p : BitVec 3) (n : Bool) (all : Bool) (o : BitVec 25) : OneStream.Statement (.lbr p n all o) :=
  ⟨.lane, fun _ => rfl, fun h => absurd rfl h, fun _ => rfl⟩
theorem OneStream.ljmp (o : BitVec 25) : OneStream.Statement (.ljmp o) :=
  ⟨.lane, fun _ => rfl, fun h => absurd rfl h, fun _ => rfl⟩
theorem OneStream.regang (k : BitVec 4) : OneStream.Statement (.regang k) :=
  ⟨.lane, fun _ => rfl, fun h => absurd rfl h, fun _ => rfl⟩
theorem OneStream.lend : OneStream.Statement (.lend) :=
  ⟨.lane, fun _ => rfl, fun h => absurd rfl h, fun _ => rfl⟩
theorem OneStream.lnop (h : LaneHdr) : OneStream.Statement (.lnop h) :=
  ⟨.lane, fun _ => rfl, fun h => absurd rfl h, fun _ => rfl⟩
theorem OneStream.vwSet (h : LaneHdr) (v : BitVec 5) (a : Operand) : OneStream.Statement (.vwSet h v a) :=
  ⟨.lane, fun _ => rfl, fun h => absurd rfl h, fun _ => rfl⟩
theorem OneStream.vld (h : LaneHdr) (t : ETy) (sc : Scope) (acq : Bool) (o : BitVec 12) (d a : Operand) : OneStream.Statement (.vld h t sc acq o d a) :=
  ⟨.lane, fun _ => rfl, fun h => absurd rfl h, fun _ => rfl⟩
theorem OneStream.vst (h : LaneHdr) (t : ETy) (sc : Scope) (rel : Bool) (o : BitVec 12) (a b : Operand) : OneStream.Statement (.vst h t sc rel o a b) :=
  ⟨.lane, fun _ => rfl, fun h => absurd rfl h, fun _ => rfl⟩
theorem OneStream.vamo (h : LaneHdr) (t : AtTy) (op : AmoOp) (sc : Scope) (sem : Sem) (o : BitVec 12) (d a b : Operand) : OneStream.Statement (.vamo h t op sc sem o d a b) :=
  ⟨.lane, fun _ => rfl, fun h => absurd rfl h, fun _ => rfl⟩
theorem OneStream.vcas (h : LaneHdr) (t : AtTy) (sc : Scope) (sem : Sem) (o : BitVec 12) (d a b c : Operand) : OneStream.Statement (.vcas h t sc sem o d a b c) :=
  ⟨.lane, fun _ => rfl, fun h => absurd rfl h, fun _ => rfl⟩
theorem OneStream.vtld (h : LaneHdr) (v : BitVec 4) (k : BitVec 8) (n : BitVec 6) : OneStream.Statement (.vtld h v k n) :=
  ⟨.lane, fun _ => rfl, fun h => absurd rfl h, fun _ => rfl⟩
theorem OneStream.vtst (h : LaneHdr) (v : BitVec 4) (k : BitVec 8) (n : BitVec 6) : OneStream.Statement (.vtst h v k n) :=
  ⟨.lane, fun _ => rfl, fun h => absurd rfl h, fun _ => rfl⟩
theorem OneStream.laneFence (h : LaneHdr) (sc : Scope) (k : FenceKind) : OneStream.Statement (.laneFence h sc k) :=
  ⟨.lane, fun _ => rfl, fun h => absurd rfl h, fun _ => rfl⟩
theorem OneStream.laneRadd (h : LaneHdr) (t : CrTy) (a b : Operand) : OneStream.Statement (.laneRadd h t a b) :=
  ⟨.lane, fun _ => rfl, fun h => absurd rfl h, fun _ => rfl⟩
theorem OneStream.laneBarArr (h : LaneHdr) (n : BitVec 6) : OneStream.Statement (.laneBarArr h n) :=
  ⟨.lane, fun _ => rfl, fun h => absurd rfl h, fun _ => rfl⟩
theorem OneStream.laneBarExp (h : LaneHdr) (n : BitVec 6) (b : Operand) : OneStream.Statement (.laneBarExp h n b) :=
  ⟨.lane, fun _ => rfl, fun h => absurd rfl h, fun _ => rfl⟩
theorem OneStream.laneBarWait (h : LaneHdr) (n : BitVec 6) (q : Bool) : OneStream.Statement (.laneBarWait h n q) :=
  ⟨.lane, fun _ => rfl, fun h => absurd rfl h, fun _ => rfl⟩
theorem OneStream.laneBarTry (h : LaneHdr) (n : BitVec 6) (q : Bool) (p : BitVec 3) : OneStream.Statement (.laneBarTry h n q p) :=
  ⟨.lane, fun _ => rfl, fun h => absurd rfl h, fun _ => rfl⟩
theorem OneStream.pairedWord (h : LaneHdr) (x y : HalfOp) : OneStream.Statement (.pairedWord h x y) :=
  ⟨.lane, fun _ => rfl, fun h => absurd rfl h, fun _ => rfl⟩
theorem OneStream.mls (ta : BitVec 6) (mi : BitVec 4) (dk dn : BitVec 16) : OneStream.Statement (.mls ta mi dk dn) :=
  ⟨.matrix, fun _ => rfl, fun _ _ => rfl, fun h => absurd rfl h⟩
theorem OneStream.mswp : OneStream.Statement (.mswp) :=
  ⟨.matrix, fun _ => rfl, fun _ _ => rfl, fun h => absurd rfl h⟩
theorem OneStream.mst (ta : BitVec 6) (mi : BitVec 4) (row count : BitVec 11) (acct : Bool) : OneStream.Statement (.mst ta mi row count acct) :=
  ⟨.matrix, fun _ => rfl, fun _ _ => rfl, fun h => absurd rfl h⟩
theorem OneStream.mzr (row count : BitVec 11) : OneStream.Statement (.mzr row count) :=
  ⟨.matrix, fun _ => rfl, fun _ _ => rfl, fun h => absurd rfl h⟩
theorem OneStream.mdr (tb : BitVec 6) (mi : BitVec 4) (row count : BitVec 11) (r : Rnd) (ovf clr : Bool) (sh : BitVec 5) : OneStream.Statement (.mdr tb mi row count r ovf clr sh) :=
  ⟨.matrix, fun _ => rfl, fun _ _ => rfl, fun h => absurd rfl h⟩
theorem OneStream.mspn (n : BitVec 8) (lead : BitVec 2) : OneStream.Statement (.mspn n lead) :=
  ⟨.matrix, fun _ => rfl, fun _ _ => rfl, fun h => absurd rfl h⟩
theorem OneStream.mbarr (b : BitVec 8) : OneStream.Statement (.mbarr b) :=
  ⟨.matrix, fun _ => rfl, fun _ _ => rfl, fun h => absurd rfl h⟩
theorem OneStream.mbwt (b : BitVec 8) (q : Bool) : OneStream.Statement (.mbwt b q) :=
  ⟨.matrix, fun _ => rfl, fun _ _ => rfl, fun h => absurd rfl h⟩
theorem OneStream.mset (mi : BitVec 4) (hi : Bool) (v : BitVec 31) : OneStream.Statement (.mset mi hi v) :=
  ⟨.matrix, fun _ => rfl, fun _ _ => rfl, fun h => absurd rfl h⟩
theorem OneStream.madd (mi : BitVec 4) (hi : Bool) (v : BitVec 31) : OneStream.Statement (.madd mi hi v) :=
  ⟨.matrix, fun _ => rfl, fun _ _ => rfl, fun h => absurd rfl h⟩
theorem OneStream.mloop (mi : BitVec 4) (o : BitVec 32) : OneStream.Statement (.mloop mi o) :=
  ⟨.matrix, fun _ => rfl, fun _ _ => rfl, fun h => absurd rfl h⟩
theorem OneStream.mjmp (o : BitVec 32) : OneStream.Statement (.mjmp o) :=
  ⟨.matrix, fun _ => rfl, fun _ _ => rfl, fun h => absurd rfl h⟩
theorem OneStream.mend : OneStream.Statement (.mend) :=
  ⟨.matrix, fun _ => rfl, fun _ _ => rfl, fun h => absurd rfl h⟩
theorem OneStream.mnop : OneStream.Statement (.mnop) :=
  ⟨.matrix, fun _ => rfl, fun _ _ => rfl, fun h => absurd rfl h⟩
theorem OneStream.portSend (v : Word) : OneStream.Statement (.portSend v) :=
  ⟨.scalar, fun h => absurd rfl h, fun _ _ => rfl, fun _ => rfl⟩
theorem OneStream.portReceive (d : Reg) : OneStream.Statement (.portReceive d) :=
  ⟨.scalar, fun h => absurd rfl h, fun _ _ => rfl, fun _ => rfl⟩
theorem OneStream.fcsrWrite (v : Word) : OneStream.Statement (.fcsrWrite v) :=
  ⟨.scalar, fun h => absurd rfl h, fun _ _ => rfl, fun _ => rfl⟩
theorem OneStream.segHotClear (n : BitVec 8) : OneStream.Statement (.segHotClear n) :=
  ⟨.scalar, fun h => absurd rfl h, fun _ _ => rfl, fun _ => rfl⟩
theorem OneStream.colPwrFloorWrite (v : BitVec 3) : OneStream.Statement (.colPwrFloorWrite v) :=
  ⟨.scalar, fun h => absurd rfl h, fun _ _ => rfl, fun _ => rfl⟩
theorem OneStream.hostClkReqWrite (mhz : BitVec 16) : OneStream.Statement (.hostClkReqWrite mhz) :=
  ⟨.scalar, fun h => absurd rfl h, fun _ _ => rfl, fun _ => rfl⟩
theorem OneStream.registerWrite (n : BitVec 12) (v : Word) : OneStream.Statement (.registerWrite n v) :=
  ⟨.scalar, fun h => absurd rfl h, fun _ _ => rfl, fun _ => rfl⟩
theorem OneStream.debuggerRead (g : Nat) (l : BitVec 5) (n : BitVec 8) : OneStream.Statement (.debuggerRead g l n) :=
  ⟨.scalar, fun h => absurd rfl h, fun _ _ => rfl, fun _ => rfl⟩
theorem OneStream.debuggerWrite (g : Nat) (l : BitVec 5) (n : BitVec 8) (v : Word32) : OneStream.Statement (.debuggerWrite g l n v) :=
  ⟨.scalar, fun h => absurd rfl h, fun _ _ => rfl, fun _ => rfl⟩
theorem OneStream.faultRecordRetry (n : Nat) : OneStream.Statement (.faultRecordRetry n) :=
  ⟨.scalar, fun h => absurd rfl h, fun _ _ => rfl, fun _ => rfl⟩
theorem OneStream.pageFaultReplay (a : AgentId) : OneStream.Statement (.pageFaultReplay a) :=
  ⟨.scalar, fun h => absurd rfl h, fun _ _ => rfl, fun _ => rfl⟩
theorem OneStream.runForcedEnd (g k : Nat) : OneStream.Statement (.runForcedEnd g k) :=
  ⟨.scalar, fun h => absurd rfl h, fun _ _ => rfl, fun _ => rfl⟩
theorem OneStream.runSplit (g k : Nat) : OneStream.Statement (.runSplit g k) :=
  ⟨.scalar, fun h => absurd rfl h, fun _ _ => rfl, fun _ => rfl⟩
theorem OneStream.runPromotion (g k : Nat) : OneStream.Statement (.runPromotion g k) :=
  ⟨.scalar, fun h => absurd rfl h, fun _ _ => rfl, fun _ => rfl⟩
theorem OneStream.xacqGrant (b : Nat) : OneStream.Statement (.xacqGrant b) :=
  ⟨.scalar, fun h => absurd rfl h, fun _ _ => rfl, fun _ => rfl⟩
theorem OneStream.winterEntry (b : Bank) : OneStream.Statement (.winterEntry b) :=
  ⟨.scalar, fun h => absurd rfl h, fun _ _ => rfl, fun _ => rfl⟩
theorem OneStream.powerGate (p : PowerRegion) : OneStream.Statement (.powerGate p) :=
  ⟨.scalar, fun h => absurd rfl h, fun _ _ => rfl, fun _ => rfl⟩
theorem OneStream.spring (p : PowerRegion) : OneStream.Statement (.spring p) :=
  ⟨.scalar, fun h => absurd rfl h, fun _ _ => rfl, fun _ => rfl⟩
theorem OneStream.storeDrain (a : AgentId) : OneStream.Statement (.storeDrain a) :=
  ⟨.scalar, fun h => absurd rfl h, fun _ _ => rfl, fun _ => rfl⟩
theorem OneStream.writeAtHome (m : Nat) : OneStream.Statement (.writeAtHome m) :=
  ⟨.scalar, fun h => absurd rfl h, fun _ _ => rfl, fun _ => rfl⟩
theorem OneStream.writeAck (m : Nat) : OneStream.Statement (.writeAck m) :=
  ⟨.scalar, fun h => absurd rfl h, fun _ _ => rfl, fun _ => rfl⟩
theorem OneStream.fillReceive (m : Nat) : OneStream.Statement (.fillReceive m) :=
  ⟨.scalar, fun h => absurd rfl h, fun _ _ => rfl, fun _ => rfl⟩
theorem OneStream.invalidationReceive (m : Nat) : OneStream.Statement (.invalidationReceive m) :=
  ⟨.scalar, fun h => absurd rfl h, fun _ _ => rfl, fun _ => rfl⟩
theorem OneStream.updateReceive (m : Nat) : OneStream.Statement (.updateReceive m) :=
  ⟨.scalar, fun h => absurd rfl h, fun _ _ => rfl, fun _ => rfl⟩
theorem OneStream.cacheEviction (hd line : Nat) : OneStream.Statement (.cacheEviction hd line) :=
  ⟨.scalar, fun h => absurd rfl h, fun _ _ => rfl, fun _ => rfl⟩
theorem OneStream.evictionNotice (m : Nat) : OneStream.Statement (.evictionNotice m) :=
  ⟨.scalar, fun h => absurd rfl h, fun _ _ => rfl, fun _ => rfl⟩
theorem OneStream.sliceEvictionPush (col line : Nat) : OneStream.Statement (.sliceEvictionPush col line) :=
  ⟨.scalar, fun h => absurd rfl h, fun _ _ => rfl, fun _ => rfl⟩
theorem OneStream.directoryEviction (line : Nat) : OneStream.Statement (.directoryEviction line) :=
  ⟨.scalar, fun h => absurd rfl h, fun _ _ => rfl, fun _ => rfl⟩
theorem OneStream.partialEviction (core line : Nat) : OneStream.Statement (.partialEviction core line) :=
  ⟨.scalar, fun h => absurd rfl h, fun _ _ => rfl, fun _ => rfl⟩
theorem OneStream.spmForward (m : Nat) : OneStream.Statement (.spmForward m) :=
  ⟨.scalar, fun h => absurd rfl h, fun _ _ => rfl, fun _ => rfl⟩
theorem OneStream.flitDelivery (m : Nat) : OneStream.Statement (.flitDelivery m) :=
  ⟨.scalar, fun h => absurd rfl h, fun _ _ => rfl, fun _ => rfl⟩
theorem OneStream.flitResend (m : Nat) : OneStream.Statement (.flitResend m) :=
  ⟨.scalar, fun h => absurd rfl h, fun _ _ => rfl, fun _ => rfl⟩
theorem OneStream.enginePayloadLand (e : Nat) : OneStream.Statement (.enginePayloadLand e) :=
  ⟨.scalar, fun h => absurd rfl h, fun _ _ => rfl, fun _ => rfl⟩
theorem OneStream.engineCompletion (e : Nat) : OneStream.Statement (.engineCompletion e) :=
  ⟨.scalar, fun h => absurd rfl h, fun _ _ => rfl, fun _ => rfl⟩
theorem OneStream.engineFault (e : Nat) (cause : BitVec 8) (elem : Word32) : OneStream.Statement (.engineFault e cause elem) :=
  ⟨.scalar, fun h => absurd rfl h, fun _ _ => rfl, fun _ => rfl⟩
theorem OneStream.spannedStep (b : Nat) : OneStream.Statement (.spannedStep b) :=
  ⟨.scalar, fun h => absurd rfl h, fun _ _ => rfl, fun _ => rfl⟩
theorem OneStream.mxBudgetWindow (core : Nat) : OneStream.Statement (.mxBudgetWindow core) :=
  ⟨.scalar, fun h => absurd rfl h, fun _ _ => rfl, fun _ => rfl⟩
theorem OneStream.launchPost (col q : Nat) (v : Word) : OneStream.Statement (.launchPost col q v) :=
  ⟨.scalar, fun h => absurd rfl h, fun _ _ => rfl, fun _ => rfl⟩
theorem OneStream.launchAccept (col q : Nat) : OneStream.Statement (.launchAccept col q) :=
  ⟨.scalar, fun h => absurd rfl h, fun _ _ => rfl, fun _ => rfl⟩
theorem OneStream.launchAgePromotion (col q : Nat) : OneStream.Statement (.launchAgePromotion col q) :=
  ⟨.scalar, fun h => absurd rfl h, fun _ _ => rfl, fun _ => rfl⟩
theorem OneStream.blockPlace (col : Nat) : OneStream.Statement (.blockPlace col) :=
  ⟨.scalar, fun h => absurd rfl h, fun _ _ => rfl, fun _ => rfl⟩
theorem OneStream.blockStart (b : Nat) : OneStream.Statement (.blockStart b) :=
  ⟨.scalar, fun h => absurd rfl h, fun _ _ => rfl, fun _ => rfl⟩
theorem OneStream.travellerBirth (r : Nat) : OneStream.Statement (.travellerBirth r) :=
  ⟨.scalar, fun h => absurd rfl h, fun _ _ => rfl, fun _ => rfl⟩
theorem OneStream.blockRetire (b : Nat) : OneStream.Statement (.blockRetire b) :=
  ⟨.scalar, fun h => absurd rfl h, fun _ _ => rfl, fun _ => rfl⟩
theorem OneStream.regionRetire (r : Nat) : OneStream.Statement (.regionRetire r) :=
  ⟨.scalar, fun h => absurd rfl h, fun _ _ => rfl, fun _ => rfl⟩
theorem OneStream.preemptStop (b : Nat) : OneStream.Statement (.preemptStop b) :=
  ⟨.scalar, fun h => absurd rfl h, fun _ _ => rfl, fun _ => rfl⟩
theorem OneStream.preemptDeadlineMiss (b : Nat) : OneStream.Statement (.preemptDeadlineMiss b) :=
  ⟨.scalar, fun h => absurd rfl h, fun _ _ => rfl, fun _ => rfl⟩
theorem OneStream.stubForward (n : Nat) : OneStream.Statement (.stubForward n) :=
  ⟨.scalar, fun h => absurd rfl h, fun _ _ => rfl, fun _ => rfl⟩
theorem OneStream.marchArrival (g : Nat) : OneStream.Statement (.marchArrival g) :=
  ⟨.scalar, fun h => absurd rfl h, fun _ _ => rfl, fun _ => rfl⟩
theorem OneStream.marchAdmit (core : Nat) : OneStream.Statement (.marchAdmit core) :=
  ⟨.scalar, fun h => absurd rfl h, fun _ _ => rfl, fun _ => rfl⟩
theorem OneStream.freeCountBroadcast (core : Nat) : OneStream.Statement (.freeCountBroadcast core) :=
  ⟨.scalar, fun h => absurd rfl h, fun _ _ => rfl, fun _ => rfl⟩
theorem OneStream.peerLaunchPacket (p : LaunchPacket) : OneStream.Statement (.peerLaunchPacket p) :=
  ⟨.scalar, fun h => absurd rfl h, fun _ _ => rfl, fun _ => rfl⟩
theorem OneStream.domainRequest (r : DomainReq) : OneStream.Statement (.domainRequest r) :=
  ⟨.scalar, fun h => absurd rfl h, fun _ _ => rfl, fun _ => rfl⟩
theorem OneStream.remoteRetry (n : Nat) : OneStream.Statement (.remoteRetry n) :=
  ⟨.scalar, fun h => absurd rfl h, fun _ _ => rfl, fun _ => rfl⟩
theorem OneStream.backInvalidate (line : Nat) : OneStream.Statement (.backInvalidate line) :=
  ⟨.scalar, fun h => absurd rfl h, fun _ _ => rfl, fun _ => rfl⟩
theorem OneStream.dcCapacityEvent (e : DcEvent) : OneStream.Statement (.dcCapacityEvent e) :=
  ⟨.scalar, fun h => absurd rfl h, fun _ _ => rfl, fun _ => rfl⟩
theorem OneStream.dcResponse (port : Nat) : OneStream.Statement (.dcResponse port) :=
  ⟨.scalar, fun h => absurd rfl h, fun _ _ => rfl, fun _ => rfl⟩
theorem OneStream.hbmRd (g pc tag : Nat) (flaw : EccFlaw) : OneStream.Statement (.hbmRd g pc tag flaw) :=
  ⟨.scalar, fun h => absurd rfl h, fun _ _ => rfl, fun _ => rfl⟩
theorem OneStream.hbmWr (g pc tag : Nat) (flaw : EccFlaw) : OneStream.Statement (.hbmWr g pc tag flaw) :=
  ⟨.scalar, fun h => absurd rfl h, fun _ _ => rfl, fun _ => rfl⟩
theorem OneStream.hbmWrm (g pc tag : Nat) (flaw : EccFlaw) : OneStream.Statement (.hbmWrm g pc tag flaw) :=
  ⟨.scalar, fun h => absurd rfl h, fun _ _ => rfl, fun _ => rfl⟩
theorem OneStream.hbmRdata (g pc tag : Nat) : OneStream.Statement (.hbmRdata g pc tag) :=
  ⟨.scalar, fun h => absurd rfl h, fun _ _ => rfl, fun _ => rfl⟩
theorem OneStream.hbmWack (g pc tag : Nat) : OneStream.Statement (.hbmWack g pc tag) :=
  ⟨.scalar, fun h => absurd rfl h, fun _ _ => rfl, fun _ => rfl⟩
theorem OneStream.refresh (g pc row : Nat) : OneStream.Statement (.refresh g pc row) :=
  ⟨.scalar, fun h => absurd rfl h, fun _ _ => rfl, fun _ => rfl⟩
theorem OneStream.patrolRead (g addr : Nat) (flaw : EccFlaw) : OneStream.Statement (.patrolRead g addr flaw) :=
  ⟨.scalar, fun h => absurd rfl h, fun _ _ => rfl, fun _ => rfl⟩
theorem OneStream.softError (e : SoftErr) : OneStream.Statement (.softError e) :=
  ⟨.scalar, fun h => absurd rfl h, fun _ _ => rfl, fun _ => rfl⟩
theorem OneStream.dieLinkError (m : BitVec 2) : OneStream.Statement (.dieLinkError m) :=
  ⟨.scalar, fun h => absurd rfl h, fun _ _ => rfl, fun _ => rfl⟩
theorem OneStream.governorSample (s : PowerSample) : OneStream.Statement (.governorSample s) :=
  ⟨.scalar, fun h => absurd rfl h, fun _ _ => rfl, fun _ => rfl⟩
theorem OneStream.throttleChange (col : Nat) : OneStream.Statement (.throttleChange col) :=
  ⟨.scalar, fun h => absurd rfl h, fun _ _ => rfl, fun _ => rfl⟩
theorem OneStream.droopAlarm (core mv : Nat) : OneStream.Statement (.droopAlarm core mv) :=
  ⟨.scalar, fun h => absurd rfl h, fun _ _ => rfl, fun _ => rfl⟩
theorem OneStream.droopStretchEnd (core : Nat) : OneStream.Statement (.droopStretchEnd core) :=
  ⟨.scalar, fun h => absurd rfl h, fun _ _ => rfl, fun _ => rfl⟩
theorem OneStream.droopHalvingEnd (core : Nat) : OneStream.Statement (.droopHalvingEnd core) :=
  ⟨.scalar, fun h => absurd rfl h, fun _ _ => rfl, fun _ => rfl⟩
theorem OneStream.ageingRead (slow : List Nat) : OneStream.Statement (.ageingRead slow) :=
  ⟨.scalar, fun h => absurd rfl h, fun _ _ => rfl, fun _ => rfl⟩
theorem OneStream.autumn (plan : List AutumnStep) : OneStream.Statement (.autumn plan) :=
  ⟨.scalar, fun h => absurd rfl h, fun _ _ => rfl, fun _ => rfl⟩
theorem OneStream.autumnStep : OneStream.Statement (.autumnStep) :=
  ⟨.scalar, fun h => absurd rfl h, fun _ _ => rfl, fun _ => rfl⟩
theorem OneStream.feedChange (feed ok : Bool) : OneStream.Statement (.feedChange feed ok) :=
  ⟨.scalar, fun h => absurd rfl h, fun _ _ => rfl, fun _ => rfl⟩
theorem OneStream.coldReset (i : BootImage) : OneStream.Statement (.coldReset i) :=
  ⟨.scalar, fun h => absurd rfl h, fun _ _ => rfl, fun _ => rfl⟩
theorem OneStream.hostFrameWrite (slot off : Nat) (d : List Byte) : OneStream.Statement (.hostFrameWrite slot off d) :=
  ⟨.scalar, fun h => absurd rfl h, fun _ _ => rfl, fun _ => rfl⟩
theorem OneStream.doorbell (slot : Nat) (v : Word) : OneStream.Statement (.doorbell slot v) :=
  ⟨.scalar, fun h => absurd rfl h, fun _ _ => rfl, fun _ => rfl⟩
theorem OneStream.launchFrame : OneStream.Statement (.launchFrame) :=
  ⟨.scalar, fun h => absurd rfl h, fun _ _ => rfl, fun _ => rfl⟩
theorem OneStream.copyFrame : OneStream.Statement (.copyFrame) :=
  ⟨.scalar, fun h => absurd rfl h, fun _ _ => rfl, fun _ => rfl⟩
theorem OneStream.queryFrame : OneStream.Statement (.queryFrame) :=
  ⟨.scalar, fun h => absurd rfl h, fun _ _ => rfl, fun _ => rfl⟩
theorem OneStream.attestFrame : OneStream.Statement (.attestFrame) :=
  ⟨.scalar, fun h => absurd rfl h, fun _ _ => rfl, fun _ => rfl⟩
theorem OneStream.healthRead : OneStream.Statement (.healthRead) :=
  ⟨.scalar, fun h => absurd rfl h, fun _ _ => rfl, fun _ => rfl⟩
theorem OneStream.blackBoxRead : OneStream.Statement (.blackBoxRead) :=
  ⟨.scalar, fun h => absurd rfl h, fun _ _ => rfl, fun _ => rfl⟩
theorem OneStream.blackBoxUnfreeze : OneStream.Statement (.blackBoxUnfreeze) :=
  ⟨.scalar, fun h => absurd rfl h, fun _ _ => rfl, fun _ => rfl⟩
theorem OneStream.hostThreadRestart : OneStream.Statement (.hostThreadRestart) :=
  ⟨.scalar, fun h => absurd rfl h, fun _ _ => rfl, fun _ => rfl⟩
theorem OneStream.blackBoxFreezeAll : OneStream.Statement (.blackBoxFreezeAll) :=
  ⟨.scalar, fun h => absurd rfl h, fun _ _ => rfl, fun _ => rfl⟩
theorem OneStream.packageReset : OneStream.Statement (.packageReset) :=
  ⟨.scalar, fun h => absurd rfl h, fun _ _ => rfl, fun _ => rfl⟩
theorem OneStream.homeResponse (a : AgentId) : OneStream.Statement (.homeResponse a) :=
  ⟨.scalar, fun h => absurd rfl h, fun _ _ => rfl, fun _ => rfl⟩
theorem OneStream.capacityWithdrawal (port base len : Nat) : OneStream.Statement (.capacityWithdrawal port base len) :=
  ⟨.scalar, fun h => absurd rfl h, fun _ _ => rfl, fun _ => rfl⟩

end Sys2Proof.Laws
end

