-- ==== Sys2Proof/Laws/Scalar.lean ====
section
/-! SUPPORT. What the shapes of scalar words answer. -/

namespace Sys2Proof.Laws

open Sys2Proof.Machine

variable {s : State} {th : Thread} {srcs dsts : List Reg} {d a b : Reg} {v : Word} {body : State → Except Exit State} {t : State}

/-- A scalar word whose body gives a state goes on to it. -/
theorem scalarJump_next (hr : Runs s th) (hp : PortsOk s srcs dsts) (hb : body s = .ok t) :
    scalarJump s srcs dsts body = .next (endReplay s (retired s srcs t) s.cur) := by
  obtain ⟨h1, h2⟩ := hr
  unfold PortsOk portCheck at hp
  unfold scalarJump scalarOr
  split
  · rename_i g k h; exact absurd h (h2 _ _)
  · simp_all
  · simp [hp, hb, settle, retired]

/-- A scalar word whose body gives a state goes on to it, and the next word follows. -/
theorem scalar_next (hr : Runs s th) (hp : PortsOk s srcs dsts) (hb : body s = .ok t) :
    scalar s srcs dsts body = .next (endReplay s (retired s srcs (advance t)) s.cur) :=
  scalarJump_next hr hp (by simp [hb, Except.map])

/-- A word of one source writes its function of it. -/
theorem scalar1_next {f : Word → Word} (hr : Runs s th) (hp : PortsOk s [a] [d]) (hv : f (rd s a) = v) :
    scalar1 d a s f = .next (endReplay s (retired s [a] (wrote s d v)) s.cur) := by subst hv; exact scalar_next hr hp rfl

/-- A word of two sources writes its function of them. -/
theorem scalar2_next {f : Word → Word → Word} (hr : Runs s th) (hp : PortsOk s [a, b] [d]) (hv : f (rd s a) (rd s b) = v) :
    scalar2 d a b s f = .next (endReplay s (retired s [a, b] (wrote s d v)) s.cur) := by subst hv; exact scalar_next hr hp rfl

/-- A trap of a scalar word's body is taken. -/
theorem scalar_trap {x : TrapInfo} {k : Option State} (hr : Runs s th) (hp : PortsOk s srcs dsts) (hb : body s = .error (.trap x k)) :
    scalar s srcs dsts body = .next (trapped s (k.getD s) x) := by
  obtain ⟨h1, h2⟩ := hr
  unfold PortsOk portCheck at hp
  unfold scalar scalarJump scalarOr
  split
  · rename_i g k h; exact absurd h (h2 _ _)
  · simp_all
  · simp [hp, hb, settle, Except.map, trapped]

/-- The thread that the current agent runs with. -/
theorem curThread_eq (hr : Runs s th) : curThread s = th := by simp [curThread, hr.1]

end Sys2Proof.Laws
end

