-- ==== Sys2Proof/Laws/State.lean ====
section
/-! SUPPORT. What each update of the state leaves in every other field: one lemma per field, so that no proof unfolds
a record update. -/

namespace Sys2Proof.Laws

open Sys2Proof.Machine

variable (s : State) (k : Nat)

/-! ### `modGroup` -/

@[simp] theorem modGroup_ns (f : Group → Group) : (modGroup s k f).ns = s.ns := rfl
@[simp] theorem modGroup_hosts (f : Group → Group) : (modGroup s k f).hosts = s.hosts := rfl
@[simp] theorem modGroup_blocks (f : Group → Group) : (modGroup s k f).blocks = s.blocks := rfl
@[simp] theorem modGroup_regions (f : Group → Group) : (modGroup s k f).regions = s.regions := rfl
@[simp] theorem modGroup_cores (f : Group → Group) : (modGroup s k f).cores = s.cores := rfl
@[simp] theorem modGroup_cols (f : Group → Group) : (modGroup s k f).cols = s.cols := rfl
@[simp] theorem modGroup_parts (f : Group → Group) : (modGroup s k f).parts = s.parts := rfl
@[simp] theorem modGroup_irecs (f : Group → Group) : (modGroup s k f).irecs = s.irecs := rfl
@[simp] theorem modGroup_mem (f : Group → Group) : (modGroup s k f).mem = s.mem := rfl
@[simp] theorem modGroup_memPoison (f : Group → Group) : (modGroup s k f).memPoison = s.memPoison := rfl
@[simp] theorem modGroup_hostMem (f : Group → Group) : (modGroup s k f).hostMem = s.hostMem := rfl
@[simp] theorem modGroup_home (f : Group → Group) : (modGroup s k f).home = s.home := rfl
@[simp] theorem modGroup_homings (f : Group → Group) : (modGroup s k f).homings = s.homings := rfl
@[simp] theorem modGroup_ranges (f : Group → Group) : (modGroup s k f).ranges = s.ranges := rfl
@[simp] theorem modGroup_copies (f : Group → Group) : (modGroup s k f).copies = s.copies := rfl
@[simp] theorem modGroup_priv (f : Group → Group) : (modGroup s k f).priv = s.priv := rfl
@[simp] theorem modGroup_net (f : Group → Group) : (modGroup s k f).net = s.net := rfl
@[simp] theorem modGroup_pendw (f : Group → Group) : (modGroup s k f).pendw = s.pendw := rfl
@[simp] theorem modGroup_pushes (f : Group → Group) : (modGroup s k f).pushes = s.pushes := rfl
@[simp] theorem modGroup_tlb (f : Group → Group) : (modGroup s k f).tlb = s.tlb := rfl
@[simp] theorem modGroup_aliases (f : Group → Group) : (modGroup s k f).aliases = s.aliases := rfl
@[simp] theorem modGroup_chans (f : Group → Group) : (modGroup s k f).chans = s.chans := rfl
@[simp] theorem modGroup_chanStat (f : Group → Group) : (modGroup s k f).chanStat = s.chanStat := rfl
@[simp] theorem modGroup_chanOrder (f : Group → Group) : (modGroup s k f).chanOrder = s.chanOrder := rfl
@[simp] theorem modGroup_act (f : Group → Group) : (modGroup s k f).act = s.act := rfl
@[simp] theorem modGroup_remote (f : Group → Group) : (modGroup s k f).remote = s.remote := rfl
@[simp] theorem modGroup_reply (f : Group → Group) : (modGroup s k f).reply = s.reply := rfl
@[simp] theorem modGroup_faultWait (f : Group → Group) : (modGroup s k f).faultWait = s.faultWait := rfl
@[simp] theorem modGroup_stubs (f : Group → Group) : (modGroup s k f).stubs = s.stubs := rfl
@[simp] theorem modGroup_replays (f : Group → Group) : (modGroup s k f).replays = s.replays := rfl
@[simp] theorem modGroup_debugValue (f : Group → Group) : (modGroup s k f).debugValue = s.debugValue := rfl
@[simp] theorem modGroup_tagSeq (f : Group → Group) : (modGroup s k f).tagSeq = s.tagSeq := rfl
@[simp] theorem modGroup_cxl (f : Group → Group) : (modGroup s k f).cxl = s.cxl := rfl
@[simp] theorem modGroup_link (f : Group → Group) : (modGroup s k f).link = s.link := rfl
@[simp] theorem modGroup_pkg (f : Group → Group) : (modGroup s k f).pkg = s.pkg := rfl
@[simp] theorem modGroup_cur (f : Group → Group) : (modGroup s k f).cur = s.cur := rfl
@[simp] theorem modGroup_sched (f : Group → Group) : (modGroup s k f).sched = s.sched := rfl
@[simp] theorem modGroup_freeCtr (f : Group → Group) : (modGroup s k f).freeCtr = s.freeCtr := rfl
@[simp] theorem modGroup_nextId (f : Group → Group) : (modGroup s k f).nextId = s.nextId := rfl

/-! ### `modBlock` -/

@[simp] theorem modBlock_ns (f : Block → Block) : (modBlock s k f).ns = s.ns := rfl
@[simp] theorem modBlock_hosts (f : Block → Block) : (modBlock s k f).hosts = s.hosts := rfl
@[simp] theorem modBlock_groups (f : Block → Block) : (modBlock s k f).groups = s.groups := rfl
@[simp] theorem modBlock_regions (f : Block → Block) : (modBlock s k f).regions = s.regions := rfl
@[simp] theorem modBlock_cores (f : Block → Block) : (modBlock s k f).cores = s.cores := rfl
@[simp] theorem modBlock_cols (f : Block → Block) : (modBlock s k f).cols = s.cols := rfl
@[simp] theorem modBlock_parts (f : Block → Block) : (modBlock s k f).parts = s.parts := rfl
@[simp] theorem modBlock_irecs (f : Block → Block) : (modBlock s k f).irecs = s.irecs := rfl
@[simp] theorem modBlock_mem (f : Block → Block) : (modBlock s k f).mem = s.mem := rfl
@[simp] theorem modBlock_memPoison (f : Block → Block) : (modBlock s k f).memPoison = s.memPoison := rfl
@[simp] theorem modBlock_hostMem (f : Block → Block) : (modBlock s k f).hostMem = s.hostMem := rfl
@[simp] theorem modBlock_home (f : Block → Block) : (modBlock s k f).home = s.home := rfl
@[simp] theorem modBlock_homings (f : Block → Block) : (modBlock s k f).homings = s.homings := rfl
@[simp] theorem modBlock_ranges (f : Block → Block) : (modBlock s k f).ranges = s.ranges := rfl
@[simp] theorem modBlock_copies (f : Block → Block) : (modBlock s k f).copies = s.copies := rfl
@[simp] theorem modBlock_priv (f : Block → Block) : (modBlock s k f).priv = s.priv := rfl
@[simp] theorem modBlock_net (f : Block → Block) : (modBlock s k f).net = s.net := rfl
@[simp] theorem modBlock_pendw (f : Block → Block) : (modBlock s k f).pendw = s.pendw := rfl
@[simp] theorem modBlock_pushes (f : Block → Block) : (modBlock s k f).pushes = s.pushes := rfl
@[simp] theorem modBlock_tlb (f : Block → Block) : (modBlock s k f).tlb = s.tlb := rfl
@[simp] theorem modBlock_aliases (f : Block → Block) : (modBlock s k f).aliases = s.aliases := rfl
@[simp] theorem modBlock_chans (f : Block → Block) : (modBlock s k f).chans = s.chans := rfl
@[simp] theorem modBlock_chanStat (f : Block → Block) : (modBlock s k f).chanStat = s.chanStat := rfl
@[simp] theorem modBlock_chanOrder (f : Block → Block) : (modBlock s k f).chanOrder = s.chanOrder := rfl
@[simp] theorem modBlock_act (f : Block → Block) : (modBlock s k f).act = s.act := rfl
@[simp] theorem modBlock_remote (f : Block → Block) : (modBlock s k f).remote = s.remote := rfl
@[simp] theorem modBlock_reply (f : Block → Block) : (modBlock s k f).reply = s.reply := rfl
@[simp] theorem modBlock_faultWait (f : Block → Block) : (modBlock s k f).faultWait = s.faultWait := rfl
@[simp] theorem modBlock_stubs (f : Block → Block) : (modBlock s k f).stubs = s.stubs := rfl
@[simp] theorem modBlock_replays (f : Block → Block) : (modBlock s k f).replays = s.replays := rfl
@[simp] theorem modBlock_debugValue (f : Block → Block) : (modBlock s k f).debugValue = s.debugValue := rfl
@[simp] theorem modBlock_tagSeq (f : Block → Block) : (modBlock s k f).tagSeq = s.tagSeq := rfl
@[simp] theorem modBlock_cxl (f : Block → Block) : (modBlock s k f).cxl = s.cxl := rfl
@[simp] theorem modBlock_link (f : Block → Block) : (modBlock s k f).link = s.link := rfl
@[simp] theorem modBlock_pkg (f : Block → Block) : (modBlock s k f).pkg = s.pkg := rfl
@[simp] theorem modBlock_cur (f : Block → Block) : (modBlock s k f).cur = s.cur := rfl
@[simp] theorem modBlock_sched (f : Block → Block) : (modBlock s k f).sched = s.sched := rfl
@[simp] theorem modBlock_freeCtr (f : Block → Block) : (modBlock s k f).freeCtr = s.freeCtr := rfl
@[simp] theorem modBlock_nextId (f : Block → Block) : (modBlock s k f).nextId = s.nextId := rfl

/-! ### `modCore` -/

@[simp] theorem modCore_ns (f : Core → Core) : (modCore s k f).ns = s.ns := rfl
@[simp] theorem modCore_hosts (f : Core → Core) : (modCore s k f).hosts = s.hosts := rfl
@[simp] theorem modCore_groups (f : Core → Core) : (modCore s k f).groups = s.groups := rfl
@[simp] theorem modCore_blocks (f : Core → Core) : (modCore s k f).blocks = s.blocks := rfl
@[simp] theorem modCore_regions (f : Core → Core) : (modCore s k f).regions = s.regions := rfl
@[simp] theorem modCore_cols (f : Core → Core) : (modCore s k f).cols = s.cols := rfl
@[simp] theorem modCore_parts (f : Core → Core) : (modCore s k f).parts = s.parts := rfl
@[simp] theorem modCore_irecs (f : Core → Core) : (modCore s k f).irecs = s.irecs := rfl
@[simp] theorem modCore_mem (f : Core → Core) : (modCore s k f).mem = s.mem := rfl
@[simp] theorem modCore_memPoison (f : Core → Core) : (modCore s k f).memPoison = s.memPoison := rfl
@[simp] theorem modCore_hostMem (f : Core → Core) : (modCore s k f).hostMem = s.hostMem := rfl
@[simp] theorem modCore_home (f : Core → Core) : (modCore s k f).home = s.home := rfl
@[simp] theorem modCore_homings (f : Core → Core) : (modCore s k f).homings = s.homings := rfl
@[simp] theorem modCore_ranges (f : Core → Core) : (modCore s k f).ranges = s.ranges := rfl
@[simp] theorem modCore_copies (f : Core → Core) : (modCore s k f).copies = s.copies := rfl
@[simp] theorem modCore_priv (f : Core → Core) : (modCore s k f).priv = s.priv := rfl
@[simp] theorem modCore_net (f : Core → Core) : (modCore s k f).net = s.net := rfl
@[simp] theorem modCore_pendw (f : Core → Core) : (modCore s k f).pendw = s.pendw := rfl
@[simp] theorem modCore_pushes (f : Core → Core) : (modCore s k f).pushes = s.pushes := rfl
@[simp] theorem modCore_tlb (f : Core → Core) : (modCore s k f).tlb = s.tlb := rfl
@[simp] theorem modCore_aliases (f : Core → Core) : (modCore s k f).aliases = s.aliases := rfl
@[simp] theorem modCore_chans (f : Core → Core) : (modCore s k f).chans = s.chans := rfl
@[simp] theorem modCore_chanStat (f : Core → Core) : (modCore s k f).chanStat = s.chanStat := rfl
@[simp] theorem modCore_chanOrder (f : Core → Core) : (modCore s k f).chanOrder = s.chanOrder := rfl
@[simp] theorem modCore_act (f : Core → Core) : (modCore s k f).act = s.act := rfl
@[simp] theorem modCore_remote (f : Core → Core) : (modCore s k f).remote = s.remote := rfl
@[simp] theorem modCore_reply (f : Core → Core) : (modCore s k f).reply = s.reply := rfl
@[simp] theorem modCore_faultWait (f : Core → Core) : (modCore s k f).faultWait = s.faultWait := rfl
@[simp] theorem modCore_stubs (f : Core → Core) : (modCore s k f).stubs = s.stubs := rfl
@[simp] theorem modCore_replays (f : Core → Core) : (modCore s k f).replays = s.replays := rfl
@[simp] theorem modCore_debugValue (f : Core → Core) : (modCore s k f).debugValue = s.debugValue := rfl
@[simp] theorem modCore_tagSeq (f : Core → Core) : (modCore s k f).tagSeq = s.tagSeq := rfl
@[simp] theorem modCore_cxl (f : Core → Core) : (modCore s k f).cxl = s.cxl := rfl
@[simp] theorem modCore_link (f : Core → Core) : (modCore s k f).link = s.link := rfl
@[simp] theorem modCore_pkg (f : Core → Core) : (modCore s k f).pkg = s.pkg := rfl
@[simp] theorem modCore_cur (f : Core → Core) : (modCore s k f).cur = s.cur := rfl
@[simp] theorem modCore_sched (f : Core → Core) : (modCore s k f).sched = s.sched := rfl
@[simp] theorem modCore_freeCtr (f : Core → Core) : (modCore s k f).freeCtr = s.freeCtr := rfl
@[simp] theorem modCore_nextId (f : Core → Core) : (modCore s k f).nextId = s.nextId := rfl

/-! ### `modCol` -/

@[simp] theorem modCol_ns (f : Column → Column) : (modCol s k f).ns = s.ns := rfl
@[simp] theorem modCol_hosts (f : Column → Column) : (modCol s k f).hosts = s.hosts := rfl
@[simp] theorem modCol_groups (f : Column → Column) : (modCol s k f).groups = s.groups := rfl
@[simp] theorem modCol_blocks (f : Column → Column) : (modCol s k f).blocks = s.blocks := rfl
@[simp] theorem modCol_regions (f : Column → Column) : (modCol s k f).regions = s.regions := rfl
@[simp] theorem modCol_cores (f : Column → Column) : (modCol s k f).cores = s.cores := rfl
@[simp] theorem modCol_parts (f : Column → Column) : (modCol s k f).parts = s.parts := rfl
@[simp] theorem modCol_irecs (f : Column → Column) : (modCol s k f).irecs = s.irecs := rfl
@[simp] theorem modCol_mem (f : Column → Column) : (modCol s k f).mem = s.mem := rfl
@[simp] theorem modCol_memPoison (f : Column → Column) : (modCol s k f).memPoison = s.memPoison := rfl
@[simp] theorem modCol_hostMem (f : Column → Column) : (modCol s k f).hostMem = s.hostMem := rfl
@[simp] theorem modCol_home (f : Column → Column) : (modCol s k f).home = s.home := rfl
@[simp] theorem modCol_homings (f : Column → Column) : (modCol s k f).homings = s.homings := rfl
@[simp] theorem modCol_ranges (f : Column → Column) : (modCol s k f).ranges = s.ranges := rfl
@[simp] theorem modCol_copies (f : Column → Column) : (modCol s k f).copies = s.copies := rfl
@[simp] theorem modCol_priv (f : Column → Column) : (modCol s k f).priv = s.priv := rfl
@[simp] theorem modCol_net (f : Column → Column) : (modCol s k f).net = s.net := rfl
@[simp] theorem modCol_pendw (f : Column → Column) : (modCol s k f).pendw = s.pendw := rfl
@[simp] theorem modCol_pushes (f : Column → Column) : (modCol s k f).pushes = s.pushes := rfl
@[simp] theorem modCol_tlb (f : Column → Column) : (modCol s k f).tlb = s.tlb := rfl
@[simp] theorem modCol_aliases (f : Column → Column) : (modCol s k f).aliases = s.aliases := rfl
@[simp] theorem modCol_chans (f : Column → Column) : (modCol s k f).chans = s.chans := rfl
@[simp] theorem modCol_chanStat (f : Column → Column) : (modCol s k f).chanStat = s.chanStat := rfl
@[simp] theorem modCol_chanOrder (f : Column → Column) : (modCol s k f).chanOrder = s.chanOrder := rfl
@[simp] theorem modCol_act (f : Column → Column) : (modCol s k f).act = s.act := rfl
@[simp] theorem modCol_remote (f : Column → Column) : (modCol s k f).remote = s.remote := rfl
@[simp] theorem modCol_reply (f : Column → Column) : (modCol s k f).reply = s.reply := rfl
@[simp] theorem modCol_faultWait (f : Column → Column) : (modCol s k f).faultWait = s.faultWait := rfl
@[simp] theorem modCol_stubs (f : Column → Column) : (modCol s k f).stubs = s.stubs := rfl
@[simp] theorem modCol_replays (f : Column → Column) : (modCol s k f).replays = s.replays := rfl
@[simp] theorem modCol_debugValue (f : Column → Column) : (modCol s k f).debugValue = s.debugValue := rfl
@[simp] theorem modCol_tagSeq (f : Column → Column) : (modCol s k f).tagSeq = s.tagSeq := rfl
@[simp] theorem modCol_cxl (f : Column → Column) : (modCol s k f).cxl = s.cxl := rfl
@[simp] theorem modCol_link (f : Column → Column) : (modCol s k f).link = s.link := rfl
@[simp] theorem modCol_pkg (f : Column → Column) : (modCol s k f).pkg = s.pkg := rfl
@[simp] theorem modCol_cur (f : Column → Column) : (modCol s k f).cur = s.cur := rfl
@[simp] theorem modCol_sched (f : Column → Column) : (modCol s k f).sched = s.sched := rfl
@[simp] theorem modCol_freeCtr (f : Column → Column) : (modCol s k f).freeCtr = s.freeCtr := rfl
@[simp] theorem modCol_nextId (f : Column → Column) : (modCol s k f).nextId = s.nextId := rfl

/-! ### `takeMsg` -/

@[simp] theorem takeMsg_ns  : (takeMsg s k).ns = s.ns := rfl
@[simp] theorem takeMsg_hosts  : (takeMsg s k).hosts = s.hosts := rfl
@[simp] theorem takeMsg_groups  : (takeMsg s k).groups = s.groups := rfl
@[simp] theorem takeMsg_blocks  : (takeMsg s k).blocks = s.blocks := rfl
@[simp] theorem takeMsg_regions  : (takeMsg s k).regions = s.regions := rfl
@[simp] theorem takeMsg_cores  : (takeMsg s k).cores = s.cores := rfl
@[simp] theorem takeMsg_cols  : (takeMsg s k).cols = s.cols := rfl
@[simp] theorem takeMsg_parts  : (takeMsg s k).parts = s.parts := rfl
@[simp] theorem takeMsg_irecs  : (takeMsg s k).irecs = s.irecs := rfl
@[simp] theorem takeMsg_mem  : (takeMsg s k).mem = s.mem := rfl
@[simp] theorem takeMsg_memPoison  : (takeMsg s k).memPoison = s.memPoison := rfl
@[simp] theorem takeMsg_hostMem  : (takeMsg s k).hostMem = s.hostMem := rfl
@[simp] theorem takeMsg_home  : (takeMsg s k).home = s.home := rfl
@[simp] theorem takeMsg_homings  : (takeMsg s k).homings = s.homings := rfl
@[simp] theorem takeMsg_ranges  : (takeMsg s k).ranges = s.ranges := rfl
@[simp] theorem takeMsg_copies  : (takeMsg s k).copies = s.copies := rfl
@[simp] theorem takeMsg_priv  : (takeMsg s k).priv = s.priv := rfl
@[simp] theorem takeMsg_pendw  : (takeMsg s k).pendw = s.pendw := rfl
@[simp] theorem takeMsg_pushes  : (takeMsg s k).pushes = s.pushes := rfl
@[simp] theorem takeMsg_tlb  : (takeMsg s k).tlb = s.tlb := rfl
@[simp] theorem takeMsg_aliases  : (takeMsg s k).aliases = s.aliases := rfl
@[simp] theorem takeMsg_chans  : (takeMsg s k).chans = s.chans := rfl
@[simp] theorem takeMsg_chanStat  : (takeMsg s k).chanStat = s.chanStat := rfl
@[simp] theorem takeMsg_chanOrder  : (takeMsg s k).chanOrder = s.chanOrder := rfl
@[simp] theorem takeMsg_act  : (takeMsg s k).act = s.act := rfl
@[simp] theorem takeMsg_remote  : (takeMsg s k).remote = s.remote := rfl
@[simp] theorem takeMsg_reply  : (takeMsg s k).reply = s.reply := rfl
@[simp] theorem takeMsg_faultWait  : (takeMsg s k).faultWait = s.faultWait := rfl
@[simp] theorem takeMsg_stubs  : (takeMsg s k).stubs = s.stubs := rfl
@[simp] theorem takeMsg_replays  : (takeMsg s k).replays = s.replays := rfl
@[simp] theorem takeMsg_debugValue  : (takeMsg s k).debugValue = s.debugValue := rfl
@[simp] theorem takeMsg_tagSeq  : (takeMsg s k).tagSeq = s.tagSeq := rfl
@[simp] theorem takeMsg_cxl  : (takeMsg s k).cxl = s.cxl := rfl
@[simp] theorem takeMsg_link  : (takeMsg s k).link = s.link := rfl
@[simp] theorem takeMsg_pkg  : (takeMsg s k).pkg = s.pkg := rfl
@[simp] theorem takeMsg_cur  : (takeMsg s k).cur = s.cur := rfl
@[simp] theorem takeMsg_sched  : (takeMsg s k).sched = s.sched := rfl
@[simp] theorem takeMsg_freeCtr  : (takeMsg s k).freeCtr = s.freeCtr := rfl
@[simp] theorem takeMsg_nextId  : (takeMsg s k).nextId = s.nextId := rfl

/-! ### `send` -/

@[simp] theorem send_ns (m : MsgKind) : (send s m).ns = s.ns := rfl
@[simp] theorem send_hosts (m : MsgKind) : (send s m).hosts = s.hosts := rfl
@[simp] theorem send_groups (m : MsgKind) : (send s m).groups = s.groups := rfl
@[simp] theorem send_blocks (m : MsgKind) : (send s m).blocks = s.blocks := rfl
@[simp] theorem send_regions (m : MsgKind) : (send s m).regions = s.regions := rfl
@[simp] theorem send_cores (m : MsgKind) : (send s m).cores = s.cores := rfl
@[simp] theorem send_cols (m : MsgKind) : (send s m).cols = s.cols := rfl
@[simp] theorem send_parts (m : MsgKind) : (send s m).parts = s.parts := rfl
@[simp] theorem send_irecs (m : MsgKind) : (send s m).irecs = s.irecs := rfl
@[simp] theorem send_mem (m : MsgKind) : (send s m).mem = s.mem := rfl
@[simp] theorem send_memPoison (m : MsgKind) : (send s m).memPoison = s.memPoison := rfl
@[simp] theorem send_hostMem (m : MsgKind) : (send s m).hostMem = s.hostMem := rfl
@[simp] theorem send_home (m : MsgKind) : (send s m).home = s.home := rfl
@[simp] theorem send_homings (m : MsgKind) : (send s m).homings = s.homings := rfl
@[simp] theorem send_ranges (m : MsgKind) : (send s m).ranges = s.ranges := rfl
@[simp] theorem send_copies (m : MsgKind) : (send s m).copies = s.copies := rfl
@[simp] theorem send_priv (m : MsgKind) : (send s m).priv = s.priv := rfl
@[simp] theorem send_pendw (m : MsgKind) : (send s m).pendw = s.pendw := rfl
@[simp] theorem send_pushes (m : MsgKind) : (send s m).pushes = s.pushes := rfl
@[simp] theorem send_tlb (m : MsgKind) : (send s m).tlb = s.tlb := rfl
@[simp] theorem send_aliases (m : MsgKind) : (send s m).aliases = s.aliases := rfl
@[simp] theorem send_chans (m : MsgKind) : (send s m).chans = s.chans := rfl
@[simp] theorem send_chanStat (m : MsgKind) : (send s m).chanStat = s.chanStat := rfl
@[simp] theorem send_chanOrder (m : MsgKind) : (send s m).chanOrder = s.chanOrder := rfl
@[simp] theorem send_act (m : MsgKind) : (send s m).act = s.act := rfl
@[simp] theorem send_remote (m : MsgKind) : (send s m).remote = s.remote := rfl
@[simp] theorem send_reply (m : MsgKind) : (send s m).reply = s.reply := rfl
@[simp] theorem send_faultWait (m : MsgKind) : (send s m).faultWait = s.faultWait := rfl
@[simp] theorem send_stubs (m : MsgKind) : (send s m).stubs = s.stubs := rfl
@[simp] theorem send_replays (m : MsgKind) : (send s m).replays = s.replays := rfl
@[simp] theorem send_debugValue (m : MsgKind) : (send s m).debugValue = s.debugValue := rfl
@[simp] theorem send_tagSeq (m : MsgKind) : (send s m).tagSeq = s.tagSeq := rfl
@[simp] theorem send_cxl (m : MsgKind) : (send s m).cxl = s.cxl := rfl
@[simp] theorem send_link (m : MsgKind) : (send s m).link = s.link := rfl
@[simp] theorem send_pkg (m : MsgKind) : (send s m).pkg = s.pkg := rfl
@[simp] theorem send_cur (m : MsgKind) : (send s m).cur = s.cur := rfl
@[simp] theorem send_sched (m : MsgKind) : (send s m).sched = s.sched := rfl
@[simp] theorem send_freeCtr (m : MsgKind) : (send s m).freeCtr = s.freeCtr := rfl

/-! ### `modThread` -/

@[simp] theorem modThread_ns (a : AgentId) (f : Thread → Thread) : (modThread s a f).ns = s.ns := by cases a <;> rfl
@[simp] theorem modThread_blocks (a : AgentId) (f : Thread → Thread) : (modThread s a f).blocks = s.blocks := by cases a <;> rfl
@[simp] theorem modThread_regions (a : AgentId) (f : Thread → Thread) : (modThread s a f).regions = s.regions := by cases a <;> rfl
@[simp] theorem modThread_cores (a : AgentId) (f : Thread → Thread) : (modThread s a f).cores = s.cores := by cases a <;> rfl
@[simp] theorem modThread_cols (a : AgentId) (f : Thread → Thread) : (modThread s a f).cols = s.cols := by cases a <;> rfl
@[simp] theorem modThread_parts (a : AgentId) (f : Thread → Thread) : (modThread s a f).parts = s.parts := by cases a <;> rfl
@[simp] theorem modThread_irecs (a : AgentId) (f : Thread → Thread) : (modThread s a f).irecs = s.irecs := by cases a <;> rfl
@[simp] theorem modThread_mem (a : AgentId) (f : Thread → Thread) : (modThread s a f).mem = s.mem := by cases a <;> rfl
@[simp] theorem modThread_memPoison (a : AgentId) (f : Thread → Thread) : (modThread s a f).memPoison = s.memPoison := by cases a <;> rfl
@[simp] theorem modThread_hostMem (a : AgentId) (f : Thread → Thread) : (modThread s a f).hostMem = s.hostMem := by cases a <;> rfl
@[simp] theorem modThread_home (a : AgentId) (f : Thread → Thread) : (modThread s a f).home = s.home := by cases a <;> rfl
@[simp] theorem modThread_homings (a : AgentId) (f : Thread → Thread) : (modThread s a f).homings = s.homings := by cases a <;> rfl
@[simp] theorem modThread_ranges (a : AgentId) (f : Thread → Thread) : (modThread s a f).ranges = s.ranges := by cases a <;> rfl
@[simp] theorem modThread_copies (a : AgentId) (f : Thread → Thread) : (modThread s a f).copies = s.copies := by cases a <;> rfl
@[simp] theorem modThread_priv (a : AgentId) (f : Thread → Thread) : (modThread s a f).priv = s.priv := by cases a <;> rfl
@[simp] theorem modThread_net (a : AgentId) (f : Thread → Thread) : (modThread s a f).net = s.net := by cases a <;> rfl
@[simp] theorem modThread_pendw (a : AgentId) (f : Thread → Thread) : (modThread s a f).pendw = s.pendw := by cases a <;> rfl
@[simp] theorem modThread_pushes (a : AgentId) (f : Thread → Thread) : (modThread s a f).pushes = s.pushes := by cases a <;> rfl
@[simp] theorem modThread_tlb (a : AgentId) (f : Thread → Thread) : (modThread s a f).tlb = s.tlb := by cases a <;> rfl
@[simp] theorem modThread_aliases (a : AgentId) (f : Thread → Thread) : (modThread s a f).aliases = s.aliases := by cases a <;> rfl
@[simp] theorem modThread_chans (a : AgentId) (f : Thread → Thread) : (modThread s a f).chans = s.chans := by cases a <;> rfl
@[simp] theorem modThread_chanStat (a : AgentId) (f : Thread → Thread) : (modThread s a f).chanStat = s.chanStat := by cases a <;> rfl
@[simp] theorem modThread_chanOrder (a : AgentId) (f : Thread → Thread) : (modThread s a f).chanOrder = s.chanOrder := by cases a <;> rfl
@[simp] theorem modThread_act (a : AgentId) (f : Thread → Thread) : (modThread s a f).act = s.act := by cases a <;> rfl
@[simp] theorem modThread_remote (a : AgentId) (f : Thread → Thread) : (modThread s a f).remote = s.remote := by cases a <;> rfl
@[simp] theorem modThread_reply (a : AgentId) (f : Thread → Thread) : (modThread s a f).reply = s.reply := by cases a <;> rfl
@[simp] theorem modThread_faultWait (a : AgentId) (f : Thread → Thread) : (modThread s a f).faultWait = s.faultWait := by cases a <;> rfl
@[simp] theorem modThread_stubs (a : AgentId) (f : Thread → Thread) : (modThread s a f).stubs = s.stubs := by cases a <;> rfl
@[simp] theorem modThread_replays (a : AgentId) (f : Thread → Thread) : (modThread s a f).replays = s.replays := by cases a <;> rfl
@[simp] theorem modThread_debugValue (a : AgentId) (f : Thread → Thread) : (modThread s a f).debugValue = s.debugValue := by cases a <;> rfl
@[simp] theorem modThread_tagSeq (a : AgentId) (f : Thread → Thread) : (modThread s a f).tagSeq = s.tagSeq := by cases a <;> rfl
@[simp] theorem modThread_cxl (a : AgentId) (f : Thread → Thread) : (modThread s a f).cxl = s.cxl := by cases a <;> rfl
@[simp] theorem modThread_link (a : AgentId) (f : Thread → Thread) : (modThread s a f).link = s.link := by cases a <;> rfl
@[simp] theorem modThread_pkg (a : AgentId) (f : Thread → Thread) : (modThread s a f).pkg = s.pkg := by cases a <;> rfl
@[simp] theorem modThread_cur (a : AgentId) (f : Thread → Thread) : (modThread s a f).cur = s.cur := by cases a <;> rfl
@[simp] theorem modThread_sched (a : AgentId) (f : Thread → Thread) : (modThread s a f).sched = s.sched := by cases a <;> rfl
@[simp] theorem modThread_freeCtr (a : AgentId) (f : Thread → Thread) : (modThread s a f).freeCtr = s.freeCtr := by cases a <;> rfl
@[simp] theorem modThread_nextId (a : AgentId) (f : Thread → Thread) : (modThread s a f).nextId = s.nextId := by cases a <;> rfl

/-! ### `modCur` -/

@[simp] theorem modCur_ns (f : Thread → Thread) : (modCur s f).ns = s.ns := by simp [modCur]
@[simp] theorem modCur_blocks (f : Thread → Thread) : (modCur s f).blocks = s.blocks := by simp [modCur]
@[simp] theorem modCur_regions (f : Thread → Thread) : (modCur s f).regions = s.regions := by simp [modCur]
@[simp] theorem modCur_cores (f : Thread → Thread) : (modCur s f).cores = s.cores := by simp [modCur]
@[simp] theorem modCur_cols (f : Thread → Thread) : (modCur s f).cols = s.cols := by simp [modCur]
@[simp] theorem modCur_parts (f : Thread → Thread) : (modCur s f).parts = s.parts := by simp [modCur]
@[simp] theorem modCur_irecs (f : Thread → Thread) : (modCur s f).irecs = s.irecs := by simp [modCur]
@[simp] theorem modCur_mem (f : Thread → Thread) : (modCur s f).mem = s.mem := by simp [modCur]
@[simp] theorem modCur_memPoison (f : Thread → Thread) : (modCur s f).memPoison = s.memPoison := by simp [modCur]
@[simp] theorem modCur_hostMem (f : Thread → Thread) : (modCur s f).hostMem = s.hostMem := by simp [modCur]
@[simp] theorem modCur_home (f : Thread → Thread) : (modCur s f).home = s.home := by simp [modCur]
@[simp] theorem modCur_homings (f : Thread → Thread) : (modCur s f).homings = s.homings := by simp [modCur]
@[simp] theorem modCur_ranges (f : Thread → Thread) : (modCur s f).ranges = s.ranges := by simp [modCur]
@[simp] theorem modCur_copies (f : Thread → Thread) : (modCur s f).copies = s.copies := by simp [modCur]
@[simp] theorem modCur_priv (f : Thread → Thread) : (modCur s f).priv = s.priv := by simp [modCur]
@[simp] theorem modCur_net (f : Thread → Thread) : (modCur s f).net = s.net := by simp [modCur]
@[simp] theorem modCur_pendw (f : Thread → Thread) : (modCur s f).pendw = s.pendw := by simp [modCur]
@[simp] theorem modCur_pushes (f : Thread → Thread) : (modCur s f).pushes = s.pushes := by simp [modCur]
@[simp] theorem modCur_tlb (f : Thread → Thread) : (modCur s f).tlb = s.tlb := by simp [modCur]
@[simp] theorem modCur_aliases (f : Thread → Thread) : (modCur s f).aliases = s.aliases := by simp [modCur]
@[simp] theorem modCur_chans (f : Thread → Thread) : (modCur s f).chans = s.chans := by simp [modCur]
@[simp] theorem modCur_chanStat (f : Thread → Thread) : (modCur s f).chanStat = s.chanStat := by simp [modCur]
@[simp] theorem modCur_chanOrder (f : Thread → Thread) : (modCur s f).chanOrder = s.chanOrder := by simp [modCur]
@[simp] theorem modCur_act (f : Thread → Thread) : (modCur s f).act = s.act := by simp [modCur]
@[simp] theorem modCur_remote (f : Thread → Thread) : (modCur s f).remote = s.remote := by simp [modCur]
@[simp] theorem modCur_reply (f : Thread → Thread) : (modCur s f).reply = s.reply := by simp [modCur]
@[simp] theorem modCur_faultWait (f : Thread → Thread) : (modCur s f).faultWait = s.faultWait := by simp [modCur]
@[simp] theorem modCur_stubs (f : Thread → Thread) : (modCur s f).stubs = s.stubs := by simp [modCur]
@[simp] theorem modCur_replays (f : Thread → Thread) : (modCur s f).replays = s.replays := by simp [modCur]
@[simp] theorem modCur_debugValue (f : Thread → Thread) : (modCur s f).debugValue = s.debugValue := by simp [modCur]
@[simp] theorem modCur_tagSeq (f : Thread → Thread) : (modCur s f).tagSeq = s.tagSeq := by simp [modCur]
@[simp] theorem modCur_cxl (f : Thread → Thread) : (modCur s f).cxl = s.cxl := by simp [modCur]
@[simp] theorem modCur_link (f : Thread → Thread) : (modCur s f).link = s.link := by simp [modCur]
@[simp] theorem modCur_pkg (f : Thread → Thread) : (modCur s f).pkg = s.pkg := by simp [modCur]
@[simp] theorem modCur_cur (f : Thread → Thread) : (modCur s f).cur = s.cur := by simp [modCur]
@[simp] theorem modCur_sched (f : Thread → Thread) : (modCur s f).sched = s.sched := by simp [modCur]
@[simp] theorem modCur_freeCtr (f : Thread → Thread) : (modCur s f).freeCtr = s.freeCtr := by simp [modCur]
@[simp] theorem modCur_nextId (f : Thread → Thread) : (modCur s f).nextId = s.nextId := by simp [modCur]

/-! ### `modCurGroup` -/

@[simp] theorem modCurGroup_ns (f : Group → Group) : (modCurGroup s f).ns = s.ns := by unfold modCurGroup; split <;> rfl
@[simp] theorem modCurGroup_hosts (f : Group → Group) : (modCurGroup s f).hosts = s.hosts := by unfold modCurGroup; split <;> rfl
@[simp] theorem modCurGroup_blocks (f : Group → Group) : (modCurGroup s f).blocks = s.blocks := by unfold modCurGroup; split <;> rfl
@[simp] theorem modCurGroup_regions (f : Group → Group) : (modCurGroup s f).regions = s.regions := by unfold modCurGroup; split <;> rfl
@[simp] theorem modCurGroup_cores (f : Group → Group) : (modCurGroup s f).cores = s.cores := by unfold modCurGroup; split <;> rfl
@[simp] theorem modCurGroup_cols (f : Group → Group) : (modCurGroup s f).cols = s.cols := by unfold modCurGroup; split <;> rfl
@[simp] theorem modCurGroup_parts (f : Group → Group) : (modCurGroup s f).parts = s.parts := by unfold modCurGroup; split <;> rfl
@[simp] theorem modCurGroup_irecs (f : Group → Group) : (modCurGroup s f).irecs = s.irecs := by unfold modCurGroup; split <;> rfl
@[simp] theorem modCurGroup_mem (f : Group → Group) : (modCurGroup s f).mem = s.mem := by unfold modCurGroup; split <;> rfl
@[simp] theorem modCurGroup_memPoison (f : Group → Group) : (modCurGroup s f).memPoison = s.memPoison := by unfold modCurGroup; split <;> rfl
@[simp] theorem modCurGroup_hostMem (f : Group → Group) : (modCurGroup s f).hostMem = s.hostMem := by unfold modCurGroup; split <;> rfl
@[simp] theorem modCurGroup_home (f : Group → Group) : (modCurGroup s f).home = s.home := by unfold modCurGroup; split <;> rfl
@[simp] theorem modCurGroup_homings (f : Group → Group) : (modCurGroup s f).homings = s.homings := by unfold modCurGroup; split <;> rfl
@[simp] theorem modCurGroup_ranges (f : Group → Group) : (modCurGroup s f).ranges = s.ranges := by unfold modCurGroup; split <;> rfl
@[simp] theorem modCurGroup_copies (f : Group → Group) : (modCurGroup s f).copies = s.copies := by unfold modCurGroup; split <;> rfl
@[simp] theorem modCurGroup_priv (f : Group → Group) : (modCurGroup s f).priv = s.priv := by unfold modCurGroup; split <;> rfl
@[simp] theorem modCurGroup_net (f : Group → Group) : (modCurGroup s f).net = s.net := by unfold modCurGroup; split <;> rfl
@[simp] theorem modCurGroup_pendw (f : Group → Group) : (modCurGroup s f).pendw = s.pendw := by unfold modCurGroup; split <;> rfl
@[simp] theorem modCurGroup_pushes (f : Group → Group) : (modCurGroup s f).pushes = s.pushes := by unfold modCurGroup; split <;> rfl
@[simp] theorem modCurGroup_tlb (f : Group → Group) : (modCurGroup s f).tlb = s.tlb := by unfold modCurGroup; split <;> rfl
@[simp] theorem modCurGroup_aliases (f : Group → Group) : (modCurGroup s f).aliases = s.aliases := by unfold modCurGroup; split <;> rfl
@[simp] theorem modCurGroup_chans (f : Group → Group) : (modCurGroup s f).chans = s.chans := by unfold modCurGroup; split <;> rfl
@[simp] theorem modCurGroup_chanStat (f : Group → Group) : (modCurGroup s f).chanStat = s.chanStat := by unfold modCurGroup; split <;> rfl
@[simp] theorem modCurGroup_chanOrder (f : Group → Group) : (modCurGroup s f).chanOrder = s.chanOrder := by unfold modCurGroup; split <;> rfl
@[simp] theorem modCurGroup_act (f : Group → Group) : (modCurGroup s f).act = s.act := by unfold modCurGroup; split <;> rfl
@[simp] theorem modCurGroup_remote (f : Group → Group) : (modCurGroup s f).remote = s.remote := by unfold modCurGroup; split <;> rfl
@[simp] theorem modCurGroup_reply (f : Group → Group) : (modCurGroup s f).reply = s.reply := by unfold modCurGroup; split <;> rfl
@[simp] theorem modCurGroup_faultWait (f : Group → Group) : (modCurGroup s f).faultWait = s.faultWait := by unfold modCurGroup; split <;> rfl
@[simp] theorem modCurGroup_stubs (f : Group → Group) : (modCurGroup s f).stubs = s.stubs := by unfold modCurGroup; split <;> rfl
@[simp] theorem modCurGroup_replays (f : Group → Group) : (modCurGroup s f).replays = s.replays := by unfold modCurGroup; split <;> rfl
@[simp] theorem modCurGroup_debugValue (f : Group → Group) : (modCurGroup s f).debugValue = s.debugValue := by unfold modCurGroup; split <;> rfl
@[simp] theorem modCurGroup_tagSeq (f : Group → Group) : (modCurGroup s f).tagSeq = s.tagSeq := by unfold modCurGroup; split <;> rfl
@[simp] theorem modCurGroup_cxl (f : Group → Group) : (modCurGroup s f).cxl = s.cxl := by unfold modCurGroup; split <;> rfl
@[simp] theorem modCurGroup_link (f : Group → Group) : (modCurGroup s f).link = s.link := by unfold modCurGroup; split <;> rfl
@[simp] theorem modCurGroup_pkg (f : Group → Group) : (modCurGroup s f).pkg = s.pkg := by unfold modCurGroup; split <;> rfl
@[simp] theorem modCurGroup_cur (f : Group → Group) : (modCurGroup s f).cur = s.cur := by unfold modCurGroup; split <;> rfl
@[simp] theorem modCurGroup_sched (f : Group → Group) : (modCurGroup s f).sched = s.sched := by unfold modCurGroup; split <;> rfl
@[simp] theorem modCurGroup_freeCtr (f : Group → Group) : (modCurGroup s f).freeCtr = s.freeCtr := by unfold modCurGroup; split <;> rfl
@[simp] theorem modCurGroup_nextId (f : Group → Group) : (modCurGroup s f).nextId = s.nextId := by unfold modCurGroup; split <;> rfl

/-! ### `injectFlit` -/

@[simp] theorem injectFlit_ns (v : Word) : (injectFlit s v).ns = s.ns := by unfold injectFlit; split <;> simp
@[simp] theorem injectFlit_hosts (v : Word) : (injectFlit s v).hosts = s.hosts := by unfold injectFlit; split <;> simp
@[simp] theorem injectFlit_blocks (v : Word) : (injectFlit s v).blocks = s.blocks := by unfold injectFlit; split <;> simp
@[simp] theorem injectFlit_regions (v : Word) : (injectFlit s v).regions = s.regions := by unfold injectFlit; split <;> simp
@[simp] theorem injectFlit_cores (v : Word) : (injectFlit s v).cores = s.cores := by unfold injectFlit; split <;> simp
@[simp] theorem injectFlit_cols (v : Word) : (injectFlit s v).cols = s.cols := by unfold injectFlit; split <;> simp
@[simp] theorem injectFlit_parts (v : Word) : (injectFlit s v).parts = s.parts := by unfold injectFlit; split <;> simp
@[simp] theorem injectFlit_irecs (v : Word) : (injectFlit s v).irecs = s.irecs := by unfold injectFlit; split <;> simp
@[simp] theorem injectFlit_mem (v : Word) : (injectFlit s v).mem = s.mem := by unfold injectFlit; split <;> simp
@[simp] theorem injectFlit_memPoison (v : Word) : (injectFlit s v).memPoison = s.memPoison := by unfold injectFlit; split <;> simp
@[simp] theorem injectFlit_hostMem (v : Word) : (injectFlit s v).hostMem = s.hostMem := by unfold injectFlit; split <;> simp
@[simp] theorem injectFlit_home (v : Word) : (injectFlit s v).home = s.home := by unfold injectFlit; split <;> simp
@[simp] theorem injectFlit_homings (v : Word) : (injectFlit s v).homings = s.homings := by unfold injectFlit; split <;> simp
@[simp] theorem injectFlit_ranges (v : Word) : (injectFlit s v).ranges = s.ranges := by unfold injectFlit; split <;> simp
@[simp] theorem injectFlit_copies (v : Word) : (injectFlit s v).copies = s.copies := by unfold injectFlit; split <;> simp
@[simp] theorem injectFlit_priv (v : Word) : (injectFlit s v).priv = s.priv := by unfold injectFlit; split <;> simp
@[simp] theorem injectFlit_pendw (v : Word) : (injectFlit s v).pendw = s.pendw := by unfold injectFlit; split <;> simp
@[simp] theorem injectFlit_pushes (v : Word) : (injectFlit s v).pushes = s.pushes := by unfold injectFlit; split <;> simp
@[simp] theorem injectFlit_tlb (v : Word) : (injectFlit s v).tlb = s.tlb := by unfold injectFlit; split <;> simp
@[simp] theorem injectFlit_aliases (v : Word) : (injectFlit s v).aliases = s.aliases := by unfold injectFlit; split <;> simp
@[simp] theorem injectFlit_chans (v : Word) : (injectFlit s v).chans = s.chans := by unfold injectFlit; split <;> simp
@[simp] theorem injectFlit_chanStat (v : Word) : (injectFlit s v).chanStat = s.chanStat := by unfold injectFlit; split <;> simp
@[simp] theorem injectFlit_chanOrder (v : Word) : (injectFlit s v).chanOrder = s.chanOrder := by unfold injectFlit; split <;> simp
@[simp] theorem injectFlit_act (v : Word) : (injectFlit s v).act = s.act := by unfold injectFlit; split <;> simp
@[simp] theorem injectFlit_remote (v : Word) : (injectFlit s v).remote = s.remote := by unfold injectFlit; split <;> simp
@[simp] theorem injectFlit_reply (v : Word) : (injectFlit s v).reply = s.reply := by unfold injectFlit; split <;> simp
@[simp] theorem injectFlit_faultWait (v : Word) : (injectFlit s v).faultWait = s.faultWait := by unfold injectFlit; split <;> simp
@[simp] theorem injectFlit_stubs (v : Word) : (injectFlit s v).stubs = s.stubs := by unfold injectFlit; split <;> simp
@[simp] theorem injectFlit_replays (v : Word) : (injectFlit s v).replays = s.replays := by unfold injectFlit; split <;> simp
@[simp] theorem injectFlit_debugValue (v : Word) : (injectFlit s v).debugValue = s.debugValue := by unfold injectFlit; split <;> simp
@[simp] theorem injectFlit_tagSeq (v : Word) : (injectFlit s v).tagSeq = s.tagSeq := by unfold injectFlit; split <;> simp
@[simp] theorem injectFlit_cxl (v : Word) : (injectFlit s v).cxl = s.cxl := by unfold injectFlit; split <;> simp
@[simp] theorem injectFlit_link (v : Word) : (injectFlit s v).link = s.link := by unfold injectFlit; split <;> simp
@[simp] theorem injectFlit_pkg (v : Word) : (injectFlit s v).pkg = s.pkg := by unfold injectFlit; split <;> simp
@[simp] theorem injectFlit_cur (v : Word) : (injectFlit s v).cur = s.cur := by unfold injectFlit; split <;> simp
@[simp] theorem injectFlit_sched (v : Word) : (injectFlit s v).sched = s.sched := by unfold injectFlit; split <;> simp
@[simp] theorem injectFlit_freeCtr (v : Word) : (injectFlit s v).freeCtr = s.freeCtr := by unfold injectFlit; split <;> simp

/-! ### `wr` -/

@[simp] theorem wr_ns (r : Reg) (v : Word) : (wr s r v).ns = s.ns := by unfold wr; split <;> simp
@[simp] theorem wr_blocks (r : Reg) (v : Word) : (wr s r v).blocks = s.blocks := by unfold wr; split <;> simp
@[simp] theorem wr_regions (r : Reg) (v : Word) : (wr s r v).regions = s.regions := by unfold wr; split <;> simp
@[simp] theorem wr_cores (r : Reg) (v : Word) : (wr s r v).cores = s.cores := by unfold wr; split <;> simp
@[simp] theorem wr_cols (r : Reg) (v : Word) : (wr s r v).cols = s.cols := by unfold wr; split <;> simp
@[simp] theorem wr_parts (r : Reg) (v : Word) : (wr s r v).parts = s.parts := by unfold wr; split <;> simp
@[simp] theorem wr_irecs (r : Reg) (v : Word) : (wr s r v).irecs = s.irecs := by unfold wr; split <;> simp
@[simp] theorem wr_mem (r : Reg) (v : Word) : (wr s r v).mem = s.mem := by unfold wr; split <;> simp
@[simp] theorem wr_memPoison (r : Reg) (v : Word) : (wr s r v).memPoison = s.memPoison := by unfold wr; split <;> simp
@[simp] theorem wr_hostMem (r : Reg) (v : Word) : (wr s r v).hostMem = s.hostMem := by unfold wr; split <;> simp
@[simp] theorem wr_home (r : Reg) (v : Word) : (wr s r v).home = s.home := by unfold wr; split <;> simp
@[simp] theorem wr_homings (r : Reg) (v : Word) : (wr s r v).homings = s.homings := by unfold wr; split <;> simp
@[simp] theorem wr_ranges (r : Reg) (v : Word) : (wr s r v).ranges = s.ranges := by unfold wr; split <;> simp
@[simp] theorem wr_copies (r : Reg) (v : Word) : (wr s r v).copies = s.copies := by unfold wr; split <;> simp
@[simp] theorem wr_priv (r : Reg) (v : Word) : (wr s r v).priv = s.priv := by unfold wr; split <;> simp
@[simp] theorem wr_pendw (r : Reg) (v : Word) : (wr s r v).pendw = s.pendw := by unfold wr; split <;> simp
@[simp] theorem wr_pushes (r : Reg) (v : Word) : (wr s r v).pushes = s.pushes := by unfold wr; split <;> simp
@[simp] theorem wr_tlb (r : Reg) (v : Word) : (wr s r v).tlb = s.tlb := by unfold wr; split <;> simp
@[simp] theorem wr_aliases (r : Reg) (v : Word) : (wr s r v).aliases = s.aliases := by unfold wr; split <;> simp
@[simp] theorem wr_chans (r : Reg) (v : Word) : (wr s r v).chans = s.chans := by unfold wr; split <;> simp
@[simp] theorem wr_chanStat (r : Reg) (v : Word) : (wr s r v).chanStat = s.chanStat := by unfold wr; split <;> simp
@[simp] theorem wr_chanOrder (r : Reg) (v : Word) : (wr s r v).chanOrder = s.chanOrder := by unfold wr; split <;> simp
@[simp] theorem wr_act (r : Reg) (v : Word) : (wr s r v).act = s.act := by unfold wr; split <;> simp
@[simp] theorem wr_remote (r : Reg) (v : Word) : (wr s r v).remote = s.remote := by unfold wr; split <;> simp
@[simp] theorem wr_reply (r : Reg) (v : Word) : (wr s r v).reply = s.reply := by unfold wr; split <;> simp
@[simp] theorem wr_faultWait (r : Reg) (v : Word) : (wr s r v).faultWait = s.faultWait := by unfold wr; split <;> simp
@[simp] theorem wr_stubs (r : Reg) (v : Word) : (wr s r v).stubs = s.stubs := by unfold wr; split <;> simp
@[simp] theorem wr_replays (r : Reg) (v : Word) : (wr s r v).replays = s.replays := by unfold wr; split <;> simp
@[simp] theorem wr_debugValue (r : Reg) (v : Word) : (wr s r v).debugValue = s.debugValue := by unfold wr; split <;> simp
@[simp] theorem wr_tagSeq (r : Reg) (v : Word) : (wr s r v).tagSeq = s.tagSeq := by unfold wr; split <;> simp
@[simp] theorem wr_cxl (r : Reg) (v : Word) : (wr s r v).cxl = s.cxl := by unfold wr; split <;> simp
@[simp] theorem wr_link (r : Reg) (v : Word) : (wr s r v).link = s.link := by unfold wr; split <;> simp
@[simp] theorem wr_pkg (r : Reg) (v : Word) : (wr s r v).pkg = s.pkg := by unfold wr; split <;> simp
@[simp] theorem wr_cur (r : Reg) (v : Word) : (wr s r v).cur = s.cur := by unfold wr; split <;> simp
@[simp] theorem wr_sched (r : Reg) (v : Word) : (wr s r v).sched = s.sched := by unfold wr; split <;> simp
@[simp] theorem wr_freeCtr (r : Reg) (v : Word) : (wr s r v).freeCtr = s.freeCtr := by unfold wr; split <;> simp

/-! ### `popFlit` -/

@[simp] theorem popFlit_ns  : (popFlit s).ns = s.ns := by simp [popFlit]
@[simp] theorem popFlit_hosts  : (popFlit s).hosts = s.hosts := by simp [popFlit]
@[simp] theorem popFlit_blocks  : (popFlit s).blocks = s.blocks := by simp [popFlit]
@[simp] theorem popFlit_regions  : (popFlit s).regions = s.regions := by simp [popFlit]
@[simp] theorem popFlit_cores  : (popFlit s).cores = s.cores := by simp [popFlit]
@[simp] theorem popFlit_cols  : (popFlit s).cols = s.cols := by simp [popFlit]
@[simp] theorem popFlit_parts  : (popFlit s).parts = s.parts := by simp [popFlit]
@[simp] theorem popFlit_irecs  : (popFlit s).irecs = s.irecs := by simp [popFlit]
@[simp] theorem popFlit_mem  : (popFlit s).mem = s.mem := by simp [popFlit]
@[simp] theorem popFlit_memPoison  : (popFlit s).memPoison = s.memPoison := by simp [popFlit]
@[simp] theorem popFlit_hostMem  : (popFlit s).hostMem = s.hostMem := by simp [popFlit]
@[simp] theorem popFlit_home  : (popFlit s).home = s.home := by simp [popFlit]
@[simp] theorem popFlit_homings  : (popFlit s).homings = s.homings := by simp [popFlit]
@[simp] theorem popFlit_ranges  : (popFlit s).ranges = s.ranges := by simp [popFlit]
@[simp] theorem popFlit_copies  : (popFlit s).copies = s.copies := by simp [popFlit]
@[simp] theorem popFlit_priv  : (popFlit s).priv = s.priv := by simp [popFlit]
@[simp] theorem popFlit_net  : (popFlit s).net = s.net := by simp [popFlit]
@[simp] theorem popFlit_pendw  : (popFlit s).pendw = s.pendw := by simp [popFlit]
@[simp] theorem popFlit_pushes  : (popFlit s).pushes = s.pushes := by simp [popFlit]
@[simp] theorem popFlit_tlb  : (popFlit s).tlb = s.tlb := by simp [popFlit]
@[simp] theorem popFlit_aliases  : (popFlit s).aliases = s.aliases := by simp [popFlit]
@[simp] theorem popFlit_chans  : (popFlit s).chans = s.chans := by simp [popFlit]
@[simp] theorem popFlit_chanStat  : (popFlit s).chanStat = s.chanStat := by simp [popFlit]
@[simp] theorem popFlit_chanOrder  : (popFlit s).chanOrder = s.chanOrder := by simp [popFlit]
@[simp] theorem popFlit_act  : (popFlit s).act = s.act := by simp [popFlit]
@[simp] theorem popFlit_remote  : (popFlit s).remote = s.remote := by simp [popFlit]
@[simp] theorem popFlit_reply  : (popFlit s).reply = s.reply := by simp [popFlit]
@[simp] theorem popFlit_faultWait  : (popFlit s).faultWait = s.faultWait := by simp [popFlit]
@[simp] theorem popFlit_stubs  : (popFlit s).stubs = s.stubs := by simp [popFlit]
@[simp] theorem popFlit_replays  : (popFlit s).replays = s.replays := by simp [popFlit]
@[simp] theorem popFlit_debugValue  : (popFlit s).debugValue = s.debugValue := by simp [popFlit]
@[simp] theorem popFlit_tagSeq  : (popFlit s).tagSeq = s.tagSeq := by simp [popFlit]
@[simp] theorem popFlit_cxl  : (popFlit s).cxl = s.cxl := by simp [popFlit]
@[simp] theorem popFlit_link  : (popFlit s).link = s.link := by simp [popFlit]
@[simp] theorem popFlit_pkg  : (popFlit s).pkg = s.pkg := by simp [popFlit]
@[simp] theorem popFlit_cur  : (popFlit s).cur = s.cur := by simp [popFlit]
@[simp] theorem popFlit_sched  : (popFlit s).sched = s.sched := by simp [popFlit]
@[simp] theorem popFlit_freeCtr  : (popFlit s).freeCtr = s.freeCtr := by simp [popFlit]
@[simp] theorem popFlit_nextId  : (popFlit s).nextId = s.nextId := by simp [popFlit]

/-! ### `advance` -/

@[simp] theorem advance_ns  : (advance s).ns = s.ns := by simp [advance]
@[simp] theorem advance_blocks  : (advance s).blocks = s.blocks := by simp [advance]
@[simp] theorem advance_regions  : (advance s).regions = s.regions := by simp [advance]
@[simp] theorem advance_cores  : (advance s).cores = s.cores := by simp [advance]
@[simp] theorem advance_cols  : (advance s).cols = s.cols := by simp [advance]
@[simp] theorem advance_parts  : (advance s).parts = s.parts := by simp [advance]
@[simp] theorem advance_irecs  : (advance s).irecs = s.irecs := by simp [advance]
@[simp] theorem advance_mem  : (advance s).mem = s.mem := by simp [advance]
@[simp] theorem advance_memPoison  : (advance s).memPoison = s.memPoison := by simp [advance]
@[simp] theorem advance_hostMem  : (advance s).hostMem = s.hostMem := by simp [advance]
@[simp] theorem advance_home  : (advance s).home = s.home := by simp [advance]
@[simp] theorem advance_homings  : (advance s).homings = s.homings := by simp [advance]
@[simp] theorem advance_ranges  : (advance s).ranges = s.ranges := by simp [advance]
@[simp] theorem advance_copies  : (advance s).copies = s.copies := by simp [advance]
@[simp] theorem advance_priv  : (advance s).priv = s.priv := by simp [advance]
@[simp] theorem advance_net  : (advance s).net = s.net := by simp [advance]
@[simp] theorem advance_pendw  : (advance s).pendw = s.pendw := by simp [advance]
@[simp] theorem advance_pushes  : (advance s).pushes = s.pushes := by simp [advance]
@[simp] theorem advance_tlb  : (advance s).tlb = s.tlb := by simp [advance]
@[simp] theorem advance_aliases  : (advance s).aliases = s.aliases := by simp [advance]
@[simp] theorem advance_chans  : (advance s).chans = s.chans := by simp [advance]
@[simp] theorem advance_chanStat  : (advance s).chanStat = s.chanStat := by simp [advance]
@[simp] theorem advance_chanOrder  : (advance s).chanOrder = s.chanOrder := by simp [advance]
@[simp] theorem advance_act  : (advance s).act = s.act := by simp [advance]
@[simp] theorem advance_remote  : (advance s).remote = s.remote := by simp [advance]
@[simp] theorem advance_reply  : (advance s).reply = s.reply := by simp [advance]
@[simp] theorem advance_faultWait  : (advance s).faultWait = s.faultWait := by simp [advance]
@[simp] theorem advance_stubs  : (advance s).stubs = s.stubs := by simp [advance]
@[simp] theorem advance_replays  : (advance s).replays = s.replays := by simp [advance]
@[simp] theorem advance_debugValue  : (advance s).debugValue = s.debugValue := by simp [advance]
@[simp] theorem advance_tagSeq  : (advance s).tagSeq = s.tagSeq := by simp [advance]
@[simp] theorem advance_cxl  : (advance s).cxl = s.cxl := by simp [advance]
@[simp] theorem advance_link  : (advance s).link = s.link := by simp [advance]
@[simp] theorem advance_pkg  : (advance s).pkg = s.pkg := by simp [advance]
@[simp] theorem advance_cur  : (advance s).cur = s.cur := by simp [advance]
@[simp] theorem advance_sched  : (advance s).sched = s.sched := by simp [advance]
@[simp] theorem advance_freeCtr  : (advance s).freeCtr = s.freeCtr := by simp [advance]
@[simp] theorem advance_nextId  : (advance s).nextId = s.nextId := by simp [advance]

/-! ### `jumpTo` -/

@[simp] theorem jumpTo_ns (a : Word) : (jumpTo s a).ns = s.ns := by simp [jumpTo]
@[simp] theorem jumpTo_blocks (a : Word) : (jumpTo s a).blocks = s.blocks := by simp [jumpTo]
@[simp] theorem jumpTo_regions (a : Word) : (jumpTo s a).regions = s.regions := by simp [jumpTo]
@[simp] theorem jumpTo_cores (a : Word) : (jumpTo s a).cores = s.cores := by simp [jumpTo]
@[simp] theorem jumpTo_cols (a : Word) : (jumpTo s a).cols = s.cols := by simp [jumpTo]
@[simp] theorem jumpTo_parts (a : Word) : (jumpTo s a).parts = s.parts := by simp [jumpTo]
@[simp] theorem jumpTo_irecs (a : Word) : (jumpTo s a).irecs = s.irecs := by simp [jumpTo]
@[simp] theorem jumpTo_mem (a : Word) : (jumpTo s a).mem = s.mem := by simp [jumpTo]
@[simp] theorem jumpTo_memPoison (a : Word) : (jumpTo s a).memPoison = s.memPoison := by simp [jumpTo]
@[simp] theorem jumpTo_hostMem (a : Word) : (jumpTo s a).hostMem = s.hostMem := by simp [jumpTo]
@[simp] theorem jumpTo_home (a : Word) : (jumpTo s a).home = s.home := by simp [jumpTo]
@[simp] theorem jumpTo_homings (a : Word) : (jumpTo s a).homings = s.homings := by simp [jumpTo]
@[simp] theorem jumpTo_ranges (a : Word) : (jumpTo s a).ranges = s.ranges := by simp [jumpTo]
@[simp] theorem jumpTo_copies (a : Word) : (jumpTo s a).copies = s.copies := by simp [jumpTo]
@[simp] theorem jumpTo_priv (a : Word) : (jumpTo s a).priv = s.priv := by simp [jumpTo]
@[simp] theorem jumpTo_net (a : Word) : (jumpTo s a).net = s.net := by simp [jumpTo]
@[simp] theorem jumpTo_pendw (a : Word) : (jumpTo s a).pendw = s.pendw := by simp [jumpTo]
@[simp] theorem jumpTo_pushes (a : Word) : (jumpTo s a).pushes = s.pushes := by simp [jumpTo]
@[simp] theorem jumpTo_tlb (a : Word) : (jumpTo s a).tlb = s.tlb := by simp [jumpTo]
@[simp] theorem jumpTo_aliases (a : Word) : (jumpTo s a).aliases = s.aliases := by simp [jumpTo]
@[simp] theorem jumpTo_chans (a : Word) : (jumpTo s a).chans = s.chans := by simp [jumpTo]
@[simp] theorem jumpTo_chanStat (a : Word) : (jumpTo s a).chanStat = s.chanStat := by simp [jumpTo]
@[simp] theorem jumpTo_chanOrder (a : Word) : (jumpTo s a).chanOrder = s.chanOrder := by simp [jumpTo]
@[simp] theorem jumpTo_act (a : Word) : (jumpTo s a).act = s.act := by simp [jumpTo]
@[simp] theorem jumpTo_remote (a : Word) : (jumpTo s a).remote = s.remote := by simp [jumpTo]
@[simp] theorem jumpTo_reply (a : Word) : (jumpTo s a).reply = s.reply := by simp [jumpTo]
@[simp] theorem jumpTo_faultWait (a : Word) : (jumpTo s a).faultWait = s.faultWait := by simp [jumpTo]
@[simp] theorem jumpTo_stubs (a : Word) : (jumpTo s a).stubs = s.stubs := by simp [jumpTo]
@[simp] theorem jumpTo_replays (a : Word) : (jumpTo s a).replays = s.replays := by simp [jumpTo]
@[simp] theorem jumpTo_debugValue (a : Word) : (jumpTo s a).debugValue = s.debugValue := by simp [jumpTo]
@[simp] theorem jumpTo_tagSeq (a : Word) : (jumpTo s a).tagSeq = s.tagSeq := by simp [jumpTo]
@[simp] theorem jumpTo_cxl (a : Word) : (jumpTo s a).cxl = s.cxl := by simp [jumpTo]
@[simp] theorem jumpTo_link (a : Word) : (jumpTo s a).link = s.link := by simp [jumpTo]
@[simp] theorem jumpTo_pkg (a : Word) : (jumpTo s a).pkg = s.pkg := by simp [jumpTo]
@[simp] theorem jumpTo_cur (a : Word) : (jumpTo s a).cur = s.cur := by simp [jumpTo]
@[simp] theorem jumpTo_sched (a : Word) : (jumpTo s a).sched = s.sched := by simp [jumpTo]
@[simp] theorem jumpTo_freeCtr (a : Word) : (jumpTo s a).freeCtr = s.freeCtr := by simp [jumpTo]
@[simp] theorem jumpTo_nextId (a : Word) : (jumpTo s a).nextId = s.nextId := by simp [jumpTo]

end Sys2Proof.Laws
end

