-- ==== Sys2Proof/Laws/Thread.lean ====
section
/-! SUPPORT. Threads and their registers: what a write of a register does, and what changing one agent's thread leaves. -/

namespace Sys2Proof.Laws

open Sys2Proof.Machine

variable (th : Thread) (r q : Reg) (v : Word)

/-- Changing the bank of the active handler keeps which handler is active. -/
@[simp] theorem modBank_frames (f : HBank → HBank) : (th.modBank f).frames = th.frames := by
  unfold Thread.modBank; split <;> rfl

/-- Changing the bank of the active handler keeps the level. -/
@[simp] theorem modBank_atMonitor (f : HBank → HBank) : (th.modBank f).atMonitor = th.atMonitor := by
  simp [Thread.atMonitor]

/-- Changing the bank of the active handler keeps whether one is active. -/
@[simp] theorem modBank_inHandler (f : HBank → HBank) : (th.modBank f).inHandler = th.inHandler := by
  simp [Thread.inHandler]

/-- The bank of the active handler after a change of it. -/
@[simp] theorem modBank_bank (f : HBank → HBank) : (th.modBank f).bank = f th.bank := by
  cases h : th.atMonitor <;> simp [Thread.bank, Thread.modBank, h] <;> intro g <;>
    simp [Thread.atMonitor] at h g <;> simp [h] at g

/-- Changing the bank of the active handler keeps the registers outside it. -/
@[simp] theorem modBank_x (f : HBank → HBank) : (th.modBank f).x = th.x := by unfold Thread.modBank; split <;> rfl

/-- Changing the bank of the active handler keeps which registers it holds. -/
@[simp] theorem modBank_banked (f : HBank → HBank) : banked (th.modBank f) q = banked th q := by simp [banked]

/-- A register reads back as it was written, every other register as before, and x0 as zero (R51). -/
theorem reg_setReg : (th.setReg r v).reg q = if q = r ∧ r ≠ 0#5 then v else th.reg q := by
  have e : q ≠ r → q.toNat ≠ r.toNat := fun h k => h (BitVec.eq_of_toNat_eq k)
  by_cases hr : r = 0#5
  · simp [Thread.setReg, hr]
  · by_cases hb : banked th r = true
    · by_cases h : q = r
      · subst h; simp [Thread.setReg, Thread.reg, hr, hb]
      · simp [Thread.setReg, Thread.reg, hr, hb, h, sget_sset_ne _ v (e h)]
    · have hq : ∀ (x : SMap 64), banked { th with x := x } q = banked th q := fun _ => rfl
      have hk : ∀ (x : SMap 64), Thread.bank { th with x := x } = th.bank := fun _ => rfl
      by_cases h : q = r
      · subst h; simp [Thread.setReg, Thread.reg, hr, hb, hq]
      · simp [Thread.setReg, Thread.reg, hr, hb, hq, hk, h, sget_sset_ne _ v (e h)]

/-- x0 reads zero (R51). -/
@[simp] theorem reg_zero : th.reg 0#5 = 0#64 := by simp [Thread.reg]

/-- A write of a register keeps the program counter. -/
@[simp] theorem setReg_pc : (th.setReg r v).pc = th.pc := by
  unfold Thread.setReg Thread.modBank; repeat' (first | rfl | split)

/-- A write of a register keeps the status. -/
@[simp] theorem setReg_fcsr : (th.setReg r v).fcsr = th.fcsr := by
  unfold Thread.setReg Thread.modBank; repeat' (first | rfl | split)

/-- A write of a register keeps the handlers that are active. -/
@[simp] theorem setReg_frames : (th.setReg r v).frames = th.frames := by
  unfold Thread.setReg Thread.modBank; repeat' (first | rfl | split)

/-- A write of a register keeps the run status. -/
@[simp] theorem setReg_run : (th.setReg r v).run = th.run := by
  unfold Thread.setReg Thread.modBank; repeat' (first | rfl | split)

/-- An agent's thread after a change of it. -/
@[simp] theorem threadOf_modThread (s : State) (a : AgentId) (f : Thread → Thread) :
    threadOf (modThread s a f) a = (threadOf s a).map f := by
  cases a <;> simp [threadOf, modThread, Function.comp_def]

/-- The current agent's thread after a change of it. -/
@[simp] theorem threadOf_modCur (s : State) (f : Thread → Thread) :
    threadOf (modCur s f) s.cur = (threadOf s s.cur).map f := threadOf_modThread s s.cur f

/-- Changing the current agent's thread keeps whether its ports are enabled. -/
@[simp] theorem portsOn_modCur (s : State) (f : Thread → Thread) : portsOn (modCur s f) = portsOn s := by
  have h : ∀ g : Nat, (((ffind s.groups g).map fun p : Group => { p with th := f p.th }).any (·.portEn)) = (ffind s.groups g).any (·.portEn) := by
    intro g; cases ffind s.groups g <;> rfl
  unfold portsOn curGroup modCur
  cases e : s.cur <;> simp only [modThread, e, groupOf, Option.bind_some, Option.bind_none, ffind_fmod_same, h]

end Sys2Proof.Laws
end

