-- ==== Sys2Proof/Tests/Slice0.lean ====
section
/-! SUPPORT. The model's own tests: ill-formed instructions, words written out from the spec's encoding tables, the spec's worked
examples, and witnesses that the hypotheses of the obligations can be met. -/

set_option Elab.async false

namespace Sys2Proof.Tests

open Sys2Proof Sys2Proof.Machine

/-! ### Ill-formed instructions: one for each check of `Instr.wf`, which the check refuses -/

/-- The header that most test words carry. -/
def hd : LaneHdr := ⟨false, 0#3, false⟩

theorem test_wf_refuses_scalar :
    ([.lxImm 4#5 0#6,
      .fadd 1#5 2#5 3#5 .sr .f32,
      .fsub 1#5 2#5 3#5 .sr .f16,
      .fmul 1#5 2#5 3#5 .sr .bf16,
      .fdiv 1#5 2#5 3#5 .sr .f64,
      .fsqrt 1#5 2#5 .sr .f32,
      .fma 1#5 2#5 3#5 4#5 .sr .f32,
      .fcvt 1#5 2#5 .rne false .f32 .f32,
      .fcvt 1#5 2#5 .rne false .i32 .n64,
      .fcvt 1#5 2#5 .rne true .i32 .f32] : List Instr).all (fun i => !i.wf) = true := by decide

theorem test_wf_refuses_lane_integer :
    ([.vadd hd .i32 (.imm 5#10) (.word 4#8) (.word 4#8),
      .vsub hd .i32 (.imm 5#10) (.word 4#8) (.word 4#8),
      .vmul hd .i32 (.imm 5#10) (.word 4#8) (.word 4#8),
      .vmulh hd .i32 (.imm 5#10) (.word 4#8) (.word 4#8),
      .vabsd hd .i32 (.imm 5#10) (.word 4#8) (.word 4#8),
      .vmin hd .i32 (.imm 5#10) (.word 4#8) (.word 4#8),
      .vmax hd .i32 (.imm 5#10) (.word 4#8) (.word 4#8),
      .vadds hd .i32 (.imm 5#10) (.word 4#8) (.word 4#8),
      .vsubs hd .i32 (.imm 5#10) (.word 4#8) (.word 4#8),
      .vand hd .i32 (.imm 5#10) (.word 4#8) (.word 4#8),
      .vor hd .i32 (.imm 5#10) (.word 4#8) (.word 4#8),
      .vxor hd .i32 (.imm 5#10) (.word 4#8) (.word 4#8),
      .vandn hd .i32 (.imm 5#10) (.word 4#8) (.word 4#8),
      .vshl hd .i32 (.imm 5#10) (.word 4#8) (.word 4#8),
      .vshr hd .i32 (.imm 5#10) (.word 4#8) (.word 4#8),
      .vsra hd .i32 (.imm 5#10) (.word 4#8) (.word 4#8),
      .vadd hd .i32 (.word 4#8) (.byte 4#8 1#2) (.word 4#8),
      .vadd hd .i64 (.pair 4#7) (.pair 4#7) (.word 4#8),
      .vadd hd .n16 (.half 4#8 1#1) (.half 4#8 1#1) (.opf 1#3),
      .vadd hd .i32 .lr (.word 4#8) (.word 4#8),
      .vadd hd .i32 (.queue 1#3 2#2) (.word 4#8) (.word 4#8),
      .vmad hd .i32 (.word 4#8) (.word 4#8) (.word 4#8) (.pair 4#7),
      .vclz hd .i32 (.word 4#8) (.half 4#8 1#1),
      .vctz hd .i32 (.imm 5#10) (.word 4#8),
      .vpopc hd .n8 (.byte 4#8 1#2) (.word 4#8),
      .vbrev hd .i64 (.word 4#8) (.pair 4#7),
      .vbext hd .i16 (.half 4#8 1#1) (.half 4#8 1#1) (.half 4#8 1#1),
      .vbext hd .i32 (.word 4#8) (.word 4#8) (.byte 4#8 1#2),
      .vcmp hd .i32 .lt (.elem (.imm 5#10)) (.word 4#8) (.word 4#8),
      .vcmp hd .i32 .lt (.pred 1#3) (.byte 4#8 1#2) (.word 4#8),
      .vcmp hd .i32 .lt (.pred 1#3) (.word 4#8) (.byte 4#8 1#2),
      .vext hd .i16 .i16 (.half 4#8 1#1) (.half 4#8 1#1),
      .vext hd .i32 .i8 (.byte 4#8 1#2) (.byte 4#8 1#2),
      .vext hd .i32 .i8 (.word 4#8) (.word 4#8),
      .vnrw hd .i16 .i16 false (.half 4#8 1#1) (.half 4#8 1#1),
      .vnrw hd .i8 .i32 true (.word 4#8) (.word 4#8),
      .vnrw hd .i8 .i32 true (.byte 4#8 1#2) (.byte 4#8 1#2),
      .vli hd .i32 (.byte 4#8 1#2) 0#32,
      .vmov hd (.int .i64) (.word 4#8) (.pair 4#7),
      .vsel hd (.fp .f16) (.half 4#8 1#1) (.word 4#8) (.half 4#8 1#1) 1#3 false,
      .vlid hd (.byte 4#8 1#2)] : List Instr).all (fun i => !i.wf) = true := by decide

theorem test_wf_refuses_lane_floating :
    ([.vfadd hd .f32 .sr (.word 4#8) (.word 4#8) (.word 4#8),
      .vfsub hd .f16 .rne (.word 4#8) (.half 4#8 1#1) (.half 4#8 1#1),
      .vfmul hd .f32 .sr (.word 4#8) (.word 4#8) (.word 4#8),
      .vfscl hd .f32 .sr (.word 4#8) (.word 4#8) (.word 4#8),
      .vffma hd .f32 .sr (.word 4#8) (.word 4#8) (.word 4#8) (.word 4#8),
      .vffma hd .f32 .rne (.word 4#8) (.word 4#8) (.word 4#8) (.byte 4#8 1#2),
      .vfmin hd .f32 (.byte 4#8 1#2) (.word 4#8) (.word 4#8),
      .vfmax hd .f32 (.word 4#8) (.word 4#8) (.pair 4#7),
      .vfcmp hd .f32 .eq (.elem (.byte 4#8 1#2)) (.word 4#8) (.word 4#8),
      .vfcmp hd .f32 .eq (.pred 1#3) (.byte 4#8 1#2) (.word 4#8),
      .vfrcp hd .f32 (.word 4#8) (.byte 4#8 1#2),
      .vfcls hd .f16 (.word 4#8) (.half 4#8 1#1),
      .vfcvt hd false .rne .f64 .f32 (.word 4#8) (.pair 4#7),
      .vfcvt hd false .rne .f32 .f64 (.pair 4#7) (.word 4#8),
      .vfcvt hd false .rne .f32 .f32 (.word 4#8) (.word 4#8),
      .vfcvt hd false .rne (.int .i8) (.int .i16) (.half 4#8 1#1) (.byte 4#8 1#2),
      .vfcvt hd true .rne .f32 (.int .i32) (.word 4#8) (.word 4#8),
      .vfcvt hd false .rne (.b8 .sf 0#3) .f32 (.word 4#8) (.byte 4#8 1#2),
      .vfcvt hd false .rne .f32 (.int .i64) (.pair 4#7) (.word 4#8),
      .vfcvt hd false .rne .f32 .f16 (.word 4#8) (.word 4#8),
      .vfcvt hd false .rne .f32 .f16 (.half 4#8 1#1) (.half 4#8 1#1),
      .vfdot2 hd false .sr (.word 4#8) (.word 4#8) (.word 4#8) (.word 4#8),
      .vfdot2 hd false .rne (.word 4#8) (.half 4#8 1#1) (.word 4#8) (.word 4#8),
      .vfdot4 hd .sf 0#3 .rne (.word 4#8) (.word 4#8) (.word 4#8) (.word 4#8),
      .vfdot4 hd .sf 4#3 .sr (.word 4#8) (.word 4#8) (.word 4#8) (.word 4#8),
      .vfdot4 hd .sf 4#3 .rne (.word 4#8) (.word 4#8) (.word 4#8) (.pair 4#7)] : List Instr).all (fun i => !i.wf) = true := by decide

theorem test_wf_refuses_lane_cross :
    ([.vshfl hd (.int .i32) .up (.word 4#8) (.word 4#8) (.byte 4#8 1#2),
      .vbcast hd (.int .i32) (.imm 5#10) (.word 4#8) (.word 4#8),
      .vlred hd (.fp .f32) .and .rne (.word 4#8) (.word 4#8),
      .vlred hd (.fp .f32) .add .sr (.word 4#8) (.word 4#8),
      .vlred hd (.int .i32) .add .rtz (.word 4#8) (.word 4#8),
      .vlred hd (.fp .f32) .min .rtz (.word 4#8) (.word 4#8),
      .vscan hd (.int .i32) .add .rne (.word 4#8) (.byte 4#8 1#2),
      .vmred hd (.int .i32) .add .rne 1#3 (.word 4#8) (.word 4#8) (.pair 4#7),
      .vballot hd true 1#3 (.word 4#8),
      .vballot hd false 1#3 (.pair 4#7),
      .vwSet hd 1#5 (.word 4#8)] : List Instr).all (fun i => !i.wf) = true := by decide

theorem test_wf_refuses_lane_memory :
    ([.vld hd (.int .i32) .grp false 0#12 (.word 4#8) (.word 4#8),
      .vld hd (.int .i32) .grp false 0#12 (.byte 4#8 1#2) (.pair 4#7),
      .vst hd (.int .i32) .grp false 0#12 (.imm 5#10) (.word 4#8),
      .vst hd (.int .i32) .grp false 0#12 (.pair 4#7) (.pair 4#7),
      .vamo hd .f32 .add .grp .plain 0#12 (.word 4#8) (.pair 4#7) (.word 4#8),
      .vamo hd .i32 .fadd .grp .plain 0#12 (.word 4#8) (.pair 4#7) (.word 4#8),
      .vamo hd .i32 .add .grp .plain 0#12 (.word 4#8) (.word 4#8) (.word 4#8),
      .vamo hd .i64 .add .grp .plain 0#12 (.word 4#8) (.pair 4#7) (.pair 4#7),
      .vcas hd .i32 .grp .plain 0#12 (.word 4#8) (.word 4#8) (.word 4#8) (.word 4#8),
      .vcas hd .i32 .grp .plain 0#12 (.word 4#8) (.pair 4#7) (.word 4#8) (.pair 4#7),
      .laneRadd hd .f32 (.word 4#8) (.word 4#8),
      .laneRadd hd .bf16 (.pair 4#7) (.word 4#8),
      .laneBarExp hd 1#6 (.pair 4#7)] : List Instr).all (fun i => !i.wf) = true := by decide

theorem test_wf_refuses_pair_and_matrix :
    ([.pairedWord hd ⟨.vmul, 0#2, .word 1#8, .word 2#8, .word 3#8⟩ ⟨.vffma, 1#2, .word 6#8, .word 5#8, .word 4#8⟩,
      .pairedWord hd ⟨.vfadd, 1#2, .word 4#8, .word 5#8, .word 6#8⟩ ⟨.vfmul, 1#2, .word 8#8, .word 4#8, .word 7#8⟩,
      .pairedWord hd ⟨.vadd, 1#2, .word 4#8, .word 5#8, .word 6#8⟩ ⟨.vfmul, 1#2, .word 9#8, .word 5#8, .word 6#8⟩,
      .pairedWord hd ⟨.vadd, 0#2, .imm 1#10, .word 5#8, .word 6#8⟩ ⟨.vfmul, 1#2, .word 9#8, .word 5#8, .word 6#8⟩,
      .pairedWord hd ⟨.vadd, 0#2, .word 4#8, .imm 1#10, .word 6#8⟩ ⟨.vfmul, 1#2, .word 9#8, .word 5#8, .word 6#8⟩,
      .pairedWord hd ⟨.vmov, 0#2, .word 4#8, .word 5#8, .word 6#8⟩ ⟨.vfmul, 1#2, .word 9#8, .word 5#8, .word 6#8⟩,
      .pairedWord hd ⟨.vadd, 0#2, .opf 1#3, .word 5#8, .word 6#8⟩ ⟨.vfmul, 1#2, .opf 1#3, .word 5#8, .word 6#8⟩,
      .pairedWord hd ⟨.vadd, 0#2, .word 4#8, .word 5#8, .word 6#8⟩ ⟨.vfmul, 1#2, .word 9#8, .word 4#8, .word 6#8⟩,
      .pairedWord hd ⟨.vadd, 0#2, .word 4#8, .word 5#8, .word 6#8⟩ ⟨.vfmul, 1#2, .word 9#8, .word 7#8, .word 8#8⟩,
      .mst 1#6 0#4 0#11 0#11 false,
      .mst 1#6 0#4 0#11 1025#11 false,
      .mzr 0#11 0#11,
      .mzr 0#11 1025#11,
      .mdr 1#6 0#4 0#11 0#11 .rne false false 0#5,
      .mdr 1#6 0#4 0#11 1#11 .sr false false 0#5,
      .mdr 1#6 0#4 0#11 1#11 .dyn false false 0#5] : List Instr).all (fun i => !i.wf) = true := by decide

theorem test_mask_word_checks :
    (spOk (some 0x5AFE#96), spOk (some 0x5AFF#96), spOk (some 0x40000000_00005AFE#96), spOk (some 0x80000000_00005AFE#96), spOk none) =
      (true, false, false, false, true) := by decide

/-! ### Decoding: for every constructor a word put together from the spec's encoding tables (R178 to R198, R306), and the words that
the spec writes out (R184, R191, R205, R208 to R239, R245 to R273, R302) -/

theorem test_decode_scalar_0 :
    ([(0x064AB000#32, .add 18#5 10#5 22#5),
      (0x062BA820#32, .sub 17#5 11#5 21#5),
      (0x064AB040#32, .mul 18#5 10#5 22#5),
      (0x062BA860#32, .mulhI 17#5 11#5 21#5),
      (0x064AB080#32, .mulhN 18#5 10#5 22#5),
      (0x062BA8A0#32, .divI 17#5 11#5 21#5),
      (0x064AB0C0#32, .divN 18#5 10#5 22#5),
      (0x062BA8E0#32, .remI 17#5 11#5 21#5),
      (0x064AB100#32, .remN 18#5 10#5 22#5),
      (0x062BA920#32, .and 17#5 11#5 21#5),
      (0x064AB140#32, .or 18#5 10#5 22#5),
      (0x062BA960#32, .xor 17#5 11#5 21#5),
      (0x064AB180#32, .andn 18#5 10#5 22#5),
      (0x062BA9A0#32, .shl 17#5 11#5 21#5),
      (0x064AB1C0#32, .shr 18#5 10#5 22#5),
      (0x062BA9E0#32, .sra 17#5 11#5 21#5),
      (0x064AB200#32, .rol 18#5 10#5 22#5),
      (0x062BAA20#32, .minI 17#5 11#5 21#5),
      (0x064AB240#32, .minN 18#5 10#5 22#5),
      (0x062BAA60#32, .maxI 17#5 11#5 21#5)] : List (_ × Instr)).all
      (fun p => (decodeScalar p.1).toOption == some p.2 && p.2.wf) = true := by decide +kernel

theorem test_decode_scalar_1 :
    ([(0x064AB280#32, .maxN 18#5 10#5 22#5),
      (0x062BAAA0#32, .sltI 17#5 11#5 21#5),
      (0x064AB2C0#32, .sltN 18#5 10#5 22#5),
      (0x062BAAE0#32, .seq 17#5 11#5 21#5),
      (0x064AB306#32, .sel 18#5 10#5 22#5 6#5),
      (0x064A0320#32, .clz 18#5 10#5),
      (0x064A0340#32, .ctz 18#5 10#5),
      (0x064A0360#32, .popc 18#5 10#5),
      (0x064A0380#32, .bswap 18#5 10#5),
      (0x064AB3A0#32, .bextI 18#5 10#5 22#5),
      (0x062BABC0#32, .bextN 17#5 11#5 21#5),
      (0x064AB3E0#32, .bins 18#5 10#5 22#5),
      (0x062BAC01#32, .lea 17#5 11#5 21#5 1#2),
      (0x0A2BD2E1#32, .addImm 17#5 11#5 53985#16),
      (0x0E4AD2E1#32, .mulImm 18#5 10#5 53985#16),
      (0x122BD2E1#32, .andImm 17#5 11#5 53985#16),
      (0x164AD2E1#32, .orImm 18#5 10#5 53985#16),
      (0x1A2BD2E1#32, .xorImm 17#5 11#5 53985#16),
      (0x1E4AD2E1#32, .sltIImm 18#5 10#5 53985#16),
      (0x222BD2E1#32, .sltNImm 17#5 11#5 53985#16)] : List (_ × Instr)).all
      (fun p => (decodeScalar p.1).toOption == some p.2 && p.2.wf) = true := by decide +kernel

theorem test_decode_scalar_2 :
    ([(0x264AD2E1#32, .seqImm 18#5 10#5 53985#16),
      (0x2A2B0021#32, .shlImm 17#5 11#5 33#6),
      (0x2A4A0061#32, .shrImm 18#5 10#5 33#6),
      (0x2A2B00A1#32, .sraImm 17#5 11#5 33#6),
      (0x2A4A00E1#32, .rolImm 18#5 10#5 33#6),
      (0x2E20A5C3#32, .li 17#5 42435#16),
      (0x2E31A5C3#32, .liIns 17#5 1#2 42435#16),
      (0x32496970#32, .pcrel 18#5 616816#21),
      (0x34175970#32, .brEq 11#5 21#5 2416#12),
      (0x34556970#32, .brNe 10#5 22#5 2416#12),
      (0x34975970#32, .brLt 11#5 21#5 2416#12),
      (0x34D56970#32, .brGe 10#5 22#5 2416#12),
      (0x35175970#32, .brLtN 11#5 21#5 2416#12),
      (0x35556970#32, .brGeN 10#5 22#5 2416#12),
      (0x359602E1#32, .loop 11#5 737#12),
      (0x39696970#32, .jmp 23685488#26),
      (0x3DA5A5C3#32, .call 27633091#26),
      (0x424AA5C3#32, .jr 18#5 10#5 42435#16),
      (0x462BA5C3#32, .ldI8 17#5 11#5 42435#16),
      (0x4A4AA5C3#32, .ldI16 18#5 10#5 42435#16)] : List (_ × Instr)).all
      (fun p => (decodeScalar p.1).toOption == some p.2 && p.2.wf) = true := by decide +kernel

theorem test_decode_scalar_3 :
    ([(0x4E2BA5C3#32, .ldI32 17#5 11#5 42435#16),
      (0x524AA5C3#32, .ldI64 18#5 10#5 42435#16),
      (0x562BA5C3#32, .ldN8 17#5 11#5 42435#16),
      (0x5A4AA5C3#32, .ldN16 18#5 10#5 42435#16),
      (0x5E2BA5C3#32, .ldN32 17#5 11#5 42435#16),
      (0x624AA5C3#32, .st8 18#5 10#5 42435#16),
      (0x662BA5C3#32, .st16 17#5 11#5 42435#16),
      (0x6A4AA5C3#32, .st32 18#5 10#5 42435#16),
      (0x6E2BA5C3#32, .st64 17#5 11#5 42435#16),
      (0x724A0500#32, .ldOrdered 18#5 10#5 .dom false .i8),
      (0x700AB3A9#32, .stOrdered 10#5 22#5 .die true .n16),
      (0x724A011A#32, .ldw 18#5 10#5 .blk false .i64),
      (0x700A0003#32, .pf 10#5),
      (0x700B0004#32, .cln 11#5),
      (0x700A0005#32, .clnPersist 10#5),
      (0x70000006#32, .fence .grp),
      (0x70000146#32, .fenceAcq .blk),
      (0x70000286#32, .fenceRel .col),
      (0x762BAE10#32, .amoSwap 17#5 11#5 21#5 .sys .plain true),
      (0x762BAD91#32, .amoAdd 17#5 11#5 21#5 .dom .rel true)] : List (_ × Instr)).all
      (fun p => (decodeScalar p.1).toOption == some p.2 && p.2.wf) = true := by decide +kernel

theorem test_decode_scalar_4 :
    ([(0x762BAC12#32, .amoAnd 17#5 11#5 21#5 .pkg .plain true),
      (0x762BAB93#32, .amoOr 17#5 11#5 21#5 .die .rel true),
      (0x762BAA14#32, .amoXor 17#5 11#5 21#5 .col .plain true),
      (0x762BA995#32, .amoMinI 17#5 11#5 21#5 .blk .rel true),
      (0x762BA816#32, .amoMaxI 17#5 11#5 21#5 .grp .plain true),
      (0x762BAE97#32, .amoMinN 17#5 11#5 21#5 .sys .rel true),
      (0x762BAD18#32, .amoMaxN 17#5 11#5 21#5 .dom .plain true),
      (0x762BAC99#32, .amoFadd 17#5 11#5 21#5 .pkg .rel true),
      (0x762BAB1A#32, .cas 17#5 11#5 21#5 .die .plain true),
      (0x762B018B#32, .cst 17#5 11#5 .blk true),
      (0x7A2BA878#32, .fadd 17#5 11#5 21#5 .dyn .bf16),
      (0x7A4AB0CC#32, .fsub 18#5 10#5 22#5 .rna .f64),
      (0x7A2BA930#32, .fmul 17#5 11#5 21#5 .rdn .f32),
      (0x7A4AB1A4#32, .fdiv 18#5 10#5 22#5 .rup .f16),
      (0x7A2B0204#32, .fsqrt 17#5 11#5 .rne .f16),
      (0x7A2BAA84#32, .fmin 17#5 11#5 21#5 .f16),
      (0x7A2BAB04#32, .fmax 17#5 11#5 21#5 .f16),
      (0x7A2BAB86#32, .fcmp 17#5 11#5 21#5 .f16 .lt),
      (0x7A4A0404#32, .fcls 18#5 10#5 .f16),
      (0x7E2BA9E6#32, .fma 17#5 11#5 21#5 7#5 .rna .f64)] : List (_ × Instr)).all
      (fun p => (decodeScalar p.1).toOption == some p.2 && p.2.wf) = true := by decide +kernel

theorem test_decode_scalar_5 :
    ([(0xB22B0564#32, .fcvt 17#5 11#5 .sr false .n32 .f16),
      (0x800A0021#32, .lxImm 10#5 33#6),
      (0x822B0040#32, .lxReg 17#5 11#5),
      (0x80004000#32, .lwait),
      (0x82208000#32, .lpoll 17#5),
      (0x864005C3#32, .csrr 18#5 1475#12),
      (0x840B1970#32, .csrw 11#5 2416#12),
      (0x864A2970#32, .csrs 18#5 10#5 2416#12),
      (0x88000000#32, .nop),
      (0x88001000#32, .done),
      (0x880025C3#32, .svc 1475#12),
      (0x880032E1#32, .brk 737#12),
      (0x8A204000#32, .tstamp 17#5),
      (0x8A405000#32, .cyc 18#5),
      (0x88006000#32, .yieldGroup),
      (0x8A2A7000#32, .wkGet 17#5 10#5),
      (0x8DA5A5C3#32, .safe 27633091#25),
      (0x924AB000#32, .subSubscription 18#5 10#5 22#5),
      (0x922BA900#32, .unsub 17#5 11#5 21#5),
      (0x924AB200#32, .subup 18#5 10#5 22#5)] : List (_ × Instr)).all
      (fun p => (decodeScalar p.1).toOption == some p.2 && p.2.wf) = true := by decide +kernel

theorem test_decode_scalar_6 :
    ([(0x900AB300#32, .crSet 10#5 22#5),
      (0x900A0400#32, .crEnd 10#5),
      (0x900BAD02#32, .radd 11#5 21#5 .i32),
      (0x962BA800#32, .spmMap 17#5 11#5 21#5),
      (0x964AB100#32, .spmMapFill 18#5 10#5 22#5),
      (0x940A0200#32, .spmUnmap 10#5),
      (0x980B0003#32, .barInit 11#5 3#6),
      (0x98001021#32, .barArr 33#6),
      (0x980A2003#32, .barExp 10#5 3#6),
      (0x98003030#32, .barWait false 48#6),
      (0x9A204070#32, .barTry 17#5 true 48#6),
      (0x9E4A0000#32, .monArm 18#5 10#5),
      (0x9C001000#32, .monWait),
      (0x9C002001#32, .portCfg true),
      (0x9C003003#32, .xacq 3#5),
      (0x9C004001#32, .xrel 1#5),
      (0xA22BAA00#32, .cp 17#5 11#5 21#5 .col),
      (0xA22BAE10#32, .cpColl 17#5 11#5 21#5 .sys),
      (0xA22BAB20#32, .gth 17#5 11#5 21#5 .die),
      (0xA22BA830#32, .scat 17#5 11#5 21#5 .grp)] : List (_ × Instr)).all
      (fun p => (decodeScalar p.1).toOption == some p.2 && p.2.wf) = true := by decide +kernel

theorem test_decode_scalar_7 :
    ([(0xA22BAC40#32, .redcp 17#5 11#5 21#5 .pkg),
      (0xA22BA950#32, .mcast 17#5 11#5 21#5 .blk),
      (0xA22BAD60#32, .dcoll 17#5 11#5 21#5 .dom),
      (0xA40A0021#32, .tidSet 10#5 33#6),
      (0xA6201003#32, .tidGet 17#5 3#6),
      (0xA4002021#32, .tidInv 33#6),
      (0xA80B0000#32, .xfer 11#5),
      (0xAA2B1000#32, .xcall 17#5 11#5),
      (0xA80A2000#32, .xret 10#5),
      (0xAA4A3000#32, .segWho 18#5 10#5),
      (0xAC0B0000#32, .tret 11#5),
      (0xAE2B1000#32, .ctxSave 17#5 11#5),
      (0xAE2B2000#32, .ctxLoad 17#5 11#5),
      (0xAE2B3000#32, .capMint 17#5 11#5),
      (0xAE2B4000#32, .capDrop 17#5 11#5),
      (0xAE2B5000#32, .tlbInv 17#5 11#5),
      (0xAE2B6000#32, .hmtSet 17#5 11#5),
      (0xAE2B7000#32, .segMap 17#5 11#5),
      (0xAE2B8000#32, .actSet 17#5 11#5),
      (0xAE2B9000#32, .evqSet 17#5 11#5)] : List (_ × Instr)).all
      (fun p => (decodeScalar p.1).toOption == some p.2 && p.2.wf) = true := by decide +kernel

theorem test_decode_scalar_8 :
    ([(0xAC00A000#32, .idle),
      (0xAC00B000#32, .halt)] : List (_ × Instr)).all
      (fun p => (decodeScalar p.1).toOption == some p.2 && p.2.wf) = true := by decide +kernel

theorem test_decode_scalar_of_spec_0 :
    ([(0x04642800#32, .add 3#5 4#5 5#5),
      (0x35085FFD#32, .brLtN 4#5 5#5 4093#12),
      (0x8C000013#32, .safe 0x13#25),
      (0x88000000#32, .nop),
      (0x88001000#32, .done),
      (0x80004000#32, .lwait),
      (0x2CA08000#32, .li 5#5 0x8000#16),
      (0x2CB10000#32, .liIns 5#5 1#2 0#16),
      (0x2CB20001#32, .liIns 5#5 2#2 1#16),
      (0x046428A0#32, .divI 3#5 4#5 5#5),
      (0x04642B06#32, .sel 3#5 4#5 5#5 6#5),
      (0x04642C03#32, .lea 3#5 4#5 5#5 3#2),
      (0x08E7FFFF#32, .addImm 7#5 7#5 65535#16),
      (0x2864004C#32, .shrImm 3#5 4#5 12#6),
      (0x40010000#32, .jr 0#5 1#5 0#16),
      (0x3C00000A#32, .call 10#26),
      (0x8004000C#32, .lxImm 4#5 12#6),
      (0x80C40040#32, .lxReg 6#5 4#5),
      (0x80608000#32, .lpoll 3#5),
      (0x88A67000#32, .wkGet 5#5 6#5)] : List (_ × Instr)).all
      (fun p => (decodeScalar p.1).toOption == some p.2 && p.2.wf) = true := by decide +kernel

theorem test_decode_scalar_of_spec_1 :
    ([(0x7864291C#32, .fmul 3#5 4#5 5#5 .rtz .f64),
      (0x78642B82#32, .fcmp 3#5 4#5 5#5 .f32 .lt),
      (0x7C642980#32, .fma 3#5 4#5 5#5 6#5 .rne .f32),
      (0xB0C70142#32, .fcvt 6#5 7#5 .rtz false .i32 .f32),
      (0x84600041#32, .csrr 3#5 0x041#12),
      (0x84041080#32, .csrw 4#5 0x080#12),
      (0x84642080#32, .csrs 3#5 4#5 0x080#12),
      (0x88006000#32, .yieldGroup),
      (0x88002003#32, .svc 3#12),
      (0x88003000#32, .brk 0#12),
      (0x88604000#32, .tstamp 3#5),
      (0x88805000#32, .cyc 4#5),
      (0x4C640008#32, .ldI32 3#5 4#5 8#16),
      (0x6CA2FFF0#32, .st64 5#5 2#5 65520#16),
      (0x70640450#32, .ldOrdered 3#5 4#5 .pkg true .i32),
      (0x70042C99#32, .stOrdered 4#5 5#5 .pkg true .i64),
      (0x7064001A#32, .ldw 3#5 4#5 .grp false .i64),
      (0x70040003#32, .pf 4#5),
      (0x70040004#32, .cln 4#5),
      (0x70040005#32, .clnPersist 4#5)] : List (_ × Instr)).all
      (fun p => (decodeScalar p.1).toOption == some p.2 && p.2.wf) = true := by decide +kernel

theorem test_decode_scalar_of_spec_2 :
    ([(0x70000406#32, .fence .pkg),
      (0x70000286#32, .fenceRel .col),
      (0x70000606#32, .fence .sys),
      (0x74642CD1#32, .amoAdd 3#5 4#5 5#5 .pkg .ar true),
      (0x7464294A#32, .cas 3#5 4#5 5#5 .blk .acq false),
      (0x7464000B#32, .cst 3#5 4#5 .grp false),
      (0x7464048B#32, .cst 3#5 4#5 .pkg true),
      (0x90642800#32, .subSubscription 3#5 4#5 5#5),
      (0x90042B00#32, .crSet 4#5 5#5),
      (0x90042D00#32, .radd 4#5 5#5 .f32),
      (0x94642800#32, .spmMap 3#5 4#5 5#5),
      (0x94642900#32, .spmMapFill 3#5 4#5 5#5),
      (0x94040200#32, .spmUnmap 4#5),
      (0x98040003#32, .barInit 4#5 3#6),
      (0x98001003#32, .barArr 3#6),
      (0x98042003#32, .barExp 4#5 3#6),
      (0x98003043#32, .barWait true 3#6),
      (0x98604003#32, .barTry 3#5 false 3#6),
      (0x9C640000#32, .monArm 3#5 4#5),
      (0x9C001000#32, .monWait)] : List (_ × Instr)).all
      (fun p => (decodeScalar p.1).toOption == some p.2 && p.2.wf) = true := by decide +kernel

theorem test_decode_scalar_of_spec_3 :
    ([(0x9C002001#32, .portCfg true),
      (0x9C003002#32, .xacq 2#5),
      (0x9C004002#32, .xrel 2#5)] : List (_ × Instr)).all
      (fun p => (decodeScalar p.1).toOption == some p.2 && p.2.wf) = true := by decide +kernel

/-- A lane word whose safe-point bit is clear, without its mask word. -/
def laneOf (w : BitVec 96) : Except Reject Instr := (decodeLane w 0#96).map Prod.snd

theorem test_decode_lane_0 :
    ([(0x04002401019100A000000000#96, .vadd ⟨false, 1#3, false⟩ .i32 (.word 8#8) (.word 200#8) (.opf 5#3)),
      (0x0A0048410947FF6000000000#96, .vsub ⟨false, 2#3, true⟩ .n8 (.byte 8#8 2#2) (.tile 3#4 5#5) (.imm 1019#10)),
      (0x4E00660101FC874000000000#96, .vmul ⟨true, 3#3, true⟩ .i64 (.pair 4#7) (.pair 127#7) (.queue 2#3 1#2)),
      (0x50008A212013400000000000#96, .vmulh ⟨true, 4#3, false⟩ .n16 (.half 9#8 1#1) (.half 9#8 0#1) .lr),
      (0x5400C21FEC6380E000000000#96, .vabsd ⟨true, 5#3, false⟩ .i16 (.half 255#8 0#1) (.acc 1#3 17#5) (.imm 7#10)),
      (0x1A00ED00F400000000000000#96, .vmin ⟨false, 6#3, true⟩ .n32 (.opf 7#3) .lr (.word 0#8)),
      (0x1E010083460E00C000000000#96, .vmax ⟨false, 7#3, true⟩ .i8 (.queue 2#3 0#2) (.byte 7#8 3#2) (.byte 6#8 0#2)),
      (0x00012EFEFC00004000000000#96, .vadds hd .n64 (.acc 7#3 31#5) (.imm 512#10) (.pair 1#7)),
      (0x44014401019100A000000000#96, .vsubs ⟨true, 1#3, false⟩ .i32 (.word 8#8) (.word 200#8) (.opf 5#3)),
      (0x4A0168410947FF6000000000#96, .vand ⟨true, 2#3, true⟩ .n8 (.byte 8#8 2#2) (.tile 3#4 5#5) (.imm 1019#10)),
      (0x4E01860101FC874000000000#96, .vor ⟨true, 3#3, true⟩ .i64 (.pair 4#7) (.pair 127#7) (.queue 2#3 1#2)),
      (0x1001AA212013400000000000#96, .vxor ⟨false, 4#3, false⟩ .n16 (.half 9#8 1#1) (.half 9#8 0#1) .lr),
      (0x1401C21FEC6380E000000000#96, .vandn ⟨false, 5#3, false⟩ .i16 (.half 255#8 0#1) (.acc 1#3 17#5) (.imm 7#10)),
      (0x1A01ED00F400000000000000#96, .vshl ⟨false, 6#3, true⟩ .n32 (.opf 7#3) .lr (.word 0#8)),
      (0x5E020083460E00C000000000#96, .vshr ⟨true, 7#3, true⟩ .i8 (.queue 2#3 0#2) (.byte 7#8 3#2) (.byte 6#8 0#2)),
      (0x40022EFEFC00004000000000#96, .vsra ⟨true, 0#3, false⟩ .n64 (.acc 7#3 31#5) (.imm 512#10) (.pair 1#7)),
      (0x4400A4002004006008000000#96, .vmad ⟨true, 1#3, false⟩ .i32 (.word 1#8) (.word 2#8) (.word 3#8) (.word 4#8)),
      (0x0A0244010190000000000000#96, .vclz ⟨false, 2#3, true⟩ .i32 (.word 8#8) (.word 200#8)),
      (0x0E0268410946000000000000#96, .vctz ⟨false, 3#3, true⟩ .n8 (.byte 8#8 2#2) (.tile 3#4 5#5)),
      (0x1002860101FC000000000000#96, .vpopc ⟨false, 4#3, false⟩ .i64 (.pair 4#7) (.pair 127#7))] : List (_ × Instr)).all
      (fun p => (laneOf p.1).toOption == some p.2 && p.2.wf) = true := by decide +kernel

theorem test_decode_lane_1 :
    ([(0x5402AA212012000000000000#96, .vbrev ⟨true, 5#3, false⟩ .n16 (.half 9#8 1#1) (.half 9#8 0#1)),
      (0x5A02CE00800D806000000000#96, .vbext ⟨true, 6#3, true⟩ .n64 (.pair 2#7) (.pair 3#7) (.imm 3#10)),
      (0x5E02E400000A00C00000001D#96, .vcmp ⟨true, 7#3, true⟩ .i32 .le (.pred 5#3) (.word 5#8) (.word 6#8)),
      (0x0002E821200BFFE0000000A8#96, .vcmp hd .n8 .ge (.elem (.byte 9#8 1#2)) (.byte 5#8 0#2) (.imm 1023#10)),
      (0x04031220800A20C00000000E#96, .vsel ⟨false, 1#3, false⟩ (.fp .f16) (.half 4#8 1#1) (.half 5#8 0#1) (.half 6#8 1#1) 6#3 true),
      (0x0A0326009FFC000000000000#96, .vmov ⟨false, 2#3, true⟩ (.int .i64) (.pair 2#7) (.imm 1022#10)),
      (0x4E0350008000000089ABCDEF#96, .vli ⟨true, 3#3, true⟩ .f32 (.word 4#8) 0x89ABCDEF#32),
      (0x50036600860C000000000004#96, .vext ⟨true, 4#3, false⟩ .i64 .n8 (.pair 2#7) (.byte 6#8 3#2)),
      (0x54038820800C000000000012#96, .vnrw ⟨true, 5#3, false⟩ .n8 .i32 true (.byte 4#8 1#2) (.word 6#8)),
      (0x1A2030002005806000000000#96, .vfadd ⟨false, 6#3, true⟩ .f32 .rne (.word 1#8) (.word 2#8) (.imm 3#10)),
      (0x1E2052202004206000000003#96, .vfsub ⟨false, 7#3, true⟩ .f16 .rdn (.half 1#8 1#1) (.half 2#8 0#1) (.half 3#8 1#1)),
      (0x00207488292600A000000007#96, .vfmul hd .bf16 .dyn (.tile 1#4 2#5) (.acc 3#3 4#5) (.half 5#8 0#1)),
      (0x442271003400012000000002#96, .vfscl ⟨true, 1#3, false⟩ .f32 .rup (.opf 1#3) .lr (.word 9#8)),
      (0x4A2090002004006008000004#96, .vffma ⟨true, 2#3, true⟩ .f32 .rna (.word 1#8) (.word 2#8) (.word 3#8) (.word 4#8)),
      (0x4E20B0002004006000000000#96, .vfmin ⟨true, 3#3, true⟩ .f32 (.word 1#8) (.word 2#8) (.word 3#8)),
      (0x1020D2002204006000000000#96, .vfmax ⟨false, 4#3, false⟩ .f16 (.half 1#8 0#1) (.half 2#8 1#1) (.half 3#8 0#1)),
      (0x1420F000000A00C000000022#96, .vfcmp ⟨false, 5#3, false⟩ .f32 .gt (.pred 2#3) (.word 5#8) (.word 6#8)),
      (0x1A2110010090000000000000#96, .vfrcp ⟨false, 6#3, true⟩ .f32 (.word 8#8) (.word 72#8)),
      (0x5E2130012092000000000000#96, .vfrsq ⟨true, 7#3, true⟩ .f32 (.word 9#8) (.word 73#8)),
      (0x402150014094000000000000#96, .vfex2 ⟨true, 0#3, false⟩ .f32 (.word 10#8) (.word 74#8))] : List (_ × Instr)).all
      (fun p => (laneOf p.1).toOption == some p.2 && p.2.wf) = true := by decide +kernel

theorem test_decode_lane_2 :
    ([(0x442170016096000000000000#96, .vflg2 ⟨true, 1#3, false⟩ .f32 (.word 11#8) (.word 75#8)),
      (0x0A2190018098000000000000#96, .vfsin ⟨false, 2#3, true⟩ .f32 (.word 12#8) (.word 76#8)),
      (0x0E21B001A09A000000000000#96, .vfcos ⟨false, 3#3, true⟩ .f32 (.word 13#8) (.word 77#8)),
      (0x1021D001C09C000000000000#96, .vftnh ⟨false, 4#3, false⟩ .f32 (.word 14#8) (.word 78#8)),
      (0x542210020080000000000000#96, .vfcls ⟨true, 5#3, false⟩ .f32 (.word 16#8) (.word 64#8)),
      (0x5A21E040A00C0000000D014C#96, .vfcvt ⟨true, 6#3, true⟩ true .sr .f32 (.b8 .si 4#3) (.byte 5#8 2#2) (.word 6#8)),
      (0x5E21E000A20C000000012801#96, .vfcvt ⟨true, 7#3, true⟩ false .rtz (.int .n8) .f32 (.word 5#8) (.byte 6#8 1#2)),
      (0x00223000A00C00E010020300#96, .vfdot2 hd true .rup (.word 5#8) (.word 6#8) (.word 7#8) (.word 8#8)),
      (0x04225000A00C00E010015300#96, .vfdot4 ⟨false, 1#3, false⟩ .nf 3#3 .rtz (.word 5#8) (.word 6#8) (.word 7#8) (.word 8#8)),
      (0x0A4026004009802000000002#96, .vshfl ⟨false, 2#3, true⟩ (.int .i64) .xor (.pair 1#7) (.pair 2#7) (.imm 1#10)),
      (0x4E4050004008006000000000#96, .vbcast ⟨true, 3#3, true⟩ (.fp .f32) (.word 2#8) (.word 4#8) (.word 3#8)),
      (0x504070004008000000000030#96, .vlred ⟨true, 4#3, false⟩ (.fp .f32) .add .rdn (.word 2#8) (.word 4#8)),
      (0x54408A204008000000000005#96, .vscan ⟨true, 5#3, false⟩ (.int .n16) .xor .rne (.half 2#8 1#1) (.half 4#8 0#1)),
      (0x1A40A400400800A000000302#96, .vmred ⟨false, 6#3, true⟩ (.int .i32) .max .rne 6#3 (.word 2#8) (.word 4#8) (.word 5#8)),
      (0x1E40CE004000000000000005#96, .vballot ⟨false, 7#3, true⟩ true 5#3 (.pair 1#7)),
      (0x0040E0000000000000000075#96, .vvote hd .uni 5#3 3#3),
      (0x44410000E000000000000000#96, .vlid ⟨true, 1#3, false⟩ (.word 7#8)),
      (0x4A60200000000000000005AC#96, .pand ⟨true, 2#3, true⟩ 4#3 5#3 6#3 false true),
      (0x4E60400000000000000005AC#96, .por ⟨true, 3#3, true⟩ 4#3 5#3 6#3 false true),
      (0x1060600000000000000005AC#96, .pxor ⟨false, 4#3, false⟩ 4#3 5#3 6#3 false true)] : List (_ × Instr)).all
      (fun p => (laneOf p.1).toOption == some p.2 && p.2.wf) = true := by decide +kernel

theorem test_decode_lane_3 :
    ([(0x14608000000000000000022C#96, .pnot ⟨false, 5#3, false⟩ 4#3 5#3 true),
      (0x1A60A000000000000000022C#96, .pmov ⟨false, 6#3, true⟩ 4#3 5#3 true),
      (0x568022000000000001FFFFFD#96, .lbr 5#3 true true 33554429#25),
      (0x408040000000000000000007#96, .ljmp 7#25),
      (0x40806000000000000000000B#96, .regang 11#4),
      (0x408080000000000000000000#96, .lend),
      (0x5E80A0000000000000000000#96, .lnop ⟨true, 7#3, true⟩),
      (0x4080C000001400000000001B#96, .vwSet ⟨true, 0#3, false⟩ 27#5 (.pair 5#7)),
      (0x44A024012014000000900FFC#96, .vld ⟨true, 1#3, false⟩ (.int .i32) .col true 0xFFC#12 (.word 9#8) (.pair 5#7)),
      (0x0AA050000014012001A00040#96, .vst ⟨false, 2#3, true⟩ (.fp .f32) .sys true 0x040#12 (.pair 5#7) (.word 9#8)),
      (0x0EA06601801401C001310008#96, .vamo ⟨false, 3#3, true⟩ .i64 .add .pkg .ar 8#12 (.pair 6#7) (.pair 5#7) (.pair 7#7)),
      (0x10A08C01801401C01EC00004#96, .vcas ⟨false, 4#3, false⟩ .n32 .die .plain 4#12 (.word 12#8) (.pair 5#7) (.word 14#8) (.word 15#8)),
      (0x00A0A0804018000000000007#96, .vtld hd 2#4 12#8 7#6),
      (0x04A0C000019081E00000003F#96, .vtst ⟨false, 1#3, false⟩ 15#4 200#8 63#6),
      (0x54C020000000000001500000#96, .laneFence ⟨true, 5#3, false⟩ .dom .acq),
      (0x5AC054000014212000000000#96, .laneRadd ⟨true, 6#3, true⟩ .bf16 (.pair 5#7) (.half 9#8 1#1)),
      (0x5EC060000000000000000021#96, .laneBarArr ⟨true, 7#3, true⟩ 33#6),
      (0x00C080000000012000000021#96, .laneBarExp hd 33#6 (.word 9#8)),
      (0x04C0A0000000000000000061#96, .laneBarWait ⟨false, 1#3, false⟩ 33#6 true),
      (0x0AC0C00000000000000002A1#96, .laneBarTry ⟨false, 2#3, true⟩ 33#6 false 5#3)] : List (_ × Instr)).all
      (fun p => (laneOf p.1).toOption == some p.2 && p.2.wf) = true := by decide +kernel

theorem test_decode_lane_4 :
    ([(0x200200800A00C88813002014#96, .pairedWord hd ⟨.vadd, 0#2, .word 4#8, .word 5#8, .word 6#8⟩ ⟨.vfmul, 1#2, .word 9#8, .opf 1#3, .word 10#8⟩)] : List (_ × Instr)).all
      (fun p => (laneOf p.1).toOption == some p.2 && p.2.wf) = true := by decide +kernel

theorem test_decode_paired_0 :
    ([(0x6E0200A01140080407000012#96, .pairedWord ⟨true, 3#3, true⟩ ⟨.vadd, 0#2, .word 5#8, .word 8#8, .lr⟩ ⟨.vmul, 0#2, .opf 3#3, .opf 0#3, .word 9#8⟩),
      (0x700400A01140082407000012#96, .pairedWord ⟨true, 4#3, false⟩ ⟨.vsub, 0#2, .word 5#8, .word 8#8, .lr⟩ ⟨.vmulhI, 0#2, .opf 3#3, .opf 0#3, .word 9#8⟩),
      (0x740600A01140084407000012#96, .pairedWord ⟨true, 5#3, false⟩ ⟨.vand, 0#2, .word 5#8, .word 8#8, .lr⟩ ⟨.vmulhN, 0#2, .opf 3#3, .opf 0#3, .word 9#8⟩),
      (0x3A0800A01140086407000012#96, .pairedWord ⟨false, 6#3, true⟩ ⟨.vor, 0#2, .word 5#8, .word 8#8, .lr⟩ ⟨.vmad, 0#2, .opf 3#3, .opf 0#3, .word 9#8⟩),
      (0x3E0A00A01140089407000012#96, .pairedWord ⟨false, 7#3, true⟩ ⟨.vxor, 0#2, .word 5#8, .word 8#8, .lr⟩ ⟨.vfmul, 2#2, .opf 3#3, .opf 0#3, .word 9#8⟩),
      (0x200C00A0114008B407000012#96, .pairedWord hd ⟨.vandn, 0#2, .word 5#8, .word 8#8, .lr⟩ ⟨.vffma, 2#2, .opf 3#3, .opf 0#3, .word 9#8⟩),
      (0x640E00A01140080407000012#96, .pairedWord ⟨true, 1#3, false⟩ ⟨.vshl, 0#2, .word 5#8, .word 8#8, .lr⟩ ⟨.vmul, 0#2, .opf 3#3, .opf 0#3, .word 9#8⟩),
      (0x6A1000A01140082407000012#96, .pairedWord ⟨true, 2#3, true⟩ ⟨.vshr, 0#2, .word 5#8, .word 8#8, .lr⟩ ⟨.vmulhI, 0#2, .opf 3#3, .opf 0#3, .word 9#8⟩),
      (0x6E1200A01140084407000012#96, .pairedWord ⟨true, 3#3, true⟩ ⟨.vsra, 0#2, .word 5#8, .word 8#8, .lr⟩ ⟨.vmulhN, 0#2, .opf 3#3, .opf 0#3, .word 9#8⟩),
      (0x301400A01140086407000012#96, .pairedWord ⟨false, 4#3, false⟩ ⟨.vminI, 0#2, .word 5#8, .word 8#8, .lr⟩ ⟨.vmad, 0#2, .opf 3#3, .opf 0#3, .word 9#8⟩),
      (0x341600A01140089407000012#96, .pairedWord ⟨false, 5#3, false⟩ ⟨.vminN, 0#2, .word 5#8, .word 8#8, .lr⟩ ⟨.vfmul, 2#2, .opf 3#3, .opf 0#3, .word 9#8⟩),
      (0x3A1800A0114008B407000012#96, .pairedWord ⟨false, 6#3, true⟩ ⟨.vmaxI, 0#2, .word 5#8, .word 8#8, .lr⟩ ⟨.vffma, 2#2, .opf 3#3, .opf 0#3, .word 9#8⟩),
      (0x7E1A00A01140080407000012#96, .pairedWord ⟨true, 7#3, true⟩ ⟨.vmaxN, 0#2, .word 5#8, .word 8#8, .lr⟩ ⟨.vmul, 0#2, .opf 3#3, .opf 0#3, .word 9#8⟩),
      (0x601C00A01000082407000012#96, .pairedWord ⟨true, 0#3, false⟩ ⟨.vmov, 0#2, .word 5#8, .word 8#8, .word 0#8⟩ ⟨.vmulhI, 0#2, .opf 3#3, .opf 0#3, .word 9#8⟩),
      (0x641F80A01140084407000012#96, .pairedWord ⟨true, 1#3, false⟩ ⟨.vcmpI, 3#2, .word 5#8, .word 8#8, .lr⟩ ⟨.vmulhN, 0#2, .opf 3#3, .opf 0#3, .word 9#8⟩),
      (0x2A2180A01140086407000012#96, .pairedWord ⟨false, 2#3, true⟩ ⟨.vcmpN, 3#2, .word 5#8, .word 8#8, .lr⟩ ⟨.vmad, 0#2, .opf 3#3, .opf 0#3, .word 9#8⟩),
      (0x2E2380A01140089407000012#96, .pairedWord ⟨false, 3#3, true⟩ ⟨.vfadd, 3#2, .word 5#8, .word 8#8, .lr⟩ ⟨.vfmul, 2#2, .opf 3#3, .opf 0#3, .word 9#8⟩),
      (0x302580A0114008B407000012#96, .pairedWord ⟨false, 4#3, false⟩ ⟨.vfsub, 3#2, .word 5#8, .word 8#8, .lr⟩ ⟨.vffma, 2#2, .opf 3#3, .opf 0#3, .word 9#8⟩),
      (0x742600A01140080407000012#96, .pairedWord ⟨true, 5#3, false⟩ ⟨.vfmin, 0#2, .word 5#8, .word 8#8, .lr⟩ ⟨.vmul, 0#2, .opf 3#3, .opf 0#3, .word 9#8⟩),
      (0x7A2800A01140082407000012#96, .pairedWord ⟨true, 6#3, true⟩ ⟨.vfmax, 0#2, .word 5#8, .word 8#8, .lr⟩ ⟨.vmulhI, 0#2, .opf 3#3, .opf 0#3, .word 9#8⟩)] : List (_ × Instr)).all
      (fun p => (laneOf p.1).toOption == some p.2 && p.2.wf) = true := by decide +kernel

theorem test_decode_paired_1 :
    ([(0x7E2B80A01140084407000012#96, .pairedWord ⟨true, 7#3, true⟩ ⟨.vfcmp, 3#2, .word 5#8, .word 8#8, .lr⟩ ⟨.vmulhN, 0#2, .opf 3#3, .opf 0#3, .word 9#8⟩)] : List (_ × Instr)).all
      (fun p => (laneOf p.1).toOption == some p.2 && p.2.wf) = true := by decide +kernel

theorem test_decode_lane_of_spec_0 :
    ([(0x0C2090010013005400000000#96, .vffma ⟨false, 3#3, false⟩ .f32 .rne (.word 8#8) (.word 9#8) (.opf 2#3) .lr),
      (0x200200800A00C88813002014#96, .pairedWord hd ⟨.vadd, 0#2, .word 4#8, .word 5#8, .word 6#8⟩ ⟨.vfmul, 1#2, .word 9#8, .opf 1#3, .word 10#8⟩),
      (0x000122214216018000000000#96, .vadds hd .i16 (.half 10#8 1#1) (.half 11#8 1#1) (.half 12#8 0#1)),
      (0x0002E4000007800000000012#96, .vcmp hd .i32 .lt (.pred 2#3) (.word 3#8) (.imm 0#10)),
      (0x00035000600000003FC00000#96, .vli hd .f32 (.word 3#8) 0x3FC00000#32),
      (0x0021E022800A000000050144#96, .vfcvt hd false .sr .f32 (.b8 .sf 4#3) (.byte 20#8 1#2) (.word 5#8)),
      (0x0040A400C00800A000000100#96, .vmred hd (.int .i32) .add .rne 2#3 (.word 6#8) (.word 4#8) (.word 5#8)),
      (0x448020000000000001FFFFFB#96, .lbr 1#3 false false 33554427#25),
      (0x00A024010008000000000010#96, .vld hd (.int .i32) .grp false 16#12 (.word 8#8) (.pair 2#7)),
      (0x00A050000008012001200000#96, .vst hd (.fp .f32) .pkg true 0#12 (.pair 2#7) (.word 9#8)),
      (0x00A06C00C00800E000010000#96, .vamo hd .n32 .add .grp .plain 0#12 (.word 6#8) (.pair 2#7) (.word 7#8)),
      (0x00A0A0804018000000000007#96, .vtld hd 2#4 12#8 7#6),
      (0x00C020000000000000600000#96, .laneFence hd .blk .rel)] : List (_ × Instr)).all
      (fun p => (laneOf p.1).toOption == some p.2 && p.2.wf) = true := by decide +kernel

theorem test_decode_matrix_0 :
    ([(0x010084051234ABCD#64, .mls 33#6 5#4 0xABCD#16 0x1234#16),
      (0x0200000000000000#64, .mswp),
      (0x030084050060004D#64, .mst 33#6 5#4 77#11 1024#11 true),
      (0x0400000000000FFF#64, .mzr 2047#11 1#11),
      (0x050000C9FD008003#64, .mdr 12#6 9#4 3#11 16#11 .rna false true 31#5),
      (0x0604000000000003#64, .mspn 4#8 3#2),
      (0x073F000000000000#64, .mbarr 63#8),
      (0x0802000000000001#64, .mbwt 2#8 true),
      (0x0900000F92345678#64, .mset 15#4 true 0x12345678#31),
      (0x0A0000017FFFFFFF#64, .madd 1#4 false 2147483647#31),
      (0x0B000002FFFFFFFC#64, .mloop 2#4 4294967292#32),
      (0x0C00000000000006#64, .mjmp 6#32),
      (0x0D00000000000000#64, .mend),
      (0x0E00000000000000#64, .mnop),
      (0x0805000000000000#64, .mbwt 5#8 false)] : List (_ × Instr)).all
      (fun p => (decodeMatrix p.1).toOption == some p.2 && p.2.wf) = true := by decide +kernel

/-- Words that are no instruction, with the check of R198 that each fails: majors and codes that are not assigned, fields that must be
zero, types and roundings, control words without a boundary, pairs, operand fields, mask words. -/
theorem test_decode_rejects_scalar :
    ([0x00000000#32, 0xB4000000#32, 0xFC000000#32, 0x04000001#32, 0x04000420#32, 0x28000100#32, 0x2C010000#32, 0x35C00000#32, 0x35801000#32, 0x70000007#32, 0x70000700#32, 0x70000080#32, 0x74000020#32, 0x7400000C#32, 0x78000050#32, 0x78000480#32, 0x78000060#32, 0xB0000001#32, 0xB0000610#32, 0xB0000000#32, 0x80000000#32, 0x8000C000#32, 0x84003000#32, 0x88008000#32, 0x88000001#32, 0x90000600#32, 0x90000503#32, 0x98005000#32, 0x9C005000#32, 0xA0000070#32, 0xA0000701#32, 0xA4003000#32, 0xA8004000#32, 0xAC00C000#32, 0xAC000001#32].all fun w =>
      (decodeScalar w).toOption.isNone) = true := by decide +kernel

theorem test_decode_rejects_lane :
    ([(0x000000000000000000000000#96, .illegalInstr),
      (0x0003A0000000000000000000#96, .illegalInstr),
      (0x002280000000000000000000#96, .illegalInstr),
      (0x000036002004006000000000#96, .illegalInstr),
      (0x000030002004006000000000#96, .illegalInstr),
      (0x0080A2000000000000000000#96, .illegalInstr),
      (0x000024002004006008000000#96, .illegalInstr),
      (0x000024002004006000000001#96, .illegalInstr),
      (0x008020000000000000000001#96, .illegalInstr),
      (0x008040000000000000000001#96, .illegalInstr),
      (0x448040000000000000000001#96, .illegalInstr),
      (0x008080000000000000000000#96, .illegalInstr),
      (0x0002E4000004006000000030#96, .illegalInstr),
      (0x0002E400A004006000000000#96, .illegalInstr),
      (0x002030002004006000000006#96, .illegalInstr),
      (0x002030002004006000000005#96, .illegalInstr),
      (0x00A024002014000001C00000#96, .illegalInstr),
      (0x00A024002014000000200000#96, .illegalInstr),
      (0x00A0640020140080000A0000#96, .illegalInstr),
      (0x000025802004006000000000#96, .illegalOperand),
      (0x000025400004006000000000#96, .illegalOperand),
      (0x000024003010006000000000#96, .illegalOperand),
      (0x000024202004006000000000#96, .illegalOperand),
      (0x000026002004008000000000#96, .illegalOperand),
      (0x000022402004006000000000#96, .illegalOperand),
      (0x000024872004006000000000#96, .illegalOperand),
      (0x00A024002016000000000000#96, .illegalOperand),
      (0x00A0A0002004000000000003#96, .illegalOperand),
      (0x200200800A00C88813002015#96, .illegalPair),
      (0x204000800A00C88813002014#96, .illegalPair),
      (0x200220800A00C88813002014#96, .illegalPair),
      (0x200200880A00C88813002014#96, .illegalPair),
      (0x202280800A00C8881000800E#96, .illegalPair),
      (0x20800020040068A80C00A008#96, .illegalPair),
      (0x8080A0000000000000000000#96, .badMask)] : List (BitVec 96 × Reject)).all
      (fun p => (match decodeLane p.1 0x40000000_00005AFE#96 with | .error e => decide (e = p.2) | .ok _ => false)) = true := by
  decide +kernel

theorem test_decode_rejects_matrix :
    ([0#64, 0x0F00000000000000#64, 0x0200000000000001#64, 0x0308000000000800#64, 0x0300000000000000#64, 0x0300000000200800#64,
      0x0500000001400800#64, 0x0600000000000004#64, 0x0D00000100000000#64].all fun w => (decodeMatrix w).toOption.isNone) = true := by
  decide +kernel

/-! ### Witnesses that the hypotheses of the obligations can be met together: concrete states and operands -/

/-- A small part: one column with two compute cores. -/
def part : State :=
  { State.reset with
    hosts := [(0, .reset), (1, .reset)], cores := [(0, .reset 0 0), (1, .reset 1 0)], cols := [(0, .reset 0 0 [0, 1])]
    parts := [(0, .reset [0] 0 256)] }

/-- A region, a block and its group, 1 to 3, on core 0 of the small part; the group's scalar stream moves. -/
def base : State := { withGroup part 1 with cur := .group 3 }

/-- A state with its group changed. -/
def grpd (s : State) (f : Group → Group) : State := modGroup s 3 f

/-- A state with registers x4 and x5 of the current thread set. -/
def regs (s : State) (a b : Nat) : State := modCur s fun th => (th.setReg 4#5 (BitVec.ofNat 64 a)).setReg 5#5 (BitVec.ofNat 64 b)

/-- The group, the block and the region of the small part. -/
def theGroup (s : State) : Group := (ffind s.groups 3).getD (Group.fresh 1 2 0 0 0 0 0#64)
def theBlock (s : State) : Block := (ffind s.blocks 2).getD (Block.fresh s 1 0 0 loadNeed 8#64 none)
def theRegion (s : State) : Region := (ffind s.regions 1).getD (loadRegion 0#64)

/-- A 4 KiB page that its channel group has cached: writable, of ASID 0. -/
def page (va loc : Nat) : TlbEnt := { target := foldVa va 7, asid := 0, base := va, size := 4096, w := true, lbase := loc }

/-- The state with pages of ASID 0. -/
def paged (s : State) (l : List Nat) : State := { s with tlb := l.map fun va => page va (va % 2 ^ 31) }

/-- The state with a line of ASID 0 at its home in column 0. -/
def lined (s : State) (va d : Nat) : State :=
  let h : HomeLine :=
    { data := BitVec.ofNat 1024 d, col := 0, cxl := false, dirty := 0#128, w := true, poison := none, src := 0#8, coarse := false
      cols := 0#32, ents := [], excl := none }
  { s with home := fset s.home (lineKey 0 va) h }

/-- Whether a computation succeeds, and whether it ends with a given error. -/
def succeeds {ε α : Type} (r : Except ε α) : Bool :=
  match r with
  | .ok _ => true
  | .error _ => false

/-- A thread runs scalar words when its agent is a group or a host thread that exists. -/
theorem runs_of {s : State} (h : (threadOf s s.cur).isSome && (match s.cur with | .gang _ _ => false | _ => true)) :
    Runs s (curThread s) := by
  simp only [Bool.and_eq_true] at h
  refine ⟨?_, ?_⟩
  · cases e : threadOf s s.cur with
    | none => simp [e] at h
    | some th => simp [curThread, e]
  · intro g k e; simp [e] at h

/-- Ports that are not enabled hold nothing up. -/
theorem portsOk_of {s : State} (l m : List Reg) (h : portsOn s = false) : PortsOk s l m := by
  simp [PortsOk, portCheck, portCheckOr, h]

/-- An address of the local window of the small block. -/
def atLocal (s : State) (va : Word) (o : Nat) : Bool :=
  decide ((envOf s s.cur).block = some 2) && (ffind s.blocks 2).isSome && decide (addrKind va.toNat = .loc o)

theorem local_of {s : State} {va : Word} {o : Nat} (h : atLocal s va o = true) : Local s va 2 (theBlock s) o := by
  simp only [atLocal, Bool.and_eq_true, decide_eq_true_eq, Option.isSome_iff_exists] at h
  obtain ⟨⟨he, x, hx⟩, ha⟩ := h
  exact ⟨he, by simp [theBlock, hx], ha⟩

/-- Scalar words that compute: any registers. -/
theorem test_hyps_scalar_words :
    Runs base (curThread base) ∧ PortsOk base [4#5, 5#5] [6#5] ∧ PortsOk base [4#5, 5#5, 6#5] [0#5] :=
  ⟨runs_of (by decide), portsOk_of _ _ (by decide), portsOk_of _ _ (by decide)⟩

/-- The small part's traveller in a March region of two segments of code; the second is entered at its entry alone. -/
def marched : State :=
  let g (lo n : Nat) (only : Bool) : Segment :=
    { scalarLo := lo, scalarHi := lo + n, matrixLo := 64, matrixHi := 128, laneLo := 0, laneHi := 8, holders := [0], entryOnly := only
      chunks := 0, spmBytes := 1024, barCount := 2, tidCount := 2, accCount := 0, entry := lo, matrixEntry := 64, tidTable := 0 }
  let m : March :=
    { map := 0x10000, parkBase := 0x20000, parkCount := 1, segs := [g 0x100 0x40 false, g 0x200 0x40 true], held := [], born := 0, pinned := []
      known := [] }
  { base with
    regions := fmod base.regions 1 fun r => { r with march := some m }
    groups := fmod base.groups 3 fun g => { g with seg := some 0, th := { g.th with pc := 0x100#64 } } }

theorem test_hyps_transfers_reach :
    Runs marched (curThread marched) ∧ PortsOk marched [4#5, 5#5] [1#5] ∧
    inScalarSeg marched (0x100#64 + BitVec.ofInt 64 (4 * (0#12 : BitVec 12).toInt)).toNat = true ∧
    inScalarSeg marched (0x100#64 + BitVec.ofInt 64 (4 * (15#12 : BitVec 12).toInt)).toNat = true ∧
    (let v := rd (regs marched 0x13C 0) 4#5 + (0#16).signExtend 64
     v.toNat % 4 = 0 ∧ inScalarSeg (regs marched 0x13C 0) v.toNat = true) :=
  ⟨runs_of (by decide), portsOk_of _ _ (by decide), by decide, by decide, by decide⟩

theorem test_hyps_transfers_leave :
    Runs (regs marched 1 2) (curThread (regs marched 1 2)) ∧ PortsOk (regs marched 1 2) [4#5, 5#5] [1#5] ∧
    inScalarSeg marched (0x100#64 + BitVec.ofInt 64 (4 * (16#12 : BitVec 12).toInt)).toNat = false ∧
    inScalarSeg marched (0x100#64 + BitVec.ofInt 64 (4 * (0xFFF#12 : BitVec 12).toInt)).toNat = false ∧
    rd (regs marched 1 2) 4#5 = rd (regs marched 1 2) 4#5 ∧ rd (regs marched 1 2) 4#5 ≠ rd (regs marched 1 2) 5#5 ∧
    (rd (regs marched 1 2) 4#5).toInt < (rd (regs marched 1 2) 5#5).toInt ∧ 1 < (rd (regs marched 1 2) 5#5).toNat ∧
    (let v := rd (regs marched 0x142 0) 4#5 + (0#16).signExtend 64
     v.toNat % 4 ≠ 0) ∧
    (let v := rd (regs marched 0x140 0) 4#5 + (0#16).signExtend 64
     v.toNat % 4 = 0 ∧ inScalarSeg (regs marched 0x140 0) v.toNat = false) :=
  ⟨runs_of (by decide), portsOk_of _ _ (by decide), by decide, by decide, rfl, by decide, by decide, by decide, by decide, by decide⟩

/-- Loads at the last bytes of the local window, whose last eight are a barrier word. -/
theorem test_hyps_local_loads :
    let at_ (n : Nat) : State := regs base (localBase + 66048 - n) 0
    (∀ n ∈ [1, 2, 4, 8], Runs (at_ n) (curThread (at_ n)) ∧ NoHeldFault (at_ n) ∧
      Local (at_ n) (rd (at_ n) 4#5 + (0#16).signExtend 64) 2 (theBlock (at_ n)) (66048 - n) ∧
      Local (at_ n) (rd (at_ n) 4#5) 2 (theBlock (at_ n)) (66048 - n)) ∧
    (theBlock base).spmBytes + 8 * (theBlock base).barCount = 66048 ∧ (rd (at_ 8) 4#5).toNat % memBytes .i64 = 0 := by
  refine ⟨?_, by decide, by decide⟩
  simp only [List.forall_mem_cons, List.not_mem_nil, false_implies, implies_true, and_true]
  refine ⟨?_, ?_, ?_, ?_⟩ <;>
    exact ⟨runs_of (by decide), by unfold NoHeldFault; decide, local_of (by decide +kernel), local_of (by decide +kernel)⟩

theorem test_hyps_local_stores :
    let at_ (n : Nat) : State := regs base (localBase + 65536 - n) 0
    (∀ n ∈ [1, 2, 4, 8], Runs (at_ n) (curThread (at_ n)) ∧
      Local (at_ n) (rd (at_ n) 4#5 + (0#16).signExtend 64) 2 (theBlock (at_ n)) (65536 - n) ∧ 65536 - n + n ≤ (theBlock (at_ n)).spmBytes) ∧
    releaseSteps (at_ 8) (at_ 8).cur .col = .ok (at_ 8) ∧ releaseSteps (at_ 8) (at_ 8).cur .grp = .ok (at_ 8) := by
  refine ⟨?_, rfl, rfl⟩
  simp only [List.forall_mem_cons, List.not_mem_nil, false_implies, implies_true, and_true]
  refine ⟨?_, ?_, ?_, ?_⟩ <;> exact ⟨runs_of (by decide), local_of (by decide +kernel), by decide⟩

theorem test_hyps_scratch_atomics :
    let s := regs base (localBase + 65528) 7
    Runs s (curThread s) ∧ NoHeldFault s ∧ Local s (rd s 4#5) 2 (theBlock s) 65528 ∧ 65528 % 8 = 0 ∧ 65528 + 8 ≤ (theBlock s).spmBytes ∧
    releaseSteps s s.cur .blk = .ok s :=
  ⟨runs_of (by decide), by unfold NoHeldFault; decide, local_of (by decide +kernel), by decide, by decide, rfl⟩

theorem test_hyps_access_traps :
    (let s := regs base (2 ^ 57) 0
     Runs s (curThread s) ∧ NoHeldFault s ∧ 2 ^ 57 ≤ (rd s 4#5 + (0#16).signExtend 64).toNat) ∧
    (let s := regs base (localBase + 66041) 0
     Local s (rd s 4#5 + (0#16).signExtend 64) 2 (theBlock s) 66041 ∧ (theBlock s).spmBytes + 8 * (theBlock s).barCount < 66041 + 8) ∧
    (let s := regs base (localBase + 65529) 0
     Local s (rd s 4#5 + (0#16).signExtend 64) 2 (theBlock s) 65529 ∧ (theBlock s).spmBytes < 65529 + 8 ∧
      65529 + 8 ≤ (theBlock s).spmBytes + 8 * (theBlock s).barCount) ∧
    (let s := regs base (2 ^ 57 - 4) 0
     (rd s 4#5).toNat < 2 ^ 57 ∧ (rd s 4#5).toNat % 8 ≠ 0) :=
  ⟨⟨runs_of (by decide), by unfold NoHeldFault; decide, by decide⟩, ⟨local_of (by decide +kernel), by decide⟩,
    ⟨local_of (by decide +kernel), by decide, by decide⟩, by decide, by decide⟩

/-- A store buffer that holds eight bytes of a line that is writable at its home. -/
def stored : State :=
  modCur (lined (regs base 0x1000 0x1122334455667788) 0x1000 0) fun th => { th with sb := storePieces 0 0x1000 8 0x1122334455667788 none }

theorem test_hyps_buffered_stores :
    let e := envOf stored stored.cur
    let va := rd stored 4#5 + (0#16).signExtend 64
    Runs stored (curThread stored) ∧ NoHeldFault stored ∧ addrKind va.toNat = .plain ∧
    (∀ n ∈ [1, 2, 4, 8], accessAt va.toNat (checkLines stored e e.sp ((List.range (lineCount va.toNat n)).map fun k => e.sp.key (va.toNat + 128 * k))) =
        .ok stored ∧
      (sbOf stored stored.cur).length + (storePieces e.sp.tag va.toNat n (rd stored 5#5).toNat none).length ≤ Config.storeBufferMax ∧
      ∀ k : Nat, k < n → buffered (sbOf stored stored.cur) e.sp.tag (va.toNat + k) = true) := by
  refine ⟨runs_of (by decide), by unfold NoHeldFault; decide, by decide, ?_⟩
  simp only [List.forall_mem_cons, List.not_mem_nil, false_implies, implies_true, and_true]
  refine ⟨⟨rfl, by decide, by decide⟩, ⟨rfl, by decide, by decide⟩, ⟨rfl, by decide, by decide⟩, rfl, by decide, by decide⟩

/-- Fences, a prefetch, cleans and a commit whose list names one line without a watch (status 2). -/
def listed : State :=
  let s := lined (lined (regs base 0x1000 0) 0x1000 0) 0x2000 0
  -- The list at 0x2000: COUNT 1; LINE[0] = 0x1000, DATA[0] = 0x2080, MASK[0] = 1.
  lined (lined s 0x2000 (1 + 2 ^ 256 * (0x1000 + 2 ^ 64 * 0x2080 + 2 ^ 128))) 0x2080 5

theorem test_hyps_fences_and_commits :
    Runs listed (curThread listed) ∧ (∀ sc ∈ [Scope.grp, .blk, .col, .die, .pkg, .dom, .sys], succeeds (releaseSteps listed listed.cur sc) = true) ∧
    (rd listed 4#5).toNat < 2 ^ 57 ∧ succeeds (cleanAt listed listed.cur 0x1000 false) = true ∧
    succeeds (cleanAt listed listed.cur 0x1000 true) = true ∧
    (match commitList listed listed.cur 0x2000 with
      | .ok (u, l) => (match commit u u.cur l none with | .ok (_, n) => n | .error _ => 0) == 2 && succeeds (commit u u.cur l (some .pkg))
      | .error _ => false) = true :=
  ⟨runs_of (by decide), by decide +kernel, by decide, by decide +kernel, by decide +kernel, by decide +kernel⟩

/-- A commit list of one line in the scratchpad, its line at its home, its data at offset 256; the group watches some lines. -/
def listLocal (w : List Watch) : State :=
  let s := regs (lined base 0x1000 0) (localBase + 64) 0
  let v := 1 + 2 ^ 256 * (0x1000 + 2 ^ 64 * (localBase + 256) + 2 ^ 128)
  modCur { s with blocks := fmod s.blocks 2 fun b => { b with spm := (List.range 192).map fun k => (64 + k, BitVec.ofNat 8 (v / 256 ^ k)) } } fun th =>
    { th with watches := w }

/-- The line of 0x1000, as the group names it. -/
def itsLine (s : State) : Nat := (envOf s s.cur).sp.key 0x1000

/-- Whether the current thread has nothing left to release. -/
def isReleased (s : State) : Bool :=
  let th := curThread s
  s.net == [] && th.sb == [] && th.replays == none && th.unack == 0 && th.atomics == 0 && !th.marker && s.pushes == [] && s.remote == [] &&
    fifoOf s (envOf s s.cur).col == []

theorem released_of {s : State} (h : isReleased s = true) : Released s (curThread s) := by
  simpa [isReleased, Released, Still, and_assoc] using h

/-- Whether a line is at its home alone. -/
def isAtHome (s : State) (va : Nat) : Bool :=
  let key := (envOf s s.cur).sp.key va
  decide (addrKind va = .plain) && (ffind s.home key).any (fun h => !h.away && h.excl == none) && s.ranges == [] &&
    s.cores.all (fun c => c.2.maps == []) && privAt s key (envOf s s.cur).col == none

theorem atHome_of {s : State} {va : Nat} (h : isAtHome s va = true) : ∃ x : HomeLine, AtHome s va x := by
  simp only [isAtHome, Bool.and_eq_true, Option.any_eq_true, decide_eq_true_eq, beq_iff_eq, List.all_eq_true, Bool.not_eq_true'] at h
  obtain ⟨⟨⟨⟨hk, x, hx, ha, he⟩, hr⟩, hm⟩, hp⟩ := h
  exact ⟨x, hk, hx, ha, he, hr, hm, hp⟩

theorem test_hyps_completions :
    (let s := lined (regs base 0x1000 0) 0x1000 0
     Runs s (curThread s) ∧ Released s (curThread s) ∧ PortsOk s [4#5] [] ∧ (∃ h : HomeLine, AtHome s (rd s 4#5).toNat h) ∧
      (curThread s).unack < 1023) ∧
    (let s := regs base (localBase + 66047) 0
     Local s (rd s 4#5) 2 (theBlock s) 66047 ∧ 66047 < (theBlock s).spmBytes + 8 * (theBlock s).barCount) ∧
    (let s := listLocal []
     Runs s (curThread s) ∧ Released s (curThread s) ∧ PortsOk s [4#5] [6#5] ∧ Local s (rd s 4#5) 2 (theBlock s) 64 ∧ (rd s 4#5).toNat % 32 = 0 ∧
      localValue (theBlock s) 64 32 = 1 ∧ localValue (theBlock s) 96 8 = 0x1000 ∧ (∃ h : HomeLine, AtHome s 0x1000 h) ∧
      addrKind (localValue (theBlock s) 104 8) = .loc 256 ∧ BitVec.ofNat 128 (localValue (theBlock s) 112 16) = 1#128 ∧
      knownWritable s (envOf s s.cur) (envOf s s.cur).sp (itsLine s) = true ∧ (curThread s).atomics < 16) ∧
    (∀ b ∈ [true, false], let s := listLocal [{ line := itsLine base, broken := b }]
      Runs s (curThread s) ∧ (curThread s).watches = [{ line := itsLine s, broken := b }]) := by
  refine ⟨⟨runs_of (by decide), released_of (by decide +kernel), portsOk_of _ _ (by decide), atHome_of (by decide +kernel), by decide⟩,
    ⟨local_of (by decide +kernel), by decide⟩,
    ⟨runs_of (by decide), released_of (by decide +kernel), portsOk_of _ _ (by decide), local_of (by decide +kernel), by decide +kernel, by decide +kernel,
      by decide +kernel, atHome_of (by decide +kernel), by decide +kernel, by decide +kernel, by decide +kernel, by decide⟩, ?_⟩
  simp only [List.forall_mem_cons, List.not_mem_nil, false_implies, implies_true, and_true]
  exact ⟨⟨runs_of (by decide), by decide⟩, runs_of (by decide), by decide⟩

/-- Operands of every clause about special values, in binary32: NaNs, infinities, zeros, and a finite value and its negative. -/
theorem test_hyps_special_operands :
    (fvOf descF32 0x7FC00000).isNan = true ∧ (fvOf descF32 0x7F800001).isSignalling = true ∧ fvOf descF32 0x7F800000 = .inf false ∧
    fvOf descF32 0xFF800000 = .inf true ∧ (fvOf descF32 0).isZero = true ∧ (fvOf descF32 0x80000000).isZero = true ∧
    (fvOf descF32 0x80000000).neg = true ∧ (fvOf descF32 0).neg = false ∧ (fvOf descF32 0x3F800000).isNan = false ∧
    (match fvOf descF32 0x3F800000, fvOf descF32 0xBF800000 with
      | .fin false m e, .fin true n f => m != 0 && m == n && e == f
      | _, _ => false) = true := by decide

theorem test_hyps_lane_tasks :
    let s (n : Nat) : State := regs base 0 n
    (∀ n ∈ [1, 32], RunsGroup (s n) 3 (theGroup (s n)) ∧ (theGroup (s n)).task = none ∧ inLaneSeg (s n) (rd (s n) 4#5).toNat = true ∧
      laneTargetOk (s n) (rd (s n) 4#5).toNat = true ∧ 1 ≤ (rd (s n) 5#5).toNat ∧ (rd (s n) 5#5).toNat ≤ 32 ∧ NoHeldFault (s n) ∧
      PortsOk (s n) [4#5, 5#5] [6#5, 7#5]) := by
  simp only [List.forall_mem_cons, List.not_mem_nil, false_implies, implies_true, and_true]
  refine ⟨?_, ?_⟩ <;>
    exact ⟨⟨rfl, by decide⟩, by decide, by decide, by decide, by decide, by decide, by unfold NoHeldFault; decide, portsOk_of _ _ (by decide)⟩

/-- The region's record with two blocks, three units of four iterations (R25, R41). -/
def unitsRegion (n : Nat) : State :=
  let r : BitVec 2048 := BitVec.ofNat 2048 (2 * 2 ^ 320 + 2 ^ 352 + 3 * 2 ^ 704 + 4 * 2 ^ 736)
  { base with regions := fmod base.regions 1 fun x => { x with record := r }, blocks := fmod base.blocks 2 fun b => { b with cursor := n } }

/-- The first unit of the block, its last, which is cut, and the end. -/
theorem test_hyps_work_units :
    (∀ n ∈ [0, 5, 6], ffind (unitsRegion n).regions (theGroup (unitsRegion n)).region = some (theRegion (unitsRegion n)) ∧
      (theRegion (unitsRegion n)).march = none ∧ ffind (unitsRegion n).blocks (theGroup (unitsRegion n)).block = some (theBlock (unitsRegion n)) ∧
      ((theBlock (unitsRegion n)).cursor < 6 ∨ 6 ≤ (theBlock (unitsRegion n)).cursor) ∧ (theGroup (unitsRegion n)).blockId = 0) ∧
    ((theRegion (unitsRegion 0)).record.extractLsb' 736 32).toNat = 4 ∧ 1 * (3 * 4) / 2 = 6 := by decide +kernel

/-- The host thread after reset, at monitor level. -/
def hosted : State := { part with cur := .host 0 false }

/-- The small part's group in a monitor handler and in a kernel handler, under a trap record. -/
def inHandler (monitor : Bool) (s : State) : State :=
  grpd s fun g => { g with th := { g.th with frames :=
    [Frame.mk monitor (some { cause := cSvc, lanes := 0#32, spc := 0x40#64, irec := 0xFFFF#16, elem := 0#64 }) none []] } }

theorem test_hyps_status_registers :
    Runs base (curThread base) ∧ csrCheck base base.cur 0x80 = .ok true ∧ csrCheck base base.cur 0x800 = .error cPrivCsr ∧
    csrCheck base base.cur 0x3F = .error cIllegalCsr ∧
    (let s := inHandler true base
     Runs s (curThread s) ∧ csrCheck s s.cur 0x400 = .ok false ∧ (curThread s).atMonitor = true ∧ RunsGroup s 3 (theGroup s)) ∧
    Runs hosted (curThread hosted) ∧ (curThread hosted).atMonitor = true ∧ hosted.cur = .host 0 false ∧ (ffind hosted.cols 0).isSome = true :=
  ⟨runs_of (by decide), rfl, rfl, rfl, ⟨runs_of (by decide), rfl, by decide, rfl, by decide⟩, runs_of (by decide), by decide, rfl, by decide⟩

theorem test_hyps_register_access :
    RunsGroup base 3 (theGroup base) ∧ (theGroup base).th.atMonitor = false ∧
    (∀ n ∈ [0, 0x1D, 0x40, 0x46, 0x60, 0x62, 0x80, 0x84, 0xA0, 0xA4], csrListed n = true ∧ n < 0x400) ∧
    (∀ n ∈ [0x1E, 0x3F, 0x47, 0x5F, 0x63, 0x7F, 0x85, 0x9F, 0xA5, 0x7FF], csrListed n = false ∧ n < 0x800) ∧
    (0x800 ≤ 0x800 ∧ 0xFFF < 0x1000) :=
  ⟨⟨rfl, by decide⟩, by decide, by decide, by decide, by decide⟩

/-- The small part with a monitor entry on its core; and its region with a vector table at 0x3000 whose entries all name 0x500. -/
def monitored (s : State) : State := modCore s 0 fun c => { c with monVec := 0x8000#64 }
def vectored (s : State) : State :=
  let d := (List.range 16).foldl (fun n i => n + 0x500 * 2 ^ (64 * i)) 0
  let s := (List.range 16).foldl (fun s i => lined s (0x3000 + 128 * i) d) s
  { s with regions := fmod s.regions 1 fun r => { r with vecTable := 0x3000 } }

/-- The region with a control block at 0x4000 whose fault area at 0x4800 is a queue of 16 records at 0x5000. -/
def faultArea (s : State) : State :=
  let s := lined (lined s 0x4000 (0x4800 * 2 ^ (8 * 0x38))) 0x4800 (0x5000 * 2 ^ 128 + 4 * 2 ^ 192)
  { lined s 0x5000 0 with regions := fmod s.regions 1 fun r => { r with rcb := 0x4000#64 } }

/-- Whether a vector is read, and is this one. -/
def vectorIs (s : State) (c : BitVec 8) (v : Word) : Bool :=
  match kernelVector s (.group 3) c with
  | .ok (u, w) => w == v && (ffind u.groups 3).isSome
  | .error _ => false

theorem test_hyps_traps :
    (∀ c ∈ [cSvc, cPageFault, cIllegalInstr, cPrivInstr],
      (theGroup (inHandler true base)).th.atMonitor = true ∧
      (let s := monitored (inHandler false base)
       (theGroup s).th.atMonitor = false ∧ (theGroup s).th.frames ≠ [] ∧ monVecOf s (.group 3) ≠ 0#64) ∧
      (theGroup base).th.frames = [] ∧ vectorIs base c 0#64 = true ∧ monVecOf base (.group 3) = 0#64 ∧
      vectorIs (vectored base) c 0x500#64 = true ∧ monVecOf (monitored base) (.group 3) = 0x8000#64) ∧
    -- A vector that cannot be read yet.
    (match kernelVector { base with regions := fmod base.regions 1 fun r => { r with vecTable := 0x3000 } } (.group 3) cSvc with
      | .error m => (match m.exit 0 0#32 with | .park _ _ => true | _ => false)
      | .ok _ => false) = true ∧
    routeOf cSvc = .kernel ∧ routeOf cBrk = .monitor ∧ routeOf cPageFault = .domain ∧
    (let s := faultArea base
     (recordFault s (envOf s (.group 3)).sp.part (threadFault s (.group 3) (.of cPageFault 0#32))).isSome = true) := by decide +kernel

theorem test_hyps_calls : Runs base (curThread base) ∧ Runs hosted (curThread hosted) ∧ hosted.cur = .host 0 false :=
  ⟨runs_of (by decide), runs_of (by decide), rfl⟩

theorem test_hyps_handler_return :
    (RunsGroup base 3 (theGroup base) ∧ (theGroup base).th.frames = [] ∧ PortsOk base [4#5] []) ∧
    (let s := inHandler false base
     RunsGroup s 3 (theGroup s) ∧ (theGroup s).th.frames.length = 1 ∧
      ((theGroup s).th.frames.head?.bind (·.trap)).map (·.irec) = some 0xFFFF#16 ∧ PortsOk s [0#5] [] ∧ PortsOk s [4#5] []) :=
  ⟨⟨⟨rfl, by decide⟩, by decide, portsOk_of _ _ (by decide)⟩, ⟨rfl, by decide⟩, by decide, by decide, portsOk_of _ _ (by decide),
    portsOk_of _ _ (by decide)⟩

theorem test_hyps_host_threads :
    hosted.cur = .host 0 false ∧ ffind hosted.hosts (hostKey 0 false) = some .reset ∧
    HostThread.reset.th.frames = [{ monitor := true, trap := none, task := none, lr := [] }] ∧ HostThread.reset.th.atMonitor = true := by
  decide

theorem test_hyps_privileged_trap : Runs base (curThread base) ∧ (curThread base).atMonitor = false := ⟨runs_of (by decide), by decide⟩

/-- The group in a monitor handler with request words of zeros at 0x1000; x4 names it. -/
def asked (va : Nat) : State := lined (regs (inHandler true base) va 0) 0x1000 0

/-- Whether an act on the request at x4 goes on. -/
def actsOk (s : State) (n : Nat) (act : State → Nat → Except Miss (State × Word)) : Bool :=
  match loadBytes s s.cur (rd s 4#5).toNat n with
  | .ok (u, x) => succeeds (act u x)
  | .error _ => false

theorem test_hyps_privileged_acts :
    let s := asked 0x1000
    Runs s (curThread s) ∧ (curThread s).atMonitor = true ∧ succeeds (fullFence s .pkg) = true ∧
    (match fullFence s .pkg with
      | .ok t => (rd t 4#5).toNat == 0x1000 && actsOk t 64 (fun u x => (ctxSave u x).map (noteCommand x)) &&
          actsOk t 64 (fun u x => (ctxLoad u x).map (noteCommand x)) && actsOk t 32 (fun u x => .ok (mintCap u x)) &&
          actsOk t 64 tlbInv && actsOk t 64 hmtSet && actsOk t 64 segMap && actsOk t 64 (fun u x => .ok (actSet u x)) &&
          actsOk t 64 (fun u x => .ok (evqSet u x))
      | .error _ => false) = true :=
  ⟨runs_of (by decide), by decide, by decide +kernel, by decide +kernel⟩

theorem test_hyps_privileged_others :
    (let s := asked 0x1020
     Runs s (curThread s) ∧ (match fullFence s .pkg with
       | .ok t => (rd t 4#5).toNat % 64 != 0
       | .error _ => false) = true) ∧
    (curThread (asked 0)).monitor = none ∧
    (let s := modCur (asked 0) fun th => { th with monitor := some { line := 0x1000, fired := true } }
     Runs s (curThread s) ∧ (curThread s).atMonitor = true ∧ faultPending s = false ∧
       (curThread s).monitor.map (·.fired) = some true) :=
  ⟨⟨runs_of (by decide), by decide +kernel⟩, by decide, runs_of (by decide), by decide, by decide +kernel, by decide⟩


/-- A capability of the whole part, held by the region, entry 1 of the store: handle 0x1001. -/
def capped (s : State) : State :=
  let c : Cap := { valid := true, gen := 1#20, type := 3, rights := 0x11#16, object := 0#64, limit := 8#64, holder := 0#64, origin := 0 }
  { s with parts := fmod s.parts 0 fun p => { p with caps := fset p.caps 1 c } }

theorem test_hyps_capabilities :
    let s := capped base
    -- A mint of the rights and the object that the parent has, and one more of either.
    let x (rights limit : Nat) : Nat := 0x1001 + 3 * 2 ^ 32 + rights * 2 ^ 48 + limit * 2 ^ 128
    (ffind (partOf (mintCap s (x 0x10 8)).1 (envOf s s.cur).sp.part).caps 2).isSome = true ∧
    (ffind (partOf (mintCap s (x 0x12 8)).1 (envOf s s.cur).sp.part).caps 2).isSome = false ∧
    (ffind (partOf (mintCap s (x 0x10 9)).1 (envOf s s.cur).sp.part).caps 2).isSome = false ∧
    (capOf s 0 (rcbOf s s.cur) 0x1001).isSome = true ∧
    (match dropCap s 0x1001 with
      | .ok (t, _) => (capOf t 0 (rcbOf s s.cur) 0x1001).isSome
      | .error _ => true) = false := by decide +kernel

/-- The block's barrier 63, its last, as a word; x4 holds a count. -/
def barred (w : Word) (n : Nat) : State :=
  let s := regs base n 0
  { s with blocks := fmod s.blocks 2 fun b => { b with bars := sset b.bars 63 w } }

theorem test_hyps_barriers :
    let w := barMake 0#32 true 1024 1
    (∀ n ∈ [0, 1, 1024, 1025, 2 ^ 31 - 1, 2 ^ 31], RunsGroup (barred w n) 3 (theGroup (barred w n)) ∧ NoHeldFault (barred w n) ∧
      ffind (barred w n).blocks (theGroup (barred w n)).block = some (theBlock (barred w n)) ∧ (rd (barred w n) 4#5).toNat = n) ∧
    (63 < (theBlock (barred w 0)).barCount ∧ sget (theBlock (barred w 0)).bars 63 = w ∧ barExpect w = 1024 ∧ barPending w = 1 ∧ barTx w = 0#32 ∧
      barPhase w = true ∧ releaseSteps (barred w 0) (barred w 0).cur .blk = .ok (barred w 0)) ∧
    (barExpect (barMake 0#32 false 3 2) = 3 ∧ barPending (barMake 0#32 false 3 2) = 2) ∧
    (barExpect (barMake 5#32 false 3 0) = 3 ∧ barPending (barMake 5#32 false 3 0) = 0 ∧
      (5#32 : BitVec 32).toInt + ((2 ^ 31 - 6 : Nat) : Int) < 2 ^ 31) ∧
    (let t : State := { barred w 0 with blocks := fmod (barred w 0).blocks 2 fun b => { b with barCount := 63 } }
     RunsGroup t 3 (theGroup t) ∧ ffind t.blocks (theGroup t).block = some (theBlock t) ∧ (theBlock t).barCount ≤ 63) := by
  refine ⟨?_, by refine ⟨by decide +kernel, by decide +kernel, by decide +kernel, by decide +kernel, by decide +kernel, by decide +kernel, rfl⟩, by decide +kernel, by decide +kernel, ⟨rfl, by decide +kernel⟩, by decide +kernel,
    by decide +kernel⟩
  simp only [List.forall_mem_cons, List.not_mem_nil, false_implies, implies_true, and_true]
  refine ⟨?_, ?_, ?_, ?_, ?_, ?_⟩ <;> exact ⟨⟨rfl, by decide +kernel⟩, by unfold NoHeldFault; decide +kernel, by decide +kernel, by decide +kernel⟩

theorem test_hyps_monitors :
    (let s := regs base (localBase + 66040) 0
     Runs s (curThread s) ∧ NoHeldFault s ∧ Local s (rd s 4#5) 2 (theBlock s) 66040 ∧ 66040 % 8 = 0 ∧
      66040 + 8 ≤ (theBlock s).spmBytes + 8 * (theBlock s).barCount ∧ (curThread s).monitor = none) ∧
    (∀ b ∈ [true, false], let s := modCur base fun th => { th with monitor := some { line := 0x1000, fired := b } }
      Runs s (curThread s) ∧ (curThread s).monitor.map (·.fired) = some b) := by
  refine ⟨⟨runs_of (by decide), by unfold NoHeldFault; decide, local_of (by decide +kernel), by decide, by decide, by decide⟩, ?_⟩
  simp only [List.forall_mem_cons, List.not_mem_nil, false_implies, implies_true, and_true]
  exact ⟨⟨runs_of (by decide), by decide⟩, runs_of (by decide), by decide⟩

/-- The group with its ports enabled, one credit, a flit received, and itself as the target of its sends. -/
def ported : State :=
  let s := grpd base fun g => { g with portEn := true, credits := 1, rx := [{ payload := 7#64, header := 9#64 }] }
  { s with regions := fmod s.regions 1 fun r => { r with record := BitVec.ofNat 2048 (2 ^ 320 + 2 ^ 352) } }

theorem test_hyps_ports :
    (RunsGroup base 3 (theGroup base) ∧ ffind base.blocks (theGroup base).block = some (theBlock base) ∧ (theGroup base).credits = 8) ∧
    (RunsGroup ported 3 (theGroup ported) ∧ ffind ported.blocks (theGroup ported).block = some (theBlock ported) ∧
      (theGroup ported).credits ≠ 8 ∧ (theGroup ported).portEn = true ∧ portTarget ported (theGroup ported) = true ∧
      (theGroup ported).credits ≠ 0 ∧ (theGroup ported).rx = [{ payload := 7#64, header := 9#64 }]) :=
  ⟨⟨⟨rfl, by decide +kernel⟩, by decide +kernel, by decide +kernel⟩, ⟨rfl, by decide +kernel⟩, by decide +kernel, by decide +kernel, by decide +kernel, by decide +kernel, by decide +kernel, by decide +kernel⟩

/-- Taking all fourteen chunks of the pool, and giving them back. -/
theorem test_hyps_extended_registers :
    ((theGroup base).task = none ∧ (theBlock base).xq = [] ∧ 14 ≤ freeChunks base (theGroup base).block ∧ 14 ≤ (theBlock base).chunks ∧
      (theGroup base).ext + 14 ≤ 14) ∧
    (let s := grpd base fun g => { g with ext := 14 }
     RunsGroup s 3 (theGroup s) ∧ ffind s.blocks (theGroup s).block = some (theBlock s) ∧ (theGroup s).task = none ∧ 14 ≤ (theGroup s).ext) :=
  ⟨by decide +kernel, ⟨rfl, by decide +kernel⟩, by decide +kernel, by decide +kernel, by decide +kernel⟩

/-- A range of one line and one of 2^20 bytes, in each format; the second declared, with a line at its home. -/
def ranged (n code : Nat) : State := regs base 0x100000 (n + code * 2 ^ 32)
def inRange : State :=
  match declareRange (lined base 0x100000 0) base.cur 0x100000 (128 + 2 ^ 32) with
  | .ok s => regs s 0x100000 0x3F800000
  | .error _ => base

theorem test_hyps_subscriptions_and_ranges :
    (let s := lined (regs base 0x1000 0x103) 0x1000 0
     Runs s (curThread s) ∧ succeeds (subscribe s s.cur 0x1000 (.of (rd s 5#5)) false) = true ∧
      succeeds (subscribe s s.cur 0x1000 (.of (rd s 5#5)) true) = true ∧ succeeds (unsubscribe s s.cur 0x1000 (.of (rd s 5#5))) = true) ∧
    (∀ n ∈ [128, 2 ^ 20], ∀ c ∈ [(1, CrTy.f32), (3, .bf16), (0x22, .i32)],
      let s := ranged n c.1
      let va := (rd s 4#5).toNat
      let x := (rd s 5#5).toNat
      crOf (x / 2 ^ 32 % 256) = some c.2 ∧ x / 2 ^ 42 = 0 ∧ x / 2 ^ 40 % 4 ≠ 3 ∧ va % 128 = 0 ∧ x % 2 ^ 32 % 128 = 0 ∧ 0 < x % 2 ^ 32 ∧
      x % 2 ^ 32 ≤ 2 ^ 20 ∧ addrKind va = .plain ∧ addrKind (va + x % 2 ^ 32 - 1) = .plain ∧
      (s.ranges.filter fun c => c.rcb == rcbOf s s.cur).length < 16 ∧ meetsRange s (envOf s s.cur).sp.tag va (x % 2 ^ 32) = false ∧
      meetsMap s (envOf s s.cur).sp.tag va (x % 2 ^ 32) = false) ∧
    (let s := inRange
     Runs s (curThread s) ∧ addrKind (rd s 4#5).toNat = .plain ∧ (rd s 4#5).toNat % (CrTy.f32.width / 8) = 0 ∧
      (ownRange s s.cur (rd s 4#5).toNat .f32).isSome = true ∧ (envOf s s.cur).core = some 0 ∧
      succeeds (endRange s s.cur (rd s 4#5).toNat) = true) :=
  ⟨⟨runs_of (by decide), by decide +kernel, by decide +kernel, by decide +kernel⟩, by decide +kernel, runs_of (by decide), by decide +kernel,
    by decide +kernel, by decide +kernel, by decide +kernel, by decide +kernel⟩

/-- The whole scratchpad, less its last line, is mapped at 0x100000; the mapping of one line is undone. -/
theorem test_hyps_mappings :
    (let s := lined (regs base 0x100000 (128 * 2 ^ 32 + 65408)) 0x100000 5
     Runs s (curThread s) ∧ isHost s.cur = false ∧ succeeds (mapScratch s s.cur 0x100000 (rd s 5#5).toNat false) = true ∧
      succeeds (mapScratch s s.cur 0x100000 (rd s 5#5).toNat true) = true ∧
      (match mapScratch s s.cur 0x100000 (rd s 5#5).toNat false with
        | .ok (t, _) => succeeds (unmapScratch t t.cur 0x100000)
        | .error _ => false) = true) :=
  ⟨runs_of (by decide), by decide, by decide +kernel, by decide +kernel, by decide +kernel⟩

theorem test_hyps_tensor_identifiers :
    (let s := regs base (localBase + 66048 - 128) 0
     RunsGroup s 3 (theGroup s) ∧ NoHeldFault s ∧ ffind s.blocks (theGroup s).block = some (theBlock s) ∧ 63 < (theBlock s).tidCount ∧
      Local s (rd s 4#5) (theGroup s).block (theBlock s) (66048 - 128) ∧
      66048 - 128 + 128 ≤ (theBlock s).spmBytes + 8 * (theBlock s).barCount) ∧
    (let s : State := { base with blocks := fmod base.blocks 2 fun b => { b with tidCount := 63 } }
     RunsGroup s 3 (theGroup s) ∧ NoHeldFault s ∧ ffind s.blocks (theGroup s).block = some (theBlock s) ∧ (theBlock s).tidCount ≤ 63) :=
  ⟨⟨⟨rfl, by decide +kernel⟩, by unfold NoHeldFault; decide +kernel, by decide +kernel, by decide +kernel, local_of (by decide +kernel), by decide +kernel⟩, ⟨rfl, by decide +kernel⟩,
    by unfold NoHeldFault; decide +kernel, by decide +kernel, by decide +kernel⟩

/-- A tensor record of 32-bit integers: space, base, sizes of its dimensions, the first contiguous (R91). -/
def tensorRecord (space at_ : Nat) (exts : List Nat) : Nat :=
  0x22 + exts.length * 2 ^ 8 + space * 2 ^ 24 + at_ * 2 ^ 64 + (exts.zipIdx.map fun e => e.1 * 2 ^ (128 + 32 * e.2)).sum +
    ((List.range (exts.length - 1)).map fun k => 64 * 2 ^ (0x28 * 8 + 64 * k)).sum

/-- The four lines of a descriptor at 0x2000 (R322): STAMP 0x6000, INLINE, a reduction, sizes, columns, a peer and records. -/
def described (red : Nat) (sizes : List Nat) (cols peer : Nat) (recs : List Nat) : State :=
  let d := 0x6000 + 2 ^ 68 + red * 2 ^ 112 + (sizes.zipIdx.map fun e => e.1 * 2 ^ (0x38 * 8 + 32 * e.2)).sum + cols * 2 ^ (0x4C * 8) +
    peer * 2 ^ (0x50 * 8) + (recs.zipIdx.map fun e => e.1 * 2 ^ (0x400 + 0x400 * e.2)).sum
  let s := (List.range 4).foldl (fun s k => lined s (0x2000 + 128 * k) (d / 2 ^ (1024 * k) % 2 ^ 1024)) (regs base 0x2000 77)
  -- A domain group of two members, 0 and 1, rank 0 (R328).
  lined s 0x3000 (2 + 2 ^ 144)

/-- Whether an operation on the descriptor takes a record. -/
def takes (s : State) (op : EngOp) (sc : Scope) (group : Bool) : Bool :=
  match readDesc s s.cur (rd s 4#5).toNat with
  | .error _ => false
  | .ok (u, d) =>
    (issueChecks u u.cur op sc d).toOption.isSome && (freeRecord u u.cur).isSome && succeeds (issueRelease u u.cur sc) &&
    (!group || match readDomainGroup u u.cur (edPeer d) with
      | .ok (w, g) => g.ok && (freeRecord w w.cur).isSome && succeeds (issueRelease w w.cur sc)
      | .error _ => false)

theorem test_hyps_engine_words :
    let one := tensorRecord 0 0x10000 [4]
    let two := tensorRecord 0 0x10000 [4, 2]
    Runs (described 0 [4] 0 0 [one, one]) (curThread (described 0 [4] 0 0 [one, one])) ∧
    takes (described 0 [4] 0 0 [one, tensorRecord 0 0x20000 [4]]) .cp .dom false = true ∧
    takes (described 0 [4, 2] 0 0 [two, tensorRecord 0 0x20000 [4, 2], tensorRecord 0 0x30000 [2]]) .gth .grp false = true ∧
    takes (described 0 [4, 2] 0 0 [two, tensorRecord 0 0x20000 [4, 2], tensorRecord 0 0x30000 [2]]) .scat .sys false = true ∧
    takes (described 2 [4] 0 0 [one, tensorRecord 0 0x20000 [4]]) .redcp .col false = true ∧
    takes (described 0 [4] 1 0 [one, tensorRecord 1 0 [4]]) .mcast .die false = true ∧
    takes (described 2 [4] 0 0x3000 [one, tensorRecord 0 0x20000 [4]]) .dcoll .dom true = true := by
  refine ⟨runs_of (by decide +kernel), ?_, ?_, ?_, ?_, ?_, ?_⟩ <;> decide +kernel

/-- A collective copy opened by another group of the block, which the group may join. -/
theorem test_hyps_collective :
    let s := described 0 [4] 0 0 [tensorRecord 0 0x10000 [4], tensorRecord 0 0x20000 [4]]
    takes s .cpColl .blk false = true ∧ (openCollective s (theGroup s).block 3).isNone = true ∧
    (match readDesc s s.cur (rd s 4#5).toNat with
      | .ok (u, d) =>
        match issueChecks u u.cur .cpColl .blk d with
        | .ok ids =>
          let r := newRecord u (.group 4) .cpColl .blk d 77#64 ids .pair
          let t : State := { u with irecs := fset u.irecs 1 { r with parts := r.parts.map fun p => { p with group := 4 }, block := 2 } }
          (openCollective t (theGroup t).block 3).isSome && (issueChecks t t.cur .cpColl .blk d).toOption.isSome &&
            succeeds (issueRelease t t.cur .blk)
        | .error _ => false
      | .error _ => false) = true := by decide +kernel

/-- The traveller that a `safe` word precedes, with a holder of the second segment on core 1; x4 names the given target. -/
def departing (t : Nat) (f : Group → Group) : State :=
  let s := regs marched t 0
  let hold : Block := { theBlock s with core := 1, seg := some 1, groups := [] }
  let s : State := { s with
    blocks := fset s.blocks 9 hold
    regions := fmod s.regions 1 fun r => { r with march := r.march.map fun m => { m with segs := m.segs.map fun g => { g with holders := [0, 1] } } } }
  grpd s fun g => f { g with th := { g.th with prevSafe := some 0x13#25 } }

/-- The region's March map. -/
def theMarch (s : State) : March :=
  (theRegion s).march.getD { map := 0, parkBase := 0, parkCount := 0, segs := [], held := [], born := 0, pinned := [], known := [] }

/-- Whether the state is one of a traveller whose target lies in a segment of another holder that takes it. -/
def mayDepart (s : State) : Bool :=
  (theGroup s).th.frames.isEmpty && decide ((rd s 4#5).toNat % 4 = 0) && segmentAt (theMarch s) (rd s 4#5).toNat == some 1 &&
  (theGroup s).seg == some 0 && !((theMarch s).segs[1]?).any (fun x => x.entryOnly && x.entry != (rd s 4#5).toNat) &&
  (theGroup s).th.prevSafe.isSome &&
  match chooseHolder s (theGroup s).region 1 (theMarch s) (some (theGroup s).core) with
  | some dest => departReady s 3 (theGroup s) dest
  | none => false

theorem test_hyps_cross_segment_outside :
    (∀ t ∈ [0x40, 0x42], let s := regs base t 0
      RunsGroup s 3 (theGroup s) ∧ ffind s.regions (theGroup s).region = some (theRegion s) ∧ (theRegion s).march = none ∧ (rd s 4#5).toNat = t) := by
  simp only [List.forall_mem_cons, List.not_mem_nil, false_implies, implies_true, and_true]
  exact ⟨⟨⟨by decide +kernel, by decide +kernel⟩, by decide +kernel, by decide +kernel, by decide +kernel⟩, ⟨by decide +kernel, by decide +kernel⟩, by decide +kernel, by decide +kernel, by decide +kernel⟩

theorem test_hyps_cross_segment_traps :
    (let s := regs marched 0x100 0
     RunsGroup s 3 (theGroup s) ∧ ffind s.regions (theGroup s).region = some (theRegion s) ∧ (theRegion s).march = some (theMarch s) ∧
      (theGroup s).th.frames = [] ∧ segmentAt (theMarch s) (rd s 4#5).toNat = some 0 ∧ (theGroup s).seg = some 0) ∧
    (theGroup (inHandler false marched)).th.frames ≠ [] ∧
    (∀ t ∈ [0xFC, 0x140, 0x1FC, 0x240], segmentAt (theMarch (regs marched t 0)) (rd (regs marched t 0) 4#5).toNat = none) ∧
    (let s := regs marched 0x204 0
     segmentAt (theMarch s) (rd s 4#5).toNat = some 1 ∧ (theGroup s).seg ≠ some 1 ∧
      ((theMarch s).segs[1]?).any (fun x => x.entryOnly && x.entry != (rd s 4#5).toNat) = true) ∧
    (let s := regs marched 0x200 0
     (theGroup s).th.prevSafe = none ∧ ((theMarch s).segs[1]?).any (fun x => x.entryOnly && x.entry != (rd s 4#5).toNat) = false) :=
  ⟨⟨⟨by decide +kernel, by decide +kernel⟩, by decide +kernel, by decide +kernel, by decide +kernel, by decide +kernel, by decide +kernel⟩, by decide +kernel, by decide +kernel, ⟨by decide +kernel, by decide +kernel, by decide +kernel⟩,
    by decide +kernel, by decide +kernel⟩

theorem test_hyps_departures :
    (let s := departing 0x200 id
     RunsGroup s 3 (theGroup s) ∧ ffind s.regions (theGroup s).region = some (theRegion s) ∧ (theRegion s).march = some (theMarch s) ∧
      mayDepart s = true ∧ (theGroup s).ext = 0 ∧ (theGroup s).owe = 0#64 ∧ (theGroup s).rx = [] ∧ tiedOperation s 3 = false) ∧
    (let s := departing 0x200 fun g => { g with ext := 1 }
     mayDepart s = true ∧ (theGroup s).ext ≠ 0) ∧
    (let s := departing 0x200 fun g => { g with owe := 1#64 }
     mayDepart s = true ∧ (theGroup s).ext = 0 ∧ (theGroup s).owe ≠ 0#64) ∧
    (let s := departing 0x200 fun g => { g with rx := [{ payload := 7#64, header := 9#64 }] }
     mayDepart s = true ∧ (theGroup s).ext = 0 ∧ (theGroup s).owe = 0#64 ∧ (theGroup s).rx ≠ []) ∧
    (let s := departing 0x200 id
     let r : IRec := newRecord s (.group 3) .cpColl .blk 0#4096 0#64 (.unset, .unset, .unset) .pair
     let t : State := { s with irecs := fset s.irecs 0 r }
     mayDepart t = true ∧ tiedOperation t 3 = true) := by
  refine ⟨⟨⟨by decide +kernel, by decide +kernel⟩, by decide +kernel, by decide +kernel, ?_⟩, ?_, ?_, ?_, ?_⟩ <;> decide +kernel

/-- The small part's lane task of n lanes with given gangs, the gang of slice k the current agent. -/
def laned (gs : List Gang) (n k : Nat) (s : State) : State :=
  { grpd s fun g => { g with task := some { n := n, gangs := gs, endMask := 0#96, endSafe := true, tids := [] } } with cur := .gang 3 k }

/-- One gang of 32 lanes; two gangs of 16 lanes; the first with a wait, at words 0 and m. -/
def whole (s : State) : State := laned [.start 0xFF#8 0] 32 0 s
def halves (w v : Option (BitVec 4)) (m : Nat) (s : State) : State :=
  laned [{ Gang.start 0x0F#8 0 with wait := w }, { Gang.start 0xF0#8 m with wait := v }] 32 0 s

/-- The context of an issued word under p0. -/
def theCx (s : State) : LaneCx :=
  (laneCx s 0#3 false).getD
    { g := 0, k := 0, grp := theGroup s, task := { n := 0, gangs := [], endMask := 0#96, endSafe := false, tids := [] }, gang := .start 0#8 0
      live := 0#32, act := 0#32 }

/-- Whether the current gang issues words with these lanes. -/
def issues (s : State) (m : LaneMask) : Bool :=
  (laneCx s 0#3 false).any (fun c => c.act == m) && succeeds ((theCx s).atSafePoint s)

/-- Whether operands resolve. -/
def plans (s : State) (srcs : List Field) (dst : Option Field) : Bool := succeeds ((theCx s).plan s srcs dst)

theorem test_hyps_lane_words :
    issues (whole base) 0xFFFFFFFF#32 = true ∧ issues (laned [.start 1#8 0] 1 0 base) 1#32 = true ∧
    issues (whole (grpd base fun g => { g with p := [(1, 5#32)] })) 0xFFFFFFFF#32 = true ∧
    (laneCx (whole (grpd base fun g => { g with p := [(1, 5#32)] })) 1#3 false).map (·.act) = some 5#32 ∧
    (laneCx (whole (grpd base fun g => { g with p := [(1, 5#32)] })) 1#3 true).map (·.act) = some 0xFFFFFFFA#32 ∧
    (theCx (whole base)).parted = false ∧ (theCx (halves none none 0 base)).parted = true := by decide +kernel

/-- Operands that resolve: words 0 and 31, a queue that is not valid fails, a pair, an accumulator without a view fails. -/
theorem test_hyps_operands :
    let s := whole base
    plans s [.int (.word 0#8) 32, .int (.imm 1#10) 32] (some (.int (.word 31#8) 32)) = true ∧
    plans s [.int (.pair 15#7) 64] (some (.int (.pair 0#7) 64)) = true ∧
    plans s [.int (.word 32#8) 32] (some (.int (.word 31#8) 32)) = false ∧
    plans s [.fmt (.b8 .sf 4#3) (.byte 4#8 3#2)] (some (.fmt .f32 (.word 5#8))) = true ∧
    plans s [.int (.acc 0#3 0#5) 32] none = false ∧
    plans s [.int (.word 4#8) 32, .int (.word 5#8) 32, .int (.imm 0#10) 32, .int (.word 6#8) 32, .int (.word 7#8) 32, .int (.word 8#8) 32] none =
      true := by decide +kernel

/-- Operands of the special functions: signalling and quiet NaNs, a negative finite value. -/
theorem test_hyps_special_functions :
    fvOf descF32 0x7FC00000 = .nan false ∧ fvOf descF32 0x7F800001 = .nan true ∧
    (match fvOf descF32 0x80000001 with
      | .fin true m _ => m != 0
      | _ => false) = true ∧
    (match fvOf descF32 0xFF7FFFFF with
      | .fin true m _ => m != 0
      | _ => false) = true := by decide +kernel

/-- Branches: no slice, one slice and every slice of the gang decides to go; targets at the ends of the segment. -/
theorem test_hyps_lane_branches :
    let s := laned [.start 0xFF#8 4] 32 0 marched
    issues s 0xFFFFFFFF#32 = true ∧ (laneTarget s 4 3#25).toOption = some 7 ∧ (laneTarget s 4 0x1FFFFFC#25).toOption = some 0 ∧
    (match laneTarget s 4 4#25 with
      | .error e => e == cSegLeave
      | .ok _ => false) = true ∧
    (match laneTarget s 4 0x1FFFFFB#25 with
      | .error e => e == cSegLeave
      | .ok _ => false) = true ∧
    [(0#32, 0x00#8), (1#32, 0x01#8), (0x11111111#32, 0xFF#8)].all (fun p =>
      let t := grpd s fun g => { g with p := [(1, p.1)] }
      (List.range 8).all (fun k => p.2.getLsbD k == ((theCx t).gang.slices.getLsbD k && (List.range 4).any fun i =>
        (theCx t).live.getLsbD (4 * k + i) && ((theCx t).grp.cond 1#3 false).getLsbD (4 * k + i)))) = true ∧
    [(0x7#32, 0x00#8), (0xF#32, 0x01#8), (0xFFFFFFFF#32, 0xFF#8)].all (fun p =>
      let t := grpd s fun g => { g with p := [(1, p.1)] }
      (List.range 8).all (fun k => p.2.getLsbD k == ((theCx t).gang.slices.getLsbD k && (List.range 4).all fun i =>
        !(theCx t).live.getLsbD (4 * k + i) || ((theCx t).grp.cond 1#3 false).getLsbD (4 * k + i)))) = true := by
  decide +kernel

/-- `regang` and `lend` in a group of one gang and of two. -/
theorem test_hyps_lane_gangs :
    (theCx (whole base)).task.gangs.length = 1 ∧ (theCx (whole base)).task.gangs = [(theCx (whole base)).gang] ∧
    (let c := theCx (halves none none 8 base)
     c.task.gangs.length ≠ 1 ∧ (∃ y ∈ c.task.gangs, y.slices ≠ c.gang.slices ∧ (bitsSet y.slices).head? ≠ some c.k ∧ y.wait = none)) := by
  decide +kernel

/-- Gangs that wait: not all, at one word with one code, with codes 0 and 15, at two words. -/
theorem test_hyps_waiting_gangs :
    (∀ p ∈ [(none, some 0#4, 0), (some 0#4, some 0#4, 0), (some 0#4, some 15#4, 0), (some 15#4, some 15#4, 8)],
      let s := halves p.1 p.2.1 p.2.2 base
      ∃ x y : Gang, ((ffind s.groups 3).bind (·.task)).map (·.gangs) = some [x, y] ∧ x.wait = p.1 ∧ y.wait = p.2.1 ∧ (y.pc = x.pc ↔ p.2.2 = 0)) := by
  simp only [List.forall_mem_cons, List.not_mem_nil, false_implies, implies_true, and_true]
  refine ⟨⟨_, _, rfl, rfl, rfl, ?_⟩, ⟨_, _, rfl, rfl, rfl, ?_⟩, ⟨_, _, rfl, rfl, rfl, ?_⟩, _, _, rfl, rfl, rfl, ?_⟩ <;> decide

/-- A lane's value in a word of the registers, and a predicate. -/
def vword (l w : Nat) (x : BitVec 32) (s : State) : State := grpd s fun g => { g with v := sset g.v (256 * l + w) x }

theorem test_hyps_views_fences_barriers :
    (let s := whole (grpd base fun g => { g with p := [(1, 0#32)] })
     (laneCx s 1#3 false).map (·.act) = some 0#32) ∧
    (∃ rest : List Nat, bitsSet (theCx (whole base)).act = 0 :: rest) ∧ (theCx (whole base)).parted = false ∧
    plans (whole base) [.int (.pair 2#7) 64] none = true ∧
    -- A tile view of 32 rows and 4 columns of 32-bit integers at word 8, and one of 33 rows.
    viewOk 0 0x8022082004000000#64 (viewLimit (whole base) (theCx (whole base)).grp) = true ∧
    viewOk 0 0x802208A104000000#64 (viewLimit (whole base) (theCx (whole base)).grp) = false ∧
    succeeds (fullFence (whole base) .sys) = true ∧ succeeds (releaseSteps (whole base) (whole base).cur .dom) = true ∧
    (let s := whole (barred (barMake 0#32 false 2 2) 0)
     succeeds (arriveWord s 63 (theCx s).act) = true ∧ succeeds (postWord s 63 (2 ^ 31 - 1) (theCx s).act) = true ∧
     (waitWord s 63 false (theCx s).act).toOption = some false ∧ (waitWord s 63 true (theCx s).act).toOption = some true) := by
  refine ⟨by decide +kernel, ⟨_, rfl⟩, by decide +kernel, by decide +kernel, by decide +kernel, by decide +kernel, by decide +kernel,
    by decide +kernel, by decide +kernel⟩

/-- Lane 0's address in the pair 2, of a plain line; the others are inactive under p1. -/
def fetching (va : Nat) (s : State) : State :=
  laned [.start 1#8 0] 1 0 (vword 0 4 (BitVec.ofNat 32 va) (vword 0 5 (BitVec.ofNat 32 (va / 2 ^ 32)) s))

/-- Whether accesses of one lane, at the address in the pair 2, complete. -/
def accesses (s : State) (srcs : List Field) (dst : Option Field) (kind : Nat) (rel : Option Scope) (f : Nat → State → Except Miss State) : Bool :=
  match (theCx s).plan s srcs dst with
  | .error _ => false
  | .ok pl => succeeds ((theCx s).access s pl 32 kind rel []
      ((bitsSet (theCx s).act).map fun l => LanePart.mk l (f (arg ((theCx s).values s pl srcs l) 0))))

theorem test_hyps_lane_memory :
    let s := fetching 0x1000 (lined base 0x1000 7)
    issues s 1#32 = true ∧
    accesses s [.int (.pair 2#7) 64] (some (.int (.word 8#8) 32)) 0 none (fun va s => (loadBytes s s.cur va 4).map (·.1)) = true ∧
    accesses s [.int (.pair 2#7) 64, .int (.word 9#8) 32] none 1 (some .dom) (fun va s => waitWhole s (storeBytes s s.cur va 4 5 none)) = true ∧
    accesses s [.int (.pair 2#7) 64, .int (.word 9#8) 32] (some (.int (.word 8#8) 32)) 2 (some .sys)
      (fun va s => (atomicBytes s s.cur va 4 fun old => old + 1).map (·.1)) = true := by decide +kernel

/-- A tile of a tensor of 4 by 8 integers at 0x1000 that the task holds under identifier 63, through view 15. -/
def tiled : State :=
  let r : BitVec 1024 := BitVec.ofNat 1024 (tensorRecord 0 0x1000 [4, 8])
  let s := fetching 0 (lined (lined (lined (lined base 0x1000 7) 0x1080 8) 0x1100 9) 0x1180 10)
  grpd s fun g => { g with
    views := sset g.views 15 0x8022080804000000#64
    task := g.task.map fun t => { t with tids := [(63, { raw := r, reason := some 0 })] } }

theorem test_hyps_tiles :
    issues tiled 1#32 = true ∧ succeeds (tileCheck tiled (theCx tiled) 15#4 12#8 63#6 false) = true ∧
    succeeds (tileCheck tiled (theCx tiled) 15#4 12#8 63#6 true) = true := by decide +kernel

/-- A gang whose two lanes address the last four bytes of the scratchpad and the four before them. -/
def scratching : State :=
  let at_ (l n : Nat) (s : State) : State :=
    vword l 4 (BitVec.ofNat 32 (localBase + 65536 - n)) (vword l 5 (BitVec.ofNat 32 ((localBase + 65536 - n) / 2 ^ 32)) s)
  laned [.start 1#8 0] 2 0 (at_ 0 4 (at_ 1 8 base))

theorem test_hyps_lane_scratchpad :
    issues scratching 3#32 = true ∧ NoHeldFault scratching ∧ (theCx scratching).gang.again = none ∧ (theCx scratching).grp.th.frames = [] ∧
    ffind scratching.blocks (theCx scratching).grp.block = some (theBlock scratching) ∧
    (match (theCx scratching).plan scratching [.int (.pair 2#7) 64, .of (.int .i32) (.word 31#8)] none with
      | .ok pl => (bitsSet (theCx scratching).act).all fun l =>
          addrKind (laneVa ((theCx scratching).values scratching pl [.int (.pair 2#7) 64, .of (.int .i32) (.word 31#8)] l) 0#12) ==
            .loc (65532 - 4 * l) && decide (65532 - 4 * l + 4 ≤ (theBlock scratching).spmBytes)
      | .error _ => false) = true ∧
    plans scratching [.int (.pair 2#7) 64] (some (.of (.int .i32) (.word 31#8))) = true := by
  refine ⟨?_, by unfold NoHeldFault; decide +kernel, ?_, ?_, ?_, ?_, ?_⟩ <;> decide +kernel

theorem test_hyps_lane_results :
    (match (theCx (whole base)).plan (whole base) [] (some (.int (.word 31#8) 32)) with
      | .ok pl => pl.dst == some (.space 124 4 32)
      | .error _ => false) = true ∧
    (match (theCx (whole base)).plan (whole base) [] (some (.int (.pair 15#7) 64)) with
      | .ok pl => pl.dst == some (.space 120 8 32)
      | .error _ => false) = true ∧
    ffind (whole base).groups (theCx (whole base)).g = some (theCx (whole base)).grp := by decide +kernel

/-- The small part's sequencer, with a tensor of 4 by 2 signed bytes of the scratchpad under identifier 63. -/
def sequenced (f : Block → Block) : State :=
  let r : BitVec 1024 := BitVec.ofNat 1024 (0x20 + 2 * 2 ^ 8 + 2 ^ 24 + 4 * 2 ^ 128 + 2 * 2 ^ 160 + 64 * 2 ^ 320)
  { base with
    cur := .seq 2
    blocks := fmod base.blocks 2 fun b => f { b with seq := { b.seq with tids := [(63, { raw := r, reason := some 0 })] } } }

/-- The tensor. -/
def theTensor (s : State) : BitVec 1024 := (validTid (theBlock s).seq.tids (theBlock s).tidCount 63).getD 0#1024

/-- The sequencer with index register m3 and a valid plane of the bytes' class. -/
def indexed (lo hi : Nat) : State := sequenced fun b => { b with seq := (b.seq.setHalf 3#4 false lo).setHalf 3#4 true hi }
def planed : State := sequenced fun b => { b with seq := { b.seq with active := { b.seq.active with valid := true, cls := 1#2 } } }

/-- Whether the current agent is the block's sequencer. -/
def sequences (s : State) : Bool := s.cur == .seq 2 && ffind s.blocks 2 == some (theBlock s)

theorem test_hyps_matrix_control :
    (∀ n ∈ [0, 1, 2, 2 ^ 32 - 1], sequences (indexed n 5) = true ∧ (theBlock (indexed n 5)).seq.lo 3#4 = n ∧ (theBlock (indexed n 5)).seq.hi 3#4 = 5) ∧
    (theBlock (indexed 0 0)).seg = none ∧
    (let s : State := { marched with cur := .seq 2, blocks := fmod marched.blocks 2 fun b => { b with seg := some 0, seq := { b.seq with mpc := 64#64 } } }
     sequences s = true ∧ ((theMarch s).segs[0]?).any (fun g => g.matrixLo ≤ 64 && 120 < g.matrixHi && g.matrixHi == 128) = true) ∧
    spanSet (indexed 0 0) 2 = [2] ∧ (theBlock (indexed 0 0)).barCount = 64 ∧
    (let s := sequenced fun b => { b with bars := sset b.bars 63 (barMake 0#32 true 2 1) }
     sequences s = true ∧ succeeds (barArrive s 2 63) = true ∧ barPhase (sget (theBlock s).bars 63) = true) ∧
    succeeds (barArrive (sequenced id) 2 63) = false := by decide +kernel

/-- Two blocks of a span, the other of which waits at its spanned pass: ending or spanning anew would strand it. -/
def spanning : State :=
  let s := sequenced fun b => { b with seq := { b.seq with span := 2, lead := 0 } }
  let q : SpanReq := { ta := 63#6, mi := 3#4, row := 0, count := 1, acct := true }
  let other : Block := { theBlock s with blockId := 1, core := 1, seq := { (theBlock s).seq with spanned := some q } }
  { s with
    blocks := fset s.blocks 9 other
    regions := fmod s.regions 1 fun r => { r with record := BitVec.ofNat 2048 (2 * 2 ^ 320 + 2 ^ 352 + 2 ^ 36) } }

theorem test_hyps_matrix_spans :
    sequences spanning = true ∧ spanSet spanning 2 = [2, 9] ∧ spanWaits spanning 9 = true ∧ 2 ∈ spanPartners spanning 9 ∧
    ((ffind spanning.regions (theBlock spanning).region).map spanWidth).getD 1 = 2 ∧ 1 < (theBlock spanning).seq.span := by decide +kernel

theorem test_hyps_matrix_loads :
    sequences (sequenced id) = true ∧ planeClass (tidFmt (theTensor (sequenced id))) = some 1#2 ∧ tidBlock (theTensor (sequenced id)) = 0 ∧
    tensorInWindow (theTensor (sequenced id)) = false ∧ 1024 ≤ (theBlock (sequenced id)).accCount ∧
    validTid (theBlock (sequenced id)).seq.tids (theBlock (sequenced id)).tidCount 62 = none ∧
    succeeds (loadWeights (.seq 2) (theTensor (sequenced id)) 0 0 (classK 1#2) Config.mxN (sequenced id)) = true := by decide +kernel

theorem test_hyps_matrix_passes :
    sequences planed = true ∧ (theBlock planed).seq.span ≤ 1 ∧ (theBlock planed).seq.active.valid = true ∧
    passFormat (theBlock planed).seq.active (theTensor planed) true = true ∧ passFormat (theBlock planed).seq.active (theTensor planed) false = true ∧
    passFormat { (theBlock planed).seq.active with cls := 0#2 } (theTensor planed) true = false ∧
    originsOk (theBlock planed).seq.active (theTensor planed) 0 = true ∧
    succeeds (actsFault planed (.seq 2) (theTensor planed) 0 0 (classK 1#2) 1) = true ∧ (theBlock planed).seq.rows = 0 ∧
    passHeld planed 2 = false ∧ tensorInWindow (theTensor planed) = false ∧
    (match loadActs planed (.seq 2) (theTensor planed) true 0 0 (classK 1#2) with
      | .ok (t, _) => t.blocks == planed.blocks
      | .error _ => false) = true ∧
    succeeds (passRows 2 (theTensor planed) 0 0 1023 1 (classK 1#2) true 1 planed) = true := by decide +kernel

/-- The leader of a span and its partner, each with a plane. -/
theorem test_hyps_spanned_pass :
    let q : SpanReq := { ta := 63#6, mi := 3#4, row := 1023, count := 1, acct := true }
    let with_ (lead : Nat) : State := { spanning with blocks := fmod spanning.blocks 2 fun b => { b with seq := { (theBlock planed).seq with span := 2, lead := lead } } }
    spanRank (with_ 0) 2 % (theBlock (with_ 0)).seq.span = (theBlock (with_ 0)).seq.lead ∧ succeeds (mstCheck (theBlock (with_ 0)) q) = true ∧
    spanRank (with_ 1) 2 % (theBlock (with_ 1)).seq.span ≠ (theBlock (with_ 1)).seq.lead ∧ succeeds (partnerCheck (theBlock (with_ 1)) q) = true := by
  decide +kernel

/-- Drains of the last row, to a tensor that may be written and to one that may not. -/
theorem test_hyps_matrix_drains :
    let s := sequenced id
    let d : Drain := Drain.mk (theTensor s) 0 0 1023 .rne false true 0
    tidRo (theTensor s) = false ∧ tidSize (theTensor s) ≠ 8 ∧ isIntCode (tidFmt (theTensor s)) = true ∧ tidBlk (theTensor s) = 0 ∧
    (match drainCheck s 2 (theBlock s) d 1 with
      | .ok t => succeeds (drainRows 2 d 1 1 t)
      | .error _ => false) = true ∧
    (let t := sequenced fun b => { b with seq := { b.seq with tids := [(63, { raw := theTensor s ||| (1#1024 <<< 32), reason := some 0 })] } }
     sequences t = true ∧ tidRo (theTensor t) = true) := by decide +kernel

/-- The group parked at an address for a reason, woken. -/
def parkedAt (state kind va : Nat) (s : State) : State :=
  let p : Park := { state := state, asid := 0, lanes := 0#32, va := BitVec.ofNat 64 va, kind := kind, woken := true }
  grpd s fun g => { g with th := { g.th with run := .parked p } }

theorem test_hyps_debugger_and_replay :
    -- The last word of the base set, the first without a chunk, and a bank in Winter.
    ffind base.groups 3 = some (theGroup base) ∧ (theGroup base).place.inSlot = true ∧ (theGroup base).backed 31 = true ∧
    (theGroup base).backed 32 = false ∧
    (let s := modCore base 0 fun c => { c with winter := [wordBankOf (theGroup base) 31] }
     (ffind s.cores 0).any (fun c => c.winter.contains (wordBankOf (theGroup s) 31)) = true) ∧
    -- A fault record that waits, with room in its area and with none.
    (let w : WaitRec := { part := 0, hdr := 0x4800, data := 7#512 }
     (areaAppend (faultArea base) w.part w.hdr w.data.toNat).isSome = true ∧ (areaAppend base w.part w.hdr w.data.toNat).isSome = false) ∧
    -- A parked read of a line that has come back, and of one still missing.
    (let s := lined (parkedAt 1 0 0x1000 base) 0x1000 0
     (threadOf s (.group 3)).isSome = true ∧ pftDispose s 0 (pftSlot s (.group 3)) = false ∧
     (match (theGroup s).th.run with
       | .parked p => p.woken && p.state == 1 && (stillMissing s (envOf s (.group 3)) p).isNone
       | _ => false) = true) ∧
    (let s := parkedAt 1 0 0x1000 base
     (match (theGroup s).th.run with
       | .parked p => (stillMissing s (envOf s (.group 3)) p).isSome
       | _ => false) = true) := by decide +kernel

/-- The parked group's entry of the partition's fault table, disposed as a fault. -/
def disposed : State :=
  let s := parkedAt 1 0 0x1000 base
  let s : State := { s with parts := fmod s.parts 0 fun p => { p with twCfg := 24#64 } }
  let va := tableBase + pftOff (partOf s 0) (pftSlot s (.group 3)) + 1
  let h : HomeLine :=
    { data := BitVec.ofNat 1024 (2 ^ (8 * (va % 128))), col := 0, cxl := false, dirty := 0#128, w := true, poison := none, src := 0#8
      coarse := false, cols := 0#32, ents := [], excl := none }
  { s with home := fset s.home (lineKey (tableTag 0) va) h }

theorem test_hyps_disposed : pftDispose disposed 0 (pftSlot disposed (.group 3)) = true ∧ (envOf disposed (.group 3)).sp.part = 0 := by
  decide +kernel

theorem test_hyps_runs_chunks_power :
    (∃ x : Gang, gangOf (theGroup (whole base)) 0 = some x) ∧
    (let s := laned [{ Gang.start 0xFF#8 0 with runLen := Config.runMax }] 32 0 base
     (gangOf (theGroup s) 0).any (fun x => decide (Config.runMax ≤ x.runLen)) = true ∧ streamRuns s (.gang 3 0) = true) ∧
    (let s : State := { base with blocks := fmod base.blocks 2 fun b => { b with xq := [(3, 14)] } }
     (theBlock s).xq = [(3, 14)] ∧ (theGroup s).block = 2 ∧ 14 ≤ freeChunks s 2) ∧
    (let s : State := { grpd base (fun g => { g with ext := 1 }) with blocks := fmod base.blocks 2 fun b => { b with xq := [(3, 14)] } }
     freeChunks s 2 < 14) ∧
    (ffind base.cores (bankCore (.accRows 1 127))).isSome = true ∧
    -- A region of the second core, which is free; one of the first, which is not; one that is gated, alone and during a stretch.
    (ffind base.cores 1).any (fun c => (coreRegions 1).contains (.matrix 1) && !c.gated.contains (.matrix 1) && regionFree base c 1 (.matrix 1)) = true ∧
    (ffind base.cores 0).any (fun c => !regionFree base c 0 (.spmUnits 0 27)) = false ∧
    (∀ n ∈ [0, 7], let s := modCore base 1 fun c => { c with gated := [.lanePipe 1 3], stretch := n }
      (ffind s.cores 1).any (fun c => c.gated.contains (.lanePipe 1 3) &&
        ((coreRegions 1).takeWhile (· != .lanePipe 1 3)).all (fun q => !c.gated.contains q) && c.stretch == n && c.halve == 0) = true) ∧
    (ffind base.cols 0).any (fun c => !c.gatedWays.contains 7) = true := by
  refine ⟨⟨_, rfl⟩, ?_⟩; decide +kernel

/-- The line at 0x1000 of ASID 0. -/
abbrev line0 : Nat := lineKey 0 0x1000

/-- Messages numbered from 100 on. -/
def sent (l : List MsgKind) (s : State) : State := { s with net := l.zipIdx.map fun x => { id := 100 + x.2, kind := x.1 } }

/-- A copy of a line in full precision. -/
def aCopy : Copy := { data := 5#1024, fmt := 0#8, src := 0#8, scale := 0#8, w := true, excl := false, dirty := 0#128, by_ := .nobody }

theorem test_hyps_drains :
    (canDrain stored (envOf stored (.group 3)) (curThread stored) ((sbOf stored (.group 3)).headD
      { va := 0, asid := 0, data := 0#64, mask := 0#8, rel := none }) = true) ∧ (sbOf stored (.group 3)).length = 1 ∧
    (mappedAt stored 0 0x1000).isNone = true ∧ stored.net = [] ∧ (ffind stored.copies (copyKey line0 0)).isNone = true ∧
    (let s := modCur stored fun th => { th with unack := Config.unackMax }
     (canDrain s (envOf s (.group 3)) (curThread s) ((sbOf s (.group 3)).headD
       { va := 0, asid := 0, data := 0#64, mask := 0#8, rel := none }) = false)) := by decide +kernel

/-- A store of one column to a line whose home is another. -/
theorem test_hyps_private_drain :
    let s : State := { stored with home := fmod stored.home line0 fun h => { h with col := 1 } }
    homeCol s { (envOf s (.group 3)).sp with tag := 0 } line0 ≠ (envOf s (.group 3)).col ∧ s.net = [] ∧
    (ffind s.home line0).map (·.excl) = some none ∧ (ffind s.copies (copyKey line0 (envOf s (.group 3)).cache)).isNone = true ∧
    (ffind s.copies (copyKey line0 512)).isNone = true := by decide +kernel

theorem test_hyps_messages :
    (let s := sent [.write line0 5#1024 0xFF#128 0 (.grp 3) (.grp 3), .write line0 6#1024 1#128 0 (.grp 3) .nobody] (lined base 0x1000 0)
     (s.net.all fun x => x.kind.dest.isNone) = true ∧ s.net.map (inOrder s) = [true, false] ∧ (mappedAt s (lineTag line0) (lineVa line0)).isNone = true ∧
      (rangeAt s (lineTag line0) (lineVa line0)).isNone = true ∧
      (ffind s.home line0).map (fun h => (h.excl, h.coarse, h.ents)) = some (none, false, [])) ∧
    msgOf (sent [.ack (.grp 3)] base) 100 = some (.ack (.grp 3)) ∧
    (∀ k ∈ [MsgKind.fill 0 line0 aCopy .nobody, .inval 1 line0 0, .inval 768 line0 0, .update 511 line0 7#1024 0],
      ((sent [k] base).net.find? (·.id == 100)).any (fun x => x.kind == k && isFirst (sent [k] base) x) = true) ∧
    (let s : State := { lined base 0x1000 0 with copies := [(copyKey line0 0, aCopy)] }
     ffind s.copies (copyKey line0 0) = some aCopy ∧ aCopy.excl = false ∧ readsPrivate s 0 line0 = false) ∧
    (let s := sent [.notice 0 line0] (lined base 0x1000 0)
     msgOf s 100 = some (.notice 0 line0) ∧ (ffind s.copies (copyKey line0 0)).isNone = true ∧ (ffind s.home line0).map (·.coarse) = some false) ∧
    (let s : State := { base with priv := [(privKey line0 0, { data := 1#1024, mask := 1#128, by_ := .grp 3 })] }
     (privAt s line0 0).isSome = true) := by decide +kernel

theorem test_hyps_partials_mappings :
    (let s := foldContribution (lined inRange 0x100000 0) ((ownRange inRange inRange.cur 0x100000 .f32).getD
        { rcb := 0, asid := 0, start := 0, len := 0, op := 0, fmt := .f32, partials := [] }) 0 0x100000 0x3F800000
     (rangeAt s (lineTag (lineKey 0 0x100000)) 0x100000).any (fun r =>
      ((linePartials r 0x100000).filter fun p => p.1 / 2 ^ 57 == 0) != []) = true ∧
      (installHome s (spaceOfLine s (lineKey 0 0x100000)) (lineKey 0 0x100000)).toOption.isSome = true) ∧
    (let s := sent [.spmWrite (lineKey 0 0x100000) 1#1024 1#128 .nobody]
        (modCore base 0 fun c => { c with maps := [(15, { base := 0x100000, len := 128, off := 65408, block := 2, asid := 0 })] })
     firstForward s 100 (lineKey 0 0x100000) = true ∧ (mappedAt s 0 0x100000).any (fun m => !mapStopped s m.2.2) = true) := by decide +kernel

/-- Two groups of the region's block, a flit of the first on its way to the second. -/
def flying (run : Run) (rx : Nat) (refused : Bool) : State :=
  let other : Group := { theGroup base with groupId := 1, slot := 1, th := { (theGroup base).th with run := run },
                                            rx := List.replicate rx { payload := 1#64, header := 0#64 } }
  sent [.flit 3 1 0 1 { payload := 7#64, header := 9#64 } refused] { base with groups := fset base.groups 4 other }

theorem test_hyps_flits :
    (∀ p ∈ [(Run.running, 0, false), (.running, 15, false), (.running, 16, false), (.done, 0, false), (.running, 0, true)],
      let s := flying p.1 p.2.1 p.2.2
      firstFlit s 100 3 1 0 1 = true ∧ (flitTarget s 1 0 1).map Prod.fst = some 4 ∧
      ((flitTarget s 1 0 1).any fun t => ffind s.groups 4 == some t.2 && t.2.th.run == p.1) = true ∧
      ((flitTarget s 1 0 1).any fun t => flitRoom s t.2) = decide (p.1 = .done ∧ p.2.1 < 16 ∨ p.1 = .running ∧ p.2.1 < 16)) := by
  decide +kernel

/-- A request of the group to package 1, not yet answered, after n tries. -/
def requesting (n : Nat) : State :=
  let r : RemoteReq := { va := 2 ^ 56 + 2 ^ 46, write := false, atomic := false, data := 0#64, bytes := 8, attempts := n, port := 0
                         tag := 0, who := .grp 3, answer := none }
  { base with remote := [(5, r)] }

theorem test_hyps_remote :
    (∀ n ∈ [0, 3, 4], (ffind (requesting n).remote 5).any (fun r =>
      r.attempts == n && r.answer.isNone && !r.write && !r.atomic && r.who == .grp 3) = true) ∧
    (let s := sent [.resp (.grp 3)] base
     (s.net.find? (isResponse s (.grp 3))).map (·.kind) = some (.resp (.grp 3))) ∧
    sharedLine base line0 = false := by decide +kernel

/-- The partition's domain region, in package 0 of a domain, with its line 0x1000. -/
def domained (l : List Replay) : State :=
  { lined base 0x1000 3 with
    parts := fmod base.parts 0 (fun p => { p with domRcb := 0x9000#64 }), replays := l, pkg := { base.pkg with domain := 0 } }

/-- A request of package 2. -/
def asks (a : DomainAct) : DomainReq := { src := 2#16, tag := 5#64, va := BitVec.ofNat 64 (2 ^ 56 + 0x1000), act := a }

theorem test_hyps_domain_requests :
    let s := domained []
    (match addrKind (asks (.read 8)).va.toNat with
      | .domain p k off => p == s.pkg.domain && k == 0 && off == 0x1000
      | _ => false) = true ∧ (domainAt s 0 0x1000 8).isSome = true ∧ domainAt s 0 0x7FFFFFFF108 8 = none ∧ (domainAt s 0 0x7FFFFFFF110 8).isSome = true ∧ actOk 0x1000 (.read 8) = true ∧ actOk 0x1078 (.atomic .add true 1#64) = true ∧
    tagState s 0 (requestSource (asks (.write 8 1#64))) 5 (2 ^ 16) = .fresh ∧
    tagState (domained [{ home := 0, source := requestSource (asks (.read 8)), seq := 5, result := 9#64 }]) 0 (requestSource (asks (.write 8 1#64))) 5 (2 ^ 16) =
      .duplicate 9#64 ∧
    tagState (domained [{ home := 0, source := requestSource (asks (.read 8)), seq := 261, result := 9#64 }]) 0 (requestSource (asks (.write 8 1#64))) 5 (2 ^ 16) =
      .stale ∧
    tagState (domained [{ home := 0, source := requestSource (asks (.read 8)), seq := 260, result := 9#64 }]) 0 (requestSource (asks (.write 8 1#64))) 5 (2 ^ 16) =
      .fresh := by decide +kernel

/-- A record of n blocks of one group, of the root control block at 0x4000, with an entry (R25). -/
def aRecord (n : Nat) : BitVec 2048 := BitVec.ofNat 2048 (1 + 0x4000 * 2 ^ 64 + 0x100 * 2 ^ 128 + n * 2 ^ 320 + 2 ^ 352)

/-- The part with the root control block at 0x4000, whose pool is one free slot at 0x5000 and whose capability 0x1001 allows launches. -/
def rooted (s : State) : State :=
  let c : Cap := { valid := true, gen := 1#20, type := 2, rights := 0x80#16, object := 0xFFFFFFFF#64, limit := 0#64, holder := 0x4000#64, origin := 0 }
  let rcb := 0x1001 * 2 ^ (8 * 0x1C) + 0x5000 * 2 ^ (8 * 0x48) + 2 ^ (8 * 0x50)
  let s := lined (lined (lined s 0x4000 rcb) 0x4080 0) 0x5000 0
  { lined s 0x5080 0 with parts := fmod s.parts 0 fun p => { p with caps := fset p.caps 1 c } }

/-- Queue 7 of column 0 with a configuration and a record posted by a packet. -/
def posted (cfg : Nat) (n : Nat) : State :=
  let s := rooted part
  let p : Post := { post := 0#64, packet := some (aRecord n), barrier := true, badPacket := false, rel := none, fences := [], launcher := 0, headAt := 0, cfg := none }
  { s with cols := fmod s.cols 0 fun c => { c with queues := fset c.queues 7 { LaunchQueue.reset with fifo := [p], cfg := BitVec.ofNat 64 cfg } } }

/-- The reason that refuses the head launch, and whether it is held. -/
def reasonOf (s : State) : Option Nat :=
  match (queueAt s 0 7).fifo with
  | p :: _ =>
    match headRecord s 0 (bitsOf (queueAt s 0 7).cfg 56 8 * 256) p with
    | .ok (t, some r) => if launchHeld t 0 (queueAt s 0 7) p r then none else some (launchReason t 0 0 (p.cfg.getD (queueAt s 0 7).cfg) p (some r)).1
    | _ => none
  | [] => none

theorem test_hyps_launch_posts :
    (∀ n ∈ [0, 15], (queueAt (modQueue part 0 7 fun l => { l with fifo := List.replicate n { post := 1#64, packet := none, barrier := false, badPacket := false, rel := none, fences := [], launcher := 0, headAt := 0, cfg := none } }) 0 7).fifo.length < 16) ∧
    ¬ (queueAt (modQueue part 0 7 fun l => { l with fifo := List.replicate 16 { post := 1#64, packet := none, barrier := false, badPacket := false, rel := none, fences := [], launcher := 0, headAt := 0, cfg := none } }) 0 7).fifo.length < 16 ∧
    (let p : LaunchPacket := { src := 5#16, column := 0#8, queue := 7#8, flags := 1#8, resv := 0#24, seq := 0#64, record := [] }
     let s : State := { modQueue part 0 7 fun l => { l with cfg := 3#64 } with act := fset part.act 5 0x80#256 }
     packetAllowed s p = true ∧ packetAllowed part p = false ∧ tagState s 0 (packetSource 5) 0 (2 ^ 64) = .fresh ∧
      tagState { s with replays := [{ home := 0, source := packetSource 5, seq := 0, result := 0#64 }] } 0 (packetSource 5) 0 (2 ^ 64) = .duplicate 0#64 ∧
      tagState { s with replays := [{ home := 0, source := packetSource 5, seq := 255, result := 0#64 }] } 0 (packetSource 5) 0 (2 ^ 64) = .fresh ∧
      tagState { s with replays := [{ home := 0, source := packetSource 5, seq := 256, result := 0#64 }] } 0 (packetSource 5) 0 (2 ^ 64) = .stale) := by decide +kernel

theorem test_hyps_launch_acceptance :
    reasonOf (posted 0 1) = some 1 ∧ reasonOf (posted (1 + 0x40 * 2 ^ 8) 1) = some 0 ∧ reasonOf (posted (1 + 0x40 * 2 ^ 8) 0) = some 4 ∧
    reasonOf (posted (1 + 0x41 * 2 ^ 8) 1) = some 5 ∧
    reasonOf { posted (1 + 0x40 * 2 ^ 8) 1 with regions := base.regions } = none ∧
    (ffind (posted 1 1).cols 0).any (fun c => c.launchPark.isNone) = true := by decide +kernel

/-- The accepted launch's region, waiting at the head of its queue for its first block. -/
def accepted : State :=
  match Sys2Proof.Machine.execLaunchAccept 0 7 (posted (1 + 0x40 * 2 ^ 8) 1) with
  | .next s => s
  | _ => part

theorem test_hyps_block_placement :
    (headRegion accepted (queueAt accepted 0 7)).any (fun x => !(decide (x.2.headAt + 1000000 ≤ accepted.ns))) = true ∧
    (let s : State := { accepted with ns := 1000000 }
     (headRegion s (queueAt s 0 7)).any (fun x => decide (x.2.headAt + 1000000 ≤ s.ns)) = true) ∧
    (ffind accepted.cols 0).any (fun c =>
      ((headOrder accepted c).findSome? fun (_, id, _) => (ffind (markWaiting accepted (headOrder accepted c)).regions id).bind fun r =>
        tryPlace (markWaiting accepted (headOrder accepted c)) id r).isSome) = true ∧
    (ffind part.cols 0).any (fun c => (headOrder part c).isEmpty) = true ∧
    (headRegion accepted (queueAt accepted 0 7)).any (fun x => x.2.march.isNone && !recCores x.2.record && roomFor accepted x.2 (spanWidth x.2) &&
      (pickSet accepted (x.2.ask accepted x.1) (spare accepted x.1 x.2) []) == some [0]) = true := by decide +kernel

/-- The block placed, and not yet started. -/
def placed : State :=
  match execBlockPlace 0 accepted with
  | .next s => s
  | _ => part

theorem test_hyps_block_start_and_end :
    (placed.blocks.any fun b => b.2.run == .placed && (startBlock placed b.1).isSome) = true ∧
    (let s : State := { base with blocks := fmod base.blocks 2 fun b => { b with run := .placed }, groups := fmod base.groups 3 fun g => { g with th := { g.th with run := .done } } }
     (startBlock { s with regions := [] } 2).isNone = true) ∧
    (let s : State := { grpd base (fun g => { g with th := { g.th with run := .done } }) with blocks := fmod base.blocks 2 fun b => { b with seq := { b.seq with ended := true } } }
     canRetire s 2 (theBlock s) = true ∧ canRetire base 2 (theBlock base) = false) ∧
    regionOver base 1 (theRegion base) = false ∧
    (let s : State := { base with blocks := fmod base.blocks 2 fun b => { b with run := .retired } }
     regionOver s 1 (theRegion s) = true ∧ (drainGroups s (regionGroups s 1)).isSome = true ∧
      ((drainGroups s (regionGroups s 1)).any fun t => (regionGroups t 1).all fun g => (ffind t.groups g).all fun p => p.th.unack == 0) = true) ∧
    (let s : State := { grpd base (fun g => { g with th := { g.th with unack := 1 } }) with blocks := fmod base.blocks 2 fun b => { b with run := .retired } }
     regionOver s 1 (theRegion s) = true ∧ (drainGroups s (regionGroups s 1)).isSome = true ∧ (theGroup s).th.unack ≠ 0) := by decide +kernel

/-- The March region with a record of one traveller, its holder of segment 1 placed. -/
def bearing : State :=
  let s := departing 0x200 id
  let r : BitVec 2048 := BitVec.ofNat 2048 (0x200 * 2 ^ 128 + 2 ^ 320 + 2 ^ 352)
  { s with regions := fmod s.regions 1 fun x => { x with record := r } }

theorem test_hyps_births :
    (theRegion bearing).march = some (theMarch bearing) ∧ (theRegion bearing).finished = false ∧ (theRegion bearing).whole = true ∧
    (theMarch bearing).born < travellerCount (theRegion bearing) ∧ segmentAt (theMarch bearing) (recEntry (theRegion bearing).record) = some 1 ∧
    birthViews bearing 1 (theRegion bearing) = some [] ∧ chooseHolder bearing 1 1 (theMarch bearing) none = some 1 := by decide +kernel

/-- A running copy of four integers, issued by the group. -/
def copying (done : Nat) (begun : Bool) : State :=
  let s := described 0 [4] 0 0 [tensorRecord 0 0x1000 [4], tensorRecord 0 0x20000 [4]]
  let s := lined (lined (lined s 0x1000 7) 0x20000 0) 0x6000 0
  match readDesc s s.cur (rd s 4#5).toNat with
  | .ok (u, d) =>
    match issueChecks u u.cur .cp .grp d with
    | .ok ids => { u with irecs := fset u.irecs 0 { newRecord u u.cur .cp .grp d 77#64 ids .pair with done := done, begun := begun } }
    | .error _ => base
  | .error _ => base

/-- What the copy's next landing is: 0 a line moved, 1 all have landed, 2 it waits, 3 it parks, 4 it fails. -/
def landing (s : State) : Option Nat :=
  (ffind s.irecs 0).map fun r => match landLine s 0 r with
    | .moved _ => 0
    | .whole _ => 1
    | .waits _ => 2
    | .parks _ _ => 3
    | .fails _ _ _ _ => 4

theorem test_hyps_engine_lands :
    landing (copying 0 true) = some 0 ∧ landing (copying 1 true) = some 1 ∧
    landing { copying 0 true with home := [] } = some 3 ∧
    (let s := copying 1 true
     (ffind s.irecs 0).any (fun r => r.run == .running && !edArr r.desc && r.begun && r.unack == 0 && !r.arrived && !r.stamped &&
      match landLine s 0 r with
      | .whole t =>
        let u : State := modRec t 0 fun r => { r with arrived := true }
        let stamp (t : State) : Except Miss State := engPut t { engEnv t 0 r with who := .nobody } (edStamp r.desc) (wideScope r.scope) false
          (fun old => (setBits old (8 * (edStamp r.desc % 128)) 64 r.stamp.toNat, maskRange 128 (edStamp r.desc % 128) 8))
        !elsewhere t (edStamp r.desc) && decide (engEnv u 0 r = engEnv t 0 r) && succeeds (stamp t) && succeeds (stamp u)
      | _ => false) = true) ∧
    (ffind (copying 0 true).irecs 0).any (fun r => r.who == .grp 3) = true ∧ (theGroup (copying 0 true)).th.run ≠ .done ∧
    cEngRange ∈ engineCauses := by decide +kernel

/-- Two blocks of a span that both wait at a pass of one row, and of rows that differ. -/
def both (n : Nat) : State :=
  let q (n : Nat) : SpanReq := { ta := 63#6, mi := 3#4, row := 0, count := n, acct := true }
  let seq : Seq := { (theBlock planed).seq with span := 2, lead := 0 }
  { spanning with
    blocks := fmod (fmod spanning.blocks 2 fun b => { b with seq := { seq with spanned := some (q 1) } }) 9 fun b =>
      { b with seq := { seq with spanned := some (q n) } } }

theorem test_hyps_spanned_steps :
    (∀ n ∈ [1, 2], spanPartners (both n) 2 = [2, 9] ∧ spanPartners (both n) 9 = [2, 9] ∧
      (∀ k ∈ [2, 9], (ffind (both n).blocks k).any (fun x => (x.run == .running || x.run == .stopping) && x.seq.run == .running && x.seq.spanned.isSome) = true)) ∧
    (ffind (spanning).blocks 2).any (fun x => x.seq.spanned.isNone) = true ∧
    (let s := both 1
     let y := theBlock s
     (validTid y.seq.tids y.tidCount 63).any (fun r => passFormat y.seq.active r true && originsOk y.seq.active r (y.seq.lo 3#4) &&
      succeeds (actsFault { s with cur := .seq 2 } (.seq 2) r (y.seq.lo 3#4) (y.seq.hi 3#4) (classK y.seq.active.cls) 1) &&
      succeeds (spanRows 2 r (y.seq.lo 3#4) (y.seq.hi 3#4) (classK y.seq.active.cls)
        ([2, 9].filterMap fun k => ((ffind s.blocks k).bind (·.seq.spanned)).map fun q => (k, q)) 1 (1 - y.seq.rows) { s with cur := .seq 2 })) = true) ∧
    (ffind base.cores 1).isSome = true := by decide +kernel

/-- The block asked to stop at time 0 within 10 ns, at a safe point of its group. -/
def stopping (now : Nat) (safe : Bool) : State :=
  let q : StopReq := { who := .host 0 false, part := 0, cap := 0, at_ := 0, ns := 10, area := 0x100000#64, bytes := 0x4000#64 }
  let s := grpd base fun g => { g with th := { g.th with prevSafe := if safe then some 0#25 else none } }
  { paged s ((List.range 4).map fun k => 0x100000 + 4096 * k) with
    ns := now, blocks := fmod base.blocks 2 fun b => { b with stop := some q, run := .stopping, seq := { b.seq with ended := true } } }

theorem test_hyps_stops :
    (theBlock (stopping 11 true)).stop.any (fun q => q.late 11) = true ∧ (theBlock (stopping 10 true)).stop.any (fun q => !q.late 10) = true ∧
    setStoppable (stopping 10 true) (spanSet (stopping 10 true) 2) = true ∧ setStoppable (stopping 10 false) (spanSet (stopping 10 false) 2) = false ∧
    agentOf (.host 0 false) = some (.host 0 false) ∧ succeeds (checkArea (stopping 10 true) (.host 0 false) 0x100000 0x4000) = true := by decide +kernel

/-- The traveller on its way to core 1, and what lies at its arrival: room, a full slot, held records, no holder. -/
def arriving (f : March → March) (more : Nat) : State :=
  let s := departing 0x200 fun g => { g with place := .travelling 1 1, core := 0, seg := some 1 }
  let s := lined s 0x10000 0
  let others := (List.range more).foldl (fun gs i => fset gs (20 + i) { theGroup s with place := .resident, core := 1, block := 9 }) s.groups
  { s with groups := others, regions := fmod s.regions 1 fun r => { r with march := r.march.map f } }

theorem test_hyps_arrivals :
    (let s := arriving id 0
     (theGroup s).place = .travelling 1 1 ∧ (theGroup s).pushed = false ∧ (holderBlock s 1 1 1).isSome = true ∧ segHeld (theMarch s) 1 = false ∧
      slotsUsed s 1 1 3 < Config.arrivalSlots ∧ ((holderBlock s 1 1 1).any fun x => x.2.run != .stopped) = true) ∧
    (let s := arriving id 40
     Config.arrivalSlots ≤ slotsUsed s 1 1 3 ∧ (hwNat s (regionSpace s 1) ((theMarch s).map + 0x18) 8).isSome = true ∧ (theMarch s).parkCount = 1) ∧
    (let s := arriving (fun m => { m with held := [(0, 1, 0, true)] }) 0
     segHeld (theMarch s) 1 = true) ∧
    (let s : State := { arriving id 0 with blocks := [] }
     holderBlock s 1 1 1 = none ∧ (hwNat s (regionSpace s 1) ((theMarch s).map + 0x18) 8).isSome = true) ∧
    (let s := sent [.ack (.stub 7 3)] (arriving id 0)
     stubOpen s 3 = true ∧ stubOpen (grpd s fun g => { g with place := .parkedRecord 0 0 }) 3 = false) := by decide +kernel

/-- A parked traveller that core 1 admits: its record 0 of the parking area. -/
def parkedRec : State :=
  let s := grpd (arriving (fun m => { m with held := [(0, 1, 5, true)] }) 0) fun g => { g with place := .parkedRecord 0 5 }
  (List.range 64).foldl (fun s k => lined s (0x20000 + 128 * k) 0) s

theorem test_hyps_admissions :
    nextAdmission parkedRec 1 = some { region := 1, record := 0, seg := 1, seqNo := 5, block := 9 } ∧
    (parkedRec.groups.find? fun y => y.2.region == 1 && y.2.place == .parkedRecord 0 5).map Prod.fst = some 3 ∧
    (hwNat parkedRec (regionSpace parkedRec 1) (theMarch parkedRec).parkBase 8192).isSome = true ∧ nextAdmission base 1 = none ∧
    (∃ b ∈ (arriving id 0).blocks, b.2.region = 1 ∧ b.2.seg.isSome = true ∧ b.2.core = 1 ∧ b.2.run ≠ .retired) := by
  refine ⟨?_, ?_, ?_, ?_, ?_⟩ <;> decide +kernel

/-- A request at pseudo-channel 31 of channel group 0, under tag 7; op 1 read, 2 write, 3 masked write. -/
def requested (op : Nat) (done : Bool) (fill : Bool) (earlier : Bool) : State :=
  let r : ChanReq := { op := op, addr := 0x80, data := 5#1024, mask := 1#128, line := line0, fillFor := if fill then some (0, .nobody) else none
                       performed := if done then some (0, 5#1024) else none, order := 9 }
  let l : FMap ChanReq := if earlier then [(6, { r with op := 2, performed := none, order := 8 }), (7, r)] else [(7, r)]
  { base with chans := fset base.chans 31 { (Chan.idle) with tags := l } }

theorem test_hyps_channels :
    (∀ op ∈ [1, 2, 3], ∀ e ∈ [true, false], (ffind (chanAt (requested op false false e) 31).tags 7).any (fun r =>
      r.performed.isNone && r.op == op && r.mask != BitVec.allOnes 128 && heldBack (chanAt (requested op false false e) 31) r == e) = true) ∧
    (∀ f ∈ [true, false], (ffind (chanAt (requested 1 true f false) 31).tags 7).any (fun r =>
      r.performed.isSome && !answerHeld (chanAt (requested 1 true f false) 31) r && r.fillFor.isSome == f) = true) ∧
    (chanAt (requested 2 true false false) 31).waiting = [] := by decide +kernel

theorem test_hyps_errors :
    (let s : State := { lined base 0x1000 7 with home := fmod (lined base 0x1000 7).home line0 fun h => { h with dirty := 1#128 } }
     (ffind s.home line0).any (fun h => h.dirty != 0#128) = true) ∧
    (∀ e ∈ [true, false], let s : State := { base with copies := [(copyKey line0 0, { aCopy with excl := e, dirty := 1#128 })] }
      (ffind s.copies (copyKey line0 0)).isSome = true ∧ heldDirty s 0 line0 = e) ∧
    (theGroup base).th.run = .running ∧ (theGroup base).place = .resident ∧ 65535 < (theBlock base).spmBytes := by decide +kernel

theorem test_hyps_power :
    (∀ n ∈ [0, 92, 93, 99, 100, 109, 110], ({ temps := [n], watts := 2401 } : PowerSample).temps[0]? = some n) ∧ (ffind base.cols 0).isSome = true ∧
    (let s : State := { base with cols := fmod base.cols 0 fun c => { c with changes := [(7, 1), (6, 2)] } }
     (ffind s.cols 0).map (·.changes) = some [(7, 1), (6, 2)]) ∧
    (ffind base.cores 1).map (fun c => bitsOf c.droopThr 9 0) = some 45 ∧
    (let s := modCore base 1 fun c => { c with droopThr := 0#64 }
     (ffind s.cores 1).map (fun c => bitsOf c.droopThr 9 0) = some 0) ∧
    (let a : AutumnStep := { col := 0, setpoint := 30, mv := [1023, 1], cap := 128, beyond := true }
     let s : State := { base with pkg := { base.pkg with due := true } }
     s.pkg.due = true ∧ s.pkg.autumn = [] ∧ [a].map (·.col) = ((List.range 32).filter fun c => (ffind s.cols c).isSome) ∧ stepOk s a = true ∧ stepOk s { a with setpoint := 31 } = false ∧
      stepOk s { a with cap := 0 } = false) ∧
    true ∈ base.pkg.feeds.set 0 false ∧ true ∉ (base.pkg.feeds.set 0 false).set 1 false := by decide +kernel

/-- A boot image whose parts, but for its signature, pass: the fuses of a VMY-64P. -/
def image : BootImage :=
  { rom := [1], romOk := true, image := List.replicate 65 2, fusedDigest := [], rollback := 1, secret := [], config := []
    trainingOk := true, selfTestOk := true, linkOk := true, fusedCols := [], fusedCores := [], fusedLinks := []
    parts := [{ cols := List.range 32, asidLo := 0, asidCount := 256, twCfg := 24 + 6 * 2 ^ 8, cxlCfg := 4 * 2 ^ 8
                roots := [{ index := 4095, type := 3, rights := 0xFF#16, object := 0#64, limit := 256#64, holder := 0#64 }] }]
    hostVec := [0x8000#64], coreVec := [0x9000#64], droopMv := [1023], budgetCap := [128], capMhz := [400, 3200], profile := []
    order := 0x5034362D594D56#64, serial := 0#64, domain := 0, cxlUp := [], persistent := [], memory := [] }

/-- Boot fails without a feed or an image; it succeeds where the signature verifies, which is a free value (R500). -/
theorem test_hyps_boot :
    (samePart State.reset image = true ∧ gradeOk image = true) ∧
    (samePart { State.reset with pkg := { State.reset.pkg with fused := true, fusedLinks := [3] } } image = false ∧
      gradeOk { image with fusedCores := [5] } = false) ∧
    bootFailure [false, false] image = 1 ∧ bootFailure [true, false] { image with image := [] } = 2 ∧
    (bootVerified image = true → bootFailure [true, false] image = 0) := by
  refine ⟨by decide +kernel, by decide +kernel, by decide +kernel, by decide +kernel, fun h => ?_⟩
  have v : bootValuesOk image = true := by decide +kernel
  have p : bootPartsOk image = true := by decide +kernel
  simp [bootFailure, h, v, p]
  decide

theorem test_hyps_capacity :
    (ffind base.parts 0).isSome = true ∧ (ffind base.cxl 1).isSome = true ∧
    (∀ n ∈ [0, 1], let s := base
      let va := tableBase + dcOff (partOf s 0) 1 + 0x0B
      let h : HomeLine := { (ffind (lined base 0x1000 0).home line0).getD { data := 0#1024, col := 0, cxl := false, dirty := 0#128, w := true, poison := none, src := 0#8, coarse := false, cols := 0#32, ents := [], excl := none } with
        data := BitVec.ofNat 1024 (n * 2 ^ (8 * (va % 128))) }
      (hwNat { s with home := fset s.home (lineKey (tableTag 0) va) h } (tableSpace 0) va 1).getD 9 = n) := by decide +kernel

/-- A frame of a kind with a payload's first words. -/
def frame (kind len pay : Nat) : Nat := 1 + kind * 2 ^ 64 + len * 2 ^ 96 + pay * 2 ^ 512

/-- A frame in slot 255. -/
def framed (x : Nat) : State :=
  let l : FMap Byte := ((List.range 96).filter fun i => x / 256 ^ i % 256 != 0).map fun i => (4096 * 255 + i, BitVec.ofNat 8 (x / 256 ^ i))
  { base with pkg := { base.pkg with linkUp := true }, link := { bytes := l, owned := [255], bells := [255] } }

/-- The slot holds the frame. -/
theorem test_frame_in_slot : slotNat (framed (frame 5 8 (4 + 2 ^ 16))).link 255 0 4096 = frame 5 8 (4 + 2 ^ 16) := by decide +kernel

theorem test_hyps_frame_writes :
    (framed (frame 3 0 0)).pkg.linkUp = true ∧ 255 ∈ (framed (frame 3 0 0)).link.owned ∧ 254 ∉ (framed (frame 3 0 0)).link.owned ∧ part.pkg.linkUp = true ∧
    natOfBytes ((leBytes 8 1).take 8) ≠ 0 := by decide +kernel

/-- Frames of every kind and every operation, and those that are malformed. -/
theorem test_hyps_frames :
    (framed (frame 3 0 0)).link.bells = [255] ∧
    (∀ k ∈ [(1, 264), (2, 24), (3, 0), (4, 32)], frameBad base (frame k.1 k.2 0) = false ∧ frKind (frame k.1 k.2 0) = k.1 ∧
      frameBad base (frame k.1 (k.2 + 1) 0) = true) ∧
    (∀ n ∈ [1, 2, 3, 4, 5, 6], frameBad base (frame 5 8 n) = false ∧ frField (frame 5 8 n) 0 1 = n) ∧
    frameBad base (frame 5 8 7) = true ∧ frameBad base (frame 6 0 0) = true := by decide +kernel

theorem test_hyps_frame_clauses :
    -- LAUNCH: a packet that is allowed, one that is not, reserved bytes that are set.
    (let s : State := { base with act := fset base.act 1023 0x80#256, cols := (modQueue base 0 7 fun l => { l with cfg := 3#64 }).cols }
     let x := frame 1 264 (7 * 256)
     frField x 3 5 = 0 ∧ (admitPacket s (framePacket x) .nobody).2 = .value 0) ∧
    (admitPacket base (framePacket (frame 1 264 0)) .nobody).2 = .refused ∧ frField (frame 1 264 (2 ^ 24)) 3 5 ≠ 0 ∧
    -- COPY: lengths up to 2^24, a direction of 2, an address of the partition.
    frField (frame 2 24 (2 ^ 24 * 2 ^ 32)) 4 4 = 2 ^ 24 ∧ 2 ^ 24 < frField (frame 2 24 ((2 ^ 24 + 1) * 2 ^ 32)) 4 4 ∧ frField (frame 2 24 2) 0 1 = 2 ∧
    (let x := frame 2 24 (128 * 2 ^ 32 + 0x1000 * 2 ^ 128)
     (spaceOfLine base (lineKey (frField x 2 2) (frField x 16 8))).part = frPart x ∧ addrKind (frField x 16 8) = .plain ∧
      addrKind (frField x 16 8 + 127) = .plain) ∧
    -- MANAGE: columns and host threads that exist and that do not, a thread that runs, one that has halted.
    (ffind base.cols (frField (frame 5 8 2) 1 1)).isSome = true ∧ (ffind base.cols (frField (frame 5 8 (2 + 31 * 256)) 1 1)).isNone = true ∧
    (let x := frame 5 8 (4 + 2 ^ 16)
     frField x 2 1 = 1 ∧ ((ffind base.hosts (hostKey (frField x 1 1) (frField x 2 1 == 1))).map (·.th.run)) = some .running) ∧
    (let hs := fmod base.hosts 0 fun h => { h with th := { h.th with run := .halted } }
     ((ffind hs (hostKey (frField (frame 5 8 4) 1 1) (frField (frame 5 8 4) 2 1 == 1))).map (·.th.run)) = some .halted) := by
  refine ⟨?_, ?_, ?_, ?_, ?_, ?_, ?_, ?_, ?_, ?_, ?_⟩ <;> decide +kernel

/-- Encodings: a scalar word, a lane word with a mask word, and a matrix word, each with what its encoder gives. -/
theorem test_hyps_encodings :
    Instr.wf (.lxImm 4#5 12#6) = true ∧ spOk none = true ∧ (encode none (.lxImm 4#5 12#6)).map (fun x => (x.1, x.2.length)) = some (.scalar, 4) ∧
    Instr.wf (.lnop hd) = true ∧ spOk (some 0x0000000F0001010102005AFE#96) = true ∧ (encode (some 0x0000000F0001010102005AFE#96) (.lnop hd)).map (fun x => (x.1, x.2.length)) = some (.lane, 24) ∧
    (encode none (.lnop hd)).map (fun x => (x.1, x.2.length)) = some (.lane, 12) ∧
    Instr.wf (.mset 15#4 true 0x7FFFFFFF#31) = true ∧
    (encode none (.mset 15#4 true 0x7FFFFFFF#31)).map (fun x => (x.1, x.2.length)) = some (.matrix, 8) := by decide

/-- Registers with the ports disabled, enabled with a flit, and in a handler. -/
theorem test_hyps_registers :
    Runs base (curThread base) ∧ portsOn base = false ∧ Runs ported (curThread ported) ∧ portsOn ported = true ∧
    (curGroup ported).map (·.rx) = some [{ payload := 7#64, header := 9#64 }] ∧ (curThread base).inHandler = false ∧
    (curThread (inHandler true base)).inHandler = true ∧ (curThread (inHandler false base)).inHandler = true :=
  ⟨runs_of (by decide), by decide, runs_of (by decide), by decide, by decide, by decide, by decide, by decide⟩

/-- A turn of the group, whose word lies at its program counter, pinned, cached or in memory. -/
def turned (f : State → State) : State := { f { base with cur := .host 0 false } with sched := [.agent (.group 3)] }

/-- The group's thread at an address, with a word of code in its instruction cache. -/
def at100 (w : Word32) (s : State) : State :=
  putIcache (grpd s fun g => { g with th := { g.th with pc := 0x100#64 } }) (.group 3) 0x100 w

theorem test_hyps_step_scalar :
    (let s := turned (at100 0x88000000#32)
     let t : State := { s with sched := [], cur := .group 3 }
     canIssue t (.group 3) = true ∧ NoHeldFault t ∧ inScalarSeg t 0x100 = true ∧ (fetchUnit t (.group 3) 0x100).toOption.map Prod.snd = some 0x88000000#32 ∧
      (decodeScalar 0x88000000#32).toOption = some .nop ∧ (decodeScalar 0#32).toOption = none) ∧
    (let t : State := { turned (fun s => grpd s fun g => { g with th := { g.th with run := .done } }) with cur := .group 3 }
     canIssue t (.group 3) = false) ∧
    (let s := turned fun s => lined (grpd s fun g => { g with th := { g.th with pc := 0x180#64 } }) 0x180 0x88000000
     let t : State := { s with sched := [], cur := .group 3 }
     cachedUnit t (.group 3) 0x180 = none ∧ succeeds (loadBytes t (.group 3) 0x180 4) = true) ∧
    (let s := { marched with sched := [.agent (.group 3)] }
     inScalarSeg s 0x100 = true ∧ inScalarSeg s 0x140 = false) ∧
    (let s : State := { marched with regions := fmod marched.regions 1 fun r => { r with march := r.march.map fun m => { m with pinned := [(pinKey 0 0x100, 0x88000000#32)] } } }
     pinnedUnit s (.group 3) 0x100 = some 0x88000000#32 ∧ pinnedUnit s (.group 3) 0x104 = none) ∧
    overfull base = none := by
  refine ⟨⟨?_, by unfold NoHeldFault; decide +kernel, ?_, ?_, ?_, ?_⟩, ?_, ?_, ?_, ?_, ?_⟩ <;> decide +kernel

/-- A turn of a gang and of a sequencer, whose words lie in memory; turns of events, of time and of cycles; no turn at all. -/
theorem test_hyps_step_others :
    (let s := placeLane part 0x00C000000000000000000000
     (match s.cur with
       | .gang g k => canIssue s (.gang g k) && inLaneSeg s 0 && succeeds (fetchLane s (.gang g k) 0)
       | _ => false) = true) ∧
    (let s := placeMatrix part 0
     (match s.cur with
       | .seq b => canIssue s (.seq b) && (ffind s.blocks b).any fun x => succeeds (fetchUnits s (.seq b) x.seq.mpc.toNat 2)
       | _ => false) = true) ∧
    (nextMessage part).isNone = true ∧ (nextAgent part).isSome = true ∧ (nextMessage (sent [.ack .nobody] part)).isSome = true ∧
    (let s : State := { part with hosts := [] }
     (nextAgent s).isNone = true ∧ (nextMessage s).isNone = true ∧ (nextAnswer s).isNone = true) ∧
    -- A pending trap of a group outside a handler; a channel that holds a request.
    (let s := grpd base fun g => { g with th := { g.th with pending := some (.of cRegParity 1#32) } }
     canIssue s (.group 3) = true ∧ dueTrap s (.group 3) = some (.of cRegParity 1#32) ∧ dueTrap base (.group 3) = none) ∧
    (let r : ChanReq := { op := 1, addr := 0, line := line0, data := 0#1024, mask := 0#128, performed := none, fillFor := none, order := 0 }
     (nextAnswer { part with chans := [(0, { Chan.idle with tags := [(0, r)] })] }).isSome = true) := by decide +kernel

/-- A push to another column, not acknowledged and acknowledged. -/
def aPush (acked : Bool) : PushRec := { col := 0, home := 1, who := .stub 7 3, acked := acked }

/-- Arrivals and admissions whose pushes are under way and at home, and a push that a stub answers for. -/
theorem test_hyps_moves :
    (let s := grpd (arriving id 0) fun g => { g with moves := [1] }
     movesDone s 3 = true ∧ movesDone { s with pushes := [(1, aPush false)] } 3 = false) ∧
    (let s := grpd parkedRec fun g => { g with moves := [1] }
     (theGroup s).moves ≠ [] ∧ movesDone s 3 = true ∧ movesDone { s with pushes := [(1, aPush false)] } 3 = false) ∧
    (let s : State := { sent [.ack (.push 1)] (arriving id 0) with pushes := [(1, aPush true)] }
     (s.net.find? (·.id == 100)).map (·.kind) = some (.ack (.push 1)) ∧ stubOpen s 3 = true ∧
      stubOpen (grpd s fun g => { g with place := .parkedRecord 0 0 }) 3 = false) := by decide +kernel

/-- A region over, with a store unacknowledged, quiet, and with a push of its release under way and at home. -/
theorem test_hyps_region_release :
    (let s : State := { grpd base (fun g => { g with th := { g.th with run := .done } }) with blocks := fmod base.blocks 2 fun b => { b with run := .retired } }
     let v (acked : Bool) : State := { s with
       pushes := [(1, aPush acked)], regions := fmod s.regions 1 fun r => { r with marker := true, await := [1] } }
     regionOver s 1 (theRegion s) = true ∧ (drainGroups s (regionGroups s 1)).any (fun t => regionQuiet t 1) = true ∧
      (drainGroups (v true) (regionGroups (v true) 1)).any (fun t => regionQuiet t 1 && t.regions.all fun g => g.2.await.all (pushDone t)) = true ∧
      (drainGroups (v false) (regionGroups (v false) 1)).any (fun t => regionQuiet t 1 && !t.regions.all fun g => g.2.await.all (pushDone t)) = true ∧
      regionQuiet { s with net := [{ id := 100, kind := .ack (.grp 3) }] } 1 = false) := by decide +kernel

/-- A copy whose lines have landed and whose completion awaits pushes at home. -/
theorem test_hyps_engine_pushes :
    let s : State := { copying 1 true with pushes := [(1, aPush true)] }
    (ffind s.irecs 0).any (fun r => match landLine s 0 r with
      | .whole t => decide (r.unack = exempt t (engEnv t 0 r) r.scope) && [1].all (pushDone t)
      | _ => false) = true := by decide +kernel

/-- Gangs and sequencers past their segment; the rounds of a cache that holds too much. -/
theorem test_hyps_step_outside :
    (let s : State := { grpd marched (fun g => { g with seg := some 0 }) with cur := .gang 3 0 }
     inLaneSeg s 7 = true ∧ inLaneSeg s 8 = false) ∧
    (let x : Block := { theBlock marched with seg := some 0 }
     inMatrixSeg marched x 120 = true ∧ inMatrixSeg marched x 128 = false) := by decide +kernel

/-- A slice whose ways are all gated, and a line homed in it. -/
def gatedSlice : State :=
  let s := lined base 0x1000 7
  { s with cols := fmod s.cols 0 fun c => { c with gatedWays := List.range 8 } }

/-- A cache that holds too much. -/
theorem test_hyps_overfull : (overfull gatedSlice).isSome = true := by
  have l : sliceLines gatedSlice 0 = [(line0, 4)] := by decide +kernel
  have w : sliceWays gatedSlice 0 = 0 := by decide +kernel
  have n : ¬ (gatedSlice.home.length + gatedSlice.copies.length + gatedSlice.priv.length ≤ 16 ∧
      gatedSlice.cols.all (fun c => c.2.gatedWays.isEmpty) = true) := by decide +kernel
  have m : ∃ c ∈ gatedSlice.cols, c.1 = 0 := by decide +kernel
  obtain ⟨c, hc, hz⟩ := m
  rw [overfull, if_neg n, List.find?_isSome]
  refine ⟨{ cache := 512, room := 0, lines := [(line0, 4)] }, List.mem_flatMap.mpr ⟨c, hc, ?_⟩, by decide⟩
  simp [hz, sliceSets, l, w]

/-- Memory that is canonical, and a step that goes on. -/
theorem test_hyps_memory :
    Memory.wf State.reset.mem = true ∧ Memory.wf (Memory.write [] 0x40 5#8) = true ∧
    (match step { part with sched := [.pass 3] } with
      | .next t => Memory.wf t.mem
      | _ => false) = true := by decide +kernel

end Sys2Proof.Tests
end

section
/-! PROOF. What the words and the steps of the status registers do: reads and writes that the check of the number allows,
answers with zero, or refuses (R69, R70, R230, R231), the two clocks (R237, R238), and the writes of power and march
registers from outside (R354, R489, R505). -/

namespace Sys2Proof.Proofs

open Sys2Proof.Machine Sys2Proof.Laws

variable {s t : State} {th : Thread} {a d : Reg} {i : Instr} {srcs dsts : List Reg} {body : State → Except Exit State}
variable {n : Nat} {v : Word} {c : BitVec 8}

/-! ### Scalar words, by their body -/

/-- A word whose body gives a state goes on to it. -/
theorem does_of_scalar (hr : Runs s th) (he : exec i s = scalar s srcs dsts body) (hb : body s = .ok t) :
    Does s i srcs dsts (advance t) :=
  fun hp => he.trans (scalar_next hr hp hb)

/-- A word whose body traps without effect traps. -/
theorem traps_of_scalar (hr : Runs s th) (he : exec i s = scalar s srcs dsts body) (hb : body s = .error (trapOf c)) :
    Traps s i srcs dsts c := by
  intro hp
  rw [he, scalar_trap hr hp (hb.trans (congrArg _ (trapOf.eq_def c))), Option.getD_none]

/-- A group that runs is the current agent with its own thread. -/
theorem runs_of_group {k : Nat} {g : Group} (h : RunsGroup s k g) : Runs s g.th := by
  obtain ⟨hc, hg⟩ := h
  simp [Runs, threadOf, hc, hg]

/-! ### Reads and writes of a register, by the check of its number -/

/-- A read of a register that may be accessed is its value. -/
theorem csrRead_allowed (h : csrCheck s s.cur n = .ok true) : csrRead s n = .ok (csrValue s s.cur n) := by
  simp [csrRead, h]

/-- A write of a register that may be accessed stores it. -/
theorem csrWrite_allowed (h : csrCheck s s.cur n = .ok true) : csrWrite s n v = .ok (csrStore s s.cur n v) := by
  simp [csrWrite, h]

/-- A read where there is no register is zero. -/
theorem csrRead_absent (h : csrCheck s s.cur n = .ok false) : csrRead s n = .ok 0#64 := by simp [csrRead, h]

/-- A write where there is no register stores nothing. -/
theorem csrWrite_absent (h : csrCheck s s.cur n = .ok false) : csrWrite s n v = .ok s := by simp [csrWrite, h]

/-- A read traps with the cause of the check. -/
theorem csrRead_error (h : csrCheck s s.cur n = .error c) : csrRead s n = .error (trapOf c) := by simp [csrRead, h]

/-- A write traps with the cause of the check. -/
theorem csrWrite_error (h : csrCheck s s.cur n = .error c) : csrWrite s n v = .error (trapOf c) := by simp [csrWrite, h]

/-- `csrr` writes what the read answers. -/
theorem csrr_writes {n : BitVec 12} (hr : Runs s th) (hv : csrRead s n.toNat = .ok v) : Writes s (.csrr d n) [] d v :=
  does_of_scalar hr (exec_csrr d n s) (by rw [hv]; rfl)

/-- `csrw` leaves what the write of its source leaves. -/
theorem csrw_does {n : BitVec 12} (hr : Runs s th) (ht : csrWrite s n.toNat (rd s a) = .ok t) :
    Does s (.csrw a n) [a] [] (advance t) :=
  does_of_scalar hr (exec_csrw a n s) ht

/-- `csrs` sets the bits of its source and writes the old value; a source of x0 makes it a read (R231). -/
theorem csrs_does {n : BitVec 12} (hr : Runs s th) (hv : csrRead s n.toNat = .ok v)
    (ht : csrWrite s n.toNat (v ||| rd s a) = .ok t) :
    Does s (.csrs d a n) [a] [d] (advance (wr (if a = 0#5 then s else t) d v)) := by
  refine does_of_scalar hr (exec_csrs d a n s) ?_
  by_cases ha : a = 0#5
  · simp [hv, ha, Except.bind, Except.map]
  · simp [hv, ht, ha, Except.bind, Except.map]

/-- The three words trap with the cause of the check. -/
theorem csr_words_trap {n : BitVec 12} (hr : Runs s th) (h : csrCheck s s.cur n.toNat = .error c) :
    Traps s (.csrr d n) [] [d] c ∧ Traps s (.csrw a n) [a] [] c ∧ Traps s (.csrs d a n) [a] [d] c :=
  ⟨traps_of_scalar hr (exec_csrr d n s) (by simp [csrRead_error h, Except.map]),
    traps_of_scalar hr (exec_csrw a n s) (csrWrite_error h),
    traps_of_scalar hr (exec_csrs d a n s) (by simp [csrRead_error h, Except.bind])⟩

/-! ### Clocks (R237, R238) -/

/-- A timestamp is never below the thread's last one, nor below the package's time, and above that by one count at most
unless the last one was later. -/
theorem stampNow_bounds (hr : Runs s th) :
    th.lastTs ≤ stampNow s ∧ s.ns ≤ stampNow s ∧ stampNow s ≤ max th.lastTs (s.ns + 1) := by
  have hc : Config.choice s.freeCtr % 2 < 2 := Nat.mod_lt _ (by decide)
  rw [stampNow, curThread_eq hr]
  omega

/-- `tstamp` writes the reading and keeps it as the thread's last one. -/
theorem tstamp_does (hr : Runs s th) :
    Does s (.tstamp d) [] [d] (advance (wr
      (modCur { s with freeCtr := s.freeCtr + 1 } fun x => { x with lastTs := stampNow s }) d (BitVec.ofNat 64 (stampNow s)))) :=
  does_of_scalar hr (exec_tstamp d s) rfl

/-- `cyc` writes the cycle counter of the agent's core. -/
theorem cyc_writes (hr : Runs s th) : Writes s (.cyc d) [] d (BitVec.ofNat 64 (cycleCount s s.cur)) :=
  does_of_scalar hr (exec_cyc d s) rfl

/-! ### Writes on their own -/

/-- A write on its own that the check allows, of an agent with a thread, stores the register. -/
theorem csrStep_store (ht : threadOf s s.cur = some th) (h : csrCheck s s.cur n = .ok true) :
    csrStep s (fun s => csrWrite s n v) = .next (csrStore s s.cur n v) := by simp [csrStep, ht, csrWrite_allowed h]

/-- A write on its own that the check refuses raises its trap. -/
theorem csrStep_trap (ht : threadOf s s.cur = some th) (h : csrCheck s s.cur n = .error c) :
    csrStep s (fun s => csrWrite s n v) = .next (raiseTrap (dropRefused s s.cur) s.cur (.of c 0#32)) := by
  simp [csrStep, ht, csrWrite_error h, trapOf]

/-- FCSR may be accessed at every level. -/
theorem csrCheck_fcsr (s : State) (x : AgentId) : csrCheck s x 0x80 = .ok true := by simp [csrCheck, csrListed]

/-- A privileged register that the agent's kind of core holds may be accessed at monitor level. -/
theorem csrCheck_privileged {x : AgentId} (ht : threadOf s x = some th) (hm : th.atMonitor = true) (hn : 0x800 ≤ n)
    (hk : (if isHost x then (csrKinds n).1 else (csrKinds n).2) = true) : csrCheck s x n = .ok true := by
  have h4 : ¬ n < 0x400 := by omega
  have h8 : ¬ n < 0x800 := by omega
  simp [csrCheck, ht, hm, h4, h8, hk]

/-- Compute cores alone hold the SEG_HOT registers. -/
theorem csrKinds_segHot {m : Nat} (hm : m < 256) : csrKinds (0x900 + m) = (false, true) := by
  unfold csrKinds
  rw [if_neg (by omega), if_neg (by omega), if_pos (by omega)]

/-- A write of a SEG_HOT register by a group clears it, whatever the value (R354). -/
theorem csrStore_segHot {k m : Nat} {g : Group} (hg : RunsGroup s k g) (hm : m < 256) :
    csrStore s s.cur (0x900 + m) v = clearSegHot s g.core m := by
  obtain ⟨hc, hf⟩ := hg
  have store : csrStore s s.cur (0x900 + m) v = coreCsrWrite s g.core (0x900 + m) v := by
    unfold csrStore
    rw [if_neg (by omega), if_neg (by omega), hc]
    simp only [groupOf, Option.bind_some, hf, Option.map_some]
    rw [if_neg (by omega)]
  rw [store, coreCsrWrite, if_neg (by omega), if_neg (by omega), if_pos (by omega), Nat.add_sub_cancel_left]

/-- The clearing of SEG_HOT by a group at monitor level. -/
theorem segHotClear_next {k : Nat} {g : Group} {m : BitVec 8} (hg : RunsGroup s k g) (hm : g.th.atMonitor = true) :
    exec (.segHotClear m) s = .next (clearSegHot s g.core m.toNat) := by
  have ht : threadOf s s.cur = some g.th := (runs_of_group hg).1
  have hh : isHost s.cur = false := by rw [hg.1]; rfl
  have hk : csrCheck s s.cur (0x900 + m.toNat) = .ok true :=
    csrCheck_privileged ht hm (by omega) (by simp [hh, csrKinds_segHot m.isLt])
  rw [exec_segHotClear, execSegHotClear, csrStep_store ht hk, csrStore_segHot hg m.isLt]

/-- A privileged register of host cores may be accessed by a host thread at monitor level. -/
theorem csrCheck_host {c : Nat} {b : Bool} (ht : threadOf s s.cur = some th) (hm : th.atMonitor = true)
    (hc : s.cur = .host c b) (hn : 0x800 ≤ n) (hk : (csrKinds n).1 = true) : csrCheck s s.cur n = .ok true :=
  csrCheck_privileged ht hm hn (by simp [hc, isHost, hk])

/-- A write of HOST_CLK from outside sets the clock that the column asks for (R505). -/
theorem hostClkReqWrite_next {c : Nat} {b : Bool} {m : BitVec 16} (ht : threadOf s s.cur = some th)
    (hm : th.atMonitor = true) (hc : s.cur = .host c b) : exec (.hostClkReqWrite m) s = .next (setReqMhz s c m) := by
  have hv : (m.zeroExtend 64).extractLsb' 0 16 = m := by ext j hj; simp [hj]; omega
  have hs : csrStore s s.cur 0x80B (m.zeroExtend 64) = setReqMhz s c m := by
    rw [hc]; exact congrArg (setReqMhz s c) hv
  rw [exec_hostClkReqWrite, execHostClkReqWrite, csrStep_store ht (csrCheck_host ht hm hc (by decide) (by decide)), hs]

/-- FLOOR of a column after a write of a value: firmware holds that of a column past its bound at 4 at least (R496; log 72). -/
def heldFloor (s : State) (c v : Nat) : Nat := if s.pkg.beyond.contains c then max v 4 else v

/-- A write of COL_PWR from outside writes FLOOR alone (R489). -/
theorem colPwrFloorWrite_next {c : Nat} {b : Bool} {f : BitVec 3} (ht : threadOf s s.cur = some th)
    (hm : th.atMonitor = true) (hc : s.cur = .host c b) : exec (.colPwrFloorWrite f) s = .next (setFloor s c f.toNat) := by
  have hf : f.toNat < 8 := f.isLt
  have hv : bitsOf (f.zeroExtend 64 <<< 8) 10 8 = f.toNat := by
    simp [bitsOf, BitVec.toNat_shiftLeft, Nat.shiftLeft_eq]; omega
  have hs : csrStore s s.cur 0x809 (f.zeroExtend 64 <<< 8) = setFloor s c f.toNat := by
    rw [hc]; exact congrArg (setFloor s c) hv
  rw [exec_colPwrFloorWrite, execColPwrFloorWrite, csrStep_store ht (csrCheck_host ht hm hc (by decide) (by decide)), hs]

/-- A column whose FLOOR is written takes a floor above the level decided last as its next level (R488). -/
theorem ffind_setFloor {c v : Nat} {x : Column} (hv : v < 8) (hx : ffind s.cols c = some x) :
    ffind (setFloor s c v).cols c = some (if x.decided < heldFloor s c v then
        { x with floor := BitVec.ofNat 8 (heldFloor s c v), changes := x.changes ++ [(heldFloor s c v, 3)], cool := 0 }
      else { x with floor := BitVec.ofNat 8 (heldFloor s c v) }) := by
  have decided : ∀ w : BitVec 8, Column.decided { x with floor := w } = x.decided := fun _ => rfl
  simp only [setFloor, Nat.mod_eq_of_lt hv, ffind_fmod_same, hx, Option.map_some, decided]
  rfl

/-- Settles O17: each clause is the lemma of its word, at the check's answer that the clause names. -/
theorem statusRegisterWordsComplete : Obligations.StatusRegisterWordsComplete := by
  unfold Obligations.StatusRegisterWordsComplete
  intro s th hr d a n
  refine ⟨?allowed, ?absent, fun c h => csr_words_trap hr h, ?stamp, cyc_writes hr, ?outside, ?segHot, ?host⟩
  case allowed =>
    intro h
    exact ⟨csrr_writes hr (csrRead_allowed h), csrw_does hr (csrWrite_allowed h),
      csrs_does hr (csrRead_allowed h) (csrWrite_allowed h)⟩
  case absent =>
    intro h
    have hs := csrs_does hr (d := d) (a := a) (csrRead_absent h) (csrWrite_absent h)
    rw [ite_self] at hs
    exact ⟨csrr_writes hr (csrRead_absent h), csrw_does hr (csrWrite_absent h), hs⟩
  case stamp =>
    obtain ⟨hl, hn, hb⟩ := stampNow_bounds hr
    exact ⟨stampNow s, hl, ⟨hn, hb⟩, tstamp_does hr⟩
  case outside =>
    intro v
    exact ⟨csrStep_store hr.1, fun c => csrStep_trap hr.1, csrStep_store hr.1 (csrCheck_fcsr s s.cur)⟩
  case segHot =>
    intro hm k g m hg
    have hth : g.th = th := Option.some.inj ((runs_of_group hg).1.symm.trans hr.1)
    exact segHotClear_next hg (hth ▸ hm)
  case host =>
    intro hm c t f m hc
    exact ⟨hostClkReqWrite_next hr.1 hm hc, setFloor s c f.toNat, colPwrFloorWrite_next hr.1 hm hc,
      fun x hx => ffind_setFloor f.isLt hx⟩

end Sys2Proof.Proofs
end

section
/-! PROOF. What the lane integer words give in each active lane: the outcome of a word from its result function, and the
result functions in terms of the exact values of their sources (R245 to R252, R265). -/

namespace Sys2Proof.Proofs

open Sys2Proof.Machine Sys2Proof.Laws

variable {s : State} {h : LaneHdr} {c : LaneCx} {i : Instr} {t : ITy} {d a b : Operand}

/-! ### Lane words, by their result -/

/-- A lane word at its issue is its body, and then the next word follows. -/
theorem laneWord_issue (hr : RunsLane s h.pred h.neg c) (body : LaneCx → Except Exit State) :
    Machine.laneWord s h body = .next (settle s ((body c).map fun u => retireLane u c h.boundary)) := by
  obtain ⟨hc, hs⟩ := hr
  simp [Machine.laneWord, laneJump, hc, hs]

/-- A word of lane results gives each active lane its result, or traps where the operands fail. -/
theorem gives_of_laneOp {srcs : List Field} {dst : Field} {f : LaneCx → Nat → List Nat → Nat × FFlags}
    {r : Nat → List Nat → Nat × FFlags} (hr : RunsLane s h.pred h.neg c) (he : exec i s = laneOp s h srcs dst f)
    (hf : ∀ l v, f c l v = r l v) : LaneGives s i h c srcs dst r := by
  obtain rfl : f c = r := funext fun l => funext fun v => hf l v
  rw [laneOp, laneWord_issue hr] at he
  unfold LaneGives
  cases hp : c.plan s srcs (some dst) with
  | error x => simpa [hp, Except.map] using he
  | ok pl => simpa [hp, Except.map, LaneDone, Ends, settle] using he

/-- An integer word of one source gives what its function answers. -/
theorem gives_of_intOp1 {r : Nat → List Nat → Nat × FFlags} (f : Nat → Nat) (hr : RunsLane s h.pred h.neg c)
    (he : exec i s = intOp1 s h t d a f) (hf : ∀ l v, plainResult (f (arg v 0)) = r l v) :
    LaneGives s i h c [.int a t.width] (.int d t.width) r :=
  gives_of_laneOp hr he hf

/-- An integer word of two sources gives what its function answers. -/
theorem gives_of_intOp2 {r : Nat → List Nat → Nat × FFlags} (f : Nat → Nat → Nat) (hr : RunsLane s h.pred h.neg c)
    (he : exec i s = intOp2 s h t d a b f) (hf : ∀ l v, plainResult (f (arg v 0) (arg v 1)) = r l v) :
    LaneGives s i h c [.int a t.width, .int b t.width] (.int d t.width) r :=
  gives_of_laneOp hr he hf

/-! ### Results, from exact values (R245 to R248) -/

/-- A power of two is the same among the naturals and the integers. -/
theorem natCast_two_pow (n : Nat) : ((2 ^ n : Nat) : Int) = 2 ^ n := Int.natCast_pow 2 n

/-- Wrapping to a width is the remainder by its power of two. -/
theorem wrapBits_eq (w : Nat) (x : Int) : wrapBits w x = (x % ((2 ^ w : Nat) : Int)).toNat := by
  rw [natCast_two_pow, wrapBits]

/-- The range of an integer type is not empty. -/
theorem min_le_max (t : ITy) : ITy.min t ≤ ITy.max t := by cases t <;> decide

/-- Clamping takes the nearest value of the range. -/
theorem clampTo_eq (t : ITy) (x : Int) : clampTo t x = max (ITy.min t) (min (ITy.max t) x) := by
  have hle := min_le_max t
  unfold clampTo
  split
  case isTrue below => omega
  case isFalse => split <;> omega

/-- The high half is the exact product divided by the power of the width. -/
theorem ivMulh_eq (t : ITy) (x y : Nat) :
    ivMulh t x y = (intOf t x * intOf t y / ((2 ^ t.width : Nat) : Int) % ((2 ^ t.width : Nat) : Int)).toNat := by
  rw [ivMulh, wrapBits_eq, natCast_two_pow]

/-- An arithmetic right shift divides the signed value, by the power of the width less one at most. -/
theorem ivSra_eq (w x y : Nat) : ivSra w x y =
    ((if 2 ^ (w - 1) ≤ x then (x : Int) - ((2 ^ w : Nat) : Int) else (x : Int)) / ((2 ^ min y (w - 1) : Nat) : Int) %
      ((2 ^ w : Nat) : Int)).toNat := by
  simp only [ivSra, wrapBits_eq, natCast_two_pow]

/-- The trailing zeros of zero, too, are the place of the first bit that is set, or the width where none is. -/
theorem ivCtz_eq (w x : Nat) : ivCtz w x = ((List.range w).find? fun i => x.testBit i).getD w := by
  unfold ivCtz
  split
  case isTrue hx =>
    have none_set : (List.range w).find? (fun i => x.testBit i) = none := List.find?_eq_none.mpr (by simp [hx])
    rw [none_set, Option.getD_none]
  case isFalse => rfl

/-- Counting the bits that are set. -/
theorem ivPopc_eq (w x : Nat) : ivPopc w x = (List.range w).countP fun i => x.testBit i := List.countP_eq_length_filter.symm

/-- The bits in reverse order are the sum of the mirrored powers of two of those that are set. -/
theorem ivBrev_eq (w x : Nat) :
    ivBrev w x = ((List.range w).map fun i => if x.testBit i then 2 ^ (w - 1 - i) else 0).sum := by
  rw [List.sum_eq_foldl, List.foldl_map, ivBrev]

/-- A field of a signed type whose top bit is set is its value less the power of the field's width. -/
theorem ivBext_eq (t : ITy) (x y : Nat) : ivBext t x y =
    (let f := min (y / 2 ^ 8 % 2 ^ 7) t.width
     let v : Nat := (if y % 2 ^ 6 < t.width then x / 2 ^ (y % 2 ^ 6) else 0) % 2 ^ f
     if t.signed = true ∧ 0 < f ∧ v.testBit (f - 1) = true then
       (((v : Int) - ((2 ^ f : Nat) : Int)) % ((2 ^ t.width : Nat) : Int)).toNat
     else v) := by
  simp only [ivBext, wrapBits_eq, Bool.and_eq_true, decide_eq_true_eq, and_assoc, natCast_two_pow]

/-- Settles O34: each word is its result function, and each function the stated value. -/
theorem laneIntegerWordsGiveTheirResult : Obligations.LaneIntegerWordsGiveTheirResult := by
  unfold Obligations.LaneIntegerWordsGiveTheirResult
  intro s h c hr t u d a b e w wrap clamp one two
  have wraps (x : Int) : plainResult (wrapBits w x) = (wrap x, 0#5) := congrArg plainResult (wrapBits_eq w x)
  have clamps (x : Int) : plainResult (wrapBits w (clampTo t x)) = (wrap (clamp x), 0#5) := by rw [clampTo_eq, wraps]
  refine ⟨?vadd, ?vsub, ?vmul, ?vmulh, ?vmad, ?vabsd, ?vmin, ?vmax, ?vadds, ?vsubs, ?vand, ?vor, ?vxor, ?vandn, ?vshl, ?vshr,
    ?vsra, ?vclz, ?vctz, ?vpopc, ?vbrev, ?vbext, ?vext, ?vnrw, ?vli, ?vlid, fun ty => ⟨?vmov, fun p n => ?vsel⟩⟩
  case vadd => exact gives_of_intOp2 (ivAdd t) hr (exec_vadd ..) fun _ _ => wraps _
  case vsub => exact gives_of_intOp2 (ivSub t) hr (exec_vsub ..) fun _ _ => wraps _
  case vmul => exact gives_of_intOp2 (ivMul t) hr (exec_vmul ..) fun _ _ => wraps _
  case vmulh => exact gives_of_intOp2 (ivMulh t) hr (exec_vmulh ..) fun _ _ => congrArg plainResult (ivMulh_eq t _ _)
  case vmad => exact gives_of_laneOp hr (exec_vmad ..) fun _ _ => wraps _
  case vabsd => exact gives_of_intOp2 (ivAbsd t) hr (exec_vabsd ..) fun _ _ => rfl
  case vmin => exact gives_of_intOp2 (ivMin t) hr (exec_vmin ..) fun _ _ => wraps _
  case vmax => exact gives_of_intOp2 (ivMax t) hr (exec_vmax ..) fun _ _ => wraps _
  case vadds => exact gives_of_intOp2 (ivAdds t) hr (exec_vadds ..) fun _ _ => clamps _
  case vsubs => exact gives_of_intOp2 (ivSubs t) hr (exec_vsubs ..) fun _ _ => clamps _
  case vand => exact gives_of_intOp2 (· &&& ·) hr (exec_vand ..) fun _ _ => rfl
  case vor => exact gives_of_intOp2 (· ||| ·) hr (exec_vor ..) fun _ _ => rfl
  case vxor => exact gives_of_intOp2 (· ^^^ ·) hr (exec_vxor ..) fun _ _ => rfl
  case vandn => exact gives_of_intOp2 ivAndn hr (exec_vandn ..) fun _ _ => rfl
  case vshl => exact gives_of_intOp2 (ivShl w) hr (exec_vshl ..) fun _ _ => rfl
  case vshr => exact gives_of_intOp2 (ivShr w) hr (exec_vshr ..) fun _ _ => rfl
  case vsra => exact gives_of_intOp2 (ivSra w) hr (exec_vsra ..) fun _ _ => congrArg plainResult (ivSra_eq w _ _)
  case vclz => exact gives_of_intOp1 (ivClz w) hr (exec_vclz ..) fun _ _ => rfl
  case vctz => exact gives_of_intOp1 (ivCtz w) hr (exec_vctz ..) fun _ _ => congrArg plainResult (ivCtz_eq w _)
  case vpopc => exact gives_of_intOp1 (ivPopc w) hr (exec_vpopc ..) fun _ _ => congrArg plainResult (ivPopc_eq w _)
  case vbrev => exact gives_of_intOp1 (ivBrev w) hr (exec_vbrev ..) fun _ _ => congrArg plainResult (ivBrev_eq w _)
  case vbext => exact gives_of_intOp2 (ivBext t) hr (exec_vbext ..) fun _ _ => congrArg plainResult (ivBext_eq t _ _)
  case vext => exact gives_of_laneOp hr (exec_vext ..) fun _ _ => wraps _
  case vnrw =>
    intro sat
    cases sat with
    | false => exact gives_of_laneOp hr (exec_vnrw ..) fun _ _ => wraps _
    | true => exact gives_of_laneOp hr (exec_vnrw ..) fun _ _ => clamps _
  case vli => exact fun ty k => gives_of_laneOp hr (exec_vli ..) fun _ _ => rfl
  case vlid => exact gives_of_laneOp hr (exec_vlid ..) fun _ _ => rfl
  case vmov => exact gives_of_laneOp hr (exec_vmov ..) fun _ _ => rfl
  case vsel => exact gives_of_laneOp hr (exec_vsel ..) fun _ _ => rfl

end Sys2Proof.Proofs
end

section
/-! PROOF. What an atomic on an aligned element of the scratchpad does: the step on the element, which no check of the address,
no held fault and no release step holds up, and the value of each operation (R105, R275, R283). -/

namespace Sys2Proof.Proofs

open Sys2Proof.Machine Sys2Proof.Laws

variable {s : State} {th : Thread} {d a b : Reg} {sc : Scope} {sem : Sem} {w64 : Bool} {i : Instr} {srcs : List Reg}
variable {va : Word} {k o n w x : Nat} {blk : Block}

/-! ### Little-endian values of the local window (R5) -/

/-- The number of a list of bytes is below the power of 256 of its length. -/
theorem natOfBytes_lt (l : List Byte) : natOfBytes l < 256 ^ l.length := by
  induction l with
  | nil => exact Nat.one_pos
  | cons c t ih =>
    have hc : c.toNat < 256 := c.isLt
    have hcons : natOfBytes (c :: t) = c.toNat + 256 * natOfBytes t := rfl
    rw [hcons, List.length_cons, Nat.pow_succ]
    omega

/-- A factor of every summand is a factor of the sum. -/
theorem sum_map_mul (c : Nat) (g : Nat → Nat) (l : List Nat) : (l.map fun j => c * g j).sum = c * (l.map g).sum := by
  induction l with
  | nil => rfl
  | cons j t ih => rw [List.map_cons, List.map_cons, List.sum_cons, List.sum_cons, ih, Nat.mul_add]

/-- The number of n bytes is the sum of the bytes, each with its power of 256. -/
theorem natOfBytes_range (g : Nat → Byte) (n : Nat) :
    natOfBytes ((List.range n).map g) = ((List.range n).map fun j => (g j).toNat * 256 ^ j).sum := by
  induction n generalizing g with
  | zero => rfl
  | succ n ih =>
    have tail := ih fun j => g (j + 1)
    have hcons : natOfBytes (g 0 :: (List.range n).map fun j => g (j + 1)) =
        (g 0).toNat + 256 * natOfBytes ((List.range n).map fun j => g (j + 1)) := rfl
    have power (j : Nat) : (g (j + 1)).toNat * 256 ^ (j + 1) = 256 * ((g (j + 1)).toNat * 256 ^ j) := by
      rw [Nat.pow_succ, Nat.mul_comm (256 ^ j), Nat.mul_left_comm]
    rw [List.range_succ_eq_map, List.map_cons, List.map_cons, List.map_map, List.map_map, List.sum_cons, Nat.pow_zero, Nat.mul_one]
    simp only [Function.comp_def, Nat.succ_eq_add_one, hcons, tail, power, sum_map_mul]

/-- The model's reading of the local window is the little-endian value. -/
theorem localNat_eq (blk : Block) (o n : Nat) : localNat blk o n = localValue blk o n := natOfBytes_range _ n

/-- A value of n bytes has 8 n bits. -/
theorem localValue_lt (blk : Block) (o n : Nat) : localValue blk o n < 2 ^ (8 * n) := by
  have h := natOfBytes_lt ((List.range n).map fun j => localByte blk (o + j))
  rwa [List.length_map, List.length_range, show 256 = 2 ^ 8 from rfl, ← Nat.pow_mul, natOfBytes_range] at h

/-! ### The step on an element -/

/-- An aligned element of n bytes inside the scratchpad of the current agent's block, at an address of the local window. -/
structure ScratchElement (s : State) (va : Word) (k : Nat) (blk : Block) (o n : Nat) : Prop where
  here : Local s va k blk o
  aligned : o % n = 0
  inside : o + n ≤ blk.spmBytes

/-- The scratchpad after an element's step to a new value: an unchanged value is not written (R283). -/
def scratchStep (s : State) (k : Nat) (blk : Block) (o n new : Nat) : State :=
  if new = localValue blk o n then wakeSpm s k o n else spmWrite s k o n new (envOf s s.cur).who

/-- Where no fault is held, no observation delivers one. -/
theorem observeBytes_free (hf : NoHeldFault s) (va n : Nat) : observeBytes s va n = .ok () := by
  have none_held : ∀ q : Nat × IRec → Bool, s.irecs.find? (fun r => r.2.ownedBy s.cur && r.2.heldFault.isSome && q r) = none :=
    fun q => List.find?_eq_none.mpr fun r hr => by simp [hf r hr]
  unfold observeBytes deliverHeld
  rw [none_held fun r => decide (r.2.stampVa < va + n) && decide (va < r.2.stampVa + 8), ite_self]

/-- An offset of the local window counts from the window's base. -/
theorem eq_of_addrKind_loc {v : Nat} (h : addrKind v = .loc o) : v = localBase + o := by
  unfold addrKind at h
  split at h
  case isTrue => cases h
  case isFalse =>
    split at h
    case isTrue hb => rw [← AddrKind.loc.inj h, Nat.add_sub_cancel' hb]
    case isFalse =>
      iterate 4 (split at h; · cases h)
      cases h

/-- The local window begins at a multiple of an element's size, so that its addresses are aligned as their offsets are. -/
theorem ScratchElement.mod_eq_zero (he : ScratchElement s va k blk o n) (hn : n = 4 ∨ n = 8) : va.toNat % n = 0 := by
  obtain ⟨⟨-, -, hv⟩, ha, -⟩ := he
  rw [eq_of_addrKind_loc hv, localBase]
  obtain rfl | rfl := hn <;> omega

/-- The element lies in the window of its block. -/
theorem ScratchElement.localBlock_eq (he : ScratchElement s va k blk o n) :
    localBlock s (envOf s s.cur) o n = .ok (k, blk) := by
  obtain ⟨hk, hb, -⟩ := he.here
  have hi : o + n ≤ blk.spmBytes + 8 * blk.barCount := Nat.le_add_right_of_le he.inside
  simp [localBlock, hk, hb, hi]

/-- Every check of an atomic's address passes. -/
theorem ScratchElement.atomicCheck_eq (he : ScratchElement s va k blk o n) (hn : n = 4 ∨ n = 8) :
    atomicCheck s s.cur va.toNat n = .ok () := by
  obtain ⟨-, -, hv⟩ := he.here
  have address : addressCheck s (envOf s s.cur) va.toNat n = .ok () := by rw [addressCheck, hv]
  simp [atomicCheck, address, he.mod_eq_zero hn, hv, he.localBlock_eq, he.inside, Except.bind]

/-- An atomic step answers the old value and leaves the element's step. -/
theorem ScratchElement.atomicBytes_eq (he : ScratchElement s va k blk o n) (hn : n = 4 ∨ n = 8) (f : Nat → Nat) :
    atomicBytes s s.cur va.toNat n f =
      .ok (scratchStep s k blk o n (f (localValue blk o n) % 2 ^ (8 * n)), localValue blk o n) := by
  obtain ⟨-, -, hv⟩ := he.here
  simp [atomicBytes, he.atomicCheck_eq hn, hv, he.localBlock_eq, Except.map, localNat_eq, scratchStep]

/-- An atomic with nothing left to release writes the old value to its destination after the element's step. -/
theorem ScratchElement.atomicWord_eq (he : ScratchElement s (rd s a) k blk o n) (hw : n = if w64 then 8 else 4)
    (hf : NoHeldFault s) (hs : sem = .rel ∨ sem = .ar → releaseSteps s s.cur sc = .ok s) (f : Nat → Nat) :
    atomicWord s d a sc sem w64 f = .ok (wr (scratchStep s k blk o n (f (localValue blk o n) % 2 ^ (8 * n))) d
      (BitVec.ofNat 64 (localValue blk o n))) := by
  have hn : n = 4 ∨ n = 8 := by cases w64 <;> simp [hw]
  have released : (if semReleases sem then
      (atomicCheck s s.cur (rd s a).toNat n).bind fun _ => releaseSteps s s.cur sc else .ok s) = .ok s := by
    rw [he.atomicCheck_eq hn]
    cases sem with
    | rel => exact hs (.inl rfl)
    | ar => exact hs (.inr rfl)
    | plain | acq => rfl
  simp only [atomicWord, ← hw, observeBytes_free hf, released]
  exact congrArg (fun r => (lift 2 r).map fun r => wr r.1 d (wordOf r.2)) (he.atomicBytes_eq hn f)

/-- A word that is an atomic on the element goes on after the element's step. -/
theorem ScratchElement.does_atomic (he : ScratchElement s (rd s a) k blk o n) (hw : n = if w64 then 8 else 4) (hr : Runs s th)
    (hf : NoHeldFault s) (hs : sem = .rel ∨ sem = .ar → releaseSteps s s.cur sc = .ok s) {f : State → Nat → Nat} {new : Nat}
    (hx : exec i s = scalar s srcs [d] fun s => atomicWord s d a sc sem w64 (f s))
    (hv : f s (localValue blk o n) % 2 ^ (8 * n) = new) :
    Does s i srcs [d] (advance (wr (scratchStep s k blk o n new) d (BitVec.ofNat 64 (localValue blk o n)))) :=
  hv ▸ does_of_scalar hr hx (he.atomicWord_eq hw hf hs (f s))

/-! ### New values (R283) -/

/-- The signed value of w bits (R80). -/
def signedOf (w x : Nat) : Int := if x < 2 ^ (w - 1) then x else (x : Int) - ((2 ^ w : Nat) : Int)

/-- Atomics compare as signed values of their width. -/
theorem intOf_atomic (hw : w = 32 ∨ w = 64) (hx : x < 2 ^ w) : intOf (if w = 64 then .i64 else .i32) x = signedOf w x := by
  obtain rfl | rfl := hw
  all_goals
    simp only [intOf, signedOf, ITy.signed, ITy.width, reduceIte, Nat.reduceEqDiff, Nat.mod_eq_of_lt hx,
      Bool.true_and, decide_eq_true_eq]
    split <;> split <;> omega

/-- One of two values below a bound is below it. -/
theorem ite_mod_of_lt {p : Prop} [Decidable p] {m y : Nat} (hx : x < m) (hy : y < m) :
    (if p then y else x) % m = if p then y else x :=
  Nat.mod_eq_of_lt (by split <;> assumption)

section

/-! The new value of each operation at w bits, from an old value of w bits and the low w bits of the operand. -/

variable (hx : x < 2 ^ w) (y : Nat)
include hx

theorem amoValue_add_mod : amoValue .add w x y % 2 ^ w = (x + y % 2 ^ w) % 2 ^ w := by
  rw [amoValue, Nat.mod_mod, Nat.mod_eq_of_lt hx]

theorem amoValue_and_mod : amoValue .and w x y % 2 ^ w = x &&& y % 2 ^ w := by
  have hv : amoValue .and w x y = x % 2 ^ w &&& y % 2 ^ w := rfl
  rw [hv, Nat.mod_eq_of_lt hx, Nat.mod_eq_of_lt (Nat.and_lt_two_pow x (Nat.mod_lt y (Nat.two_pow_pos w)))]

theorem amoValue_or_mod : amoValue .or w x y % 2 ^ w = x ||| y % 2 ^ w := by
  have hv : amoValue .or w x y = x % 2 ^ w ||| y % 2 ^ w := rfl
  rw [hv, Nat.mod_eq_of_lt hx, Nat.mod_eq_of_lt (Nat.or_lt_two_pow hx (Nat.mod_lt y (Nat.two_pow_pos w)))]

theorem amoValue_xor_mod : amoValue .xor w x y % 2 ^ w = x ^^^ y % 2 ^ w := by
  have hv : amoValue .xor w x y = x % 2 ^ w ^^^ y % 2 ^ w := rfl
  rw [hv, Nat.mod_eq_of_lt hx, Nat.mod_eq_of_lt (Nat.xor_lt_two_pow hx (Nat.mod_lt y (Nat.two_pow_pos w)))]

theorem amoValue_minI_mod (hw : w = 32 ∨ w = 64) : amoValue .minI w x y % 2 ^ w =
    if signedOf w (y % 2 ^ w) < signedOf w x then y % 2 ^ w else x := by
  have hy : y % 2 ^ w < 2 ^ w := Nat.mod_lt y (Nat.two_pow_pos w)
  simp only [amoValue, Nat.mod_eq_of_lt hx, intOf_atomic hw hx, intOf_atomic hw hy, ite_mod_of_lt hx hy]

theorem amoValue_maxI_mod (hw : w = 32 ∨ w = 64) : amoValue .maxI w x y % 2 ^ w =
    if signedOf w x < signedOf w (y % 2 ^ w) then y % 2 ^ w else x := by
  have hy : y % 2 ^ w < 2 ^ w := Nat.mod_lt y (Nat.two_pow_pos w)
  simp only [amoValue, Nat.mod_eq_of_lt hx, intOf_atomic hw hx, intOf_atomic hw hy, ite_mod_of_lt hx hy]

theorem amoValue_minN_mod : amoValue .minN w x y % 2 ^ w = min x (y % 2 ^ w) := by
  have hy : y % 2 ^ w < 2 ^ w := Nat.mod_lt y (Nat.two_pow_pos w)
  simp only [amoValue, Nat.mod_eq_of_lt hx, ite_mod_of_lt hx hy]
  split <;> omega

theorem amoValue_maxN_mod : amoValue .maxN w x y % 2 ^ w = max x (y % 2 ^ w) := by
  have hy : y % 2 ^ w < 2 ^ w := Nat.mod_lt y (Nat.two_pow_pos w)
  simp only [amoValue, Nat.mod_eq_of_lt hx, ite_mod_of_lt hx hy]
  split <;> omega

theorem amoValue_fadd_mod : amoValue .fadd w x y % 2 ^ w =
    (fpAdd (if w = 64 then descF64 else descF32) .rne x (y % 2 ^ w)).1 % 2 ^ w := by
  simp only [amoValue, Nat.mod_eq_of_lt hx]

end

/-- Settles O9: each word is the element's step with the value of its operation. -/
theorem atomicsActOnTheScratchpad : Obligations.AtomicsActOnTheScratchpad := by
  unfold Obligations.AtomicsActOnTheScratchpad
  intro s th hr hf d a b sc sem w64 k blk o n hl ha ho hs old y int gives
  have he : ScratchElement s (rd s a) k blk o n := ⟨hl, ha, ho⟩
  have bits : (if w64 then 64 else 32) = 8 * n := by cases w64 <;> rfl
  have widths : 8 * n = 32 ∨ 8 * n = 64 := by cases w64 <;> simp [n]
  have hold : old < 2 ^ (8 * n) := localValue_lt blk o n
  have amo {op : AmoOp} {i : Instr} {new : Nat} (hx : exec i s = amoWord op d a b sc sem w64 s)
      (hv : amoValue op (8 * n) old (rd s b).toNat % 2 ^ (8 * n) = new) : gives i [a, b] new :=
    he.does_atomic rfl hr hf hs hx (bits ▸ hv)
  refine ⟨?swap, ?add, ?and, ?or, ?xor, ?minI, ?maxI, ?minN, ?maxN, ?fadd, ?cas⟩
  case swap => exact amo (exec_amoSwap ..) (Nat.mod_mod ..)
  case add => exact amo (exec_amoAdd ..) (amoValue_add_mod hold _)
  case and => exact amo (exec_amoAnd ..) (amoValue_and_mod hold _)
  case or => exact amo (exec_amoOr ..) (amoValue_or_mod hold _)
  case xor => exact amo (exec_amoXor ..) (amoValue_xor_mod hold _)
  case minI => exact amo (exec_amoMinI ..) (amoValue_minI_mod hold _ widths)
  case maxI => exact amo (exec_amoMaxI ..) (amoValue_maxI_mod hold _ widths)
  case minN => exact amo (exec_amoMinN ..) (amoValue_minN_mod hold _)
  case maxN => exact amo (exec_amoMaxN ..) (amoValue_maxN_mod hold _)
  case fadd =>
    have format : (if 8 * n = 64 then descF64 else descF32) = if w64 then descF64 else descF32 := by cases w64 <;> rfl
    exact amo (exec_amoFadd ..) (format ▸ amoValue_fadd_mod hold _)
  case cas =>
    have hy : y < 2 ^ (8 * n) := Nat.mod_lt _ (Nat.two_pow_pos _)
    refine he.does_atomic rfl hr hf hs (exec_cas ..) ?_
    simp only [bits]
    exact ite_mod_of_lt hold hy

end Sys2Proof.Proofs
end

section
/-! PROOF. What the matrix control words do: the outcome of a matrix word from its body, the halves of the index registers, and
the checks of branches, spans and barriers (R303, R313 to R315, R318, R319). -/

namespace Sys2Proof.Proofs

open Sys2Proof.Machine Sys2Proof.Laws

variable {s t : State} {k : Nat} {b : Block} {i : Instr} {c : BitVec 8} {body : Nat → Block → Except Exit State}

/-! ### Matrix words, by their body -/

/-- A word of a sequencer that runs is its body, given the block and its number. -/
theorem matrixJump_next (hr : RunsSeq s k b) (body : Nat → Block → Except Exit State) :
    matrixJump s body = .next (settle s (body k b)) := by
  obtain ⟨hc, hb⟩ := hr
  simp [matrixJump, hc, hb]

/-- A sequencer's word that traps without effect leaves the fault of its sequencer: no gang holds its trap up. -/
theorem settle_seq_trapOf (hc : s.cur = .seq k) (c : BitVec 8) :
    settle s (.error (trapOf c)) = endReplay s (seqFault (dropRefused s s.cur) k (.of c 0#32)) s.cur := by
  simp [settle, trapOf, hc, midWord, groupOf, unlatch, takeTrap]

/-- A word whose body sets MPC itself goes on to the state that the body gives. -/
theorem ends_of_matrixJump (hr : RunsSeq s k b) (he : exec i s = matrixJump s body) (hb : body k b = .ok t) : Ends s i t := by
  rw [Ends, he, matrixJump_next hr, hb, settle]

/-- A word whose body sets MPC itself faults where the body traps without effect. -/
theorem seqFaults_of_matrixJump (hr : RunsSeq s k b) (he : exec i s = matrixJump s body) (hb : body k b = .error (trapOf c)) :
    SeqFaults s k i c := by
  rw [SeqFaults, Ends, he, matrixJump_next hr, hb, settle_seq_trapOf hr.1]

/-- A word goes on to the state that its body gives, and the next one follows. -/
theorem seqDone_of_matrixWord (hr : RunsSeq s k b) (he : exec i s = matrixWord s body) (hb : body k b = .ok t) :
    SeqDone s k i t :=
  ends_of_matrixJump hr he (congrArg (Except.map fun t => seqNext t k) hb)

/-- A word faults where its body traps without effect. -/
theorem seqFaults_of_matrixWord (hr : RunsSeq s k b) (he : exec i s = matrixWord s body) (hb : body k b = .error (trapOf c)) :
    SeqFaults s k i c :=
  seqFaults_of_matrixJump hr he (congrArg (Except.map fun t => seqNext t k) hb)

/-- A condition that holds raises nothing. -/
theorem need_of_true {p : Bool} (h : p = true) (c : BitVec 8) : need p c = .ok () := by rw [need, if_pos h]

/-- A condition that fails raises its trap. -/
theorem need_of_not {p : Bool} (h : ¬ p = true) (c : BitVec 8) : need p c = .error (trapOf c) := by rw [need, if_neg h]

/-! ### Index registers (R303) -/

/-- Bits of a word after a field of it is replaced. -/
theorem getLsbD_setBits {w : Nat} (x : BitVec w) (lo len v n : Nat) : (setBits x lo len v).getLsbD n =
    (decide (n < w) && if lo ≤ n ∧ n < lo + len then v.testBit (n - lo) else x.getLsbD n) := by
  simp only [setBits, BitVec.getLsbD_or, BitVec.getLsbD_and, BitVec.getLsbD_not, BitVec.getLsbD_ofNat, Nat.testBit_mul_two_pow,
    Nat.testBit_two_pow_sub_one, Nat.testBit_mod_two_pow]
  by_cases hl : lo ≤ n
  · by_cases hn : n < lo + len
    · have inside : n - lo < len := by omega
      by_cases hw : n < w <;> simp [hl, hn, inside, hw]
    · have beyond : ¬ n - lo < len := by omega
      by_cases hw : n < w <;> simp [hl, hn, beyond, hw]
  · by_cases hw : n < w <;> simp [hl, hw]

/-- A field of a word, bit by bit. -/
theorem testBit_bitsOf {w : Nat} (x : BitVec w) (hi lo n : Nat) :
    (bitsOf x hi lo).testBit n = (decide (n < hi + 1 - lo) && x.getLsbD (lo + n)) := by
  simp [bitsOf, Nat.testBit_mod_two_pow, Nat.testBit_div_two_pow, BitVec.getLsbD, Nat.add_comm]

/-- A field that is replaced reads as the new value, cut to its length. -/
theorem bitsOf_setBits_same {w : Nat} (x : BitVec w) {lo len hi : Nat} (v : Nat) (hw : hi < w) (hl : hi + 1 = lo + len) :
    bitsOf (setBits x lo len v) hi lo = v % 2 ^ len := by
  refine Nat.eq_of_testBit_eq fun n => ?_
  rw [testBit_bitsOf, getLsbD_setBits, Nat.testBit_mod_two_pow]
  by_cases hn : n < len
  · simp [hn, show n < hi + 1 - lo by omega, show lo + n < w by omega]
  · simp [hn, show ¬ n < hi + 1 - lo by omega]

/-- A field apart from the one that is replaced reads as before. -/
theorem bitsOf_setBits_apart {w : Nat} (x : BitVec w) {lo len hi lo' : Nat} (v : Nat) (hw : hi < w)
    (ha : hi < lo ∨ lo + len ≤ lo') : bitsOf (setBits x lo len v) hi lo' = bitsOf x hi lo' := by
  refine Nat.eq_of_testBit_eq fun n => ?_
  rw [testBit_bitsOf, testBit_bitsOf, getLsbD_setBits]
  by_cases hn : n < hi + 1 - lo'
  · simp [hn, show lo' + n < w by omega, show ¬ (lo ≤ lo' + n ∧ lo' + n < lo + len) by omega]
  · simp [hn]

/-- The index registers after a half of one is written. -/
theorem sget_setHalf (q : Seq) (i j : BitVec 4) (hi : Bool) (v : Nat) : sget (q.setHalf i hi v).m j.toNat =
    if j = i then setBits (sget q.m i.toNat) (if hi then 32 else 0) 32 v else sget q.m j.toNat := by
  unfold Seq.setHalf
  by_cases h : j = i
  · rw [if_pos h, h, sget_sset_same]
  · rw [if_neg h, sget_sset_ne _ _ fun e => h (BitVec.eq_of_toNat_eq e)]

/-- The low halves after a half is written. -/
theorem lo_setHalf (q : Seq) (i j : BitVec 4) (hi : Bool) (v : Nat) :
    (q.setHalf i hi v).lo j = if j = i ∧ hi = false then v % 2 ^ 32 else q.lo j := by
  rw [Seq.lo, Seq.lo, sget_setHalf]
  by_cases h : j = i
  · subst h
    cases hi with
    | false => simp [bitsOf_setBits_same]
    | true => simp [bitsOf_setBits_apart]
  · simp [h]

/-- The high halves after a half is written. -/
theorem hi_setHalf (q : Seq) (i j : BitVec 4) (hi : Bool) (v : Nat) :
    (q.setHalf i hi v).hi j = if j = i ∧ hi = true then v % 2 ^ 32 else q.hi j := by
  rw [Seq.hi, Seq.hi, sget_setHalf]
  by_cases h : j = i
  · subst h
    cases hi with
    | false => simp [bitsOf_setBits_apart]
    | true => simp [bitsOf_setBits_same]
  · simp [h]

/-! ### Branches (R314) -/

/-- Where a branch of a sequencer goes. -/
def branchTarget (b : Block) (o : BitVec 32) : Word := b.seq.mpc + o.signExtend 64 * 8#64

/-- A branch target lies in the matrix range of the block's segment; outside March mode there is no such range. -/
def InMatrixRange (s : State) (b : Block) (o : BitVec 32) : Prop :=
  ∀ (g : Segment) (c : Nat) (r : Region) (m : March), b.seg = some c → ffind s.regions b.region = some r → r.march = some m →
    m.segs[c]? = some g → g.matrixLo ≤ (branchTarget b o).toNat ∧ (branchTarget b o).toNat < g.matrixHi

/-- The segment whose matrix range bounds the branches of a block. -/
def branchSegment (s : State) (b : Block) : Option Segment :=
  b.seg.bind fun n => ((ffind s.regions b.region).bind (·.march)).bind fun m => m.segs[n]?

/-- The model's check of a branch target is that it lies in the matrix range. -/
theorem branchSegment_all_iff (s : State) (b : Block) (o : BitVec 32) : ((branchSegment s b).all fun g =>
    decide (g.matrixLo ≤ (branchTarget b o).toNat) && decide ((branchTarget b o).toNat < g.matrixHi)) = true ↔
      InMatrixRange s b o := by
  simp only [Option.all_eq_true, Bool.and_eq_true, decide_eq_true_eq, branchSegment, Option.bind_eq_some_iff, InMatrixRange]
  constructor
  · exact fun h g c r m hc hr hm hg => h g ⟨c, hc, m, ⟨r, hr, hm⟩, hg⟩
  · rintro h g ⟨c, hc, m, ⟨r, hr, hm⟩, hg⟩
    exact h g c r m hc hr hm hg

/-- A branch to a target in the matrix range jumps. -/
theorem seqBranch_inside {o : BitVec 32} (h : InMatrixRange s b o) : seqBranch s k b o = .ok (seqJump s k (branchTarget b o)) :=
  congrArg (Except.map fun _ => seqJump s k (branchTarget b o)) (need_of_true ((branchSegment_all_iff s b o).2 h) cBadTarget)

/-- A branch to a target outside the matrix range traps. -/
theorem seqBranch_outside {o : BitVec 32} (h : ¬ InMatrixRange s b o) : seqBranch s k b o = .error (trapOf cBadTarget) :=
  congrArg (Except.map fun _ => seqJump s k (branchTarget b o)) (need_of_not (mt (branchSegment_all_iff s b o).1 h) cBadTarget)

/-- `mloop` takes its branch, and then one from its count, while the count stays above zero. -/
theorem mloop_branches {i : BitVec 4} (hr : RunsSeq s k b) (h : 1 < b.seq.lo i) (o : BitVec 32) : exec (.mloop i o) s =
    .next (settle s ((seqBranch s k b o).map fun t => modSeq t k fun q => q.setHalf i false (b.seq.lo i - 1))) := by
  have not_zero : ¬ b.seq.lo i = 0 := by omega
  have not_one : ¬ b.seq.lo i = 1 := by omega
  rw [exec_mloop, execMloop, matrixJump_next hr]
  simp only [if_neg not_zero, if_neg not_one]

/-! ### Spans (R318, R319) -/

/-- A partner of a block waits in a spanned step. -/
def Stranded (s : State) (k : Nat) : Prop := ∃ x ∈ spanSet s k, x ≠ k ∧ spanWaits s x = true ∧ k ∈ spanPartners s x

/-- Where no partner waits, nothing is stranded. -/
theorem strandCheck_ok (h : ¬ Stranded s k) : strandCheck s k = .ok () := by
  have none_waits : (spanSet s k).find? (fun x => x != k && spanWaits s x && (spanPartners s x).contains k) = none := by
    refine List.find?_eq_none.mpr fun x hx waits => h ⟨x, hx, ?_⟩
    simpa [and_assoc] using waits
  rw [strandCheck, none_waits]

/-- The widest span that a block's launch gives it: 1 in a March region. -/
def widestSpan (s : State) (b : Block) : Nat := if b.seg.isSome then 1 else ((ffind s.regions b.region).map spanWidth).getD 1

/-- A width and a lead that `mspn` takes. -/
def LegalSpan (s : State) (b : Block) (n : BitVec 8) (lead : BitVec 2) : Prop :=
  (n = 1#8 ∨ n = 2#8 ∨ n = 4#8) ∧ n.toNat ≤ widestSpan s b ∧ lead.toNat < n.toNat

/-- The model's check of a span is that it is legal. -/
theorem spanCheck_iff (s : State) (b : Block) (n : BitVec 8) (lead : BitVec 2) :
    ((n == 1#8 || n == 2#8 || n == 4#8) && decide (n.toNat ≤ widestSpan s b) && decide (lead.toNat < n.toNat)) = true ↔
      LegalSpan s b n lead := by
  simp only [Bool.and_eq_true, Bool.or_eq_true, beq_iff_eq, decide_eq_true_eq, or_assoc, and_assoc, LegalSpan]

/-! ### Barriers (R313) -/

/-- A barrier of the block passes the check of its number. -/
theorem seqBar_ok {n : BitVec 8} (h : n.toNat < b.barCount) : seqBar b n = .ok () := need_of_true (decide_eq_true h) _

/-- A number beyond the block's barriers traps. -/
theorem seqBar_error {n : BitVec 8} (h : b.barCount ≤ n.toNat) : seqBar b n = .error (trapOf cBarRange) :=
  need_of_not (by simpa using h) _

/-- The wait of a block's barrier has passed where the phase is not its parity. -/
theorem barPassed_eq (hb : ffind s.blocks k = some b) (n : Nat) (q : Bool) : barPassed s k n q = (barPhase (sget b.bars n) != q) := by
  simp [barPassed, hb]

/-- Settles O45: each word is its body, at the branch of its checks that the clause names. -/
theorem matrixControlWordsMoveTheSequencer : Obligations.MatrixControlWordsMoveTheSequencer := by
  unfold Obligations.MatrixControlWordsMoveTheSequencer
  intro s k b hr i j hi q v o n lead put old target inside stranded width
  refine ⟨fun x => ⟨lo_setHalf b.seq i j hi x, hi_setHalf b.seq i j hi x⟩, ?mnop, ?mset, ?madd, ?mloopZero, ?mloopOne,
    ?mloopJump, ?mloopOut, ?mjmp, ?mjmpOut, ?mend, ⟨?mspn, ?mspnIllegal⟩, fun h => ⟨?mbarrRange, ?mbwtRange⟩, ?mbarr,
    ?mbarrRefused, ?mbwt, ?mbwtWaits⟩
  case mnop => exact seqDone_of_matrixWord hr (exec_mnop s) rfl
  case mset => exact seqDone_of_matrixWord hr (exec_mset ..) rfl
  case madd => exact seqDone_of_matrixWord hr (exec_madd ..) rfl
  case mloopZero => exact fun h => ends_of_matrixJump hr (exec_mloop ..) (if_pos h)
  case mloopOne =>
    intro h
    refine ends_of_matrixJump hr (exec_mloop ..) ?_
    simp [h, put]
  case mloopJump =>
    intro h hin
    rw [Ends, mloop_branches hr h, seqBranch_inside hin]
    rfl
  case mloopOut =>
    intro h hout
    rw [SeqFaults, Ends, mloop_branches hr h, seqBranch_outside hout]
    exact congrArg _ (settle_seq_trapOf hr.1 cBadTarget)
  case mjmp => exact fun hin => ends_of_matrixJump hr (exec_mjmp o s) (seqBranch_inside hin)
  case mjmpOut => exact fun hout => seqFaults_of_matrixJump hr (exec_mjmp o s) (seqBranch_outside hout)
  case mend =>
    intro h
    refine ends_of_matrixJump hr (exec_mend s) ?_
    rw [strandCheck_ok h]
    rfl
  case mspn =>
    intro legal h
    refine seqDone_of_matrixWord hr (exec_mspn n lead s) ?_
    rw [strandCheck_ok h]
    exact congrArg (Except.bind · fun _ => .ok _) (need_of_true ((spanCheck_iff s b n lead).2 legal) cMxSpan)
  case mspnIllegal =>
    intro illegal
    refine seqFaults_of_matrixWord hr (exec_mspn n lead s) ?_
    exact congrArg (Except.bind · _) (need_of_not (mt (spanCheck_iff s b n lead).1 illegal) cMxSpan)
  case mbarrRange => exact seqFaults_of_matrixWord hr (exec_mbarr n s) (by rw [seqBar_error h]; rfl)
  case mbwtRange => exact seqFaults_of_matrixWord hr (exec_mbwt n q s) (by rw [seqBar_error h]; rfl)
  case mbarr =>
    intro h u hu
    exact seqDone_of_matrixWord hr (exec_mbarr n s) (by rw [seqBar_ok h, hu]; rfl)
  case mbarrRefused =>
    intro h e he
    exact seqFaults_of_matrixWord hr (exec_mbarr n s) (by rw [seqBar_ok h, he]; rfl)
  case mbwt =>
    intro h hp
    refine seqDone_of_matrixWord hr (exec_mbwt n q s) ?_
    rw [seqBar_ok h, barPassed_eq hr.2, if_pos (bne_iff_ne.mpr hp)]
    rfl
  case mbwtWaits =>
    intro h hp
    rw [exec_mbwt, execMbwt, matrixWord, matrixJump_next hr, seqBar_ok h, barPassed_eq hr.2, if_neg (by simpa using hp)]
    rfl

end Sys2Proof.Proofs
end
